-- ==== Sys2Proof/Word.lean ====
section
/-! DEFINITION. Word types of the Kawnor 2864: the byte of the line and of the lanes, the 16-bit fields of frames and
notices, and the 24-bit address of a memory side. -/

namespace Sys2Proof

/-- A byte on the line, in a lane FIFO or in memory (R109, R154). -/
abbrev Byte := BitVec 8

/-- A 16-bit field: frame check, label, notice number (R141, R155, R187). -/
abbrev Half := BitVec 16

/-- An address field, 000000h to FFFFFFh; next addresses step modulo 1000000h (R3, R10, R187). -/
abbrev Addr := BitVec 24

end Sys2Proof
end

