-- ==== Sys2Proof/Syntax.lean ====
section
/-! DEFINITION. The commands of the Kawnor 2864: one constructor for each row of spec/opcode_table.json, each a whole
step of the part. An order's operands are the bytes of the order table entry the executor takes (R174), so the order
rows carry none (log 1). -/

namespace Sys2Proof

/-- A command. The comment of each constructor gives its row's mnemonic and the rule of its row. -/
inductive Instr where
  /-- RESET_LOW (R185). -/
  | resetLow
  /-- RESET_RELEASE (R185), with the straps BAUD1:0 and MSIZE1:0 sampled at the release. -/
  | resetRelease (baud msize : BitVec 2)
  /-- RECEIVE_FRAME (R159): a frame with this body and these two check bytes comes in whole (log 3). -/
  | receiveFrame (body : List Byte) (check : Half)
  /-- INTER_BYTE_TIMEOUT (R157). -/
  | interByteTimeout
  /-- STOP_BIT_LOW (R158). -/
  | stopBitLow
  /-- TRANSMIT_FRAME (R168). -/
  | transmitFrame
  /-- FRAME_SENT (R168). -/
  | frameSent
  /-- LINE_LEVEL_CHANGE (R31): the synchronised level of line Xn becomes high or low. -/
  | lineLevelChange (line : Fin 4) (high : Bool)
  /-- TIMER_EXPIRY (R33). -/
  | timerExpiry (timer : Fin 4)
  /-- GRANT_ASSERTED (R93). -/
  | grantAsserted
  /-- GRANT_DEASSERTED (R96). -/
  | grantDeasserted
  /-- GRANT_WAIT_EXPIRY (R99). -/
  | grantWaitExpiry
  /-- UNIT_BOUNDARY (R69). -/
  | unitBoundary
  /-- LNSTB_ASSERTED (R111), with the byte the peripheral drives on LnD7:0. -/
  | lnstbAsserted (lane : Fin 12) (data : Byte)
  /-- LNSTB_DEASSERTED (R111). -/
  | lnstbDeasserted (lane : Fin 12)
  /-- LNACK_ASSERTED (R112). -/
  | lnackAsserted (lane : Fin 12)
  /-- LNACK_DEASSERTED (R112). -/
  | lnackDeasserted (lane : Fin 12)
  /-- UNKNOWN_ORDER (R175). -/
  | unknownOrder
  /-- DEFINE (R16). -/
  | define
  /-- INSPECT (R20). -/
  | inspect
  /-- REARM (R22). -/
  | rearm
  /-- RELEASE (R23). -/
  | release
  /-- TRIGGER (R36). -/
  | trigger
  /-- LINE_SETUP (R32). -/
  | lineSetup
  /-- TIMER_SETUP (R34). -/
  | timerSetup
  /-- TIMER_START (R35). -/
  | timerStart
  /-- TIMER_STOP (R35). -/
  | timerStop
  /-- SOURCE_STATUS (R38). -/
  | sourceStatus
  /-- SOURCE_CLEAR (R39). -/
  | sourceClear
  /-- BIND (R46). -/
  | bind
  /-- UNBIND (R49). -/
  | unbind
  /-- QUEUE_LIST (R55). -/
  | queueList
  /-- FREEZE (R79). -/
  | freeze
  /-- THAW (R83). -/
  | thaw
  /-- PEEK (R104). -/
  | peek
  /-- POKE (R105). -/
  | poke
  /-- LANE_SETUP (R119). -/
  | laneSetup
  /-- LANE_STATUS (R121). -/
  | laneStatus
  /-- CANCEL (R136). -/
  | cancel
  /-- RETRY (R134). -/
  | retry
  /-- SKIP (R135). -/
  | skip
  /-- ACKNOWLEDGE (R148). -/
  | acknowledge
  /-- RESEND (R150). -/
  | resend
  /-- HELLO (R179). -/
  | hello
  /-- CONFIGURE (R180). -/
  | configure
  /-- SUMMARY (R181). -/
  | summary
  /-- RESET_PART (R183). -/
  | resetPart
  /-- BYTE_RECEIVED (R156): a byte with a good stop bit. -/
  | byteReceived (data : Byte)
  deriving DecidableEq, Repr

end Sys2Proof
end

