-- ==== Sys2Proof/Config.lean ====
section
/-! DEFINITION. The free values: what the data book leaves open and the model does not choose. None has a body, so no
proof can see which value it is. The capacities the data book fixes (R179) stand in Machine/Ops.lean. -/

namespace Sys2Proof.Config

/-- FREE VALUE (log 6, R103): the data bits a memory byte that nobody has written holds, by its address. -/
opaque powerUpData : Nat → Byte

/-- FREE VALUE (log 6, R103): the parity bit a memory byte that nobody has written holds, by its address. -/
opaque powerUpParity : Nat → Bool

/-- FREE VALUE (log 7, R108): the data bits of a destination byte of a unit that a reset abandoned, by the state's
counter of free values. -/
opaque abandonedData : Nat → Byte

/-- FREE VALUE (log 7, R108): the parity bit of such a byte. -/
opaque abandonedParity : Nat → Bool

/-- FREE VALUE (log 9, R65, R145): whether the scheduler reacts between two placements of one drain, by the state's
counter of free values. -/
opaque drainReacts : Nat → Bool

/-- FREE VALUE (log 22, R94, R100): whether a grant seen in the moment an ASKING mover lowered its request and raised it
again is the grant of the lowered request, by the state's counter of free values. -/
opaque grantIsStale : Nat → Bool

end Sys2Proof.Config
end

