-- ==== Sys2Proof/Machine/State.lean ====
section
/-! DEFINITION. The state of the Kawnor 2864 as plain data, block by block (spec/00_scope.md section 2.2), the reasons a
step can stop, and the state right after RESET# is released. -/

namespace Sys2Proof.Machine

/-! ## Descriptors (chapter 1) -/

/-- Unit size in bytes (R3). -/
inductive UnitSize where
  | one | two | four
  deriving DecidableEq, Repr

/-- How a memory side moves from unit to unit (R7). -/
inductive Walk where
  | ascend | descend | hold
  deriving DecidableEq, Repr

/-- A memory side of a descriptor: start address and walk (R3). -/
structure Side where
  start : Addr
  walk : Walk
  deriving DecidableEq, Repr

/-- The kind of a descriptor with the fields only some kinds have; a field a kind does not use is absent (R3, R4).
Blocks are 1 to 256 units. -/
inductive Transfer where
  | capture (unit : UnitSize) (block : Nat) (fromLane : Fin 12) (sideA : Side)
  | playout (unit : UnitSize) (block : Nat) (toLane : Fin 12) (sideA : Side)
  | copy (unit : UnitSize) (block : Nat) (sideA sideB : Side)
  | relay (unit : UnitSize) (block : Nat) (fromLane toLane : Fin 12)
  | tally
  deriving DecidableEq, Repr

/-- The descriptor record (R3). Level is 1 to 6, total 1 to 65536 units. -/
structure Descriptor where
  level : Nat
  total : Nat
  transfer : Transfer
  recirculate : Bool
  endAction : Option (Fin 8)
  label : Half
  deriving DecidableEq, Repr

/-- A fault kind, with the failing byte's address for PARITY (R12, R130). -/
inductive FaultKind where
  | grantTimeout
  | parity (address : Addr)
  | laneOff
  | laneDirection
  deriving DecidableEq, Repr

/-- The progress record (R9). -/
structure Progress where
  remaining : Nat
  committed : Nat
  nextA : Option Addr
  nextB : Option Addr
  lastFault : Option FaultKind
  deriving DecidableEq, Repr

/-- The eight states of a slot that holds a descriptor (R14). -/
inductive LiveState where
  | loaded | bound | current | active | preempted | held | faulted | spent
  deriving DecidableEq, Repr

/-- A slot: FREE, with neither record nor progress, or in another state with both (R1). -/
inductive Slot where
  | free
  | live (state : LiveState) (record : Descriptor) (progress : Progress)
  deriving DecidableEq, Repr

/-! ## Trigger unit (chapter 2) -/

/-- Mode of an external line (R31). -/
inductive LineMode where
  | off | rising | falling | both | high | low
  deriving DecidableEq, Repr

/-- An external line: mode, synchronised level, reference level (R31). -/
structure Line where
  mode : LineMode
  high : Bool
  reference : Option Bool
  deriving DecidableEq, Repr

/-- Mode of an interval timer (R33). -/
inductive TimerMode where
  | periodic | single
  deriving DecidableEq, Repr

/-- An interval timer; it runs exactly while it holds a count of steps left (R33). -/
structure Timer where
  period : Nat
  mode : TimerMode
  left : Option Nat
  deriving DecidableEq, Repr

/-- The trigger unit. Counts 0 to 11 belong to the lanes, which have none: they stay 0 and are never read (R24). -/
structure TriggerUnit where
  counts : Vector Nat 28
  misses : Vector Nat 28
  lines : Vector Line 4
  timers : Vector Timer 4
  deriving DecidableEq, Repr

/-! ## Scheduler (chapters 3 and 4) -/

/-- Owner of a burst (R57). -/
inductive Owner where
  | slot (i : Fin 64)
  | link
  deriving DecidableEq, Repr

/-- The burst in hand (R57). -/
structure Burst where
  owner : Owner
  level : Nat
  moved : Nat
  block : Nat
  deriving DecidableEq, Repr

/-- An entry of the preemption stack (R74). -/
structure StackEntry where
  owner : Owner
  level : Nat
  moved : Nat
  deriving DecidableEq, Repr

/-- Freeze state (R79). -/
inductive Freeze where
  | running | freezing | frozen
  deriving DecidableEq, Repr

/-- What a link access does: a PEEK with its count and the bytes read so far, or a POKE with its data (R104, R105). -/
inductive AccessKind where
  | peek (count : Nat) (result : List Byte)
  | poke (data : List Byte)
  deriving DecidableEq, Repr

/-- The link access, from the taking of its PEEK or POKE to its end; a candidate until it first starts (R60). -/
structure LinkAccess where
  start : Addr
  kind : AccessKind
  level : Nat
  candidate : Bool
  deriving DecidableEq, Repr

/-- The scheduler. The stack is held top first (R74, R75). -/
structure Scheduler where
  queues : Vector (List (Fin 64)) 28
  burst : Option Burst
  stack : List StackEntry
  freeze : Freeze
  access : Option LinkAccess
  deriving DecidableEq, Repr

/-! ## Mover and memory (chapter 5) -/

/-- State of the mover (R85). -/
inductive MoverState where
  | idle | asking | moving | yielding
  deriving DecidableEq, Repr

/-- Operation and addresses of a unit (R87). A TALLY unit is never in progress (R90). -/
inductive UnitOp where
  | capture (fromLane : Fin 12) (a : Addr) (size : UnitSize)
  | playout (toLane : Fin 12) (a : Addr) (size : UnitSize)
  | copy (a b : Addr) (size : UnitSize)
  | relay (fromLane toLane : Fin 12) (size : UnitSize)
  | peek (a : Addr)
  | poke (a : Addr)
  deriving DecidableEq, Repr

/-- The unit in progress with its unit buffer of up to 4 bytes (R85). Its owner is the burst in hand's. -/
structure UnitInProgress where
  op : UnitOp
  buffer : List Byte
  deriving DecidableEq, Repr

/-- The mover: state, whether the request is raised, grant-wait timer, unit in progress (R85). -/
structure Mover where
  state : MoverState
  request : Bool
  timer : Option Nat
  unit : Option UnitInProgress
  deriving DecidableEq, Repr

/-- A byte of the SRAM with the parity bit stored beside it (R91). -/
structure MemByte where
  data : Byte
  parity : Bool
  deriving DecidableEq, Repr

/-- The SRAM: the bytes something has written, addresses strictly rising (`Memory.wf`). An unlisted address has no
value of its own; what it reads as is a free value (log 6). -/
abbrev Memory := List (Nat × MemByte)

/-! ## Lanes (chapter 6) -/

/-- Direction of a lane (R109). -/
inductive Direction where
  | incoming | outgoing
  deriving DecidableEq, Repr

/-- Exchange phase of a lane (R111, R112). -/
inductive Phase where
  | ready | taken | quiet | offered | releasing
  deriving DecidableEq, Repr

/-- A lane, with what its peripheral drives: a strobe with its byte, and an acknowledge (R109, R111, R112). -/
structure Lane where
  enabled : Bool
  direction : Direction
  threshold : Nat
  fifo : List Byte
  phase : Phase
  strobe : Option Byte
  ack : Bool
  deriving DecidableEq, Repr

/-! ## Notices (chapter 8) -/

/-- An END record (R124). -/
structure EndRecord where
  slot : Fin 64
  label : Half
  source : Fin 28
  committed : Nat
  nextA : Option Addr
  nextB : Option Addr
  misses : Nat
  recirculate : Bool
  deriving DecidableEq, Repr

/-- A FAULT record (R132). -/
structure FaultRecord where
  slot : Fin 64
  label : Half
  source : Fin 28
  fault : FaultKind
  committed : Nat
  misses : Nat
  deriving DecidableEq, Repr

/-- A record that can wait in the waiting-notice queue (R144). -/
inductive Record where
  | ended (r : EndRecord)
  | faulted (r : FaultRecord)
  deriving DecidableEq, Repr

/-- Reason of a RESTART notice (R142). -/
inductive ResetReason where
  | line | order
  deriving DecidableEq, Repr

/-- Kind and contents of a notice (R142). -/
inductive NoticeBody where
  | restart (reason : ResetReason) (memorySize : Nat) (revision : Byte)
  | report (r : Record)
  deriving DecidableEq, Repr

/-- A notice in the list (R141). -/
structure Notice where
  number : Half
  body : NoticeBody
  queued : Bool
  deriving DecidableEq, Repr

/-- The notice list, the waiting-notice queue and the notice transmit queue (R141, R144, R147), each oldest first. -/
structure NoticeList where
  list : List Notice
  next : Half
  waiting : List Record
  txQueue : List Half
  deriving DecidableEq, Repr

/-! ## Host link (chapter 9) -/

/-- State of the receiver, with the length, the body bytes and the first check byte taken so far (R156). -/
inductive Receiver where
  | hunt
  | length
  | body (length : Nat) (bytes : List Byte)
  | check (body : List Byte) (first : Option Byte)
  deriving DecidableEq, Repr

/-- Status of an order table entry: PENDING, with the order until the executor takes it (R174), or ANSWERED with the stored
answer (R160). -/
inductive EntryStatus where
  | pending (order : Option (List Byte))
  | answered (answer : List Byte)
  deriving DecidableEq, Repr

/-- An entry of the order table (R160). -/
structure Entry where
  number : Byte
  status : EntryStatus
  queued : Bool
  deriving DecidableEq, Repr

/-- An answer frame's number and payload (R171, R189). -/
structure Answer where
  number : Byte
  payload : List Byte
  deriving DecidableEq, Repr

/-- The kinds of frame the part sends (R154). -/
inductive FrameKind where
  | answer | notice | refusal | synced
  deriving DecidableEq, Repr

/-- A frame the part sends: kind, number byte, payload (R154). -/
structure Frame where
  kind : FrameKind
  number : Byte
  payload : List Byte
  deriving DecidableEq, Repr

/-- The link port (R156, R160, R168). Tables and queues are held oldest first. -/
structure LinkPort where
  rx : Receiver
  rxTimer : Option Nat
  expected : Byte
  table : List Entry
  refusals : List Frame
  answers : List Answer
  tx : Option Frame
  deriving DecidableEq, Repr

/-! ## Order executor (chapter 10) -/

/-- Where the order in hand stands (R174, R178): taken and not yet carried out (log 23); carried out, with nothing but its
answer's wait for room left; or held by a unit boundary, the link access, or the sending of the RESET PART answer. -/
inductive Task where
  | taken
  | carriedOut
  | cancel (slot : Fin 64)
  | freeze
  | linkAccess
  | resetPart
  deriving DecidableEq, Repr

/-- The order in hand; `waiting` is the produced answer that waits for room, so the waiting flag is set exactly while
it is present (R174, R177). -/
structure OrderInHand where
  number : Byte
  payload : List Byte
  task : Task
  waiting : Option (List Byte)
  deriving DecidableEq, Repr

/-- Straps as sampled (R92, R153) and the values CONFIGURE sets (R180). -/
structure Settings where
  baud : BitVec 2
  msize : BitVec 2
  linkLevel : Nat
  grantLimit : Nat
  deriving DecidableEq, Repr

/-! ## The whole part -/

/-- The state of the part, with the commands that wait. `lowered` says that an ASKING mover has lowered its request in
this 1 us (log 22). -/
structure State where
  pending : List Instr
  resetLow : Bool
  grant : Bool
  timePhase : Nat
  cfg : Settings
  link : LinkPort
  inHand : Option OrderInHand
  slots : Vector Slot 64
  trig : TriggerUnit
  sched : Scheduler
  mover : Mover
  lowered : Bool
  lanes : Vector Lane 12
  notes : NoticeList
  mem : Memory
  freeCount : Nat
  deriving DecidableEq, Repr

/-- Why a step stops with a fault. -/
inductive Fault where
  /-- A unit's memory access falls outside addresses 0 to S - 1. Raised by UNIT_BOUNDARY. The data book says the part
  has no address fault at run time (R92), and no run from reset reaches this; it is safe, because nothing follows it. -/
  | addressOutsideMemory (address : Nat)
  deriving DecidableEq, Repr

/-- Why a step is refused. -/
inductive Refusal where
  /-- The command has no meaning in the model. Raised by no arm of `exec`; safe. -/
  | notModelled (mnemonic : String)
  deriving DecidableEq, Repr

/-- A lane at its reset values, with what the peripheral drives (R122). -/
def Lane.atReset (strobe : Option Byte) (ack : Bool) : Lane :=
  { enabled := false, direction := .incoming, threshold := 1, fifo := [], phase := .ready, strobe := strobe, ack := ack }

/-- A line at its reset values, with its synchronised level (R40). -/
def Line.atReset (high : Bool) : Line := { mode := .off, high := high, reference := none }

/-- A timer at its reset values (R40). -/
def Timer.atReset : Timer := { period := 1, mode := .periodic, left := none }

/-- The scheduler at its reset values (R56, R84). -/
def Scheduler.atReset : Scheduler :=
  { queues := Vector.replicate 28 [], burst := none, stack := [], freeze := .running, access := none }

/-- The mover at its reset values (R108). -/
def Mover.atReset : Mover := { state := .idle, request := false, timer := none, unit := none }

/-- The link port at its reset values (R173). -/
def LinkPort.atReset : LinkPort :=
  { rx := .hunt, rxTimer := none, expected := 0, table := [], refusals := [], answers := [], tx := none }

/-- The notice list right after a reset: the RESTART notice, number 0, alone and queued (R152). -/
def NoticeList.atReset (reason : ResetReason) (memorySize : Nat) : NoticeList :=
  { list := [{ number := 0, body := .restart reason memorySize 1, queued := true }], next := 1, waiting := [],
    txQueue := [0] }

/-- The part right after RESET# is released: every block at the reset value its rule gives (R185). The straps read 00
and every input pin stands deasserted or low: DESIGN CHOICE (log 5). -/
def State.reset : State :=
  { pending := []
    resetLow := false
    grant := false
    timePhase := 0
    cfg := { baud := 0, msize := 0, linkLevel := 1, grantLimit := 1000 }
    link := LinkPort.atReset
    inHand := none
    slots := Vector.replicate 64 .free
    trig :=
      { counts := Vector.replicate 28 0
        misses := Vector.replicate 28 0
        lines := Vector.replicate 4 (Line.atReset false)
        timers := Vector.replicate 4 Timer.atReset }
    sched := Scheduler.atReset
    mover := Mover.atReset
    lowered := false
    lanes := Vector.replicate 12 (Lane.atReset none false)
    notes := NoticeList.atReset .line 131072
    mem := []
    freeCount := 0 }

end Sys2Proof.Machine
end

