-- ==== Sys2Proof/Machine/Ops.lean ====
section
/-! DEFINITION. Named operations over the state: capacities, descriptors and progress, memory, slots, sources, binding
queues, the notice list and the making of records, the answers of the executor. -/

namespace Sys2Proof.Machine

/-! ## Capacities and straps (R179, R92, R153) -/

/-- Places in a lane FIFO (R109). -/
def fifoSize : Nat := 32
/-- Places in the notice list (R141). -/
def noticePlaces : Nat := 32
/-- Entries of the order table (R160). -/
def orderTableSize : Nat := 8
/-- Places in the refusal queue (R169). -/
def refusalPlaces : Nat := 4
/-- Places in the answer queue (R170). -/
def answerPlaces : Nat := 8
/-- Revision of the part (R179). -/
def revision : Byte := 1

/-- Memory size in bytes for an MSIZE strap code (R92). -/
def memorySizeOf (code : BitVec 2) : Nat := 131072 * 2 ^ code.toNat

/-- Line rate in bit/s for a BAUD strap code (R153). -/
def lineRateOf (code : BitVec 2) : Nat := 115200 * 2 ^ code.toNat

/-- The memory size S in force (R92). -/
def State.memorySize (s : State) : Nat := memorySizeOf s.cfg.msize

/-! ## Descriptors and progress (R3 to R10) -/

def UnitSize.bytes : UnitSize → Nat
  | .one => 1
  | .two => 2
  | .four => 4

/-- Unit size, absent for a TALLY (R3). -/
def Transfer.unit? : Transfer → Option UnitSize
  | .capture u _ _ _ | .playout u _ _ _ | .copy u _ _ _ | .relay u _ _ _ => some u
  | .tally => none

/-- Largest number of units of one burst; each burst of a TALLY is one unit (R5). -/
def Transfer.block : Transfer → Nat
  | .capture _ b _ _ | .playout _ b _ _ | .copy _ b _ _ | .relay _ b _ _ => b
  | .tally => 1

def Transfer.fromLane? : Transfer → Option (Fin 12)
  | .capture _ _ n _ | .relay _ _ n _ => some n
  | .playout _ _ _ _ | .copy _ _ _ _ | .tally => none

def Transfer.toLane? : Transfer → Option (Fin 12)
  | .playout _ _ n _ | .relay _ _ _ n => some n
  | .capture _ _ _ _ | .copy _ _ _ _ | .tally => none

def Transfer.sideA? : Transfer → Option Side
  | .capture _ _ _ a | .playout _ _ _ a | .copy _ _ a _ => some a
  | .relay _ _ _ _ | .tally => none

def Transfer.sideB? : Transfer → Option Side
  | .copy _ _ _ b => some b
  | .capture _ _ _ _ | .playout _ _ _ _ | .relay _ _ _ _ | .tally => none

/-- CAPTURE, PLAYOUT and COPY use the memory port; RELAY and TALLY do not (R4, R86). -/
def Transfer.needsMemory : Transfer → Bool
  | .capture _ _ _ _ | .playout _ _ _ _ | .copy _ _ _ _ => true
  | .relay _ _ _ _ | .tally => false

/-- The lanes a descriptor names, the from-lane first, each with the direction it needs (R4, R67). -/
def Transfer.lanes : Transfer → List (Fin 12 × Direction)
  | .capture _ _ n _ => [(n, .incoming)]
  | .playout _ _ n _ => [(n, .outgoing)]
  | .relay _ _ n m => [(n, .incoming), (m, .outgoing)]
  | .copy _ _ _ _ | .tally => []

/-- Whether the descriptor names the lane as from-lane or to-lane (R118). -/
def Transfer.names (t : Transfer) (n : Fin 12) : Bool := t.lanes.any (fun p => p.1 == n)

/-- The step of a next address at a commit, modulo 1000000h (R7, R10). -/
def Walk.step (w : Walk) (unit : Nat) (a : Addr) : Addr :=
  match w with
  | .ascend => a + BitVec.ofNat 24 unit
  | .descend => a - BitVec.ofNat 24 unit
  | .hold => a

/-- Unit size in bytes as the walks step by it; a TALLY has no side to step. -/
def Transfer.unitBytes (t : Transfer) : Nat := (t.unit?.map UnitSize.bytes).getD 0

/-- The progress record at the start of an arming (R9). -/
def Descriptor.freshProgress (d : Descriptor) (fault : Option FaultKind) : Progress :=
  { remaining := d.total
    committed := 0
    nextA := d.transfer.sideA?.map Side.start
    nextB := d.transfer.sideB?.map Side.start
    lastFault := fault }

/-- A next address after a commit: present where its side is (R10). -/
def stepSide (side : Option Side) (unit : Nat) (next : Option Addr) : Option Addr :=
  match side with
  | some sd => next.map (sd.walk.step unit)
  | none => next

/-- The progress record after a commit, as one step (R10). -/
def Descriptor.commit (d : Descriptor) (p : Progress) : Progress :=
  { p with
    remaining := p.remaining - 1
    committed := p.committed + 1
    nextA := stepSide d.transfer.sideA? d.transfer.unitBytes p.nextA
    nextB := stepSide d.transfer.sideB? d.transfer.unitBytes p.nextB }

/-! ## Memory (R91, R102, R103) -/

/-- The canonical form: addresses strictly rising, so none is listed twice. -/
abbrev Memory.wf (m : Memory) : Prop := m.Pairwise (fun x y => x.1 < y.1)

/-- The listed byte at an address, if something has written it. -/
def Memory.find : Memory → Nat → Option MemByte
  | [], _ => none
  | (b, x) :: m, a => if b = a then some x else Memory.find m a

/-- Write one byte with its parity bit, keeping the canonical form (R102). -/
def Memory.put : Memory → Nat → MemByte → Memory
  | [], a, v => [(a, v)]
  | (b, x) :: m, a, v =>
    if a < b then (a, v) :: (b, x) :: m
    else if a = b then (a, v) :: m
    else (b, x) :: Memory.put m a v

/-- The byte at an address: the listed one, or a free value where nothing has written (R103, log 6). -/
def Memory.read (m : Memory) (a : Nat) : MemByte :=
  (m.find a).getD { data := Config.powerUpData a, parity := Config.powerUpParity a }

/-- The parity of the eight data bits: true when they hold an odd number of ones. -/
def oddOnes (b : Byte) : Bool :=
  b.getLsbD 0 ^^ b.getLsbD 1 ^^ b.getLsbD 2 ^^ b.getLsbD 3 ^^ b.getLsbD 4 ^^ b.getLsbD 5 ^^ b.getLsbD 6 ^^ b.getLsbD 7

/-- A byte as the mover writes it: eight data bits and parity bit together hold an odd number of ones (R102). -/
def MemByte.ofData (b : Byte) : MemByte := { data := b, parity := !oddOnes b }

/-- The check of a byte read: it fails when the nine bits hold an even number of ones (R103). -/
def MemByte.good (m : MemByte) : Bool := oddOnes m.data ^^ m.parity

/-- Write bytes at an address and the ones above it, in ascending order (R7). -/
def Memory.putBytes (m : Memory) (a : Nat) : List Byte → Memory
  | [] => m
  | b :: bs => (m.put a (MemByte.ofData b)).putBytes (a + 1) bs

/-- Read n bytes from an address upwards (R7). -/
def Memory.readBytes (m : Memory) (a : Nat) : Nat → List MemByte
  | 0 => []
  | n + 1 => m.read a :: m.readBytes (a + 1) n

/-- The lowest address whose byte fails its parity check, in a run of bytes read from address a upwards (R89). -/
def firstBad (a : Nat) : List MemByte → Option Nat
  | [] => none
  | m :: ms => if m.good then firstBad (a + 1) ms else some a

/-! ## Slots (R1, R14) -/

def State.slot (s : State) (i : Fin 64) : Slot := s.slots[i]

def State.setSlot (s : State) (i : Fin 64) (v : Slot) : State := { s with slots := s.slots.set i v }

/-- The state of a slot, none standing for FREE. -/
def Slot.state : Slot → Option LiveState
  | .free => none
  | .live st _ _ => some st

/-- The slot in another state, record and progress kept. -/
def Slot.to (st : LiveState) : Slot → Slot
  | .free => .free
  | .live _ d p => .live st d p

/-- Move a slot that holds a descriptor to another state, record and progress kept. -/
def State.setState (s : State) (i : Fin 64) (st : LiveState) : State := s.setSlot i ((s.slot i).to st)

/-- Is the slot in this state? -/
def State.inState (s : State) (i : Fin 64) (st : LiveState) : Bool := (s.slot i).state == some st

/-! ## Lanes, lines and timers by number -/

def State.lane (s : State) (n : Fin 12) : Lane := s.lanes[n]

def State.setLane (s : State) (n : Fin 12) (l : Lane) : State := { s with lanes := s.lanes.set n l }

def State.line (s : State) (n : Fin 4) : Line := s.trig.lines[n]

def State.setLine (s : State) (n : Fin 4) (l : Line) : State := { s with trig.lines := s.trig.lines.set n l }

def State.timer (s : State) (n : Fin 4) : Timer := s.trig.timers[n]

def State.setTimer (s : State) (n : Fin 4) (t : Timer) : State := { s with trig.timers := s.trig.timers.set n t }

/-! ## Sources (R24 to R30) -/

/-- What a source number names (R24). -/
inductive SourceId where
  | lane (n : Fin 12)
  | line (n : Fin 4)
  | timer (n : Fin 4)
  | soft (n : Fin 8)
  deriving DecidableEq, Repr

/-- The numbering of the sources (R24). -/
def sourceId (q : Fin 28) : SourceId :=
  if h : q.val < 12 then .lane ⟨q.val, h⟩
  else if h : q.val < 16 then .line ⟨q.val - 12, by omega⟩
  else if h : q.val < 20 then .timer ⟨q.val - 16, by omega⟩
  else .soft ⟨q.val - 20, by omega⟩

def laneSource (n : Fin 12) : Fin 28 := ⟨n.val, by omega⟩
def lineSource (n : Fin 4) : Fin 28 := ⟨12 + n.val, by omega⟩
def timerSource (n : Fin 4) : Fin 28 := ⟨16 + n.val, by omega⟩
def softSource (n : Fin 8) : Fin 28 := ⟨20 + n.val, by omega⟩

def State.count (s : State) (q : Fin 28) : Nat := s.trig.counts[q]

def State.setCount (s : State) (q : Fin 28) (c : Nat) : State := { s with trig.counts := s.trig.counts.set q c }

def State.miss (s : State) (q : Fin 28) : Nat := s.trig.misses[q]

def State.setMiss (s : State) (q : Fin 28) (c : Nat) : State := { s with trig.misses := s.trig.misses.set q c }

/-- An event at an event source: counted below 3, a miss at 3, the miss count staying at 255 (R25). -/
def State.eventAt (s : State) (q : Fin 28) : State :=
  if s.count q < 3 then s.setCount q (s.count q + 1)
  else s.setMiss q (min 255 (s.miss q + 1))

/-- Modes in which a line counts edges (R31). -/
def LineMode.isEdge : LineMode → Bool
  | .rising | .falling | .both => true
  | .off | .high | .low => false

/-- Is the source an event source now (R24)? A line in OFF mode is of neither sort. -/
def State.isEvent (s : State) (q : Fin 28) : Bool :=
  match sourceId q with
  | .lane _ => false
  | .line n => (s.line n).mode.isEdge
  | .timer _ | .soft _ => true

/-- Is the source a condition source now (R24)? -/
def State.isCondition (s : State) (q : Fin 28) : Bool :=
  match sourceId q with
  | .lane _ => true
  | .line n =>
    match (s.line n).mode with
    | .high | .low => true
    | .off | .rising | .falling | .both => false
  | .timer _ | .soft _ => false

/-- The consumption at a burst's first commit: an event source's count falls by one and stays at 0 (R28). -/
def State.consume (s : State) (q : Fin 28) : State :=
  if s.isEvent q then s.setCount q (s.count q - 1) else s

/-! ## Binding queues (R41, R42, R51 to R53) -/

def State.queue (s : State) (q : Fin 28) : List (Fin 64) := s.sched.queues[q]

def State.setQueue (s : State) (q : Fin 28) (l : List (Fin 64)) : State :=
  { s with sched.queues := s.sched.queues.set q l }

def State.setBurst (s : State) (b : Option Burst) : State := { s with sched.burst := b }

def State.setStack (s : State) (l : List StackEntry) : State := { s with sched.stack := l }

def State.setAccess (s : State) (a : Option LinkAccess) : State := { s with sched.access := a }

def State.setMover (s : State) (m : Mover) : State := { s with mover := m }

/-- The queue a slot is a member of (R41). -/
def State.queueOf (s : State) (i : Fin 64) : Option (Fin 28) :=
  (List.finRange 28).find? (fun q => (s.queue q).contains i)

/-- The source of a descriptor: the one whose queue holds it (R41). Every caller's slot is a member; 0 stands for none. -/
def State.sourceOf (s : State) (i : Fin 64) : Fin 28 := (s.queueOf i).getD 0

/-- The slot at the head, if it is BOUND, becomes CURRENT (R42, R51). -/
def State.promoteHead (s : State) (q : Fin 28) : State :=
  match s.queue q with
  | [] => s
  | h :: _ => if s.inState h .bound then s.setState h .current else s

/-- Remove the head, in the state its cause names; the member behind it becomes CURRENT (R51). -/
def State.removeHead (s : State) (q : Fin 28) (st : LiveState) : State :=
  match s.queue q with
  | [] => s
  | h :: rest => ((s.setQueue q rest).setState h st).promoteHead q

/-- Remove a BOUND member, which becomes LOADED; the members behind it move up (R52). -/
def State.removeMember (s : State) (q : Fin 28) (i : Fin 64) : State :=
  (s.setQueue q ((s.queue q).erase i)).setState i .loaded

/-- Take a slot out of its queue as LOADED, as the head or as a member (R49, R136). -/
def State.takeOut (s : State) (i : Fin 64) : State :=
  match s.queueOf i with
  | none => s
  | some q => if (s.queue q).head? = some i then s.removeHead q .loaded else s.removeMember q i

/-- Move the head to the tail: BOUND behind the others, or CURRENT if it is alone (R53). -/
def State.moveHeadToTail (s : State) (q : Fin 28) : State :=
  match s.queue q with
  | [] => s
  | h :: rest => ((s.setQueue q (rest ++ [h])).setState h .bound).promoteHead q

/-! ## Records and the notice list (R124, R125, R132, R143 to R146) -/

def Record.slot : Record → Fin 64
  | .ended r => r.slot
  | .faulted r => r.slot

/-- The waiting mark of a slot: the waiting-notice queue holds a record for it (R146). -/
def State.waitingMark (s : State) (i : Fin 64) : Bool := s.notes.waiting.any (fun r => r.slot == i)

/-- Placement: the notice takes the next number, joins the list at its newest end, and is queued (R143). -/
def State.place (s : State) (body : NoticeBody) : State :=
  { s with
    notes.list := s.notes.list ++ [{ number := s.notes.next, body := body, queued := true }]
    notes.txQueue := s.notes.txQueue ++ [s.notes.next]
    notes.next := s.notes.next + 1 }

/-- The notice list takes an offered record at once (R125). -/
def State.hasRoom (s : State) : Bool := s.notes.list.length < noticePlaces && s.notes.waiting.isEmpty

/-- A record joins the tail of the waiting-notice queue (R144). -/
def State.makeWait (s : State) (r : Record) : State := { s with notes.waiting := s.notes.waiting ++ [r] }

/-- The end action of a slot's descriptor fires (R37, R128). -/
def State.fireEndAction (s : State) (i : Fin 64) : State :=
  match s.slot i with
  | .live _ d _ =>
    match d.endAction with
    | some n => s.eventAt (softSource n)
    | none => s
  | .free => s

/-- A new arming of a slot's descriptor, its last fault kept (R9, R127). -/
def State.recirculate (s : State) (i : Fin 64) : State :=
  match s.slot i with
  | .live st d p => s.setSlot i (.live st d (d.freshProgress p.lastFault))
  | .free => s

/-- The queue change at the placement of an END record: recirculation or removal (R126, R127). -/
def State.requeue (s : State) (r : EndRecord) : State :=
  if r.recirculate then (s.recirculate r.slot).moveHeadToTail r.source else s.removeHead r.source .spent

/-- The consequences of the placement of a record: for an END, recirculation or removal and then the end action
(R126, R127, R128); for a FAULT, none (R143). -/
def State.placed (s : State) : Record → State
  | .ended r => (s.requeue r).fireEndAction r.slot
  | .faulted _ => s

/-- The miss count of a source, which the making of a record takes and clears (R30). -/
def State.clearMiss (s : State) (q : Fin 28) : State := s.setMiss q 0

/-- The END record of a slot's descriptor (R124). -/
def State.endRecord (s : State) (i : Fin 64) (d : Descriptor) (p : Progress) : EndRecord :=
  { slot := i
    label := d.label
    source := s.sourceOf i
    committed := p.committed
    nextA := p.nextA
    nextB := p.nextB
    misses := s.miss (s.sourceOf i)
    recirculate := d.recirculate }

/-- The FAULT record of a slot's descriptor (R132). -/
def State.faultRecord (s : State) (i : Fin 64) (d : Descriptor) (p : Progress) (f : FaultKind) : FaultRecord :=
  { slot := i
    label := d.label
    source := s.sourceOf i
    fault := f
    committed := p.committed
    misses := s.miss (s.sourceOf i) }

/-- Clear the burst in hand (R72). -/
def State.clearBurst (s : State) : State := s.setBurst none

/-- End processing, after the commit that brought remaining to 0 (R123): the END record is made with the misses of its
source, and is placed with its consequences, or it waits and the descriptor is HELD (R125). -/
def State.endProcessing (s : State) (i : Fin 64) : State :=
  match s.slot i with
  | .free => s.clearBurst
  | .live _ d p =>
    let r := Record.ended (s.endRecord i d p)
    let t := s.clearBurst.clearMiss (s.sourceOf i)
    if t.hasRoom then (t.place (.report r)).placed r else (t.setState i .held).makeWait r

/-- Fault processing, after a burst ended by a fault (R131): FAULTED, last fault set, the FAULT record made and offered. -/
def State.faultProcessing (s : State) (i : Fin 64) (f : FaultKind) : State :=
  match s.slot i with
  | .free => s.clearBurst
  | .live _ d p =>
    let r := Record.faulted (s.faultRecord i d p f)
    let t := (s.clearBurst.setSlot i (.live .faulted d { p with lastFault := some f })).clearMiss (s.sourceOf i)
    if t.hasRoom then t.place (.report r) else t.makeWait r

/-! ## Answers (R170, R177) -/

/-- An entry with this number takes the stored answer and the queued mark (R170). -/
def Entry.answer (number : Byte) (payload : List Byte) (e : Entry) : Entry :=
  if e.number = number then { e with status := .answered payload, queued := true } else e

/-- Number and body of an entry the executor has not taken yet (R174). -/
def Entry.untaken? (e : Entry) : Option (Byte × List Byte) :=
  match e.status with
  | .pending (some order) => some (e.number, order)
  | .pending none | .answered _ => none

/-- The entry whose order the executor has taken: it stays PENDING (R174). -/
def Entry.taken (n : Byte) (e : Entry) : Entry := if e.number = n then { e with status := .pending none } else e

/-- With no order in hand the executor takes the oldest PENDING entry it has not taken, its body out of the entry; the
order's own command then carries it out (R174, log 23). -/
def State.takeNext (s : State) : State :=
  match s.inHand, s.link.table.findSome? Entry.untaken? with
  | none, some (n, order) =>
    { s with
      link.table := s.link.table.map (Entry.taken n)
      inHand := some { number := n, payload := order, task := .taken, waiting := none } }
  | _, _ => s

/-- The answer of the order in hand is stored and queued; the order's hold ends and the executor takes its next order,
but for a RESET PART, which stays in hand until its answer has been sent (R170, R174, R177, R178). -/
def State.placeAnswer (s : State) (h : OrderInHand) (payload : List Byte) : State :=
  State.takeNext
    { s with
      link.table := s.link.table.map (Entry.answer h.number payload)
      link.answers := s.link.answers ++ [{ number := h.number, payload := payload }]
      inHand := if h.task = .resetPart then some { h with waiting := none } else none }

/-- The hold of a produced answer: every other hold has ended but a RESET PART's (R177, R178). -/
def Task.produced : Task → Task
  | .resetPart => .resetPart
  | .taken | .carriedOut | .cancel _ | .freeze | .linkAccess => .carriedOut

/-- The executor produces the answer of its order in hand: it is placed, or it waits for room, its contents fixed and
the order's effects complete (R177). -/
def State.produceAnswer (s : State) (payload : List Byte) : State :=
  match s.inHand with
  | none => s
  | some h =>
    if s.link.answers.length < answerPlaces then s.placeAnswer h payload
    else { s with inHand := some { h with task := h.task.produced, waiting := some payload } }

end Sys2Proof.Machine
end

