-- ==== Sys2Proof/Machine/Lanes.lean ====
section
/-! DEFINITION. The lanes: the peripheral exchange (R111 to R113), the lane's own part of LANE SETUP (R119), and the
mover's takes and puts (R115, R116). -/

namespace Sys2Proof.Machine

/-- Bytes in the FIFO (R109). -/
def Lane.fill (l : Lane) : Nat := l.fifo.length

/-- Free places in the FIFO (R109). -/
def Lane.room (l : Lane) : Nat := fifoSize - l.fill

/-- The lane condition (R114). -/
def Lane.condition (l : Lane) : Bool :=
  l.enabled &&
    match l.direction with
    | .incoming => l.threshold ≤ l.fill
    | .outgoing => l.threshold ≤ l.room

/-- The idle phase of a direction (R119). -/
def Direction.idlePhase : Direction → Phase
  | .incoming => .ready
  | .outgoing => .quiet

/-- One step of the exchange, as the phase, the enable, the fill and the peripheral's lines call for it: the rows of R111
for an IN lane and of R112 for an OUT lane; a disabled lane begins nothing and completes a release (R113). -/
def Lane.exchange (l : Lane) : Lane :=
  match l.direction, l.phase with
  | .incoming, .ready =>
    match l.strobe with
    | some b =>
      if l.enabled && l.fill < fifoSize then { l with fifo := l.fifo ++ [b], phase := .taken } else l
    | none => l
  | .incoming, .taken => if l.strobe.isNone then { l with phase := .ready } else l
  | .outgoing, .quiet => if l.enabled && !l.fifo.isEmpty && !l.ack then { l with phase := .offered } else l
  | .outgoing, .offered => if l.ack then { l with fifo := l.fifo.drop 1, phase := .releasing } else l
  | .outgoing, .releasing => if l.ack then l else { l with phase := .quiet }
  | .incoming, .quiet | .incoming, .offered | .incoming, .releasing | .outgoing, .ready | .outgoing, .taken => l

/-- The exchange run to rest. Two steps are enough: a release and then a new offer (R112). -/
def Lane.settle (l : Lane) : Lane := l.exchange.exchange

/-- The lane takes the new value and its exchange goes on as far as it can. -/
def State.settleLane (s : State) (n : Fin 12) (l : Lane) : State := s.setLane n l.settle

/-- The mover takes the oldest bytes of an IN lane at a commit (R115); a byte waiting at a full lane is then taken (R111),
before the later steps of the same boundary, with its tests and its selection: R111 and R117 leave the order open, so this
is the model's choice (DESIGN CHOICE, log 24). -/
def State.laneTake (s : State) (n : Fin 12) (count : Nat) : State :=
  s.settleLane n { s.lane n with fifo := (s.lane n).fifo.drop count }

/-- The mover puts bytes at the tail of an OUT lane at a commit (R116); an offer then follows (R112), which leaves the fill
as it is. -/
def State.lanePut (s : State) (n : Fin 12) (bytes : List Byte) : State :=
  s.settleLane n { s.lane n with fifo := (s.lane n).fifo ++ bytes }

/-- The bytes a LANE SETUP discards: all of them when the direction changes or the flush flag is set (R119). -/
def Lane.discards (l : Lane) (direction : Direction) (flush : Bool) : Nat :=
  if direction != l.direction || flush then l.fill else 0

/-- The exchange phase a LANE SETUP leaves (R113, R119): idle after a turn; an offer is withdrawn by a flush or a disable;
any other phase is kept and runs its release. -/
def Lane.setupPhase (l : Lane) (enabled : Bool) (direction : Direction) (flush : Bool) : Phase :=
  if direction != l.direction then direction.idlePhase
  else if l.phase == .offered && (flush || !enabled) then .quiet
  else l.phase

/-- The lane as LANE SETUP leaves it, before its exchange goes on (R119). -/
def Lane.setup (l : Lane) (enabled : Bool) (direction : Direction) (threshold : Nat) (flush : Bool) : Lane :=
  { l with
    enabled := enabled
    direction := direction
    threshold := threshold
    fifo := if direction != l.direction || flush then [] else l.fifo
    phase := l.setupPhase enabled direction flush }

end Sys2Proof.Machine
end

