-- ==== Sys2Proof/Machine/Flags.lean ====
section
/-! DEFINITION. The facts the scheduler judges afresh each time: whether a source is pending (R26, R27), whether a head is
eligible (R59), whether a lane falls short (R73), whether a lane is fit (R67), and which candidate wins (R58, R61, R63). -/

namespace Sys2Proof.Machine

/-- Is a line source pending (R31)? -/
def Line.pending (l : Line) (count : Nat) : Bool :=
  match l.mode with
  | .off => false
  | .rising | .falling | .both => 0 < count
  | .high => l.high
  | .low => !l.high

/-- Is the source pending (R27)? -/
def State.isPending (s : State) (q : Fin 28) : Bool :=
  match sourceId q with
  | .lane n => (s.lane n).condition
  | .line n => (s.line n).pending (s.count q)
  | .timer _ | .soft _ => 0 < s.count q

/-- Does the change from one synchronised level to another count as an event in this mode (R25, R31)? -/
def LineMode.counts (m : LineMode) (was now : Bool) : Bool :=
  match m with
  | .rising => !was && now
  | .falling => was && !now
  | .both => was != now
  | .off | .high | .low => false

/-- The fault a lane gives a descriptor that needs it in a direction (R67). -/
def Lane.unfit (l : Lane) (need : Direction) : Option FaultKind :=
  if !l.enabled then some .laneOff
  else if l.direction != need then some .laneDirection
  else none

/-- The fault of the first lane, in the order R67 gives, that does not fit the descriptor. -/
def State.laneFault (s : State) (t : Transfer) : Option FaultKind :=
  t.lanes.findSome? (fun p => (s.lane p.1).unfit p.2)

/-- Can this lane supply (from-lane) or take (to-lane) one unit (R59, R73)? -/
def Lane.canMove (l : Lane) (need : Direction) (unit : Nat) : Bool :=
  match need with
  | .incoming => unit ≤ l.fill
  | .outgoing => unit ≤ l.room

/-- Can the lanes of the descriptor supply and take its next unit (R73)? COPY and TALLY name none and always can. -/
def State.lanesCanMove (s : State) (t : Transfer) : Bool :=
  t.lanes.all (fun p => (s.lane p.1).canMove p.2 t.unitBytes)

/-- Eligibility of a head (R59): one that names a lane unfit for it is eligible and faults at its start. -/
def State.eligible (s : State) (t : Transfer) : Bool := (s.laneFault t).isSome || s.lanesCanMove t

/-- The candidate of a source, with its slot and level (R58). -/
def State.sourceCandidate (s : State) (q : Fin 28) : Option (Fin 64 × Nat) :=
  match s.queue q with
  | [] => none
  | h :: _ =>
    match s.slot h with
    | .live .current d _ => if s.isPending q && s.eligible d.transfer then some (h, d.level) else none
    | _ => none

/-- What a selection or a preemption check can choose (R62, R63). -/
inductive Choice where
  | link
  | source (i : Fin 64)
  | resume
  deriving DecidableEq, Repr

/-- The link access as a candidate with its level (R60). -/
def State.linkCandidate (s : State) : Option (Choice × Nat) :=
  match s.sched.access with
  | some a => if a.candidate then some (.link, a.level) else none
  | none => none

/-- The better of the winner so far and the candidate of the next source: only a strictly higher level displaces it, so
the link access goes before sources of its level and a lower source number before a higher one (R63). -/
def State.better (s : State) (won : Option (Choice × Nat)) (q : Fin 28) : Option (Choice × Nat) :=
  match s.sourceCandidate q, won with
  | none, _ => won
  | some (i, lv), none => some (.source i, lv)
  | some (i, lv), some (c, best) => if best < lv then some (.source i, lv) else some (c, best)

/-- The winning candidate with its level (R61, R63). While FROZEN no source is a candidate. -/
def State.winner (s : State) : Option (Choice × Nat) :=
  match s.sched.freeze with
  | .frozen => s.linkCandidate
  | .running | .freezing => (List.finRange 28).foldl s.better s.linkCandidate

/-- What a selection chooses, or nothing (R62 to R64). While FROZEN the link access starts past every entry it does not
outrank, and no entry is resumed. -/
def State.choose (s : State) : Option Choice :=
  match s.sched.freeze, s.winner, s.sched.stack with
  | .frozen, won, _ => won.map Prod.fst
  | _, none, [] => none
  | _, none, _ :: _ => some .resume
  | _, some (c, _), [] => some c
  | _, some (c, lv), e :: _ => if e.level < lv then some c else some .resume

/-- A candidate strictly above the burst in hand (R69 step 6, R70). -/
def State.preemptor (s : State) (b : Burst) : Option Choice :=
  match s.winner with
  | some (c, lv) => if b.level < lv then some c else none
  | none => none

end Sys2Proof.Machine
end

