-- ==== Sys2Proof/Machine/Mover.lean ====
section
/-! DEFINITION. The mover: taking up a burst (R86, R94), beginning a unit (R87), the grant protocol (R93 to R101), and
what a unit does at its end (R87 to R89). -/

namespace Sys2Proof.Machine

/-- The mover lowers its request, which stops the grant-wait timer (R95, R98). The request of an ASKING mover, lowered at
a timeout, a cut, a CANCEL or a push, is marked as lowered in this 1 us; a release after a withdrawal marks nothing
(R93, R97, R100, log 22). -/
def State.lowerRequest (s : State) : State :=
  { s with mover := { s.mover with request := false, timer := none }
           lowered := s.lowered || decide (s.mover.state = .asking) }

/-- No burst in hand and none selected: the mover is IDLE with its request lowered (R95, R97). -/
def State.rest (s : State) : State := s.setMover Mover.atReset

/-- The mover goes into another state. -/
def State.goes (s : State) (m : MoverState) : State := s.setMover { s.mover with state := m }

/-- With the request lowered, the mover asks for a memory burst: it raises the request and starts the grant-wait timer,
or, while the grant is still seen asserted, waits in the release phase of YIELDING (R86, R93, R94, R97). -/
def State.ask (s : State) : State :=
  if s.grant then s.goes .yielding
  else s.setMover { s.mover with state := .asking, request := true, timer := some s.cfg.grantLimit }

/-- A unit is begun: it is in progress and the mover is MOVING, the grant-wait timer stopped (R87, R93). -/
def State.beginUnit (s : State) (op : UnitOp) (buffer : List Byte) : State :=
  s.setMover { s.mover with state := .moving, timer := none, unit := some { op := op, buffer := buffer } }

/-- The burst in hand ends with its descriptor CURRENT: block count, lane shortfall or freeze cut (R72). -/
def State.endCurrent (s : State) (i : Fin 64) : State := (s.clearBurst).setState i .current

/-- The commit's part for the descriptor: its progress by one step, moved by one, and at the burst's first commit the
consumption (R10, R28, R88). -/
def State.commitProgress (s : State) (i : Fin 64) (d : Descriptor) (p : Progress) (b : Burst) : State :=
  let t := (s.setSlot i (.live .active d (d.commit p))).setBurst (some { b with moved := b.moved + 1 })
  if b.moved = 0 then t.consume (t.sourceOf i) else t

/-- A TALLY unit is committed as it is begun, and its burst of one unit ends: by end processing, or CURRENT
(R69, R87, R90). -/
def State.tallyUnit (s : State) (i : Fin 64) (d : Descriptor) (p : Progress) (b : Burst) : State :=
  let t := s.commitProgress i d p b
  if (d.commit p).remaining = 0 then t.endProcessing i else t.endCurrent i

/-- The address of byte k of a link access (R104, R105). -/
def LinkAccess.address (a : LinkAccess) (k : Nat) : Addr := a.start + BitVec.ofNat 24 k

/-- Begin the next unit of the burst in hand, subject to the shortfall test for its lanes (R73, R87, R93). -/
def State.beginNext (s : State) : State :=
  match s.sched.burst with
  | none => s
  | some b =>
    match b.owner with
    | .link =>
      match s.sched.access with
      | none => s.clearBurst
      | some a =>
        match a.kind with
        | .peek _ _ => s.beginUnit (.peek (a.address b.moved)) []
        | .poke data => s.beginUnit (.poke (a.address b.moved)) ((data.drop b.moved).take 1)
    | .slot i =>
      match s.slot i with
      | .live .active d p =>
        if s.lanesCanMove d.transfer then
          match d.transfer with
          | .capture u _ n a => s.beginUnit (.capture n (p.nextA.getD a.start) u) ((s.lane n).fifo.take u.bytes)
          | .playout u _ n a => s.beginUnit (.playout n (p.nextA.getD a.start) u) []
          | .copy u _ a c => s.beginUnit (.copy (p.nextA.getD a.start) (p.nextB.getD c.start) u) []
          | .relay u _ n m => s.beginUnit (.relay n m u) ((s.lane n).fifo.take u.bytes)
          | .tally => (s.goes .moving).tallyUnit i d p b
        else (s.goes .moving).endCurrent i
      | _ => s.clearBurst

/-- Does the burst in hand need memory (R86)? -/
def State.burstNeedsMemory (s : State) (b : Burst) : Bool :=
  match b.owner with
  | .link => true
  | .slot i =>
    match s.slot i with
    | .live _ d _ => d.transfer.needsMemory
    | .free => false

/-- The mover takes up a burst handed to it (R86): a memory burst goes on under the grant held, restarts the timer of a
request not yet granted, or asks; another burst lowers the request and begins its first unit. -/
def State.takeUp (s : State) : State :=
  match s.sched.burst with
  | none => s
  | some b =>
    if s.burstNeedsMemory b then
      if s.mover.request then
        if s.mover.state = .asking then s.setMover { s.mover with timer := some s.cfg.grantLimit } else s.beginNext
      else s.ask
    else (s.lowerRequest.goes .moving).beginNext

/-! ## The end of a unit (R87 to R89) -/

def State.setMem (s : State) (m : Memory) : State := { s with mem := m }

/-- How a unit ended: its data moved, in this state; a failed parity check at this address; or an access outside the
memory, which no run reaches (log 15). -/
inductive UnitEnd where
  | moved (s : State)
  | failed (address : Addr)
  | outside (address : Nat)
  deriving DecidableEq, Repr

/-- Read n bytes at an address with their checks (R89, R103). -/
def State.readUnit (s : State) (a : Addr) (n : Nat) (move : List Byte → State) : UnitEnd :=
  if s.memorySize < a.toNat + n then .outside a.toNat
  else
    let bytes := s.mem.readBytes a.toNat n
    match firstBad a.toNat bytes with
    | some bad => .failed (BitVec.ofNat 24 bad)
    | none => .moved (move (bytes.map MemByte.data))

/-- Write bytes at an address, each with its parity bit (R102). -/
def State.writeUnit (s : State) (a : Addr) (bytes : List Byte) : UnitEnd :=
  if s.memorySize < a.toNat + bytes.length then .outside a.toNat
  else .moved (s.setMem (s.mem.putBytes a.toNat bytes))

/-- A byte read joins the PEEK's result (R87, R106). -/
def State.peekResult (s : State) (bytes : List Byte) : State :=
  match s.sched.access with
  | some a =>
    match a.kind with
    | .peek n result => s.setAccess (some { a with kind := .peek n (result ++ bytes) })
    | .poke _ => s
  | none => s

/-- The lane and memory effects of a unit, as one step at its end (R87, R115, R116). A lane's exchange goes on in the same
step, before the boundary's tests and selection (DESIGN CHOICE, log 24). -/
def State.performUnit (s : State) (u : UnitInProgress) : UnitEnd :=
  match u.op with
  | .capture n a size =>
    match s.writeUnit a u.buffer with
    | .moved t => .moved (t.laneTake n size.bytes)
    | e => e
  | .playout n a size => s.readUnit a size.bytes (s.lanePut n)
  | .copy a b size =>
    if s.memorySize < b.toNat + size.bytes then .outside b.toNat
    else s.readUnit a size.bytes (fun bytes => s.setMem (s.mem.putBytes b.toNat bytes))
  | .relay n m size => .moved ((s.laneTake n size.bytes).lanePut m u.buffer)
  | .peek a => s.readUnit a 1 s.peekResult
  | .poke a => s.writeUnit a u.buffer

/-! ## A reset while a unit is in progress (R108) -/

/-- Leave n bytes from an address with free values (R108, log 7). -/
def Memory.scramble (m : Memory) (a k : Nat) : Nat → Memory
  | 0 => m
  | n + 1 =>
    (m.put a { data := Config.abandonedData k, parity := Config.abandonedParity k }).scramble (a + 1) (k + 1) n

/-- The destination of a unit in memory, if it may have been writing when it was abandoned: a COPY writes only if every
byte it reads passes its check (R87, R108). -/
def State.destination (s : State) (u : UnitInProgress) : Option (Nat × Nat) :=
  match u.op with
  | .capture _ a size => some (a.toNat, size.bytes)
  | .copy a b size => if (firstBad a.toNat (s.mem.readBytes a.toNat size.bytes)).isNone then some (b.toNat, size.bytes) else none
  | .poke a => some (a.toNat, 1)
  | .playout _ _ _ | .relay _ _ _ | .peek _ => none

/-- A unit in progress is abandoned: it commits nothing, and the bytes it was writing are left undefined (R108). -/
def State.abandonUnit (s : State) : State :=
  match s.mover.unit with
  | none => s
  | some u =>
    let t := s.setMover { s.mover with unit := none }
    match s.destination u with
    | some (a, n) => { t with mem := s.mem.scramble a s.freeCount n, freeCount := s.freeCount + n }
    | none => t

end Sys2Proof.Machine
end

