-- ==== Sys2Proof/Machine/Schedule.lean ====
section
/-! DEFINITION. The scheduler: starting, pushing and resuming bursts (R64, R66 to R68, R74, R76), the selection run to
rest (R62 to R65), the preemption check (R69 step 6, R70), and the boundary sequence (R69). -/

namespace Sys2Proof.Machine

/-- A descriptor burst starts: the head is ACTIVE with a new burst in hand, its lanes are checked, and it is handed to the
mover; a lane fault ends it at once as a burst that needs no memory (R66, R67). -/
def State.startBurst (s : State) (i : Fin 64) : State :=
  match s.slot i with
  | .free => s
  | .live _ d p =>
    let t := (s.setSlot i (.live .active d p)).setBurst
      (some { owner := .slot i, level := d.level, moved := 0, block := d.transfer.block })
    match t.laneFault d.transfer with
    | some f => t.lowerRequest.faultProcessing i f
    | none => t.takeUp

/-- Length of a link access in bytes, its block (R57, R68). -/
def AccessKind.length : AccessKind → Nat
  | .peek n _ => n
  | .poke data => data.length

/-- While FROZEN, the entries the link access does not outrank are resumed and cut at once, top first: each descriptor
becomes CURRENT and its entry is gone (R64). -/
def State.cutAbove (s : State) (level : Nat) : List StackEntry → State
  | [] => s.setStack []
  | e :: rest =>
    if e.level < level then s.setStack (e :: rest)
    else
      match e.owner with
      | .slot i => (s.setState i .current).cutAbove level rest
      | .link => s.cutAbove level rest

/-- The link access starts (R68), while FROZEN past the entries it does not outrank (R64). -/
def State.startLink (s : State) : State :=
  match s.sched.access with
  | none => s
  | some a =>
    let t := if s.sched.freeze = .frozen then s.cutAbove a.level s.sched.stack else s
    ((t.setAccess (some { a with candidate := false })).setBurst
      (some { owner := .link, level := a.level, moved := 0, block := a.kind.length })).takeUp

/-- The block of a burst's owner, taken up again at a resumption (R74, R76). -/
def State.blockOf (s : State) : Owner → Nat
  | .slot i =>
    match s.slot i with
    | .live _ d _ => d.transfer.block
    | .free => 0
  | .link => (s.sched.access.map (fun a => a.kind.length)).getD 0

/-- The stack top is popped and resumed without the lane check (R76). -/
def State.resume (s : State) : State :=
  match s.sched.stack with
  | [] => s
  | e :: rest =>
    let t := match e.owner with
      | .slot i => s.setState i .active
      | .link => s
    ((t.setStack rest).setBurst
      (some { owner := e.owner, level := e.level, moved := e.moved, block := s.blockOf e.owner })).takeUp

/-- Carry out a choice (R63). -/
def State.perform (s : State) : Choice → State
  | .link => s.startLink
  | .source i => s.startBurst i
  | .resume => s.resume

/-- Selections until a burst stays in hand or nothing is left to choose (R62, R65): a burst that ends where it starts (a
lane fault, a TALLY unit, a shortfall at a resumption) is followed by the next selection. -/
def selection : Nat → State → State
  | 0, s => if s.sched.burst.isSome then s else s.rest
  | n + 1, s =>
    match s.sched.burst with
    | some _ => s
    | none =>
      match s.choose with
      | none => s.rest
      | some c => selection n (s.perform c)

/-- Bound on the selections of one step. Each one commits a TALLY unit, makes a record, pops an entry or stays in hand,
so from the states a run reaches fewer than 2^23 follow one another (log 10). -/
def selectionBound : Nat := 2 ^ 24

/-- The selection that follows the end of a burst (R65). -/
def State.select (s : State) : State := selection selectionBound s

/-- The burst in hand is set aside on the stack (R74). -/
def State.push (s : State) (b : Burst) : State :=
  let t := match b.owner with
    | .slot i => s.setState i .preempted
    | .link => s
  (t.setBurst none).setStack ({ owner := b.owner, level := b.level, moved := b.moved } :: s.sched.stack)

/-- The scheduler's reaction to an event: a selection when no burst is in hand, and a preemption check when the burst in
hand has no unit in progress (R62, R70). -/
def State.react (s : State) : State :=
  match s.sched.burst with
  | none => s.select
  | some b =>
    if s.mover.unit.isSome then s
    else
      match s.preemptor b with
      | some c => ((s.push b).perform c).select
      | none => s

/-! ## Answers at the end of a held order (R138, R80, R106) -/

/-- A number in three bytes, least significant first (R187). -/
def le3 (n : Nat) : List Byte := [BitVec.ofNat 8 n, BitVec.ofNat 8 (n / 256), BitVec.ofNat 8 (n / 65536)]

/-- A number in two bytes, least significant first (R187). -/
def le2 (n : Nat) : List Byte := [BitVec.ofNat 8 n, BitVec.ofNat 8 (n / 256)]

/-- A number in one byte (R187). -/
def le1 (n : Nat) : Byte := BitVec.ofNat 8 n

/-- The codes of the descriptor states (R187). -/
def Slot.code : Slot → Byte
  | .free => 0
  | .live .loaded _ _ => 1
  | .live .bound _ _ => 2
  | .live .current _ _ => 3
  | .live .active _ _ => 4
  | .live .preempted _ _ => 5
  | .live .held _ _ => 6
  | .live .faulted _ _ => 7
  | .live .spent _ _ => 8

/-- Slot number as a byte (R187). -/
def slotByte (i : Fin 64) : Byte := le1 i.val

/-- committed and remaining of a slot (R9). -/
def Slot.counts : Slot → Nat × Nat
  | .free => (0, 0)
  | .live _ _ p => (p.committed, p.remaining)

/-- Result data of a CANCEL answered DONE: slot, state when taken, committed, remaining (R136, R189). -/
def cancelData (i : Fin 64) (stateWhenTaken : Byte) (content : Slot) : List Byte :=
  [slotByte i, stateWhenTaken] ++ le3 content.counts.1 ++ le3 content.counts.2

/-- The DONE answer of a CANCEL (R189). -/
def cancelDone (i : Fin 64) (stateWhenTaken : Byte) (content : Slot) : List Byte :=
  [0x70, 0x00] ++ cancelData i stateWhenTaken content

/-- The ENDED answer of a CANCEL: slot, state taken, committed of the arming just ended (R138, R189). -/
def cancelEnded (i : Fin 64) (stateTaken : Byte) (committed : Nat) : List Byte :=
  [0x70, 0x0B, slotByte i, stateTaken] ++ le3 committed

/-- The executor holds a CANCEL that waits for this slot's boundary (R178). -/
def State.cancelWaits (s : State) (i : Fin 64) : Bool :=
  match s.inHand with
  | some h => h.task == .cancel i
  | none => false

/-- Result data of a FREEZE: the slot whose burst was cut, or FFh, and the number of stack entries (R79, R189). -/
def freezeData (cut : Option (Fin 64)) (entries : Nat) : List Byte := [(cut.map slotByte).getD 0xFF, le1 entries]

/-- The DONE answer of a FREEZE (R189). -/
def freezeDone (cut : Option (Fin 64)) (entries : Nat) : List Byte := [0x40, 0x00] ++ freezeData cut entries

/-- The freeze state is set. -/
def State.setFreeze (s : State) (f : Freeze) : State := { s with sched.freeze := f }

/-- After a descriptor burst has ended at a boundary: while FREEZING the state becomes FROZEN, the FREEZE is answered
with the slot cut, if one was, and no selection is made (R80); otherwise a selection follows (R65). -/
def State.afterEnd (s : State) (cut : Option (Fin 64)) : State :=
  match s.sched.freeze with
  | .freezing =>
    let t := s.setFreeze .frozen
    (t.produceAnswer (freezeDone cut t.sched.stack.length)).rest
  | .running | .frozen => s.select

/-- Step 3 of the boundary sequence when the unit ended the burst: the waiting CANCEL is answered ENDED (R138). -/
def State.answerEnded (s : State) (i : Fin 64) (committed : Nat) : State :=
  if s.cancelWaits i then s.produceAnswer (cancelEnded i (s.slot i).code committed) else s

/-- Step 3 after a parity fault: the FAULTED head is removed and the CANCEL answered DONE with state ACTIVE (R138). -/
def State.cancelFaulted (s : State) (i : Fin 64) : State :=
  if s.cancelWaits i then (s.takeOut i).produceAnswer (cancelDone i 4 (s.slot i)) else s

/-- Steps 6 and 7 of the boundary sequence: the preemption check, then the next unit, subject to the shortfall test, the
memory first given back where the grant was withdrawn (R69, R73, R97). -/
def State.continueBurst (s : State) (b : Burst) : State :=
  match s.preemptor b with
  | some c => ((s.push b).perform c).select
  | none =>
    if s.mover.state = .yielding then
      match b.owner with
      | .link => s.ask
      | .slot i =>
        match s.slot i with
        | .live .active d _ => if s.lanesCanMove d.transfer then s.ask else (s.endCurrent i).select
        | _ => s.clearBurst.select
    else s.beginNext.select

/-- Steps 2 to 7 of the boundary sequence of a descriptor burst, after its unit committed (R69). -/
def State.afterCommit (s : State) (i : Fin 64) (b : Burst) : State :=
  match s.slot i with
  | .free => s.clearBurst.select
  | .live _ _ p =>
    if p.remaining = 0 then ((s.endProcessing i).answerEnded i p.committed).afterEnd none
    else if s.cancelWaits i then
      ((s.clearBurst.takeOut i).produceAnswer (cancelDone i 4 (s.slot i))).afterEnd none
    else if b.block ≤ b.moved then (s.endCurrent i).afterEnd none
    else if s.sched.freeze = .freezing then (s.endCurrent i).afterEnd (some i)
    else s.continueBurst b

/-! ## Boundaries -/

/-- The unit has ended: none is in progress, and where the grant was withdrawn meanwhile the request is lowered before
anything more is asked for (R96, R97). -/
def State.unitOver (s : State) : State :=
  let t := s.setMover { s.mover with unit := none }
  if t.mover.state = .yielding then t.lowerRequest else t

/-- The order code of a link access (R188). -/
def AccessKind.code : AccessKind → Byte
  | .peek _ _ => 0x50
  | .poke _ => 0x51

/-- The link access ends with this answer: it is gone, the burst in hand with it, and a selection follows (R106). -/
def State.endLink (s : State) (payload : List Byte) : State :=
  (((s.setAccess none).setBurst none).produceAnswer payload).select

/-- The DONE answer of a link access (R104, R105, R189). -/
def LinkAccess.doneAnswer (a : LinkAccess) : List Byte :=
  match a.kind with
  | .peek n result => [0x50, 0x00] ++ le3 a.start.toNat ++ [le1 n] ++ result
  | .poke data => [0x51, 0x00] ++ le3 a.start.toNat ++ [le1 data.length]

/-- The NO_GRANT answer of a link access after some bytes: their number and, for a PEEK, the bytes (R106, R189). -/
def LinkAccess.noGrantAnswer (a : LinkAccess) (done : Nat) : List Byte :=
  match a.kind with
  | .peek _ result => [0x50, 0x09, le1 done] ++ result
  | .poke _ => [0x51, 0x09, le1 done]

/-- The PARITY answer of a PEEK: the bad byte's offset and the bytes before it (R106, R189). -/
def LinkAccess.parityAnswer (a : LinkAccess) (offset : Nat) : List Byte :=
  match a.kind with
  | .peek _ result => [0x50, 0x0A, le1 offset] ++ result
  | .poke _ => [0x51, 0x0A, le1 offset]

/-- The boundary of a unit that moved its data, in the state after the move (R69). -/
def State.boundaryMoved (s : State) : State :=
  match s.sched.burst with
  | none => s.select
  | some b =>
    match b.owner with
    | .slot i =>
      match s.slot i with
      | .live .active d p => (s.commitProgress i d p b).afterCommit i { b with moved := b.moved + 1 }
      | _ => s.clearBurst.select
    | .link =>
      match s.sched.access with
      | none => s.clearBurst.select
      | some a =>
        let c := { b with moved := b.moved + 1 }
        if c.block ≤ c.moved then s.endLink a.doneAnswer
        else (s.setBurst (some c)).continueBurst c

/-- The boundary of a unit that failed its parity check at an address (R69 step 1, R89, R131, R106). -/
def State.boundaryFailed (s : State) (address : Addr) : State :=
  match s.sched.burst with
  | none => s.select
  | some b =>
    match b.owner with
    | .slot i => ((s.faultProcessing i (.parity address)).cancelFaulted i).afterEnd none
    | .link =>
      match s.sched.access with
      | none => s.clearBurst.select
      | some a => s.endLink (a.parityAnswer b.moved)

/-- The grant-wait timer has expired while ASKING: the request is lowered and the burst in hand ends without a unit, by a
GRANT_TIMEOUT fault or a NO_GRANT answer; a selection follows (R99). -/
def State.grantTimeout (s : State) : State :=
  let t := s.lowerRequest
  match t.sched.burst with
  | none => t.select
  | some b =>
    match b.owner with
    | .slot i => (t.faultProcessing i .grantTimeout).select
    | .link =>
      match t.sched.access with
      | none => t.clearBurst.select
      | some a => t.endLink (a.noGrantAnswer b.moved)

end Sys2Proof.Machine
end

