-- ==== Sys2Proof/Machine/Operands.lean ====
section
/-! DEFINITION. Field encodings (R187), order codes and lengths (R188), outcome codes (R176), the descriptor record of
DEFINE and INSPECT (R17 to R19, R190, R191), and the payloads of notices and answers (R189, R192). -/

namespace Sys2Proof.Machine

/-! ## Fields (R187) -/

/-- A number from its bytes, least significant first. -/
def readLE : List Byte → Nat
  | [] => 0
  | b :: bs => b.toNat + 256 * readLE bs

/-- The field of a size at an offset of a payload. -/
def fieldAt (p : List Byte) (offset size : Nat) : Nat := readLE ((p.drop offset).take size)

/-- The mark of a field that has no value. -/
def noneByte : Byte := 0xFF

def flagByte (b : Bool) : Byte := if b then 1 else 0

/-- A flag or a two-valued code: 00h or 01h. -/
def readFlag : Nat → Option Bool
  | 0 => some false
  | 1 => some true
  | _ => none

/-- A total: 1 to 65535 as itself, 0000h meaning 65536. -/
def readTotal (n : Nat) : Nat := if n = 0 then 65536 else n

/-- A block: 1 to 255 as itself, 00h meaning 256. -/
def readBlock (n : Nat) : Nat := if n = 0 then 256 else n

def slotOf (n : Nat) : Option (Fin 64) := if h : n < 64 then some ⟨n, h⟩ else none
def sourceNumber (n : Nat) : Option (Fin 28) := if h : n < 28 then some ⟨n, h⟩ else none
def laneOf (n : Nat) : Option (Fin 12) := if h : n < 12 then some ⟨n, h⟩ else none
def lineOf (n : Nat) : Option (Fin 4) := if h : n < 4 then some ⟨n, h⟩ else none
def softOf (n : Nat) : Option (Fin 8) := if h : n < 8 then some ⟨n, h⟩ else none

def readUnit : Nat → Option UnitSize
  | 1 => some .one
  | 2 => some .two
  | 4 => some .four
  | _ => none

def readWalk : Nat → Option Walk
  | 1 => some .ascend
  | 2 => some .descend
  | 3 => some .hold
  | _ => none

/-- An end action: 00h none, 01h to 08h S0 to S7. The outer none is a code that names neither. -/
def readEndAction (n : Nat) : Option (Option (Fin 8)) := if n = 0 then some none else (softOf (n - 1)).map some

def readLineMode : Nat → Option LineMode
  | 0 => some .off
  | 1 => some .rising
  | 2 => some .falling
  | 3 => some .both
  | 4 => some .high
  | 5 => some .low
  | _ => none

def readTimerMode : Nat → Option TimerMode
  | 0 => some .periodic
  | 1 => some .single
  | _ => none

def readDirection : Nat → Option Direction
  | 0 => some .incoming
  | 1 => some .outgoing
  | _ => none

def Walk.code : Walk → Byte
  | .ascend => 1
  | .descend => 2
  | .hold => 3

def FaultKind.code : FaultKind → Byte
  | .grantTimeout => 1
  | .parity _ => 2
  | .laneOff => 3
  | .laneDirection => 4

/-- The failing address of a fault, 000000h unless it is PARITY (R191, R192). -/
def FaultKind.address : FaultKind → Addr
  | .parity a => a
  | .grantTimeout | .laneOff | .laneDirection => 0

def LineMode.code : LineMode → Byte
  | .off => 0
  | .rising => 1
  | .falling => 2
  | .both => 3
  | .high => 4
  | .low => 5

def TimerMode.code : TimerMode → Byte
  | .periodic => 0
  | .single => 1

def Direction.code : Direction → Byte
  | .incoming => 0
  | .outgoing => 1

def Phase.code : Phase → Byte
  | .ready => 0
  | .taken => 1
  | .quiet => 2
  | .offered => 3
  | .releasing => 4

/-- The freeze state as SUMMARY writes it. FREEZING has no code: no SUMMARY is taken then (R181); it is written 01h. -/
def Freeze.code : Freeze → Byte
  | .running => 0
  | .freezing => 1
  | .frozen => 2

def MoverState.code : MoverState → Byte
  | .idle => 0
  | .asking => 1
  | .moving => 2
  | .yielding => 3

/-- An address in three bytes, 000000h where it is absent (R191, R192). -/
def addressBytes (a : Option Addr) : List Byte := le3 (a.map BitVec.toNat |>.getD 0)

/-! ## Orders (R188) and outcomes (R176) -/

/-- Code of each order with the least and the greatest length its payload may have after the code. -/
def orderLengths : List (Byte × Nat × Nat) :=
  [(0x01, 0, 0), (0x02, 3, 3), (0x03, 0, 0), (0x0F, 0, 0), (0x10, 21, 21), (0x11, 1, 1), (0x12, 1, 1), (0x13, 1, 1)] ++
  [(0x20, 1, 1), (0x21, 2, 2), (0x22, 5, 5), (0x23, 1, 1), (0x24, 1, 1), (0x25, 1, 1), (0x26, 1, 1)] ++
  [(0x30, 2, 2), (0x31, 1, 1), (0x32, 1, 1), (0x40, 0, 0), (0x41, 0, 0), (0x50, 4, 4), (0x51, 4, 195)] ++
  [(0x60, 5, 5), (0x61, 1, 1), (0x70, 1, 1), (0x71, 1, 1), (0x72, 1, 1), (0x80, 2, 2), (0x81, 0, 0)]

/-- Does an order with this code take operands of this length? None where the code names no order. -/
def lengthFits (code : Byte) (length : Nat) : Option Bool :=
  (orderLengths.lookup code).map (fun r => r.1 ≤ length && length ≤ r.2)

/-- The order code of each order's command (R188); the other commands are no orders. -/
def orderCode : Instr → Option Byte
  | .hello => some 0x01
  | .configure => some 0x02
  | .summary => some 0x03
  | .resetPart => some 0x0F
  | .define => some 0x10
  | .inspect => some 0x11
  | .rearm => some 0x12
  | .release => some 0x13
  | .trigger => some 0x20
  | .lineSetup => some 0x21
  | .timerSetup => some 0x22
  | .timerStart => some 0x23
  | .timerStop => some 0x24
  | .sourceStatus => some 0x25
  | .sourceClear => some 0x26
  | .bind => some 0x30
  | .unbind => some 0x31
  | .queueList => some 0x32
  | .freeze => some 0x40
  | .thaw => some 0x41
  | .peek => some 0x50
  | .poke => some 0x51
  | .laneSetup => some 0x60
  | .laneStatus => some 0x61
  | .cancel => some 0x70
  | .retry => some 0x71
  | .skip => some 0x72
  | .acknowledge => some 0x80
  | .resend => some 0x81
  | .resetLow | .resetRelease _ _ | .receiveFrame _ _ | .interByteTimeout | .stopBitLow | .transmitFrame | .frameSent
  | .lineLevelChange _ _ | .timerExpiry _ | .grantAsserted | .grantDeasserted | .grantWaitExpiry | .unitBoundary
  | .lnstbAsserted _ _ | .lnstbDeasserted _ | .lnackAsserted _ | .lnackDeasserted _ | .unknownOrder
  | .byteReceived _ => none

/-- The outcomes of an answer (R176). -/
inductive OutcomeCode where
  | done | unknownOrder | badLength | badField | badSlot | badState | outOfRange | badAlign | pendingFull | noGrant
  | parity | ended | noticeWaiting
  deriving DecidableEq, Repr

def OutcomeCode.byte : OutcomeCode → Byte
  | .done => 0x00
  | .unknownOrder => 0x01
  | .badLength => 0x02
  | .badField => 0x03
  | .badSlot => 0x04
  | .badState => 0x05
  | .outOfRange => 0x06
  | .badAlign => 0x07
  | .pendingFull => 0x08
  | .noGrant => 0x09
  | .parity => 0x0A
  | .ended => 0x0B
  | .noticeWaiting => 0x0C

/-! ## The descriptor record (R190) -/

/-- A memory side from its start and walk (R17, R190). -/
def readSide (r : List Byte) (offset : Nat) : Option Side :=
  (readWalk (fieldAt r (offset + 3) 1)).map (fun w => { start := BitVec.ofNat 24 (fieldAt r offset 3), walk := w })

/-- The two lanes of a RELAY: each a lane, and not the same one (R17). -/
def readRelayLanes (r : List Byte) : Option (Fin 12 × Fin 12) :=
  match laneOf (fieldAt r 6 1), laneOf (fieldAt r 7 1) with
  | some n, some m => if n = m then none else some (n, m)
  | _, _ => none

/-- The fields the kind uses, the kind decoded first; none where one holds no value it can take (R17). -/
def readTransfer (r : List Byte) : Option Transfer :=
  let block := readBlock (fieldAt r 3 1)
  match fieldAt r 0 1 with
  | 1 =>
    match readUnit (fieldAt r 2 1), laneOf (fieldAt r 6 1), readSide r 8 with
    | some u, some n, some a => some (.capture u block n a)
    | _, _, _ => none
  | 2 =>
    match readUnit (fieldAt r 2 1), laneOf (fieldAt r 7 1), readSide r 8 with
    | some u, some n, some a => some (.playout u block n a)
    | _, _, _ => none
  | 3 =>
    match readUnit (fieldAt r 2 1), readSide r 8, readSide r 12 with
    | some u, some a, some b => some (.copy u block a b)
    | _, _, _ => none
  | 4 =>
    match readUnit (fieldAt r 2 1), readRelayLanes r with
    | some u, some (n, m) => some (.relay u block n m)
    | _, _ => none
  | 5 => some .tally
  | _ => none

/-- A level 1 to 6 (R17). -/
def readLevel (n : Nat) : Option Nat := if 1 ≤ n ∧ n ≤ 6 then some n else none

/-- The descriptor of a record of 20 bytes; none for BAD_FIELD (R17). -/
def readRecord (r : List Byte) : Option Descriptor :=
  match readTransfer r, readLevel (fieldAt r 1 1), readFlag (fieldAt r 16 1), readEndAction (fieldAt r 17 1) with
  | some t, some level, some again, some action =>
    some
      { level := level
        total := readTotal (fieldAt r 4 2)
        transfer := t
        recirculate := again
        endAction := action
        label := BitVec.ofNat 16 (fieldAt r 18 2) }
  | _, _, _, _ => none

/-- Is every start the kind has a multiple of the unit (R18)? -/
def Transfer.aligned (t : Transfer) : Bool :=
  (t.sideA?.all fun a => a.start.toNat % t.unitBytes == 0) && (t.sideB?.all fun b => b.start.toNat % t.unitBytes == 0)

/-- Does the side's whole walk lie inside the memory (R19)? -/
def Side.inside (sd : Side) (total unit size : Nat) : Bool :=
  match sd.walk with
  | .ascend => sd.start.toNat + total * unit ≤ size
  | .descend => (total - 1) * unit ≤ sd.start.toNat && sd.start.toNat + unit ≤ size
  | .hold => sd.start.toNat + unit ≤ size

/-- Do the walks of every side the kind has lie inside the memory (R19)? -/
def Descriptor.inside (d : Descriptor) (size : Nat) : Bool :=
  (d.transfer.sideA?.all fun a => a.inside d.total d.transfer.unitBytes size) &&
    (d.transfer.sideB?.all fun b => b.inside d.total d.transfer.unitBytes size)

def Transfer.kindByte : Transfer → Byte
  | .capture _ _ _ _ => 1
  | .playout _ _ _ _ => 2
  | .copy _ _ _ _ => 3
  | .relay _ _ _ _ => 4
  | .tally => 5

/-- Unit and block, both 00h for a TALLY; a block of 256 is 00h (R187, R191). -/
def Transfer.sizeBytes (t : Transfer) : List Byte :=
  match t.unit? with
  | some u => [le1 u.bytes, le1 t.block]
  | none => [0, 0]

/-- A lane, FFh where it is absent (R191). -/
def laneByte (n : Option (Fin 12)) : Byte := (n.map fun n => le1 n.val).getD noneByte

/-- A memory side, start 000000h and walk FFh where it is absent (R191). -/
def sideBytes : Option Side → List Byte
  | some sd => le3 sd.start.toNat ++ [sd.walk.code]
  | none => [0, 0, 0, noneByte]

def endActionByte : Option (Fin 8) → Byte
  | none => 0
  | some n => le1 (n.val + 1)

/-- The record of 20 bytes (R190), a total of 65536 as 0000h (R187), with the absence marks of R191. -/
def Descriptor.record (d : Descriptor) : List Byte :=
  [d.transfer.kindByte, le1 d.level] ++ d.transfer.sizeBytes ++ le2 d.total ++
    [laneByte d.transfer.fromLane?, laneByte d.transfer.toLane?] ++ sideBytes d.transfer.sideA? ++
    sideBytes d.transfer.sideB? ++ [flagByte d.recirculate, endActionByte d.endAction] ++ le2 d.label.toNat

/-! ## Notices (R192) -/

/-- The sides byte of an END notice. -/
def EndRecord.sides (r : EndRecord) : Byte :=
  match r.nextA, r.nextB with
  | some _, some _ => 2
  | some _, none => 1
  | none, _ => 0

def EndRecord.bytes (r : EndRecord) : List Byte :=
  [slotByte r.slot] ++ le2 r.label.toNat ++ [le1 r.source.val] ++ le3 r.committed ++ [r.sides] ++ addressBytes r.nextA ++
    addressBytes r.nextB ++ [le1 r.misses, flagByte r.recirculate]

def FaultRecord.bytes (r : FaultRecord) : List Byte :=
  [slotByte r.slot] ++ le2 r.label.toNat ++ [le1 r.source.val, r.fault.code] ++ le3 r.committed ++
    le3 r.fault.address.toNat ++ [le1 r.misses]

def ResetReason.code : ResetReason → Byte
  | .line => 1
  | .order => 2

/-- Kind and contents of a notice. -/
def NoticeBody.bytes : NoticeBody → List Byte
  | .restart reason size rev => [1, reason.code] ++ le3 size ++ [rev]
  | .report (.ended r) => 2 :: r.bytes
  | .report (.faulted r) => 3 :: r.bytes

/-- The NOTICE frame of a notice (R147, R171). -/
def Notice.frame (n : Notice) : Frame :=
  { kind := .notice, number := n.number.setWidth 8, payload := le2 n.number.toNat ++ n.body.bytes }

/-! ## Answers with their own layout (R189, R191) -/

/-- The place of a slot in its queue, with the queue's source (R20). -/
def State.membership (s : State) (i : Fin 64) : Option (Fin 28 × Nat) :=
  (s.queueOf i).map fun q => (q, (s.queue q).idxOf i)

/-- Queue source and position, FFh each where the slot is in no queue (R191). -/
def State.membershipBytes (s : State) (i : Fin 64) : List Byte :=
  match s.membership i with
  | some (q, p) => [le1 q.val, le1 p]
  | none => [noneByte, noneByte]

/-- The last fault's code and failing address, 00h and 000000h where it is absent (R191). -/
def faultBytes (f : Option FaultKind) : List Byte :=
  match f with
  | some k => k.code :: le3 k.address.toNat
  | none => [0, 0, 0, 0]

/-- The result data of INSPECT (R20, R191). -/
def State.inspectData (s : State) (i : Fin 64) : List Byte :=
  [slotByte i, (s.slot i).code] ++
    match s.slot i with
    | .free => []
    | .live _ d p =>
      d.record ++ le3 p.remaining ++ le3 p.committed ++ addressBytes p.nextA ++ addressBytes p.nextB ++
        faultBytes p.lastFault ++ s.membershipBytes i ++ [flagByte (s.waitingMark i)]

/-- Source kind and line mode (R38, R189). -/
def State.sourceKindBytes (s : State) (q : Fin 28) : List Byte :=
  match sourceId q with
  | .lane _ => [0, noneByte]
  | .line n => [1, (s.line n).mode.code]
  | .timer _ => [2, noneByte]
  | .soft _ => [3, noneByte]

/-- The pending count, FFh for a condition source (R38, R39). -/
def State.pendingCountByte (s : State) (q : Fin 28) : Byte := if s.isCondition q then noneByte else le1 (s.count q)

/-- The condition, FFh for an event source or an OFF line: a lane's condition, or the level of a HIGH or LOW line
(R38). -/
def State.conditionByte (s : State) (q : Fin 28) : Byte :=
  match sourceId q with
  | .lane n => flagByte (s.lane n).condition
  | .line n => if s.isCondition q then flagByte (s.line n).high else noneByte
  | .timer _ | .soft _ => noneByte

/-- The line level, FFh if not a line (R38). -/
def State.lineLevelByte (s : State) (q : Fin 28) : Byte :=
  match sourceId q with
  | .line n => flagByte (s.line n).high
  | .lane _ | .timer _ | .soft _ => noneByte

/-- Period, mode, running flag and steps left of a timer (R38, R189). -/
def State.timerBytes (s : State) (q : Fin 28) : List Byte :=
  match sourceId q with
  | .timer n =>
    let t := s.timer n
    le3 t.period ++ [t.mode.code, flagByte t.left.isSome] ++ le3 (t.left.getD 0)
  | .lane _ | .line _ | .soft _ => [0, 0, 0, noneByte, noneByte, 0, 0, 0]

/-- The result data of SOURCE STATUS (R38, R189). -/
def State.sourceStatusData (s : State) (q : Fin 28) : List Byte :=
  [le1 q.val] ++ s.sourceKindBytes q ++
    [flagByte (s.isPending q), s.pendingCountByte q, s.conditionByte q, s.lineLevelByte q] ++ s.timerBytes q ++
    [le1 (s.miss q), le1 (s.queue q).length, ((s.queue q).head?.map slotByte).getD noneByte]

/-- Members of a queue with their states (R55, R189). -/
def State.queueListData (s : State) (q : Fin 28) : List Byte :=
  [le1 q.val, le1 (s.queue q).length] ++ (s.queue q).flatMap fun i => [slotByte i, (s.slot i).code]

/-- Is a descriptor that names the lane ACTIVE or PREEMPTED (R118, R121)? -/
def State.laneInUse (s : State) (n : Fin 12) : Bool :=
  (List.finRange 64).any fun i =>
    match s.slot i with
    | .live .active d _ | .live .preempted d _ => d.transfer.names n
    | _ => false

/-- The result data of LANE STATUS (R121, R189). -/
def State.laneStatusData (s : State) (n : Fin 12) : List Byte :=
  let l := s.lane n
  [le1 n.val, le1 l.fill, l.direction.code, flagByte l.enabled, le1 l.threshold, flagByte l.condition, l.phase.code,
    flagByte (s.laneInUse n)]

/-- The result data of HELLO (R179, R189). -/
def State.helloData (s : State) : List Byte :=
  le2 0x0E27 ++ le2 0x2864 ++ [revision] ++ le3 s.memorySize ++ le3 (lineRateOf s.cfg.baud) ++
    [64, 28, 6, 5, 12, le1 fifoSize, le1 orderTableSize, le1 noticePlaces, 64, 192]

/-- A burst's owner as a byte: a slot, FFh for none. SUMMARY never meets a link access (R181); it is written FFh. -/
def Owner.code : Owner → Byte
  | .slot i => slotByte i
  | .link => noneByte

/-- Owner, level, moved and block of the burst in hand, 00h each where the owner is FFh (R189). -/
def State.burstBytes (s : State) : List Byte :=
  match s.sched.burst with
  | some { owner := .slot i, level, moved, block } => [slotByte i, le1 level, le1 moved, le1 block]
  | some { owner := .link, .. } | none => [noneByte, 0, 0, 0]

/-- The slots in state FREE (R181). -/
def State.freeSlots (s : State) : Nat := (List.finRange 64).countP fun i => s.slot i == .free

/-- Is the entry PENDING (R160)? -/
def Entry.isPending (e : Entry) : Bool :=
  match e.status with
  | .pending _ => true
  | .answered _ => false

/-- The PENDING entries of the order table (R160, R181). -/
def State.pendingOrders (s : State) : Nat := s.link.table.countP Entry.isPending

/-- The result data of SUMMARY, the stack bottom entry first (R181, R189). -/
def State.summaryData (s : State) : List Byte :=
  [s.sched.freeze.code, s.mover.state.code] ++ s.burstBytes ++ [le1 s.sched.stack.length] ++
    (s.sched.stack.reverse.flatMap fun e => [e.owner.code, le1 e.level, le1 e.moved]) ++
    [le1 s.freeSlots, le1 s.notes.list.length, le1 s.notes.waiting.length, le1 s.pendingOrders]

end Sys2Proof.Machine
end

