-- ==== Sys2Proof/Machine/Link.lean ====
section
/-! DEFINITION. The link port: the frame check (R155), the receiver (R156), the handling of a completed frame (R159 to
R172) and the transmitter (R168, R177). -/

namespace Sys2Proof.Machine

/-! ## Frames (R154, R155, R171) -/

/-- One bit of the frame check: shift out the top bit and fold the polynomial 1021h in where it was set (R155). -/
def crcBit (c : Half) : Half := if c.getLsbD 15 then (c <<< 1) ^^^ 0x1021 else c <<< 1

/-- One byte of the frame check, most significant bit first (R155). -/
def crcByte (c : Half) (b : Byte) : Half :=
  crcBit (crcBit (crcBit (crcBit (crcBit (crcBit (crcBit (crcBit (c ^^^ (b.setWidth 16 <<< 8)))))))))

/-- The frame check of a run of bytes, from FFFFh (R155). -/
def crc16 (bytes : List Byte) : Half := bytes.foldl crcByte 0xFFFF

/-- The frame check of a body: over the length byte and the body (R155). -/
def frameCheck (body : List Byte) : Half := crc16 (le1 body.length :: body)

/-- Sync byte (R154). -/
def syncByte : Byte := 0xD2

/-- The high and the low byte of a frame check, in the order they are sent (R154). -/
def checkBytes (c : Half) : List Byte := [(c >>> 8).setWidth 8, c.setWidth 8]

/-- The check two received bytes make, the high byte first (R154). -/
def readCheck (hi lo : Byte) : Half := hi ++ lo

/-- A whole frame on the line (R154). -/
def frameBytes (body : List Byte) (check : Half) : List Byte := [syncByte, le1 body.length] ++ body ++ checkBytes check

def FrameKind.code : FrameKind → Byte
  | .answer => 0x81
  | .notice => 0x82
  | .refusal => 0x83
  | .synced => 0x84

def Frame.body (f : Frame) : List Byte := [f.kind.code, f.number] ++ f.payload

/-- The bytes of a frame the part sends (R154, R155). -/
def Frame.encode (f : Frame) : List Byte := frameBytes f.body (frameCheck f.body)

def Answer.frame (a : Answer) : Frame := { kind := .answer, number := a.number, payload := a.payload }

/-! ## Refusals and SYNCED (R167, R169) -/

/-- Reasons of a refusal, with the number it carries (R167). -/
inductive RefusalReason where
  | check
  | full (n : Byte)
  | sequence (n : Byte)
  | busy (m : Byte)
  deriving DecidableEq, Repr

/-- Payload of a REFUSAL frame (R192). -/
def RefusalReason.payload : RefusalReason → List Byte
  | .check => [1]
  | .full n => [2, n]
  | .sequence n => [3, n]
  | .busy m => [4, m]

/-- A frame joins the refusal queue, or is dropped when four stand there (R169). -/
def State.queueRefusal (s : State) (f : Frame) : State :=
  if s.link.refusals.length < refusalPlaces then { s with link.refusals := s.link.refusals ++ [f] } else s

/-- A frame is refused: a REFUSAL carrying E (R167, R171). -/
def State.refuseFrame (s : State) (r : RefusalReason) : State :=
  s.queueRefusal { kind := .refusal, number := s.link.expected, payload := r.payload }

/-! ## Order acceptance and SYNC (R161, R163, R165) -/

/-- The entry with a number, if the table holds one (R162). -/
def State.entry (s : State) (n : Byte) : Option Entry := s.link.table.find? fun e => e.number = n

/-- Set the queued mark of the entry with a number. -/
def Entry.mark (n : Byte) (queued : Bool) (e : Entry) : Entry := if e.number = n then { e with queued := queued } else e

/-- Replay of a stored answer (R163). -/
def State.replay (s : State) (n : Byte) (queued : Bool) (payload : List Byte) : State :=
  if queued then s
  else if s.link.answers.length < answerPlaces then
    { s with
      link.answers := s.link.answers ++ [{ number := n, payload := payload }]
      link.table := s.link.table.map (Entry.mark n true) }
  else s

/-- The table with its oldest entry evicted when it is full (R161). -/
def evict (table : List Entry) : List Entry := if table.length < orderTableSize then table else table.drop 1

/-- An order joins the table under the number E, which advances (R161). -/
def State.enterOrder (s : State) (order : List Byte) : State :=
  { s with
    link.table := evict s.link.table ++ [{ number := s.link.expected, status := .pending (some order), queued := false }]
    link.expected := s.link.expected + 1 }

/-- The handling of an ORDER frame with number n (R161). At an acceptance the executor takes the order if it has none in
hand (R174). -/
def State.acceptOrder (s : State) (n : Byte) (order : List Byte) : State :=
  match s.entry n with
  | some e =>
    match e.status with
    | .pending _ => s
    | .answered payload => s.replay n e.queued payload
  | none =>
    if n = s.link.expected then
      if orderTableSize ≤ s.pendingOrders then s.refuseFrame (.full n) else (s.enterOrder order).takeNext
    else s.refuseFrame (.sequence n)

/-- The handling of a SYNC frame with number m (R165). -/
def State.sync (s : State) (m : Byte) : State :=
  if 0 < s.pendingOrders then s.refuseFrame (.busy m)
  else
    State.queueRefusal { s with link.table := [], link.expected := m } { kind := .synced, number := m, payload := [] }

/-- Has the executor taken a RESET PART, carried out or not (R172)? One of a wrong length is refused and resets nothing. -/
def State.resetInHand (s : State) : Bool :=
  match s.inHand with
  | some h => h.task == .resetPart || (h.task == .taken && h.payload == [0x0F])
  | none => false

/-- The handling of a completed frame by its check and kind (R159), or its discard while a RESET PART is in hand
(R172). -/
def State.handleFrame (s : State) (body : List Byte) (check : Half) : State :=
  if s.resetInHand then s
  else if check ≠ frameCheck body then s.refuseFrame .check
  else
    match body with
    | kind :: n :: payload =>
      if kind = 0x01 then s.acceptOrder n payload
      else if kind = 0x02 then s.sync n
      else s
    | _ => s

/-! ## The receiver (R156) -/

/-- Steps of the inter-byte timer: 2 ms (R157). -/
def interByteSteps : Nat := 200

/-- The receiver takes a new state and its timer starts or restarts (R157). -/
def State.rxGo (s : State) (r : Receiver) : State := { s with link.rx := r, link.rxTimer := some interByteSteps }

/-- The receiver goes to HUNT and its timer stops (R156 to R158). -/
def State.rxHunt (s : State) : State := { s with link.rx := .hunt, link.rxTimer := none }

/-- The receiver holds these body bytes of a frame of this length (R156). -/
def bodyOrCheck (length : Nat) (bytes : List Byte) : Receiver :=
  if bytes.length < length then .body length bytes else .check bytes none

/-- A byte with a good stop bit, by the rows of R156. -/
def State.rxByte (s : State) (b : Byte) : State :=
  match s.link.rx with
  | .hunt => if b = syncByte then s.rxGo .length else s
  | .length => if 2 ≤ b.toNat ∧ b.toNat ≤ 250 then s.rxGo (.body b.toNat []) else s.rxHunt
  | .body length bytes => s.rxGo (bodyOrCheck length (bytes ++ [b]))
  | .check body none => s.rxGo (.check body (some b))
  | .check body (some hi) => s.rxHunt.handleFrame body (readCheck hi b)

/-- A run of bytes. -/
def State.rxBytes (s : State) (bytes : List Byte) : State := bytes.foldl State.rxByte s

/-! ## The transmitter (R168) -/

/-- The waiting answer, if there is one, takes the room the transmitter has freed (R177). -/
def State.placeWaiting (s : State) : State :=
  match s.inHand with
  | some h =>
    match h.waiting with
    | some payload => s.placeAnswer h payload
    | none => s
  | none => s

/-- The queued mark of an entry after the transmitter took an answer with its number: clear, unless another answer with
that number still stands in the queue (R168, log 17). -/
def State.clearQueuedMark (s : State) (n : Byte) : State :=
  if s.link.answers.any fun a => a.number = n then s else { s with link.table := s.link.table.map (Entry.mark n false) }

/-- The transmitter takes the head of the answer queue (R168, R177). -/
def State.sendAnswer (s : State) (a : Answer) (rest : List Answer) : State :=
  ((State.clearQueuedMark { s with link.answers := rest, link.tx := some a.frame } a.number)).placeWaiting

/-- Clear the queued mark of the notice with a number (R147). -/
def Notice.unqueue (n : Half) (x : Notice) : Notice := if x.number = n then { x with queued := false } else x

/-- The transmitter takes the head of the notice transmit queue (R147, R168). -/
def State.sendNotice (s : State) (n : Half) (rest : List Half) : State :=
  { s with
    notes.txQueue := rest
    notes.list := s.notes.list.map (Notice.unqueue n)
    link.tx := (s.notes.list.find? fun x => x.number = n).map Notice.frame }

/-- The idle transmitter takes the head of the most urgent queue that holds an entry (R168). -/
def State.transmit (s : State) : State :=
  match s.link.tx with
  | some _ => s
  | none =>
    match s.link.refusals with
    | f :: rest => { s with link.refusals := rest, link.tx := some f }
    | [] =>
      match s.link.answers with
      | a :: rest => s.sendAnswer a rest
      | [] =>
        match s.notes.txQueue with
        | n :: rest => s.sendNotice n rest
        | [] => s

end Sys2Proof.Machine
end

