-- ==== Sys2Proof/Machine/Reset.lean ====
section
/-! DEFINITION. The reset: RESET# taken low (R108, R184, R185), its release (R185), and the reset a RESET PART makes when
its answer has been sent (R183). -/

namespace Sys2Proof.Machine

/-- The trigger unit at its reset values; the lines keep their synchronised levels (R40). -/
def TriggerUnit.atReset (t : TriggerUnit) : TriggerUnit :=
  { counts := Vector.replicate 28 0
    misses := Vector.replicate 28 0
    lines := t.lines.map fun l => Line.atReset l.high
    timers := Vector.replicate 4 Timer.atReset }

/-- Every block takes its reset values, and the RESTART record is placed as notice 0 (R2, R40, R56, R84, R108, R122, R140,
R152, R173, R186). Straps, time base, input pins and memory stay. -/
def State.resetBlocks (s : State) (reason : ResetReason) : State :=
  { s with
    cfg := { s.cfg with linkLevel := 1, grantLimit := 1000 }
    link := LinkPort.atReset
    inHand := none
    slots := Vector.replicate 64 .free
    trig := s.trig.atReset
    sched := Scheduler.atReset
    mover := Mover.atReset
    lowered := false
    lanes := s.lanes.map fun l => Lane.atReset l.strobe l.ack
    notes := NoticeList.atReset reason s.memorySize }

/-- RESET# is taken low: a unit in progress is abandoned, the order in hand too, the request is lowered and a frame being
sent is cut short; every other block is held still until the release (R108, R184, R185, log 11). -/
def State.takeLow (s : State) : State :=
  { s.abandonUnit with
    resetLow := true, inHand := none, mover := Mover.atReset, lowered := false, link := { s.link with tx := none } }

/-- RESET# is released: the straps are sampled and every block takes its reset values, the time base from its start. -/
def State.release (s : State) (baud msize : BitVec 2) : State :=
  State.resetBlocks
    { s with resetLow := false, timePhase := 0, cfg := { s.cfg with baud := baud, msize := msize } } .line

/-- RESET_LOW (R185). -/
def execResetLow (s : State) : Host.Outcome State Fault Refusal := .next s.takeLow

/-- RESET_RELEASE (R185). A release of a line that is not low is none (log 2). -/
def execResetRelease (baud msize : BitVec 2) (s : State) : Host.Outcome State Fault Refusal :=
  .next (if s.resetLow then s.release baud msize else s)

/-- Is this frame the DONE answer of the RESET PART in hand (R183, log 16)? -/
def State.isResetAnswer (s : State) (f : Frame) : Bool :=
  match s.inHand with
  | some h => h.task == .resetPart && f == { kind := .answer, number := h.number, payload := [0x0F, 0x00] }
  | none => false

/-- The last check byte of a frame has been sent: the transmitter is idle, and where the frame was the answer of a RESET
PART, the reset takes effect (R168, R183). -/
def State.frameOver (s : State) (f : Frame) : State :=
  let t := { s with link := { s.link with tx := none } }
  if s.isResetAnswer f then t.abandonUnit.resetBlocks .order else t

end Sys2Proof.Machine
end

