-- ==== Sys2Proof/Machine/Events.lean ====
section
/-! DEFINITION. The events at the part's pins and clocks: the line, the trigger inputs, the memory port and the lanes.
While RESET# is low only the levels of the input pins are followed (R185). An event that cannot occur in the state it meets
changes nothing (log 2). -/

namespace Sys2Proof.Machine

/-- An event of a part that runs; nothing happens while RESET# is low (R185). -/
def State.running (s : State) (effect : State → State) : State := if s.resetLow then s else effect s

/-! ## The host link -/

/-- RECEIVE_FRAME (R159): the bytes of a whole frame come in, and the last one completes it (log 3). -/
def execReceiveFrame (body : List Byte) (check : Half) (s : State) : Host.Outcome State Fault Refusal :=
  .next (s.running fun t => t.rxBytes (frameBytes body check))

/-- BYTE_RECEIVED (R156). -/
def execByteReceived (data : Byte) (s : State) : Host.Outcome State Fault Refusal :=
  .next (s.running fun t => t.rxByte data)

/-- INTER_BYTE_TIMEOUT (R157): the partial frame is discarded. -/
def execInterByteTimeout (s : State) : Host.Outcome State Fault Refusal := .next (s.running State.rxHunt)

/-- STOP_BIT_LOW (R158): the byte and any partial frame are discarded. -/
def State.badByte (s : State) : State := s.rxHunt

def execStopBitLow (s : State) : Host.Outcome State Fault Refusal := .next (s.running State.badByte)

/-- TRANSMIT_FRAME (R168). -/
def execTransmitFrame (s : State) : Host.Outcome State Fault Refusal := .next (s.running State.transmit)

/-- The frame in progress has been sent, if there is one (R168). -/
def State.frameSent (s : State) : State :=
  match s.link.tx with
  | some f => s.frameOver f
  | none => s

/-- FRAME_SENT (R168). -/
def execFrameSent (s : State) : Host.Outcome State Fault Refusal := .next (s.running State.frameSent)

/-! ## Lines and timers -/

/-- The line with a new synchronised level; in an edge mode the level is its new reference (R31, log 19). -/
def Line.follow (l : Line) (high : Bool) : Line :=
  { l with high := high, reference := if l.mode.isEdge then some high else l.reference }

/-- The synchronised level of a line is now this: an event where its mode counts the change (R25, R31). -/
def State.lineLevel (s : State) (n : Fin 4) (high : Bool) : State :=
  let l := s.line n
  let t := s.setLine n (l.follow high)
  if l.mode.counts (l.reference.getD l.high) high then (t.eventAt (lineSource n)).react else t.react

/-- LINE_LEVEL_CHANGE (R31). While RESET# is low the level is followed and nothing is counted (R40, R185). -/
def execLineLevelChange (n : Fin 4) (high : Bool) (s : State) : Host.Outcome State Fault Refusal :=
  .next (if s.resetLow then s.setLine n { s.line n with high := high } else s.lineLevel n high)

/-- A timer at its expiry: reloaded in PERIODIC mode, stopped in SINGLE mode (R33). -/
def Timer.expired (t : Timer) : Timer :=
  match t.mode with
  | .periodic => { t with left := some t.period }
  | .single => { t with left := none }

/-- A timer expires: an event at its source, and the timer reloads or stops (R33). -/
def State.expire (s : State) (n : Fin 4) : State :=
  ((s.setTimer n (s.timer n).expired).eventAt (timerSource n)).react

/-- A running timer expires; a stopped one does not (R33). -/
def State.timerExpiry (s : State) (n : Fin 4) : State := if (s.timer n).left.isSome then s.expire n else s

/-- TIMER_EXPIRY (R33). -/
def execTimerExpiry (n : Fin 4) (s : State) : Host.Outcome State Fault Refusal :=
  .next (s.running fun t => t.timerExpiry n)

/-! ## The memory port -/

/-- The level of the grant as the mover sees it. -/
def State.seeGrant (s : State) (grant : Bool) : State := { s with grant := grant }

/-- The lowering of the request lies in an earlier moment (log 22). -/
def State.settleRequest (s : State) : State := { s with lowered := false }

/-- The grant of the raised request: the timer stops and the mover goes MOVING with its burst (R93). -/
def State.serveGrant (s : State) : State :=
  (s.setMover { s.mover with state := .moving, timer := none }).beginNext.select

/-- A grant that is not one: the request is lowered, and is raised again when the grant is seen deasserted (R94, R100). -/
def State.awaitGrantEnd (s : State) : State :=
  s.setMover { s.mover with state := .yielding, request := false, timer := none }

/-- The grant is seen asserted by an ASKING mover: it serves the burst in hand, after a yield too (R93). In the moment a
timeout, a cut, a CANCEL or a push lowered the request of an ASKING mover and it was raised again, it may be the grant
of the lowered request, which is not a grant: a free value (R94, R100, log 22). To a mover that is not ASKING it is not
a grant (R94). -/
def State.grantSeen (s : State) : State :=
  if s.mover.state = .asking then
    if s.lowered then
      let t := { s.settleRequest with freeCount := s.freeCount + 1 }
      if Config.grantIsStale s.freeCount then t.awaitGrantEnd else t.serveGrant
    else s.serveGrant
  else s

/-- GRANT_ASSERTED (R93). -/
def execGrantAsserted (s : State) : Host.Outcome State Fault Refusal :=
  .next ((s.seeGrant true).running State.grantSeen)

/-- The grant is seen deasserted: a withdrawal while MOVING with the request raised (R96), with the release at once where
no unit is in progress (R97); or the end of the wait before the request is raised (R94). -/
def State.grantGone (s : State) : State :=
  match s.mover.state with
  | .moving =>
    if s.mover.request then
      if s.mover.unit.isSome then s.goes .yielding else s.lowerRequest.ask
    else s
  | .yielding => if s.mover.unit.isSome then s else s.ask
  | .idle | .asking => s

/-- GRANT_DEASSERTED (R96). -/
def execGrantDeasserted (s : State) : Host.Outcome State Fault Refusal :=
  .next ((s.seeGrant false).settleRequest.running State.grantGone)

/-- The grant-wait timer expires while the mover is ASKING (R99). -/
def State.grantWaitOver (s : State) : State := if s.mover.state = .asking then s.grantTimeout else s

/-- GRANT_WAIT_EXPIRY (R99). -/
def execGrantWaitExpiry (s : State) : Host.Outcome State Fault Refusal := .next (s.running State.grantWaitOver)

/-- UNIT_BOUNDARY (R69): the unit in progress ends with its lane and memory effects, and the boundary sequence runs. The
access the data book says never happens stops the model (R92, log 15). -/
def execUnitBoundary (s : State) : Host.Outcome State Fault Refusal :=
  match s.resetLow, s.mover.unit with
  | false, some u =>
    match s.performUnit u with
    | .moved t => .next t.unitOver.boundaryMoved
    | .failed a => .next (s.unitOver.boundaryFailed a)
    | .outside a => .fault (.addressOutsideMemory a)
  | _, _ => .next s

/-! ## The lanes' pins -/

/-- The peripheral changes a line of a lane: the exchange goes on as far as it can and the scheduler reacts (R111, R112,
R114). While RESET# is low the pin is followed and nothing is exchanged (R185). -/
def State.lanePins (s : State) (n : Fin 12) (l : Lane) : State :=
  if s.resetLow then s.setLane n l else (s.settleLane n l).react

/-- LNSTB_ASSERTED (R111), with the byte on LnD7:0. -/
def execLnstbAsserted (n : Fin 12) (data : Byte) (s : State) : Host.Outcome State Fault Refusal :=
  .next (s.lanePins n { s.lane n with strobe := some data })

/-- LNSTB_DEASSERTED (R111). -/
def execLnstbDeasserted (n : Fin 12) (s : State) : Host.Outcome State Fault Refusal :=
  .next (s.lanePins n { s.lane n with strobe := none })

/-- LNACK_ASSERTED (R112). -/
def execLnackAsserted (n : Fin 12) (s : State) : Host.Outcome State Fault Refusal :=
  .next (s.lanePins n { s.lane n with ack := true })

/-- LNACK_DEASSERTED (R112). -/
def execLnackDeasserted (n : Fin 12) (s : State) : Host.Outcome State Fault Refusal :=
  .next (s.lanePins n { s.lane n with ack := false })

end Sys2Proof.Machine
end

