-- ==== Sys2Proof/Machine/Clock.lean ====
section
/-! DEFINITION. Time: one step of the 1 us base, which is what an empty queue of commands stands for (log 4). -/

namespace Sys2Proof.Machine

/-- The grant-wait timer counts down while the mover is ASKING and expires when it reaches 0 (R98, R99). -/
def State.grantTick (s : State) : State :=
  match s.mover.timer with
  | some n => if n ≤ 1 then s.grantWaitOver else s.setMover { s.mover with timer := some (n - 1) }
  | none => s

/-- The inter-byte timer counts one step of the 10 us base (R157). -/
def State.rxTick (s : State) : State :=
  match s.link.rxTimer with
  | some n => if n ≤ 1 then s.rxHunt else { s with link.rxTimer := some (n - 1) }
  | none => s

/-- An interval timer counts one step of the 10 us base (R33). -/
def State.timerTick (s : State) (n : Fin 4) : State :=
  match (s.timer n).left with
  | some k => if k ≤ 1 then s.expire n else s.setTimer n { s.timer n with left := some (k - 1) }
  | none => s

/-- One step of the 10 us base: the inter-byte timer, then the timers T0 to T3. -/
def State.baseStep (s : State) : State := (List.finRange 4).foldl State.timerTick s.rxTick

/-- The place in the 10 us step goes on by 1 us; at its end the base steps (R33, R98). -/
def State.phaseTick (s : State) : State :=
  if s.timePhase < 9 then { s with timePhase := s.timePhase + 1 } else { s with timePhase := 0 }.baseStep

/-- 1 us passes. While RESET# is low nothing is counted (R185). -/
def State.tick (s : State) : State := s.running fun t => t.settleRequest.grantTick.phaseTick

end Sys2Proof.Machine
end

