-- ==== Sys2Proof/Machine/Executor.lean ====
section
/-! DEFINITION. The order executor: the order it has taken (R174), the checks every order meets first (R175), and the answer it
produces (R176, R177, R189). -/

namespace Sys2Proof.Machine

/-- The order to be carried out: the one the executor has taken (R174, log 23). While RESET# is low there is none
(R185). -/
def State.orderInTurn (s : State) : Option (Byte × List Byte) :=
  match s.resetLow, s.inHand with
  | false, some { number, payload, task := .taken, .. } => some (number, payload)
  | _, _ => none

/-- The order in hand is carried out; what may hold it after that is its own to say (R175, R178). -/
def State.carryOut (s : State) (n : Byte) (order : List Byte) : State :=
  { s with inHand := some { number := n, payload := order, task := .carriedOut, waiting := none } }

/-- How the carrying out of an order ends: answered with an outcome and result data, or held (R178). -/
inductive OrderEnd where
  | answered (outcome : OutcomeCode) (data : List Byte) (s : State)
  | held (s : State)
  deriving DecidableEq, Repr

/-- An order refused: no state changes (R175). -/
def refusal (outcome : OutcomeCode) (s : State) : OrderEnd := .answered outcome [] s

/-- The answer of an order is produced (R177, R189), or the order stays in hand. -/
def OrderEnd.finish (code : Byte) : OrderEnd → State
  | .answered outcome data s => s.produceAnswer (code :: outcome.byte :: data)
  | .held s => s

/-- The executor holds the order in hand for a task (R178). -/
def State.hold (s : State) (task : Task) : State := { s with inHand := s.inHand.map fun h => { h with task := task } }

/-- Carry out the order in turn, if it has this code: the length check and then the order's own checks and effect (R175).
Where another order is in turn, or none, nothing happens (log 2). -/
def runOrder (code : Byte) (body : List Byte → State → OrderEnd) (s : State) : State :=
  match s.orderInTurn with
  | some (n, c :: operands) =>
    if c = code then
      let t := s.carryOut n (c :: operands)
      if lengthFits code operands.length = some true then (body operands t).finish code
      else (refusal .badLength t).finish code
    else s
  | some (_, []) | none => s

/-- The code an UNKNOWN_ORDER answer echoes: 00h for an empty payload (R175, R189). -/
def echoedCode (order : List Byte) : Byte := order.headD 0

/-- Does the order's payload name one of the 29 orders (R175)? -/
def namesOrder : List Byte → Bool
  | c :: operands => (lengthFits c operands.length).isSome
  | [] => false

/-- The order in turn names no order: UNKNOWN_ORDER (R175). -/
def execUnknownOrder (s : State) : Host.Outcome State Fault Refusal :=
  match s.orderInTurn with
  | some (n, order) =>
    if namesOrder order then .next s
    else .next ((refusal .unknownOrder (s.carryOut n order)).finish (echoedCode order))
  | none => .next s

/-! ## Operands every order of a kind checks first -/

/-- The slot operand, first byte (R1): else BAD_SLOT. -/
def withSlot (operands : List Byte) (s : State) (go : Fin 64 → OrderEnd) : OrderEnd :=
  match slotOf (fieldAt operands 0 1) with
  | some i => go i
  | none => refusal .badSlot s

/-- An operand that names something, or BAD_FIELD. -/
def withField (value : Option α) (s : State) (go : α → OrderEnd) : OrderEnd :=
  match value with
  | some x => go x
  | none => refusal .badField s

end Sys2Proof.Machine
end

