-- ==== Sys2Proof/Machine/OrdersDescriptor.lean ====
section
/-! DEFINITION. The slot orders: DEFINE (R15 to R19), INSPECT (R20), REARM (R22), RELEASE (R23). -/

namespace Sys2Proof.Machine

/-- Descriptor and progress of a slot in LOADED or SPENT, the states REARM and RELEASE take (R15). -/
def Slot.atRest? : Slot → Option Descriptor
  | .live .loaded d _ | .live .spent d _ => some d
  | _ => none

/-- Is the slot in a state DEFINE takes: FREE, LOADED or SPENT (R15)? -/
def Slot.definable : Slot → Bool
  | .free => true
  | sl => sl.atRest?.isSome

/-- A descriptor goes into a slot with a fresh arming: LOADED (R9, R16, R22). -/
def State.load (s : State) (i : Fin 64) (d : Descriptor) : State :=
  s.setSlot i (.live .loaded d (d.freshProgress none))

def orderDefine (operands : List Byte) (s : State) : OrderEnd :=
  withSlot operands s fun i =>
    if !(s.slot i).definable then refusal .badState s
    else if s.waitingMark i then refusal .noticeWaiting s
    else
      withField (readRecord (operands.drop 1)) s fun d =>
        if !d.transfer.aligned then refusal .badAlign s
        else if !d.inside s.memorySize then refusal .outOfRange s
        else .answered .done [slotByte i] (s.load i d)

/-- DEFINE (R16). -/
def execDefine (s : State) : Host.Outcome State Fault Refusal := .next (runOrder 0x10 orderDefine s)

def orderInspect (operands : List Byte) (s : State) : OrderEnd :=
  withSlot operands s fun i => .answered .done (s.inspectData i) s

/-- INSPECT (R20). -/
def execInspect (s : State) : Host.Outcome State Fault Refusal := .next (runOrder 0x11 orderInspect s)

/-- The checks REARM and RELEASE make of their slot, in order (R15). -/
def withRestingSlot (operands : List Byte) (s : State) (go : Fin 64 → Descriptor → OrderEnd) : OrderEnd :=
  withSlot operands s fun i =>
    match (s.slot i).atRest? with
    | none => refusal .badState s
    | some d => if s.waitingMark i then refusal .noticeWaiting s else go i d

def orderRearm (operands : List Byte) (s : State) : OrderEnd :=
  withRestingSlot operands s fun i d => .answered .done [slotByte i] (s.load i d)

/-- REARM (R22). -/
def execRearm (s : State) : Host.Outcome State Fault Refusal := .next (runOrder 0x12 orderRearm s)

def orderRelease (operands : List Byte) (s : State) : OrderEnd :=
  withRestingSlot operands s fun i _ => .answered .done [slotByte i] (s.setSlot i .free)

/-- RELEASE (R23). -/
def execRelease (s : State) : Host.Outcome State Fault Refusal := .next (runOrder 0x13 orderRelease s)

end Sys2Proof.Machine
end

