-- ==== Sys2Proof/Machine/OrdersLane.lean ====
section
/-! DEFINITION. The lane orders: LANE SETUP (R118, R119) and LANE STATUS (R121). -/

namespace Sys2Proof.Machine

/-- A threshold of 1 to 32 (R118). -/
def readThreshold (n : Nat) : Option Nat := if 1 ≤ n ∧ n ≤ 32 then some n else none

/-- The result data of LANE SETUP: the lane as the order leaves it, before its exchange goes on (R119, log 13). -/
def laneSetupData (n : Fin 12) (discarded : Nat) (l : Lane) : List Byte :=
  [le1 n.val, le1 discarded, le1 l.fill, flagByte l.condition]

def orderLaneSetup (operands : List Byte) (s : State) : OrderEnd :=
  withField (laneOf (fieldAt operands 0 1)) s fun n =>
    withField (readFlag (fieldAt operands 1 1)) s fun enabled =>
      withField (readDirection (fieldAt operands 2 1)) s fun direction =>
        withField (readThreshold (fieldAt operands 3 1)) s fun threshold =>
          withField (readFlag (fieldAt operands 4 1)) s fun flush =>
            if s.laneInUse n then refusal .badState s
            else
              let l := (s.lane n).setup enabled direction threshold flush
              .answered .done (laneSetupData n ((s.lane n).discards direction flush) l) (s.settleLane n l).react

/-- LANE_SETUP (R119). -/
def execLaneSetup (s : State) : Host.Outcome State Fault Refusal := .next (runOrder 0x60 orderLaneSetup s)

def orderLaneStatus (operands : List Byte) (s : State) : OrderEnd :=
  withField (laneOf (fieldAt operands 0 1)) s fun n => .answered .done (s.laneStatusData n) s

/-- LANE_STATUS (R121). -/
def execLaneStatus (s : State) : Host.Outcome State Fault Refusal := .next (runOrder 0x61 orderLaneStatus s)

end Sys2Proof.Machine
end

