-- ==== Sys2Proof/Machine/OrdersMemory.lean ====
section
/-! DEFINITION. The memory orders: PEEK (R104) and POKE (R105). -/

namespace Sys2Proof.Machine

/-- The order becomes the link access, a candidate at the link level, and holds the executor (R60, R104, R105, R178). -/
def State.openAccess (s : State) (start : Addr) (kind : AccessKind) : State :=
  ((s.hold .linkAccess).setAccess
    (some { start := start, kind := kind, level := s.cfg.linkLevel, candidate := true })).react

/-- The range check of PEEK and POKE, and the access it lets through (R104, R105). -/
def rangedAccess (s : State) (operands : List Byte) (count : Nat) (kind : AccessKind) : OrderEnd :=
  let start := fieldAt operands 0 3
  if start + count ≤ s.memorySize then .held (s.openAccess (BitVec.ofNat 24 start) kind) else refusal .outOfRange s

/-- A count of 1 to 192 (R104). -/
def readCount (n : Nat) : Option Nat := if 1 ≤ n ∧ n ≤ 192 then some n else none

def orderPeek (operands : List Byte) (s : State) : OrderEnd :=
  withField (readCount (fieldAt operands 3 1)) s fun count => rangedAccess s operands count (.peek count [])

/-- PEEK (R104). -/
def execPeek (s : State) : Host.Outcome State Fault Refusal := .next (runOrder 0x50 orderPeek s)

def orderPoke (operands : List Byte) (s : State) : OrderEnd :=
  let data := operands.drop 3
  rangedAccess s operands data.length (.poke data)

/-- POKE (R105). -/
def execPoke (s : State) : Host.Outcome State Fault Refusal := .next (runOrder 0x51 orderPoke s)

end Sys2Proof.Machine
end

