-- ==== Sys2Proof/Machine/OrdersNotice.lean ====
section
/-! DEFINITION. The notice orders: ACKNOWLEDGE with its drain (R145, R148) and RESEND (R150). -/

namespace Sys2Proof.Machine

/-- The place in the list of the notice with a number: n - m modulo 65536 below the count, m the oldest's (R141). -/
def NoticeList.place? (l : NoticeList) (n : Half) : Option Nat :=
  match l.list with
  | [] => none
  | oldest :: _ => if (n - oldest.number).toNat < l.list.length then some (n - oldest.number).toNat else none

/-- Remove the k oldest notices; those still queued leave the transmit queue (R148). -/
def NoticeList.remove (l : NoticeList) (k : Nat) : NoticeList :=
  { l with
    list := l.list.drop k
    txQueue := l.txQueue.filter fun n => (l.list.drop k).any fun x => x.number = n }

def State.setNotes (s : State) (l : NoticeList) : State := { s with notes := l }

/-- Does the drain go on: the list has room and a record waits (R145)? -/
def State.drains (s : State) : Bool := s.notes.list.length < noticePlaces && !s.notes.waiting.isEmpty

/-- Between two placements of a drain the scheduler reacts, or it does not: a free value (log 9). After the last placement
the drain has ended, and nothing comes before the answer's counts are read (R148). -/
def State.drainReaction (s : State) : State :=
  if s.drains then
    let t := { s with freeCount := s.freeCount + 1 }
    if Config.drainReacts s.freeCount then t.react else t
  else s

/-- Between the queue change and the firing of one placement of a drain a selection may be made too (section 12.4), where
nothing of it reaches the notice list before the firing (R143): a free value (log 9). -/
def State.firingReaction (s : State) : State :=
  let t := { s with freeCount := s.freeCount + 1 }
  if Config.drainReacts s.freeCount && t.react.notes == t.notes then t.react else t

/-- The consequences of a placement of a drain (R128, R145). -/
def State.drained (s : State) : Record → State
  | .ended r => ((s.requeue r).firingReaction).fireEndAction r.slot
  | .faulted _ => s

/-- The drain: waiting records are placed from the head while the list has room, each with its consequences (R145). The
number placed is counted. One drain places at most as many records as the list has places. -/
def drain : Nat → State → Nat → State × Nat
  | 0, s, placed => (s, placed)
  | fuel + 1, s, placed =>
    if s.notes.list.length < noticePlaces then
      match s.notes.waiting with
      | [] => (s, placed)
      | r :: rest =>
        drain fuel
          (((s.setNotes { s.notes with waiting := rest }).place (.report r)).drained r).drainReaction (placed + 1)
    else (s, placed)

def orderAcknowledge (operands : List Byte) (s : State) : OrderEnd :=
  withField (s.notes.place? (BitVec.ofNat 16 (fieldAt operands 0 2))) s fun k =>
    let t := drain noticePlaces (s.setNotes (s.notes.remove (k + 1))) 0
    .answered .done [le1 (k + 1), le1 t.2, le1 t.1.notes.list.length, le1 t.1.notes.waiting.length] t.1.react

/-- ACKNOWLEDGE (R148). -/
def execAcknowledge (s : State) : Host.Outcome State Fault Refusal := .next (runOrder 0x80 orderAcknowledge s)

/-- Numbers of the notices that are not queued, oldest first (R150). -/
def NoticeList.unqueued (l : NoticeList) : List Half := (l.list.filter fun x => !x.queued).map Notice.number

/-- Every unqueued notice is queued, oldest first; the queued ones keep their place (R150). -/
def NoticeList.resend (l : NoticeList) : NoticeList :=
  { l with
    list := l.list.map fun x => { x with queued := true }
    txQueue := l.txQueue ++ l.unqueued }

/-- The oldest notice's number, 0000h where the list is empty (R150, R189). -/
def NoticeList.oldestBytes (l : NoticeList) : List Byte := le2 (l.list.head?.map (fun x => x.number.toNat) |>.getD 0)

def orderResend (_ : List Byte) (s : State) : OrderEnd :=
  .answered .done ([le1 s.notes.unqueued.length, le1 s.notes.list.length] ++ s.notes.oldestBytes)
    (s.setNotes s.notes.resend)

/-- RESEND (R150). -/
def execResend (s : State) : Host.Outcome State Fault Refusal := .next (runOrder 0x81 orderResend s)

end Sys2Proof.Machine
end

