-- ==== Sys2Proof/Machine/OrdersPart.lean ====
section
/-! DEFINITION. The orders that act on the part as a whole: HELLO (R179), CONFIGURE (R180), SUMMARY (R181), RESET PART
(R183). -/

namespace Sys2Proof.Machine

def orderHello (_ : List Byte) (s : State) : OrderEnd := .answered .done s.helloData s

/-- HELLO (R179). -/
def execHello (s : State) : Host.Outcome State Fault Refusal := .next (runOrder 0x01 orderHello s)

/-- A grant-wait limit of 1 or more (R180). -/
def readLimit (n : Nat) : Option Nat := if 1 ≤ n then some n else none

/-- Link level and grant-wait limit as a CONFIGURE answer writes them (R189). -/
def levelAndLimit (level limit : Nat) : List Byte := [le1 level] ++ le2 limit

/-- Both values are set as one step (R180). -/
def State.configure (s : State) (level limit : Nat) : State :=
  { s with cfg.linkLevel := level, cfg.grantLimit := limit }

def orderConfigure (operands : List Byte) (s : State) : OrderEnd :=
  withField (readLevel (fieldAt operands 0 1)) s fun level =>
    withField (readLimit (fieldAt operands 1 2)) s fun limit =>
      .answered .done (levelAndLimit level limit ++ levelAndLimit s.cfg.linkLevel s.cfg.grantLimit)
        (s.configure level limit)

/-- CONFIGURE (R180). -/
def execConfigure (s : State) : Host.Outcome State Fault Refusal := .next (runOrder 0x02 orderConfigure s)

def orderSummary (_ : List Byte) (s : State) : OrderEnd := .answered .done s.summaryData s

/-- SUMMARY (R181). -/
def execSummary (s : State) : Host.Outcome State Fault Refusal := .next (runOrder 0x03 orderSummary s)

/-- RESET PART: from now on completed frames are discarded (R172), and the order stays in hand until its DONE answer has
been sent (R178, R183). -/
def orderResetPart (_ : List Byte) (s : State) : OrderEnd := .answered .done [] (s.hold .resetPart)

/-- RESET_PART (R183). -/
def execResetPart (s : State) : Host.Outcome State Fault Refusal := .next (runOrder 0x0F orderResetPart s)

end Sys2Proof.Machine
end

