-- ==== Sys2Proof/Machine/OrdersQueue.lean ====
section
/-! DEFINITION. The queue orders: BIND (R45, R46), UNBIND (R48, R49), QUEUE LIST (R55). -/

namespace Sys2Proof.Machine

/-- A LOADED slot joins the tail of a queue: CURRENT as its head, BOUND behind others (R42, R46). -/
def State.bindSlot (s : State) (i : Fin 64) (q : Fin 28) : State :=
  (s.setQueue q (s.queue q ++ [i])).setState i (if (s.queue q).isEmpty then .current else .bound)

def orderBind (operands : List Byte) (s : State) : OrderEnd :=
  withSlot operands s fun i =>
    withField (sourceNumber (fieldAt operands 1 1)) s fun q =>
      if !s.inState i .loaded then refusal .badState s
      else if s.waitingMark i then refusal .noticeWaiting s
      else
        let t := s.bindSlot i q
        .answered .done [slotByte i, le1 q.val, le1 (s.queue q).length, (t.slot i).code] t.react

/-- BIND (R46). -/
def execBind (s : State) : Host.Outcome State Fault Refusal := .next (runOrder 0x30 orderBind s)

def orderUnbind (operands : List Byte) (s : State) : OrderEnd :=
  withSlot operands s fun i =>
    match s.slot i with
    | .live .bound _ p | .live .current _ p | .live .faulted _ p =>
      .answered .done ([slotByte i] ++ s.membershipBytes i ++ le3 p.remaining) (s.takeOut i).react
    | _ => refusal .badState s

/-- UNBIND (R49). -/
def execUnbind (s : State) : Host.Outcome State Fault Refusal := .next (runOrder 0x31 orderUnbind s)

def orderQueueList (operands : List Byte) (s : State) : OrderEnd :=
  withField (sourceNumber (fieldAt operands 0 1)) s fun q => .answered .done (s.queueListData q) s

/-- QUEUE_LIST (R55). -/
def execQueueList (s : State) : Host.Outcome State Fault Refusal := .next (runOrder 0x32 orderQueueList s)

end Sys2Proof.Machine
end

