-- ==== Sys2Proof/Machine/OrdersRecovery.lean ====
section
/-! DEFINITION. The recovery orders: CANCEL (R136 to R138), RETRY (R134), SKIP (R135). -/

namespace Sys2Proof.Machine

/-- The stack without a slot's entry, the others in their order (R77). -/
def State.unstack (s : State) (i : Fin 64) : State :=
  s.setStack (s.sched.stack.filter fun e => e.owner != .slot i)

/-- The burst in hand is cancelled at once: an ASKING mover lowers its request, and the burst is cleared (R101, R137). -/
def State.dropBurst (s : State) : State :=
  if s.mover.state = .asking then s.lowerRequest.clearBurst else s.clearBurst

/-- The descriptor leaves its queue as LOADED, and the answer is DONE (R136). -/
def cancelled (s t : State) (i : Fin 64) : OrderEnd :=
  .answered .done (cancelData i (s.slot i).code (s.slot i)) (t.takeOut i).react

def orderCancel (operands : List Byte) (s : State) : OrderEnd :=
  withSlot operands s fun i =>
    match s.slot i with
    | .free | .live .loaded _ _ | .live .spent _ _ | .live .held _ _ => refusal .badState s
    | .live .bound _ _ | .live .current _ _ | .live .faulted _ _ => cancelled s s i
    | .live .preempted _ _ => cancelled s (s.unstack i) i
    | .live .active _ _ => if s.mover.unit.isSome then .held (s.hold (.cancel i)) else cancelled s s.dropBurst i

/-- CANCEL (R136). -/
def execCancel (s : State) : Host.Outcome State Fault Refusal := .next (runOrder 0x70 orderCancel s)

def orderRetry (operands : List Byte) (s : State) : OrderEnd :=
  withSlot operands s fun i =>
    match s.slot i with
    | .live .faulted d p =>
      if s.waitingMark i then refusal .noticeWaiting s
      else
        .answered .done ([slotByte i] ++ le3 p.remaining)
          (s.setSlot i (.live .current d { p with lastFault := none })).react
    | _ => refusal .badState s

/-- RETRY (R134). -/
def execRetry (s : State) : Host.Outcome State Fault Refusal := .next (runOrder 0x71 orderRetry s)

def orderSkip (operands : List Byte) (s : State) : OrderEnd :=
  withSlot operands s fun i =>
    match s.slot i with
    | .live .faulted _ p =>
      .answered .done ([slotByte i] ++ le3 p.committed ++ le3 p.remaining) (s.removeHead (s.sourceOf i) .spent).react
    | _ => refusal .badState s

/-- SKIP (R135). -/
def execSkip (s : State) : Host.Outcome State Fault Refusal := .next (runOrder 0x72 orderSkip s)

end Sys2Proof.Machine
end

