-- ==== Sys2Proof/Machine/OrdersScheduler.lean ====
section
/-! DEFINITION. The scheduler orders: FREEZE (R79, R81) and THAW (R83). -/

namespace Sys2Proof.Machine

/-- FREEZE with a descriptor's burst in hand: cut at once where no unit is in progress, and otherwise held until the
unit's boundary (R79). -/
def State.freezeBurst (s : State) (i : Fin 64) : OrderEnd :=
  if s.mover.unit.isSome then .held ((s.setFreeze .freezing).hold .freeze)
  else .answered .done (freezeData (some i) s.sched.stack.length) ((s.endCurrent i).lowerRequest.rest.setFreeze .frozen)

/-- FREEZE by the freeze state and the burst in hand (R79, R81). FREEZING never meets it (R81) and neither does a link
access in hand (R79); the model keeps the first held and cuts nothing for the second (log 20). -/
def orderFreeze (_ : List Byte) (s : State) : OrderEnd :=
  match s.sched.freeze with
  | .frozen => .answered .done (freezeData none s.sched.stack.length) s
  | .freezing => .held (s.hold .freeze)
  | .running =>
    match s.sched.burst with
    | some { owner := .slot i, .. } => s.freezeBurst i
    | some { owner := .link, .. } | none =>
      .answered .done (freezeData none s.sched.stack.length) (s.setFreeze .frozen)

/-- FREEZE (R79). -/
def execFreeze (s : State) : Host.Outcome State Fault Refusal := .next (runOrder 0x40 orderFreeze s)

def orderThaw (_ : List Byte) (s : State) : OrderEnd :=
  match s.sched.freeze with
  | .frozen => .answered .done [] (s.setFreeze .running).react
  | .running | .freezing => .answered .done [] s

/-- THAW (R83). -/
def execThaw (s : State) : Host.Outcome State Fault Refusal := .next (runOrder 0x41 orderThaw s)

end Sys2Proof.Machine
end

