-- ==== Sys2Proof/Machine/OrdersSource.lean ====
section
/-! DEFINITION. The source orders: TRIGGER (R36), LINE SETUP (R32), TIMER SETUP (R34), TIMER START and TIMER STOP (R35),
SOURCE STATUS (R38), SOURCE CLEAR (R39). An order that can make a source pending ends with the scheduler's reaction. -/

namespace Sys2Proof.Machine

def orderTrigger (operands : List Byte) (s : State) : OrderEnd :=
  withField (softOf (fieldAt operands 0 1)) s fun n =>
    let q := softSource n
    if s.count q < 3 then .answered .done [le1 (s.count q + 1)] (s.setCount q (s.count q + 1)).react
    else refusal .pendingFull s

/-- TRIGGER (R36). -/
def execTrigger (s : State) : Host.Outcome State Fault Refusal := .next (runOrder 0x20 orderTrigger s)

/-- The line takes a mode, a count of 0 and a fresh reference level (R32, log 19). -/
def State.setupLine (s : State) (n : Fin 4) (mode : LineMode) : State :=
  (s.setLine n { mode := mode, high := (s.line n).high, reference := some (s.line n).high }).setCount (lineSource n) 0

def orderLineSetup (operands : List Byte) (s : State) : OrderEnd :=
  withField (lineOf (fieldAt operands 0 1)) s fun n =>
    withField (readLineMode (fieldAt operands 1 1)) s fun mode =>
      .answered .done [flagByte (s.line n).high] (s.setupLine n mode).react

/-- LINE_SETUP (R32). -/
def execLineSetup (s : State) : Host.Outcome State Fault Refusal := .next (runOrder 0x21 orderLineSetup s)

/-- A period of 1 to 1,000,000 steps (R34). -/
def readPeriod (n : Nat) : Option Nat := if 1 ≤ n ∧ n ≤ 1000000 then some n else none

def orderTimerSetup (operands : List Byte) (s : State) : OrderEnd :=
  withField (lineOf (fieldAt operands 0 1)) s fun n =>
    withField (readPeriod (fieldAt operands 1 3)) s fun period =>
      withField (readTimerMode (fieldAt operands 4 1)) s fun mode =>
        .answered .done [] (s.setTimer n { period := period, mode := mode, left := none })

/-- TIMER_SETUP (R34). -/
def execTimerSetup (s : State) : Host.Outcome State Fault Refusal := .next (runOrder 0x22 orderTimerSetup s)

def orderTimerStart (operands : List Byte) (s : State) : OrderEnd :=
  withField (lineOf (fieldAt operands 0 1)) s fun n =>
    .answered .done [] (s.setTimer n { s.timer n with left := some (s.timer n).period })

/-- TIMER_START (R35). -/
def execTimerStart (s : State) : Host.Outcome State Fault Refusal := .next (runOrder 0x23 orderTimerStart s)

def orderTimerStop (operands : List Byte) (s : State) : OrderEnd :=
  withField (lineOf (fieldAt operands 0 1)) s fun n =>
    .answered .done [] (s.setTimer n { s.timer n with left := none })

/-- TIMER_STOP (R35). -/
def execTimerStop (s : State) : Host.Outcome State Fault Refusal := .next (runOrder 0x24 orderTimerStop s)

def orderSourceStatus (operands : List Byte) (s : State) : OrderEnd :=
  withField (sourceNumber (fieldAt operands 0 1)) s fun q => .answered .done (s.sourceStatusData q) s

/-- SOURCE_STATUS (R38). -/
def execSourceStatus (s : State) : Host.Outcome State Fault Refusal := .next (runOrder 0x25 orderSourceStatus s)

/-- The counts of a source after SOURCE CLEAR: a condition source has no pending count to clear (R39). -/
def State.clearSource (s : State) (q : Fin 28) : State :=
  if s.isCondition q then s.clearMiss q else (s.clearMiss q).setCount q 0

def orderSourceClear (operands : List Byte) (s : State) : OrderEnd :=
  withField (sourceNumber (fieldAt operands 0 1)) s fun q =>
    .answered .done [s.pendingCountByte q, le1 (s.miss q)] (s.clearSource q)

/-- SOURCE_CLEAR (R39). -/
def execSourceClear (s : State) : Host.Outcome State Fault Refusal := .next (runOrder 0x26 orderSourceClear s)

end Sys2Proof.Machine
end

