-- ==== Sys2Proof/Machine/Dispatch.lean ====
section
/-! DEFINITION. The meaning of every command: one arm per row of the table. -/

namespace Sys2Proof.Machine

def exec (i : Instr) (s : State) : Host.Outcome State Fault Refusal :=
  match i with
  | .resetLow => Sys2Proof.Machine.execResetLow s
  | .resetRelease baud msize => Sys2Proof.Machine.execResetRelease baud msize s
  | .receiveFrame body check => Sys2Proof.Machine.execReceiveFrame body check s
  | .interByteTimeout => Sys2Proof.Machine.execInterByteTimeout s
  | .stopBitLow => Sys2Proof.Machine.execStopBitLow s
  | .transmitFrame => Sys2Proof.Machine.execTransmitFrame s
  | .frameSent => Sys2Proof.Machine.execFrameSent s
  | .lineLevelChange line high => Sys2Proof.Machine.execLineLevelChange line high s
  | .timerExpiry timer => Sys2Proof.Machine.execTimerExpiry timer s
  | .grantAsserted => Sys2Proof.Machine.execGrantAsserted s
  | .grantDeasserted => Sys2Proof.Machine.execGrantDeasserted s
  | .grantWaitExpiry => Sys2Proof.Machine.execGrantWaitExpiry s
  | .unitBoundary => Sys2Proof.Machine.execUnitBoundary s
  | .lnstbAsserted lane data => Sys2Proof.Machine.execLnstbAsserted lane data s
  | .lnstbDeasserted lane => Sys2Proof.Machine.execLnstbDeasserted lane s
  | .lnackAsserted lane => Sys2Proof.Machine.execLnackAsserted lane s
  | .lnackDeasserted lane => Sys2Proof.Machine.execLnackDeasserted lane s
  | .unknownOrder => Sys2Proof.Machine.execUnknownOrder s
  | .define => Sys2Proof.Machine.execDefine s
  | .inspect => Sys2Proof.Machine.execInspect s
  | .rearm => Sys2Proof.Machine.execRearm s
  | .release => Sys2Proof.Machine.execRelease s
  | .trigger => Sys2Proof.Machine.execTrigger s
  | .lineSetup => Sys2Proof.Machine.execLineSetup s
  | .timerSetup => Sys2Proof.Machine.execTimerSetup s
  | .timerStart => Sys2Proof.Machine.execTimerStart s
  | .timerStop => Sys2Proof.Machine.execTimerStop s
  | .sourceStatus => Sys2Proof.Machine.execSourceStatus s
  | .sourceClear => Sys2Proof.Machine.execSourceClear s
  | .bind => Sys2Proof.Machine.execBind s
  | .unbind => Sys2Proof.Machine.execUnbind s
  | .queueList => Sys2Proof.Machine.execQueueList s
  | .freeze => Sys2Proof.Machine.execFreeze s
  | .thaw => Sys2Proof.Machine.execThaw s
  | .peek => Sys2Proof.Machine.execPeek s
  | .poke => Sys2Proof.Machine.execPoke s
  | .laneSetup => Sys2Proof.Machine.execLaneSetup s
  | .laneStatus => Sys2Proof.Machine.execLaneStatus s
  | .cancel => Sys2Proof.Machine.execCancel s
  | .retry => Sys2Proof.Machine.execRetry s
  | .skip => Sys2Proof.Machine.execSkip s
  | .acknowledge => Sys2Proof.Machine.execAcknowledge s
  | .resend => Sys2Proof.Machine.execResend s
  | .hello => Sys2Proof.Machine.execHello s
  | .configure => Sys2Proof.Machine.execConfigure s
  | .summary => Sys2Proof.Machine.execSummary s
  | .resetPart => Sys2Proof.Machine.execResetPart s
  | .byteReceived data => Sys2Proof.Machine.execByteReceived data s

end Sys2Proof.Machine
end

