-- ==== Sys2Proof/Machine/Pins.lean ====
section
/-! DEFINITION. What the part drives on its pins, as functions of the state (R91, R111, R112, R122, R153, R185). The state holds
none of it a second time. -/

namespace Sys2Proof.Machine

/-- MREQ# is driven low exactly while the request is raised; it is high while RESET# is low (R85, R185). -/
def State.requestOut (s : State) : Bool := !s.resetLow && s.mover.request

/-- The part drives the address, data, parity, strobe and byte-enable lines: from the grant seen with its request raised
until it lowers the request (R91). -/
def State.memoryLinesDriven (s : State) : Bool :=
  s.requestOut && (s.mover.state == .moving || s.mover.state == .yielding)

/-- LnSTB asserted by the part: an OUT lane's standing offer (R112, R122). -/
def State.strobeOut (s : State) (n : Fin 12) : Bool :=
  !s.resetLow && (s.lane n).direction == .outgoing && (s.lane n).phase == .offered

/-- LnACK asserted by the part: an IN lane that has taken a byte (R111, R122). -/
def State.ackOut (s : State) (n : Fin 12) : Bool :=
  !s.resetLow && (s.lane n).direction == .incoming && (s.lane n).phase == .taken

/-- The byte the part drives on LnD7:0: the head of the FIFO while it is offered (R112). -/
def State.dataOut (s : State) (n : Fin 12) : Option Byte := if s.strobeOut n then (s.lane n).fifo.head? else none

/-! ## The characters of the line (R153) -/

/-- The frame on TXD; none while RESET# is low (R153, R185). -/
def State.frameOut (s : State) : Option (List Byte) := if s.resetLow then none else s.link.tx.map Frame.encode

/-- The levels of a character, one a bit time, true for high: a start bit low, eight data bits with the least significant
first, a stop bit high (R153). -/
def charBits (b : Byte) : List Bool := false :: (List.range 8).map (fun k => b.getLsbD k) ++ [true]

/-- The levels of the frame in progress on TXD, its bytes back to back (R153). -/
def State.bitsOut (s : State) : List Bool := (s.frameOut.getD []).flatMap charBits

/-- The level of TXD in bit time k after the start of the frame in progress: the line idles high, and is held high while
RESET# is low (R153, R185). -/
def State.txd (s : State) (k : Nat) : Bool := s.bitsOut.getD k true

/-- The byte of eight data bits, the least significant first. -/
def byteOfBits (bits : List Bool) : Byte := bits.foldr (fun b x => (x <<< 1) ||| (if b then 1 else 0)) 0

/-- The event a character on RXD gives as its stop bit is sampled: a byte, or a stop bit that is low (R153, R158). What does
not open with a start bit is no character. -/
def readChar : List Bool → Option Instr
  | [false, b0, b1, b2, b3, b4, b5, b6, b7, stop] =>
    if stop then some (.byteReceived (byteOfBits [b0, b1, b2, b3, b4, b5, b6, b7])) else some .stopBitLow
  | _ => none

/-! ## The memory bus (R91) -/

/-- A bus cycle: write or read, the lines MA19:0, what travels on MD7:0 with MP0 while MBE0# selects it, and what travels on
MD15:8 with MP1 while MBE1# selects it; none where the enable is high (R91). -/
structure BusCycle where
  write : Bool
  address : BitVec 20
  low : Option MemByte
  high : Option MemByte
  deriving DecidableEq, Repr

/-- The cycles in which bytes travel at an address and the ones above it: a byte at an even address on the low half of the
bus, one at an odd address on the high half, an even byte and the one above it in one cycle, lower addresses first (R91). -/
def busCycles (write : Bool) (a : Nat) : List MemByte → List BusCycle
  | [] => []
  | [x] =>
    if a % 2 = 0 then [{ write := write, address := BitVec.ofNat 20 a, low := some x, high := none }]
    else [{ write := write, address := BitVec.ofNat 20 a, low := none, high := some x }]
  | x :: y :: rest =>
    if a % 2 = 0 then
      { write := write, address := BitVec.ofNat 20 a, low := some x, high := some y } :: busCycles write (a + 2) rest
    else
      { write := write, address := BitVec.ofNat 20 a, low := none, high := some x } ::
        busCycles write (a + 1) (y :: rest)

/-- The cycles that read n bytes at an address: the memory drives each with its parity bit (R91, R103). -/
def State.readCycles (s : State) (a : Addr) (n : Nat) : List BusCycle :=
  busCycles false a.toNat (s.mem.readBytes a.toNat n)

/-- The cycles that write bytes at an address: the part drives each with its parity bit (R91, R102). -/
def writeCycles (a : Addr) (bytes : List Byte) : List BusCycle := busCycles true a.toNat (bytes.map MemByte.ofData)

/-- The memory access of a unit: a COPY reads side A and then, where every byte passes its check, writes side B; a RELAY
makes none (R89, R91). -/
def State.unitCycles (s : State) (u : UnitInProgress) : List BusCycle :=
  match u.op with
  | .capture _ a _ | .poke a => writeCycles a u.buffer
  | .playout _ a size => s.readCycles a size.bytes
  | .copy a b size =>
    let bytes := s.mem.readBytes a.toNat size.bytes
    s.readCycles a size.bytes ++ if (firstBad a.toNat bytes).isNone then writeCycles b (bytes.map MemByte.data) else []
  | .relay _ _ _ => []
  | .peek a => s.readCycles a 1

/-- The memory access of the unit in progress (R90, R91). -/
def State.cyclesOut (s : State) : List BusCycle := (s.mover.unit.map s.unitCycles).getD []

end Sys2Proof.Machine
end

