-- ==== Sys2Proof/Safety.lean ====
section
/-! DEFINITION. What the data book says of every state of the part, as properties of a state: the statements of
Certificates/Slice0/Obligations.lean say that every step keeps them. -/

namespace Sys2Proof.Machine

/-! ## What a reaction of the scheduler leaves alone -/

/-- The parts of the state that no selection, no start or end of a burst and no making of a record changes: the waiting
commands, RESET#, the grant, the place in the 10 us step, the settings, the link port, the order in hand, the lines, the
timers, the lanes, the memory and the counter of free values. -/
def State.still (s : State) :=
  (s.pending, s.resetLow, s.grant, s.timePhase, s.cfg, s.link, s.inHand, s.trig.lines, s.trig.timers, s.lanes, s.mem,
    s.freeCount)

/-! ## Reset values (R2, R40, R56, R84, R108, R122, R152, R173, R186) -/

/-- Every block at the reset values its rule gives, and the RESTART notice with its reason alone in the list. -/
def State.atResetValues (s : State) (reason : ResetReason) : Prop :=
  (∀ i : Fin 64, s.slot i = .free) ∧ (∀ q : Fin 28, s.count q = 0 ∧ s.miss q = 0) ∧
    (∀ n : Fin 4, (s.line n).mode = .off ∧ (s.line n).reference = none) ∧
    (∀ n : Fin 4, s.timer n = { period := 1, mode := .periodic, left := none }) ∧
    s.sched = { queues := Vector.replicate 28 [], burst := none, stack := [], freeze := .running, access := none } ∧
    s.mover = { state := .idle, request := false, timer := none, unit := none } ∧
    (∀ n : Fin 12, (s.lane n).enabled = false ∧ (s.lane n).direction = .incoming ∧ (s.lane n).threshold = 1 ∧
      (s.lane n).fifo = [] ∧ (s.lane n).phase = .ready) ∧
    s.notes =
      { list := [{ number := 0, body := .restart reason s.memorySize revision, queued := true }], next := 1,
        waiting := [], txQueue := [0] } ∧
    s.link =
      { rx := .hunt, rxTimer := none, expected := 0, table := [], refusals := [], answers := [], tx := none } ∧
    s.inHand = none ∧ s.cfg.linkLevel = 1 ∧ s.cfg.grantLimit = 1000

/-- The receiver stands in HUNT, and completed frames are acted on (R156, R172). -/
def State.listening (s : State) : Prop :=
  s.resetLow = false ∧ s.link.rx = .hunt ∧ s.link.rxTimer = none ∧ s.resetInHand = false

/-- An address outside the destination bytes of the unit in progress, if there is one (R108). -/
def State.outsideUnit (s : State) (a : Nat) : Prop :=
  ∀ u, s.mover.unit = some u → ∀ b n, s.destination u = some (b, n) → a < b ∨ b + n ≤ a

/-- The fields of a record are those the data book gives a kind (R3). -/
def Transfer.legal : Transfer → Prop
  | .capture _ block _ _ | .playout _ block _ _ | .copy _ block _ _ => 1 ≤ block ∧ block ≤ 256
  | .relay _ block n m => 1 ≤ block ∧ block ≤ 256 ∧ n ≠ m
  | .tally => True

def Descriptor.legal (d : Descriptor) : Prop :=
  1 ≤ d.level ∧ d.level ≤ 6 ∧ 1 ≤ d.total ∧ d.total ≤ 65536 ∧ d.transfer.legal

/-! ## Counts (R24, R25, R109) -/

/-- Pending counts are 0 to 3 and miss counts 0 to 255 (R24, R25). -/
def State.countsBounded (s : State) : Prop := ∀ q : Fin 28, s.count q ≤ 3 ∧ s.miss q ≤ 255

/-- Every lane's fill is 0 to 32 and its threshold 1 to 32 (R109, R110). -/
def State.lanesBounded (s : State) : Prop :=
  ∀ n : Fin 12, (s.lane n).fill ≤ fifoSize ∧ 1 ≤ (s.lane n).threshold ∧ (s.lane n).threshold ≤ 32

/-! ## Notices (R141, R145, R147) -/

/-- The n numbers from m on, modulo the width of the number. -/
def numbersFrom {w : Nat} (m : BitVec w) : Nat → List (BitVec w)
  | 0 => []
  | n + 1 => m :: numbersFrom (m + 1) n

/-- At most 32 notices, numbered consecutively up to the number below the next one (R141). -/
def NoticeList.numbered (l : NoticeList) : Prop :=
  l.list.length ≤ noticePlaces ∧
    l.list.map Notice.number = numbersFrom (l.next - BitVec.ofNat 16 l.list.length) l.list.length

/-- The transmit queue holds each queued notice once and no other (R147). -/
def NoticeList.queuedOnce (l : NoticeList) : Prop :=
  l.txQueue.Nodup ∧ ∀ n : Half, n ∈ l.txQueue ↔ ∃ x ∈ l.list, x.number = n ∧ x.queued = true

/-- A record waits only while the list is full (R145). -/
def NoticeList.waitsOnlyWhenFull (l : NoticeList) : Prop := l.waiting = [] ∨ l.list.length = noticePlaces

/-! ## The host link (R160, R168 to R170) -/

/-- At most 8 entries, numbered consecutively up to E - 1 (R160). -/
def LinkPort.tableNumbered (l : LinkPort) : Prop :=
  l.table.length ≤ orderTableSize ∧
    l.table.map Entry.number = numbersFrom (l.expected - BitVec.ofNat 8 l.table.length) l.table.length

/-- The queues of the transmitter keep their capacities (R168). -/
def LinkPort.queuesBounded (l : LinkPort) : Prop :=
  l.refusals.length ≤ refusalPlaces ∧ l.answers.length ≤ answerPlaces

/-- While RESET# is high the executor has an order in hand, or the table holds none it has not taken (R174). -/
def State.ordersTaken (s : State) : Prop :=
  s.resetLow = false → s.inHand = none → ∀ e ∈ s.link.table, ∀ order, e.status ≠ .pending (some order)

/-! ## Scheduler and mover (R57, R75, R85, R182) -/

/-- The levels of a stack, top first, fall strictly from below a bound (R75). -/
def stackBelow : Nat → List StackEntry → Prop
  | _, [] => True
  | bound, e :: rest => e.level < bound ∧ stackBelow e.level rest

/-- The stack's levels strictly rise from bottom to top and lie below the level of the burst in hand (R75). -/
def State.stackOrdered (s : State) : Prop :=
  match s.sched.burst with
  | some b => stackBelow b.level s.sched.stack
  | none =>
    match s.sched.stack with
    | [] => True
    | e :: rest => stackBelow e.level rest

/-- What the table of R85 says of the mover in each state, with the burst in hand (R85, R94, R97, R182). -/
def State.moverLegal (s : State) : Prop :=
  match s.mover.state with
  | .idle => s.sched.burst = none ∧ s.mover.request = false ∧ s.mover.timer = none ∧ s.mover.unit = none
  | .asking =>
    s.sched.burst ≠ none ∧ s.mover.request = true ∧ s.mover.timer ≠ none ∧ s.mover.unit = none ∧ s.grant = false
  | .moving => s.sched.burst ≠ none ∧ s.mover.timer = none
  | .yielding => s.sched.burst ≠ none ∧ s.mover.timer = none ∧ (s.mover.unit = none → s.mover.request = false)

/-- What the table of R85 says of the request, with the burst in hand: raised while MOVING exactly for a burst that needs
memory; ASKING and YIELDING only for one that does, YIELDING raised until its unit has ended, then lowered until the grant
is seen deasserted (R85, R94, R96, R97). -/
def State.moverServes (s : State) : Prop :=
  match s.mover.state with
  | .idle => True
  | .asking => ∀ b, s.sched.burst = some b → s.burstNeedsMemory b = true
  | .moving => ∀ b, s.sched.burst = some b → s.mover.request = s.burstNeedsMemory b
  | .yielding =>
    (∀ b, s.sched.burst = some b → s.burstNeedsMemory b = true) ∧ (s.mover.unit ≠ none → s.mover.request = true) ∧
      (s.mover.unit = none → s.grant = true)

/-! ## Levels (R3, R60, R75, R180) -/

/-- A level is 1 to 6. -/
def levelLegal (n : Nat) : Prop := 1 ≤ n ∧ n ≤ 6

/-- Every level the part holds is 1 to 6. -/
def State.levelsLegal (s : State) : Prop :=
  levelLegal s.cfg.linkLevel ∧
    (∀ i : Fin 64, ∀ st d p, s.slot i = .live st d p → levelLegal d.level) ∧
    (∀ a, s.sched.access = some a → levelLegal a.level) ∧
    (∀ b, s.sched.burst = some b → levelLegal b.level) ∧ ∀ e ∈ s.sched.stack, levelLegal e.level

/-! ## Queues and descriptor states (R13, R14, R41, R57, R75, R144) -/

/-- The states of a slot that is a member of a queue (R14, R41). -/
def LiveState.queued : LiveState → Bool
  | .bound | .current | .active | .preempted | .held | .faulted => true
  | .loaded | .spent => false

/-- A slot is in a queue exactly while its state says so (R41). -/
def State.membersMatch (s : State) : Prop :=
  ∀ i : Fin 64, (∃ q : Fin 28, i ∈ s.queue q) ↔ ∃ st, (s.slot i).state = some st ∧ st.queued = true

/-- A slot is in at most one queue and at most once (R41). -/
def State.membersOnce (s : State) : Prop :=
  (∀ q : Fin 28, (s.queue q).Nodup) ∧ ∀ q r : Fin 28, q ≠ r → ∀ i ∈ s.queue q, i ∉ s.queue r

/-- The head of a queue is not BOUND and every other member is (R41). -/
def State.headsLead (s : State) : Prop :=
  ∀ q : Fin 28, ∀ h rest, s.queue q = h :: rest → ¬ s.inState h .bound ∧ ∀ i ∈ rest, s.inState i .bound

/-- A slot is ACTIVE exactly while it owns the burst in hand (R57). -/
def State.activeOwns (s : State) : Prop :=
  ∀ i : Fin 64, s.inState i .active ↔ ∃ b, s.sched.burst = some b ∧ b.owner = .slot i

/-- The stack holds one entry of a slot while the slot is PREEMPTED, and none otherwise (R75). -/
def State.preemptedStands (s : State) : Prop :=
  ∀ i : Fin 64,
    s.sched.stack.countP (fun e => e.owner = .slot i) = if s.inState i .preempted then 1 else 0

/-- A slot is HELD exactly while its END record waits, that record names the queue it heads, a slot whose FAULT record
waits is FAULTED, LOADED or SPENT, and no slot has two records waiting (R125, R129, R133, R144). -/
def State.recordsMatch (s : State) : Prop :=
  (s.notes.waiting.map Record.slot).Nodup ∧
    (∀ i : Fin 64, s.inState i .held ↔ ∃ r, Record.ended r ∈ s.notes.waiting ∧ r.slot = i) ∧
    (∀ r, Record.ended r ∈ s.notes.waiting → (s.queue r.source).head? = some r.slot) ∧
    ∀ r, Record.faulted r ∈ s.notes.waiting →
      s.inState r.slot .faulted ∨ s.inState r.slot .loaded ∨ s.inState r.slot .spent

/-- committed + remaining is the total, and remaining is 1 or more but for HELD and SPENT (R13). -/
def State.progressAdds (s : State) : Prop :=
  ∀ i : Fin 64, ∀ st d p, s.slot i = .live st d p →
    1 ≤ d.total ∧ p.committed + p.remaining = d.total ∧ (st ≠ .held → st ≠ .spent → 1 ≤ p.remaining) ∧
      (st = .held → p.remaining = 0)

/-- The laws of the descriptor states taken together, as every step finds and leaves them (R13, R41, R57, R75, R144). -/
def State.slotLaws (s : State) : Prop :=
  s.membersMatch ∧ s.membersOnce ∧ s.headsLead ∧ s.activeOwns ∧ s.preemptedStands ∧ s.recordsMatch ∧ s.progressAdds

/-! ## Held orders, walks and the units in progress (R10, R19, R68, R92, R104, R105, R178) -/

/-- What holds the order in hand is what the part is doing for it: the link access, FREEZING, a cancelled slot's unit in
progress, or its answer's wait for room (R68, R79, R138, R178). -/
def State.holdsMatch (s : State) : Prop :=
  match s.inHand with
  | none => s.sched.access = none ∧ s.sched.freeze ≠ .freezing
  | some h =>
    (s.sched.access ≠ none ↔ h.task = .linkAccess) ∧ (s.sched.freeze = .freezing ↔ h.task = .freeze) ∧
      (h.waiting ≠ none → h.task = .carriedOut ∨ h.task = .resetPart) ∧ (h.task = .carriedOut → h.waiting ≠ none) ∧
      ∀ i, h.task = .cancel i → s.inState i .active = true ∧ s.mover.unit ≠ none

/-- The address of unit k of a walk, modulo 1000000h (R7). -/
def Side.unitAddress (sd : Side) (unit k : Nat) : Addr :=
  match sd.walk with
  | .ascend => sd.start + BitVec.ofNat 24 (k * unit)
  | .descend => sd.start - BitVec.ofNat 24 (k * unit)
  | .hold => sd.start

/-- Every record's walks lie aligned inside the memory, and its next addresses are those of the unit after the committed
ones (R9, R10, R18, R19). -/
def State.walksPlaced (s : State) : Prop :=
  ∀ i : Fin 64, ∀ st d p, s.slot i = .live st d p →
    d.inside s.memorySize = true ∧ d.transfer.aligned = true ∧
      p.nextA = d.transfer.sideA?.map (fun a => a.unitAddress d.transfer.unitBytes p.committed) ∧
      p.nextB = d.transfer.sideB?.map fun b => b.unitAddress d.transfer.unitBytes p.committed

/-- The memory bytes of a unit lie inside the memory, and the buffer of a unit that writes holds its bytes (R87, R92). -/
def UnitInProgress.inside (u : UnitInProgress) (size : Nat) : Prop :=
  match u.op with
  | .capture _ a unit => a.toNat + unit.bytes ≤ size ∧ u.buffer.length = unit.bytes
  | .playout _ a unit => a.toNat + unit.bytes ≤ size
  | .copy a b unit => a.toNat + unit.bytes ≤ size ∧ b.toNat + unit.bytes ≤ size
  | .relay _ _ _ => True
  | .peek a => a.toNat + 1 ≤ size
  | .poke a => a.toNat + 1 ≤ size ∧ u.buffer.length = 1

/-- The places a link access stands in: a candidate, the owner of the burst in hand, an entry of the stack (R60, R68). -/
def State.linkPlaces (s : State) : Nat :=
  (if s.sched.access.any LinkAccess.candidate then 1 else 0) +
    (if s.sched.burst.any (fun b => b.owner = .link) then 1 else 0) +
    s.sched.stack.countP fun e => e.owner = .link

/-- The link access stands in exactly one place, and in none when there is no link access; it lies inside the memory, and
its burst or its stack entry has bytes left to move (R60, R68, R104, R105). -/
def State.accessPlaced (s : State) : Prop :=
  s.linkPlaces = (if s.sched.access.isSome then 1 else 0) ∧
    (∀ a, s.sched.access = some a → 1 ≤ a.kind.length ∧ a.start.toNat + a.kind.length ≤ s.memorySize) ∧
    (∀ b, s.sched.burst = some b → b.owner = .link →
      ∃ a, s.sched.access = some a ∧ b.block = a.kind.length ∧ b.moved < a.kind.length) ∧
    ∀ e ∈ s.sched.stack, e.owner = .link → ∃ a, s.sched.access = some a ∧ e.moved < a.kind.length

/-- No access falls outside the memory, and what rules it out (R92). -/
def State.walksLawful (s : State) : Prop :=
  s.holdsMatch ∧ s.walksPlaced ∧ s.accessPlaced ∧ ∀ u, s.mover.unit = some u → u.inside s.memorySize

/-! ## Lanes and the unit in progress (R59, R67, R110, R116, R118) -/

/-- The lanes of an ACTIVE or PREEMPTED descriptor are enabled and of the direction it needs: they were at its burst's
start, and no LANE SETUP reaches them (R67, R76, R118). -/
def State.lanesFit (s : State) : Prop :=
  ∀ i : Fin 64, ∀ st d p, s.slot i = .live st d p → (st = .active ∨ st = .preempted) → s.laneFault d.transfer = none

/-- The lane a unit puts its bytes into, with their number (R116). -/
def UnitOp.puts : UnitOp → Option (Fin 12 × Nat)
  | .playout n _ size | .relay _ n size => some (n, size.bytes)
  | .capture _ _ _ | .copy _ _ _ | .peek _ | .poke _ => none

/-- A unit in progress that puts bytes into a lane belongs to the burst in hand, whose descriptor names that lane as its
to-lane, and the lane has room for the bytes; a RELAY's are in the unit buffer (R59, R87, R116). -/
def State.putFits (s : State) : Prop :=
  ∀ u n count, s.mover.unit = some u → u.op.puts = some (n, count) →
    count ≤ (s.lane n).room ∧ (∀ m size, u.op = .relay m n size → u.buffer.length = count) ∧
      ∃ b i d p, s.sched.burst = some b ∧ b.owner = .slot i ∧ s.slot i = .live .active d p ∧
        (n, Direction.outgoing) ∈ d.transfer.lanes

/-- No lane overflows, and what rules it out (R110). -/
def State.lanesLawful (s : State) : Prop := s.lanesBounded ∧ s.lanesFit ∧ s.putFits

end Sys2Proof.Machine
end

