-- ==== Sys2Proof/Certificates/Slice0/Obligations.lean ====
section
/-! DEFINITION. The statements for the provers, listed in OBLIGATIONS.json: what each command does, what the scheduler, the
mover, the lanes and the notice list do between commands, and what every step keeps. -/

open Sys2Proof Sys2Proof.Machine

/-- O1. A step carries out the command at the front of the queue on the state with the queue's rest. -/
def Obligations.StepRunsTheFrontCommand : Prop :=
  ∀ (c : Instr) (rest : List Instr) (s : State), s.pending = c :: rest → step s = exec c { s with pending := rest }

/-- O2. On an empty queue 1 us passes: the running timers count at their bases and expire at 0, grant-wait first, then the
inter-byte timer, then T0 to T3 (log 4). -/
def Obligations.EmptyQueuePassesOneMicrosecond : Prop :=
  ((∀ s : State, s.pending = [] → step s = .next s.tick) ∧
      (∀ s : State, s.resetLow = true → s.tick = s) ∧
      (∀ s : State, s.resetLow = false → s.timePhase < 9 → s.tick.trig.timers = s.trig.timers) ∧
      (∀ (s : State) (n : Fin 4) (k : Nat), s.resetLow = false → s.timePhase = 9 → (s.timer n).left = some (k + 2) →
        s.tick.timer n = { s.timer n with left := some (k + 1) }) ∧
      ∀ (s : State) (n : Fin 4), s.resetLow = false → s.timePhase = 9 → (s.timer n).left = some 1 →
        s.tick.timer n =
          { s.timer n with left := if (s.timer n).mode = .periodic then some (s.timer n).period else none }) ∧
  (let receiver (u : State) : State :=
     match u.link.rxTimer with
     | none => u
     | some (k + 2) => { u with link := { u.link with rxTimer := some (k + 1) } }
     | some _ => { u with link := { u.link with rx := .hunt, rxTimer := none } }
   let base (u : State) : State :=
     if u.timePhase < 9 then { u with timePhase := u.timePhase + 1 }
     else ((((receiver { u with timePhase := 0 }).timerTick 0).timerTick 1).timerTick 2).timerTick 3
   ∀ s : State, s.resetLow = false →
      let u : State := { s with lowered := false }
      (s.mover.timer = none → s.tick = base u) ∧
      (∀ k, s.mover.timer = some (k + 2) → s.tick = base { u with mover := { s.mover with timer := some (k + 1) } }) ∧
      (s.mover.timer = some 1 →
        ∃ t, exec .grantWaitExpiry u = .next t ∧ t.timePhase = s.timePhase ∧ t.link.rxTimer = s.link.rxTimer ∧
          s.tick = base t)) ∧
  (∀ s : State, s.resetLow = false →
      (s.timePhase < 9 → s.tick.link.rx = s.link.rx ∧ s.tick.link.rxTimer = s.link.rxTimer) ∧
      (s.timePhase = 9 → s.link.rxTimer = none → s.tick.link.rx = s.link.rx ∧ s.tick.link.rxTimer = none) ∧
      (∀ k, s.timePhase = 9 → s.link.rxTimer = some (k + 2) →
        s.tick.link.rx = s.link.rx ∧ s.tick.link.rxTimer = some (k + 1)) ∧
      (s.timePhase = 9 → s.link.rxTimer = some 1 →
        s.tick.link.rx = .hunt ∧ s.tick.link.rxTimer = none ∧ s.tick.link.refusals = s.link.refusals)) ∧
  ∀ (s : State) (n : Fin 4),
    ((s.timer n).left = none → s.timerTick n = s) ∧
      (∀ k, (s.timer n).left = some (k + 2) → s.timerTick n = s.setTimer n { s.timer n with left := some (k + 1) }) ∧
      ((s.timer n).left = some 1 →
        s.timerTick n =
          ((s.setTimer n
            { s.timer n with
              left := if (s.timer n).mode = .periodic then some (s.timer n).period else none }).eventAt
                (timerSource n)).react ∧
          (s.resetLow = false → exec (.timerExpiry n) s = .next (s.timerTick n)))

/-- O3. State.reset holds every block's reset value, RESTART as notice 0, and every property that the steps keep. -/
def Obligations.ResetStateHoldsResetValues : Prop :=
  State.reset.atResetValues .line ∧ State.reset.resetLow = false ∧ State.reset.mem = [] ∧ State.reset.pending = [] ∧
    State.reset.mem.wf ∧ State.reset.notes.numbered ∧ State.reset.notes.queuedOnce ∧
    State.reset.notes.waitsOnlyWhenFull ∧ State.reset.link.tableNumbered ∧ State.reset.link.queuesBounded ∧
    State.reset.countsBounded ∧ State.reset.levelsLegal ∧ State.reset.stackOrdered ∧ State.reset.moverLegal ∧
    State.reset.slotLaws ∧ State.reset.lanesLawful ∧ State.reset.ordersTaken ∧ State.reset.moverServes ∧
    State.reset.walksLawful

/-- O4. RESET_RELEASE samples the straps and gives every block its reset values; memory and input pins stay. -/
def Obligations.ReleaseResetsEveryBlock : Prop :=
  ∀ (s : State) (baud msize : BitVec 2), s.resetLow = true →
    ∃ t, exec (.resetRelease baud msize) s = .next t ∧ t.resetLow = false ∧ t.cfg.baud = baud ∧ t.cfg.msize = msize ∧
      t.memorySize = 131072 * 2 ^ msize.toNat ∧ t.atResetValues .line ∧ t.timePhase = 0 ∧ t.mem = s.mem ∧
      t.grant = s.grant ∧ t.pending = s.pending ∧ (∀ n : Fin 4, (t.line n).high = (s.line n).high) ∧
      ∀ n : Fin 12, (t.lane n).strobe = (s.lane n).strobe ∧ (t.lane n).ack = (s.lane n).ack

/-- O5. RESET_LOW drops the order, unit and frame in hand and keeps the rest (log 11); then only the release changes a
block, and input pins are followed. That it drops exactly these and keeps the rest is the model's
reading of R184 and R185 (log 11, DEDUCED). -/
def Obligations.ResetLowHoldsThePartStill : Prop :=
  (∀ s : State, ∃ t, exec .resetLow s = .next t ∧ t.resetLow = true ∧ t.inHand = none ∧
      t.link = { s.link with tx := none } ∧ t.timePhase = s.timePhase ∧ t.grant = s.grant ∧
      t.mover = { state := .idle, request := false, timer := none, unit := none } ∧ t.slots = s.slots ∧ t.trig = s.trig ∧
      t.sched = s.sched ∧ t.lanes = s.lanes ∧ t.notes = s.notes ∧ t.cfg = s.cfg ∧
      (s.mem.wf → ∀ a, s.outsideUnit a → t.mem.read a = s.mem.read a) ∧
      (∀ n : Fin 12, t.strobeOut n = false ∧ t.ackOut n = false ∧ t.dataOut n = none) ∧ t.requestOut = false ∧
      t.memoryLinesDriven = false ∧ t.frameOut = none) ∧
  (∀ (c : Instr) (s : State), s.resetLow = true → s.mover.unit = none → (∀ baud msize, c ≠ .resetRelease baud msize) →
      ∃ t, exec c s = .next t ∧ t.resetLow = true ∧ t.slots = s.slots ∧ t.trig.counts = s.trig.counts ∧
        t.trig.misses = s.trig.misses ∧ t.trig.timers = s.trig.timers ∧
        (∀ n : Fin 4, (t.line n).mode = (s.line n).mode ∧ (t.line n).reference = (s.line n).reference) ∧
        t.sched = s.sched ∧ t.notes = s.notes ∧ t.mem = s.mem ∧ t.cfg = s.cfg ∧ t.timePhase = s.timePhase ∧
        t.link = { s.link with tx := t.link.tx } ∧
        (c ≠ .resetLow → t.link.tx = s.link.tx ∧ t.inHand = s.inHand ∧ t.mover = s.mover) ∧
        ∀ n : Fin 12,
          t.lane n = { s.lane n with strobe := (t.lane n).strobe, ack := (t.lane n).ack })

/-- O6. FRAME_SENT frees the transmitter; after the RESET PART answer it resets every block but straps and time
base. -/
def Obligations.FrameSentFreesTheTransmitter : Prop :=
  (∀ (s : State) (f : Frame), s.resetLow = false → s.link.tx = some f → s.isResetAnswer f = false →
      exec .frameSent s = .next { s with link := { s.link with tx := none } }) ∧
    (∀ (s : State) (h : OrderInHand), s.resetLow = false → s.inHand = some h → h.task = .resetPart →
      s.link.tx = some { kind := .answer, number := h.number, payload := [0x0F, 0x00] } →
      ∃ t, exec .frameSent s = .next t ∧ t.atResetValues .order ∧ t.cfg.baud = s.cfg.baud ∧
        t.cfg.msize = s.cfg.msize ∧ t.timePhase = s.timePhase ∧ t.resetLow = false ∧
        (s.mem.wf → ∀ a, s.outsideUnit a → t.mem.read a = s.mem.read a)) ∧
    ∀ s : State, s.resetLow = false → s.link.tx = none → exec .frameSent s = .next s

/-- O7. BYTE_RECEIVED moves the receiver by the rows of its table; INTER_BYTE_TIMEOUT sends it to HUNT with its
timer stopped. -/
def Obligations.ReceiverFollowsItsTable : Prop :=
  (∀ (s : State) (b : Byte), s.resetLow = false →
      (s.link.rx = .hunt → b = 0xD2 →
        exec (.byteReceived b) s = .next { s with link := { s.link with rx := .length, rxTimer := some 200 } }) ∧
      (s.link.rx = .hunt → b ≠ 0xD2 → exec (.byteReceived b) s = .next s) ∧
      (s.link.rx = .length → 2 ≤ b.toNat → b.toNat ≤ 250 →
        exec (.byteReceived b) s =
          .next { s with link := { s.link with rx := .body b.toNat [], rxTimer := some 200 } }) ∧
      (s.link.rx = .length → (b.toNat < 2 ∨ 250 < b.toNat) →
        exec (.byteReceived b) s = .next { s with link := { s.link with rx := .hunt, rxTimer := none } }) ∧
      (∀ length bytes, s.link.rx = .body length bytes → bytes.length + 1 < length →
        exec (.byteReceived b) s =
          .next { s with link := { s.link with rx := .body length (bytes ++ [b]), rxTimer := some 200 } }) ∧
      (∀ length bytes, s.link.rx = .body length bytes → bytes.length + 1 = length →
        exec (.byteReceived b) s =
          .next { s with link := { s.link with rx := .check (bytes ++ [b]) none, rxTimer := some 200 } }) ∧
      (∀ body, s.link.rx = .check body none →
        exec (.byteReceived b) s =
          .next { s with link := { s.link with rx := .check body (some b), rxTimer := some 200 } }) ∧
      ∀ body hi, s.link.rx = .check body (some hi) →
        exec (.byteReceived b) s =
          .next (State.handleFrame { s with link := { s.link with rx := .hunt, rxTimer := none } } body (hi ++ b))) ∧
  (∀ s : State, s.resetLow = false →
      exec .interByteTimeout s = .next { s with link := { s.link with rx := .hunt, rxTimer := none } })

/-- O8. A byte with a low stop bit sends the receiver to HUNT with any partial frame discarded and no refusal. -/
def Obligations.StopBitLowDiscardsTheFrame : Prop :=
  ∀ s : State, s.resetLow = false →
    exec .stopBitLow s = .next { s with link := { s.link with rx := .hunt, rxTimer := none } } ∧
      (s.link.rx = .hunt → s.link.rxTimer = none →
        exec .stopBitLow s = .next s ∧
          exec (.byteReceived 0xD2) s = .next { s with link := { s.link with rx := .length, rxTimer := some 200 } })

/-- O9. The frame check: 29B1h over 31h to 39h, over length and body, high byte first; characters of ten bits, idle
high. -/
def Obligations.FrameCheckIsTheCrcOfTheDataBook : Prop :=
  (crc16 [0x31, 0x32, 0x33, 0x34, 0x35, 0x36, 0x37, 0x38, 0x39] = 0x29B1 ∧
      (∀ c : Half, crcBit c = if 0x8000 ≤ c.toNat then (c <<< 1) ^^^ 0x1021 else c <<< 1) ∧
      ∀ f : Frame,
        let body := [f.kind.code, f.number] ++ f.payload
        let check := crc16 (BitVec.ofNat 8 body.length :: body)
        f.encode.length = body.length + 4 ∧
          f.encode = [0xD2, BitVec.ofNat 8 body.length] ++ body ++ [check.extractLsb' 8 8, check.extractLsb' 0 8]) ∧
  (∀ b : Byte,
      charBits b =
          [false, b.getLsbD 0, b.getLsbD 1, b.getLsbD 2, b.getLsbD 3, b.getLsbD 4, b.getLsbD 5, b.getLsbD 6, b.getLsbD 7,
            true] ∧
        readChar (charBits b) = some (.byteReceived b) ∧ readChar ((charBits b).set 9 false) = some .stopBitLow) ∧
  ∀ s : State,
    (s.resetLow = true ∨ s.link.tx = none → ∀ k, s.txd k = true) ∧
      ∀ f, s.resetLow = false → s.link.tx = some f →
        (∀ j b k, f.encode[j]? = some b → k < 10 → s.txd (10 * j + k) = (charBits b).getD k true) ∧
          ∀ k, 10 * f.encode.length ≤ k → s.txd k = true

/-- O10. RECEIVE_FRAME: a bad check is refused with CHECK, a RESET PART in hand and unknown kinds discard silently. -/
def Obligations.CompletedFramesAreHandledByKind : Prop :=
  ∀ (s : State) (kind n : Byte) (payload : List Byte) (check : Half), s.resetLow = false → s.link.rx = .hunt →
    s.link.rxTimer = none → payload.length ≤ 248 →
    let body := kind :: n :: payload
    (s.resetInHand = true → exec (.receiveFrame body check) s = .next s) ∧
      (s.resetInHand = false → check ≠ frameCheck body →
        exec (.receiveFrame body check) s =
          .next (s.queueRefusal { kind := .refusal, number := s.link.expected, payload := [0x01] })) ∧
      (s.resetInHand = false → kind ≠ 0x01 → kind ≠ 0x02 →
        exec (.receiveFrame body (frameCheck body)) s = .next s) ∧
      (s.inHand = none → s.resetInHand = false) ∧
      ∀ h, s.inHand = some h → (s.resetInHand = true ↔ h.task = .resetPart ∨ h.task = .taken ∧ h.payload = [0x0F])

/-- O11. RECEIVE_FRAME of an ORDER: discarded while PENDING, FULL, accepted with E advanced, SEQUENCE, or its answer
replayed. -/
def Obligations.OrderFramesAreAcceptedOrRefused : Prop :=
  (∀ (s : State) (n : Byte) (order : List Byte), s.listening → order.length ≤ 248 →
      let body := 0x01 :: n :: order
      (∀ e held, s.entry n = some e → e.status = .pending held →
        exec (.receiveFrame body (frameCheck body)) s = .next s) ∧
      (s.entry n = none → n = s.link.expected → 8 ≤ s.pendingOrders →
        exec (.receiveFrame body (frameCheck body)) s =
          .next (s.queueRefusal { kind := .refusal, number := s.link.expected, payload := [0x02, n] })) ∧
      (s.entry n = none → n = s.link.expected → s.pendingOrders < 8 →
        exec (.receiveFrame body (frameCheck body)) s =
          .next (State.takeNext
            { s with
              link := { s.link with
                table := (if s.link.table.length < 8 then s.link.table else s.link.table.drop 1) ++
                  [{ number := n, status := .pending (some order), queued := false }]
                expected := s.link.expected + 1 } })) ∧
      (s.entry n = none → n ≠ s.link.expected →
        exec (.receiveFrame body (frameCheck body)) s =
          .next (s.queueRefusal { kind := .refusal, number := s.link.expected, payload := [0x03, n] }))) ∧
  (∀ (s : State) (n : Byte) (order payload : List Byte) (e : Entry), s.listening → order.length ≤ 248 →
      s.entry n = some e → e.status = .answered payload →
      let body := 0x01 :: n :: order
      (e.queued = true → exec (.receiveFrame body (frameCheck body)) s = .next s) ∧
      (8 ≤ s.link.answers.length → exec (.receiveFrame body (frameCheck body)) s = .next s) ∧
      (e.queued = false → s.link.answers.length < 8 →
        exec (.receiveFrame body (frameCheck body)) s =
          .next { s with
            link := { s.link with
              answers := s.link.answers ++ [{ number := n, payload := payload }]
              table := s.link.table.map fun x => if x.number = n then { x with queued := true } else x } }))

/-- O12. SYNC with no PENDING entry empties the table, sets E and queues SYNCED; else it is refused with BUSY. -/
def Obligations.SyncSetsTheExpectedNumber : Prop :=
  ∀ (s : State) (m : Byte) (payload : List Byte), s.listening → payload.length ≤ 248 →
    let body := 0x02 :: m :: payload
    (0 < s.pendingOrders →
      exec (.receiveFrame body (frameCheck body)) s =
        .next (s.queueRefusal { kind := .refusal, number := s.link.expected, payload := [0x04, m] })) ∧
    (s.pendingOrders = 0 →
      exec (.receiveFrame body (frameCheck body)) s =
        .next (State.queueRefusal { s with link := { s.link with table := [], expected := m } }
          { kind := .synced, number := m, payload := [] }))

/-- O13. The refusal queue takes 4 frames and drops the next without a record; its SYNC has still taken effect. -/
def Obligations.RefusalQueueDropsTheFifthFrame : Prop :=
  (∀ (s : State) (f : Frame),
      (s.link.refusals.length < 4 →
        s.queueRefusal f = { s with link := { s.link with refusals := s.link.refusals ++ [f] } }) ∧
      (4 ≤ s.link.refusals.length → s.queueRefusal f = s) ∧
      (s.link.refusals.length ≤ 4 → (s.queueRefusal f).link.refusals.length ≤ 4)) ∧
    ∀ (s : State) (n : Byte) (payload : List Byte) (check : Half), s.listening → payload.length ≤ 248 →
      s.link.refusals.length = 4 →
      (check ≠ frameCheck (0x01 :: n :: payload) → exec (.receiveFrame (0x01 :: n :: payload) check) s = .next s) ∧
      (s.entry n = none → n ≠ s.link.expected →
        exec (.receiveFrame (0x01 :: n :: payload) (frameCheck (0x01 :: n :: payload))) s = .next s) ∧
      (s.pendingOrders = 0 →
        exec (.receiveFrame (0x02 :: n :: payload) (frameCheck (0x02 :: n :: payload))) s =
          .next { s with link := { s.link with table := [], expected := n } })

/-- O14. TRANSMIT_FRAME: refusals before answers before notices, one frame at a time; a notice's bytes by its kind. -/
def Obligations.TransmitterTakesTheMostUrgentFrame : Prop :=
  (∀ s : State, s.resetLow = false →
    (∀ f, s.link.tx = some f → exec .transmitFrame s = .next s) ∧
    (∀ f rest, s.link.tx = none → s.link.refusals = f :: rest →
      exec .transmitFrame s = .next { s with link := { s.link with refusals := rest, tx := some f } }) ∧
    (∀ a rest, s.link.tx = none → s.link.refusals = [] → s.link.answers = a :: rest →
      let sent : State :=
        { s with
          link := { s.link with
            answers := rest
            tx := some { kind := .answer, number := a.number, payload := a.payload }
            table :=
              if ∃ b ∈ rest, b.number = a.number then s.link.table
              else s.link.table.map fun e => if e.number = a.number then { e with queued := false } else e } }
      ((∀ h, s.inHand = some h → h.waiting = none) → exec .transmitFrame s = .next sent) ∧
        ∀ h payload, s.inHand = some h → h.waiting = some payload →
          exec .transmitFrame s = .next (sent.placeAnswer h payload) ∧
            (sent.placeAnswer h payload).link.answers = rest ++ [{ number := h.number, payload := payload }]) ∧
    (∀ n rest x, s.link.tx = none → s.link.refusals = [] → s.link.answers = [] → s.notes.txQueue = n :: rest →
      s.notes.list.find? (fun y => y.number = n) = some x →
      exec .transmitFrame s =
        .next { s with
          link := { s.link with
            tx := some
              { kind := .notice, number := n.setWidth 8
                payload := [BitVec.ofNat 8 n.toNat, BitVec.ofNat 8 (n.toNat / 256)] ++ x.body.bytes } }
          notes := { s.notes with
            txQueue := rest
            list := s.notes.list.map fun y => if y.number = n then { y with queued := false } else y } }) ∧
    (s.link.tx = none → s.link.refusals = [] → s.link.answers = [] → s.notes.txQueue = [] →
      exec .transmitFrame s = .next s)) ∧
  (let byte (k : Nat) : Byte := BitVec.ofNat 8 k
   let two (k : Nat) : List Byte := [byte k, byte (k / 256)]
   let three (k : Nat) : List Byte := [byte k, byte (k / 256), byte (k / 65536)]
   let next (a : Option Addr) : List Byte :=
     match a with
     | some a => three a.toNat
     | none => [0x00, 0x00, 0x00]
   let fault (k : FaultKind) : Byte × List Byte :=
     match k with
     | .grantTimeout => (0x01, [0x00, 0x00, 0x00])
     | .parity a => (0x02, three a.toNat)
     | .laneOff => (0x03, [0x00, 0x00, 0x00])
     | .laneDirection => (0x04, [0x00, 0x00, 0x00])
   (∀ reason size revision,
      (NoticeBody.restart reason size revision).bytes =
        [0x01, if reason = .line then 0x01 else 0x02] ++ three size ++ [revision]) ∧
     (∀ r : EndRecord,
      (NoticeBody.report (.ended r)).bytes =
        [0x02, byte r.slot.val] ++ two r.label.toNat ++ [byte r.source.val] ++ three r.committed ++
          [if r.nextA = none then 0x00 else if r.nextB = none then 0x01 else 0x02] ++ next r.nextA ++ next r.nextB ++
          [byte r.misses, if r.recirculate = true then 0x01 else 0x00]) ∧
     ∀ r : FaultRecord,
      (NoticeBody.report (.faulted r)).bytes =
        [0x03, byte r.slot.val] ++ two r.label.toNat ++ [byte r.source.val, (fault r.fault).1] ++ three r.committed ++
          (fault r.fault).2 ++ [byte r.misses])

/-- O15. A produced answer is placed at once or waits for room; its placement ends the hold and the next order is
taken. -/
def Obligations.WaitingAnswerTakesTheFreedRoom : Prop :=
  (∀ (s : State) (h : OrderInHand) (payload : List Byte), s.inHand = some h →
      (s.link.answers.length < 8 → s.produceAnswer payload = s.placeAnswer h payload) ∧
        (8 ≤ s.link.answers.length →
          s.produceAnswer payload =
            { s with
              inHand := some
                { h with
                  task := if h.task = .resetPart then .resetPart else .carriedOut, waiting := some payload } }) ∧
        s.placeAnswer h payload =
          State.takeNext
            { s with
              link := { s.link with
                table := s.link.table.map fun e =>
                  if e.number = h.number then { e with status := .answered payload, queued := true } else e
                answers := s.link.answers ++ [{ number := h.number, payload := payload }] }
              inHand := if h.task = .resetPart then some { h with waiting := none } else none }) ∧
    ∀ (s : State) (h : OrderInHand) (payload : List Byte) (a : Answer) (rest : List Answer), s.resetLow = false →
      s.link.tx = none → s.link.refusals = [] → s.link.answers = a :: rest → s.inHand = some h →
      h.waiting = some payload →
      ∃ t, exec .transmitFrame s = .next t ∧
        t.link.answers = rest ++ [{ number := h.number, payload := payload }] ∧
        (h.task = .resetPart → t.inHand = some { h with waiting := none }) ∧
        (h.task ≠ .resetPart → (∀ e ∈ s.link.table, ∀ order, e.status ≠ .pending (some order)) → t.inHand = none) ∧
        (∀ older e newer order, h.task ≠ .resetPart → s.link.table = older ++ e :: newer →
          (∀ x ∈ older, ∀ body, x.status ≠ .pending (some body)) → e.status = .pending (some order) →
          e.number ≠ h.number →
          t.inHand = some { number := e.number, payload := order, task := .taken, waiting := none }) ∧
        ∀ e ∈ t.link.table, e.number = h.number → e.status = .answered payload ∧ e.queued = true

/-- O16. With no order in hand the executor takes the oldest PENDING entry it has not taken; the order taken is carried
out next. -/
def Obligations.ExecutorTakesTheOldestOrder : Prop :=
  (∀ s : State,
      (∀ h, s.inHand = some h → s.takeNext = s) ∧
      ((∀ e ∈ s.link.table, ∀ order, e.status ≠ .pending (some order)) → s.takeNext = s) ∧
      ∀ older e newer order, s.inHand = none → s.link.table = older ++ e :: newer →
        (∀ x ∈ older, ∀ body, x.status ≠ .pending (some body)) → e.status = .pending (some order) →
        s.takeNext =
          { s with
            link := { s.link with
              table := s.link.table.map fun x => if x.number = e.number then { x with status := .pending none } else x }
            inHand := some { number := e.number, payload := order, task := .taken, waiting := none } }) ∧
    (∀ s : State, s.resetLow = false →
      (s.inHand = none → s.orderInTurn = none) ∧
        ∀ h, s.inHand = some h →
          (h.task = .taken → s.orderInTurn = some (h.number, h.payload)) ∧ (h.task ≠ .taken → s.orderInTurn = none)) ∧
    (∀ s : State, s.resetLow = true → s.orderInTurn = none) ∧
    ∀ (s : State) n order,
      s.carryOut n order =
        { s with inHand := some { number := n, payload := order, task := .carriedOut, waiting := none } }

/-- O17. An order of a wrong length answers BAD_LENGTH, one of no code UNKNOWN_ORDER; a row whose order is not in
turn does nothing. -/
def Obligations.OrdersThatFitNoOrderAreRefused : Prop :=
  (∀ (c : Instr) (code : Byte), orderCode c = some code →
      (∀ (s : State) (n : Byte) (operands : List Byte), s.orderInTurn = some (n, code :: operands) →
        lengthFits code operands.length = some false →
        exec c s = .next ((s.carryOut n (code :: operands)).produceAnswer [code, 0x02])) ∧
      (∀ s : State, s.orderInTurn = none → exec c s = .next s) ∧
      (∀ (s : State) (n : Byte), s.orderInTurn = some (n, []) → exec c s = .next s) ∧
      ∀ (s : State) (n other : Byte) (operands : List Byte), s.orderInTurn = some (n, other :: operands) →
        other ≠ code → exec c s = .next s) ∧
  ((∀ (s : State) (n : Byte), s.orderInTurn = some (n, []) →
        exec .unknownOrder s = .next ((s.carryOut n []).produceAnswer [0x00, 0x01])) ∧
      ∀ (s : State) (n code : Byte) (operands : List Byte), s.orderInTurn = some (n, code :: operands) →
        (∀ c : Instr, orderCode c ≠ some code) →
        exec .unknownOrder s = .next ((s.carryOut n (code :: operands)).produceAnswer [code, 0x01])) ∧
  ((∀ s : State, s.orderInTurn = none → exec .unknownOrder s = .next s) ∧
      ∀ (s : State) (n code : Byte) (operands : List Byte) (c : Instr), s.orderInTurn = some (n, code :: operands) →
        orderCode c = some code → exec .unknownOrder s = .next s) ∧
  (let rows : List (Instr × Byte × Nat) :=
      [(.hello, 0x01, 0), (.configure, 0x02, 3), (.summary, 0x03, 0), (.resetPart, 0x0F, 0), (.define, 0x10, 21),
        (.inspect, 0x11, 1), (.rearm, 0x12, 1), (.release, 0x13, 1), (.trigger, 0x20, 1), (.lineSetup, 0x21, 2)] ++
      [(.timerSetup, 0x22, 5), (.timerStart, 0x23, 1), (.timerStop, 0x24, 1), (.sourceStatus, 0x25, 1),
        (.sourceClear, 0x26, 1), (.bind, 0x30, 2), (.unbind, 0x31, 1), (.queueList, 0x32, 1), (.freeze, 0x40, 0),
        (.thaw, 0x41, 0)] ++
      [(.peek, 0x50, 4), (.laneSetup, 0x60, 5), (.laneStatus, 0x61, 1), (.cancel, 0x70, 1), (.retry, 0x71, 1),
        (.skip, 0x72, 1), (.acknowledge, 0x80, 2), (.resend, 0x81, 0)]
   (∀ c code n, (c, code, n) ∈ rows →
     orderCode c = some code ∧ ∀ k, (lengthFits code k = some true ↔ k = n) ∧ lengthFits code k ≠ none) ∧
   orderCode .poke = some 0x51 ∧ (∀ k, lengthFits 0x51 k = some true ↔ 4 ≤ k ∧ k ≤ 195) ∧
   (∀ k, lengthFits 0x51 k ≠ none) ∧ ∀ code, (∀ c, orderCode c ≠ some code) → ∀ k, lengthFits code k = none)

/-- O18. DEFINE that passes its checks leaves the slot LOADED with the new record and a fresh arming, and nothing
else changed. -/
def Obligations.DefineLoadsTheSlot : Prop :=
  ∀ (s : State) (n : Byte) (i : Fin 64) (r : List Byte) (d : Descriptor),
    s.orderInTurn = some (n, 0x10 :: slotByte i :: r) → r.length = 20 →
    ((s.slot i).state = none ∨ (s.slot i).state = some .loaded ∨ (s.slot i).state = some .spent) →
    s.waitingMark i = false → readRecord r = some d → d.transfer.aligned = true → d.inside s.memorySize = true →
    exec .define s =
      .next (((s.carryOut n (0x10 :: slotByte i :: r)).setSlot i
        (.live .loaded d
          { remaining := d.total, committed := 0, nextA := d.transfer.sideA?.map Side.start,
            nextB := d.transfer.sideB?.map Side.start, lastFault := none })).produceAnswer [0x10, 0x00, slotByte i])

/-- O19. DEFINE is refused by its first failed check, in order: slot, state, waiting record, fields, alignment,
range. -/
def Obligations.DefineIsRefusedByTheFirstFailedCheck : Prop :=
  ∀ (s : State) (n b : Byte) (r : List Byte), s.orderInTurn = some (n, 0x10 :: b :: r) → r.length = 20 →
    let refused (outcome : Byte) :=
      exec .define s = .next ((s.carryOut n (0x10 :: b :: r)).produceAnswer [0x10, outcome])
    (64 ≤ b.toNat → refused 0x04) ∧
      ∀ i : Fin 64, b = slotByte i →
        let taken := (s.slot i).state = none ∨ (s.slot i).state = some .loaded ∨ (s.slot i).state = some .spent
        (¬ taken → refused 0x05) ∧ (taken → s.waitingMark i = true → refused 0x0C) ∧
          (taken → s.waitingMark i = false → readRecord r = none → refused 0x03) ∧
          ∀ d, taken → s.waitingMark i = false → readRecord r = some d →
            (d.transfer.aligned = false → refused 0x07) ∧
              (d.transfer.aligned = true → d.inside s.memorySize = false → refused 0x06)

/-- O20. The fields DEFINE refuses with BAD_FIELD, and the alignment and range of each side as DEFINE checks them. -/
def Obligations.DefineFieldsAndWalks : Prop :=
  (∀ r : List Byte, r.length = 20 →
      let f (k : Nat) := fieldAt r k 1
      readRecord r = none ↔
        f 0 = 0 ∨ 5 < f 0 ∨ f 1 = 0 ∨ 6 < f 1 ∨ (f 0 ≠ 5 ∧ f 2 ≠ 1 ∧ f 2 ≠ 2 ∧ f 2 ≠ 4) ∨
          ((f 0 = 1 ∨ f 0 = 4) ∧ 11 < f 6) ∨ ((f 0 = 2 ∨ f 0 = 4) ∧ 11 < f 7) ∨ (f 0 = 4 ∧ f 6 = f 7) ∨
          ((f 0 = 1 ∨ f 0 = 2 ∨ f 0 = 3) ∧ (f 11 = 0 ∨ 3 < f 11)) ∨ (f 0 = 3 ∧ (f 15 = 0 ∨ 3 < f 15)) ∨ 1 < f 16 ∨
          8 < f 17) ∧
  ((∀ (sd : Side) (T U S : Nat),
        sd.inside T U S = true ↔
          match sd.walk with
          | .ascend => sd.start.toNat + T * U ≤ S
          | .descend => (T - 1) * U ≤ sd.start.toNat ∧ sd.start.toNat + U ≤ S
          | .hold => sd.start.toNat + U ≤ S) ∧
      ∀ (d : Descriptor) (S : Nat),
        (d.inside S = true ↔
          match d.transfer with
          | .capture u _ _ a | .playout u _ _ a => a.inside d.total u.bytes S = true
          | .copy u _ a b => a.inside d.total u.bytes S = true ∧ b.inside d.total u.bytes S = true
          | .relay _ _ _ _ | .tally => True) ∧
          (d.transfer.aligned = true ↔
            match d.transfer with
            | .capture u _ _ a | .playout u _ _ a => a.start.toNat % u.bytes = 0
            | .copy u _ a b => a.start.toNat % u.bytes = 0 ∧ b.start.toNat % u.bytes = 0
            | .relay _ _ _ _ | .tally => True))

/-- O21. Every legal descriptor's 20-byte record, absence marks included, is read back as that descriptor. -/
def Obligations.RecordReadBackIsTheRecordDefined : Prop :=
  ∀ d : Descriptor, d.legal → d.record.length = 20 ∧ readRecord d.record = some d

/-- O22. Every step keeps walks and units inside the memory, so none stops on an address; unit k of a walk is where its
walk puts it. -/
def Obligations.EveryUnitOfAWalkLiesInMemory : Prop :=
  (∀ s : State, s.slotLaws → (s.resetLow = false → s.moverLegal ∧ s.walksLawful) →
      ∃ t, step s = .next t ∧ (t.resetLow = false → t.walksLawful)) ∧
  ∀ (d : Descriptor) (S k : Nat), d.legal → d.inside S = true → d.transfer.aligned = true → S ≤ 1048576 → k ≤ d.total →
    let p := (d.commit)^[k] (d.freshProgress none)
    p.remaining = d.total - k ∧ p.committed = k ∧
      (k < d.total → ∀ (sd : Side) (next : Option Addr),
        (d.transfer.sideA? = some sd ∧ next = p.nextA ∨ d.transfer.sideB? = some sd ∧ next = p.nextB) →
        ∃ a, next = some a ∧
          (match sd.walk with
            | .ascend => a.toNat = sd.start.toNat + k * d.transfer.unitBytes
            | .descend => a.toNat = sd.start.toNat - k * d.transfer.unitBytes
            | .hold => a = sd.start) ∧
          a.toNat % d.transfer.unitBytes = 0 ∧ a.toNat + d.transfer.unitBytes ≤ S)

/-- O23. INSPECT answers DONE in every state with what the part holds of the slot, or BAD_SLOT, and changes nothing; the
bytes of each field by its presence. -/
def Obligations.InspectReportsTheSlot : Prop :=
  ((∀ (s : State) (n b : Byte), s.orderInTurn = some (n, [0x11, b]) → 64 ≤ b.toNat →
      exec .inspect s = .next ((s.carryOut n [0x11, b]).produceAnswer [0x11, 0x04])) ∧
    (∀ (s : State) (n : Byte) (i : Fin 64), s.orderInTurn = some (n, [0x11, slotByte i]) → s.slot i = .free →
      exec .inspect s =
        .next ((s.carryOut n [0x11, slotByte i]).produceAnswer [0x11, 0x00, slotByte i, 0x00])) ∧
    ∀ (s : State) (n : Byte) (i : Fin 64) (st : LiveState) (d : Descriptor) (p : Progress),
      s.orderInTurn = some (n, [0x11, slotByte i]) → s.slot i = .live st d p →
      let data := [slotByte i, (s.slot i).code] ++ d.record ++ le3 p.remaining ++ le3 p.committed ++
        addressBytes p.nextA ++ addressBytes p.nextB ++ faultBytes p.lastFault ++ s.membershipBytes i ++
        [if s.waitingMark i then 1 else 0]
      data.length = 41 ∧
        exec .inspect s = .next ((s.carryOut n [0x11, slotByte i]).produceAnswer ([0x11, 0x00] ++ data))) ∧
  (let byte (k : Nat) : Byte := BitVec.ofNat 8 k
   let two (k : Nat) : List Byte := [byte k, byte (k / 256)]
   let three (k : Nat) : List Byte := [byte k, byte (k / 256), byte (k / 65536)]
   let unit : UnitSize → Byte
     | .one => 0x01
     | .two => 0x02
     | .four => 0x04
   let side (a : Side) : List Byte :=
     three a.start.toNat ++ [if a.walk = .ascend then 0x01 else if a.walk = .descend then 0x02 else 0x03]
   let noSide : List Byte := [0x00, 0x00, 0x00, 0xFF]
   (∀ d : Descriptor,
      let around (kind : Byte) (size lanes sides : List Byte) : List Byte :=
        [kind, byte d.level] ++ size ++ two d.total ++ lanes ++ sides ++
          [if d.recirculate = true then 0x01 else 0x00, (d.endAction.map fun n => byte (n.val + 1)).getD 0x00] ++
          two d.label.toNat
      (∀ u k n a, d.transfer = .capture u k n a →
        d.record = around 0x01 [unit u, byte k] [byte n.val, 0xFF] (side a ++ noSide)) ∧
      (∀ u k n a, d.transfer = .playout u k n a →
        d.record = around 0x02 [unit u, byte k] [0xFF, byte n.val] (side a ++ noSide)) ∧
      (∀ u k a b, d.transfer = .copy u k a b →
        d.record = around 0x03 [unit u, byte k] [0xFF, 0xFF] (side a ++ side b)) ∧
      (∀ u k n m, d.transfer = .relay u k n m →
        d.record = around 0x04 [unit u, byte k] [byte n.val, byte m.val] (noSide ++ noSide)) ∧
      (d.transfer = .tally → d.record = around 0x05 [0x00, 0x00] [0xFF, 0xFF] (noSide ++ noSide))) ∧
   (∀ k, le3 k = three k) ∧ (∀ a, addressBytes (some a) = three a.toNat) ∧ addressBytes none = [0x00, 0x00, 0x00] ∧
   (faultBytes none = [0x00, 0x00, 0x00, 0x00] ∧ faultBytes (some .grantTimeout) = [0x01, 0x00, 0x00, 0x00] ∧
      (∀ a, faultBytes (some (.parity a)) = 0x02 :: three a.toNat) ∧
      faultBytes (some .laneOff) = [0x03, 0x00, 0x00, 0x00] ∧ faultBytes (some .laneDirection) = [0x04, 0x00, 0x00, 0x00]) ∧
   (∀ st d p,
      (Slot.live st d p).code =
        match st with
        | .loaded => 0x01
        | .bound => 0x02
        | .current => 0x03
        | .active => 0x04
        | .preempted => 0x05
        | .held => 0x06
        | .faulted => 0x07
        | .spent => 0x08) ∧
   ∀ (s : State) (i : Fin 64),
      (s.waitingMark i = true ↔ ∃ r ∈ s.notes.waiting, r.slot = i) ∧
      ((∀ q, i ∉ s.queue q) → s.membershipBytes i = [0xFF, 0xFF]) ∧
      ∀ q ahead behind, s.queue q = ahead ++ i :: behind → i ∉ ahead → (∀ q', q' ≠ q → i ∉ s.queue q') →
        s.membershipBytes i = [byte q.val, byte ahead.length])

/-- O24. REARM starts a LOADED or SPENT descriptor over as LOADED, RELEASE makes its slot FREE; else they are
refused. -/
def Obligations.RearmAndReleaseTakeALoadedOrSpentSlot : Prop :=
  (∀ (s : State) (n : Byte) (i : Fin 64) (st : LiveState) (d : Descriptor) (p : Progress),
      s.slot i = .live st d p → (st = .loaded ∨ st = .spent) → s.waitingMark i = false →
      (s.orderInTurn = some (n, [0x12, slotByte i]) →
        exec .rearm s =
          .next (((s.carryOut n [0x12, slotByte i]).setSlot i
            (.live .loaded d
              { remaining := d.total, committed := 0, nextA := d.transfer.sideA?.map Side.start,
                nextB := d.transfer.sideB?.map Side.start, lastFault := none })).produceAnswer
            [0x12, 0x00, slotByte i])) ∧
      (s.orderInTurn = some (n, [0x13, slotByte i]) →
        exec .release s =
          .next (((s.carryOut n [0x13, slotByte i]).setSlot i .free).produceAnswer [0x13, 0x00, slotByte i]))) ∧
    ∀ (s : State) (c : Instr) (code n b : Byte), (c = .rearm ∧ code = 0x12 ∨ c = .release ∧ code = 0x13) →
      s.orderInTurn = some (n, [code, b]) →
      let refused (outcome : Byte) := exec c s = .next ((s.carryOut n [code, b]).produceAnswer [code, outcome])
      (64 ≤ b.toNat → refused 0x04) ∧
        ∀ i : Fin 64, b = slotByte i →
          ((s.slot i).state ≠ some .loaded → (s.slot i).state ≠ some .spent → refused 0x05) ∧
            (((s.slot i).state = some .loaded ∨ (s.slot i).state = some .spent) → s.waitingMark i = true →
              refused 0x0C)

/-- O25. An event raises a pending count below 3 or is a miss; a first commit's consumption lowers it by one. -/
def Obligations.EventsAreCountedAndConsumed : Prop :=
  (∀ (s : State) (q : Fin 28),
      (s.count q < 3 → s.eventAt q = s.setCount q (s.count q + 1)) ∧
        (3 ≤ s.count q → s.eventAt q = s.setMiss q (if s.miss q < 255 then s.miss q + 1 else 255)) ∧
        ∀ r, r ≠ q → (s.eventAt q).count r = s.count r ∧ (s.eventAt q).miss r = s.miss r) ∧
  (∀ (s : State) (q : Fin 28),
      (s.isEvent q = true → (s.consume q).count q = s.count q - 1) ∧ (s.isEvent q = false → s.consume q = s) ∧
        (∀ r, r ≠ q → (s.consume q).count r = s.count r) ∧ (s.consume q).trig.misses = s.trig.misses)

/-- O26. TRIGGER raises a soft trigger's count below 3 and the scheduler reacts; at 3 PENDING_FULL; above S7
BAD_FIELD. -/
def Obligations.TriggerRaisesASoftTrigger : Prop :=
  (∀ (s : State) (n : Byte) (k : Fin 8), s.orderInTurn = some (n, [0x20, BitVec.ofNat 8 k.val]) →
      let q : Fin 28 := softSource k
      let t := s.carryOut n [0x20, BitVec.ofNat 8 k.val]
      (s.count q < 3 →
        exec .trigger s =
          .next ((t.setCount q (s.count q + 1)).react.produceAnswer [0x20, 0x00, BitVec.ofNat 8 (s.count q + 1)])) ∧
        (3 ≤ s.count q → exec .trigger s = .next (t.produceAnswer [0x20, 0x08]))) ∧
    (∀ k : Fin 8, (softSource k).val = 20 + k.val) ∧
    ∀ (s : State) (n b : Byte), s.orderInTurn = some (n, [0x20, b]) → 8 ≤ b.toNat →
      exec .trigger s = .next ((s.carryOut n [0x20, b]).produceAnswer [0x20, 0x03])

/-- O27. LINE SETUP sets the mode, clears the pending count, takes the reference level and keeps the miss count. -/
def Obligations.LineSetupSetsTheMode : Prop :=
  (∀ (s : State) (n m : Byte) (k : Fin 4) (mode : LineMode), m = mode.code →
      s.orderInTurn = some (n, [0x21, BitVec.ofNat 8 k.val, m]) →
      exec .lineSetup s =
        .next ((((s.carryOut n [0x21, BitVec.ofNat 8 k.val, m]).setLine k
          { mode := mode, high := (s.line k).high, reference := some (s.line k).high }).setCount (lineSource k)
            0).react.produceAnswer [0x21, 0x00, if (s.line k).high then 1 else 0])) ∧
    ∀ (s : State) (n b m : Byte), s.orderInTurn = some (n, [0x21, b, m]) → (4 ≤ b.toNat ∨ 6 ≤ m.toNat) →
      exec .lineSetup s = .next ((s.carryOut n [0x21, b, m]).produceAnswer [0x21, 0x03])

/-- O28. TIMER SETUP stops a timer and sets period and mode; TIMER START runs it from the full period; TIMER STOP
stops it. -/
def Obligations.TimerOrdersSetStartAndStop : Prop :=
  (∀ (s : State) (n p0 p1 p2 m : Byte) (k : Fin 4) (mode : TimerMode), m = mode.code →
      1 ≤ readLE [p0, p1, p2] → readLE [p0, p1, p2] ≤ 1000000 →
      s.orderInTurn = some (n, [0x22, BitVec.ofNat 8 k.val, p0, p1, p2, m]) →
      exec .timerSetup s =
        .next (((s.carryOut n [0x22, BitVec.ofNat 8 k.val, p0, p1, p2, m]).setTimer k
          { period := readLE [p0, p1, p2], mode := mode, left := none }).produceAnswer [0x22, 0x00])) ∧
    (∀ (s : State) (n : Byte) (k : Fin 4), s.orderInTurn = some (n, [0x23, BitVec.ofNat 8 k.val]) →
      exec .timerStart s =
        .next (((s.carryOut n [0x23, BitVec.ofNat 8 k.val]).setTimer k
          { s.timer k with left := some (s.timer k).period }).produceAnswer [0x23, 0x00])) ∧
    (∀ (s : State) (n : Byte) (k : Fin 4), s.orderInTurn = some (n, [0x24, BitVec.ofNat 8 k.val]) →
      exec .timerStop s =
        .next (((s.carryOut n [0x24, BitVec.ofNat 8 k.val]).setTimer k
          { s.timer k with left := none }).produceAnswer [0x24, 0x00])) ∧
    (∀ (s : State) (n b p0 p1 p2 m : Byte), s.orderInTurn = some (n, [0x22, b, p0, p1, p2, m]) →
      (4 ≤ b.toNat ∨ readLE [p0, p1, p2] = 0 ∨ 1000000 < readLE [p0, p1, p2] ∨ 2 ≤ m.toNat) →
      exec .timerSetup s = .next ((s.carryOut n [0x22, b, p0, p1, p2, m]).produceAnswer [0x22, 0x03])) ∧
    ∀ (s : State) (n b : Byte), 4 ≤ b.toNat →
      (s.orderInTurn = some (n, [0x23, b]) →
        exec .timerStart s = .next ((s.carryOut n [0x23, b]).produceAnswer [0x23, 0x03])) ∧
      (s.orderInTurn = some (n, [0x24, b]) →
        exec .timerStop s = .next ((s.carryOut n [0x24, b]).produceAnswer [0x24, 0x03]))

/-- O29. SOURCE STATUS reads one source by its kind and changes nothing; SOURCE CLEAR sets its counts to 0 and reports
them. -/
def Obligations.SourceStatusAndClear : Prop :=
  ((∀ (s : State) (n : Byte) (q : Fin 28), s.orderInTurn = some (n, [0x25, BitVec.ofNat 8 q.val]) →
      let data := [BitVec.ofNat 8 q.val] ++ s.sourceKindBytes q ++
        [if s.isPending q then 1 else 0, if s.isCondition q then 0xFF else BitVec.ofNat 8 (s.count q),
          s.conditionByte q, s.lineLevelByte q] ++ s.timerBytes q ++
        [BitVec.ofNat 8 (s.miss q), BitVec.ofNat 8 (s.queue q).length, ((s.queue q).head?.map slotByte).getD 0xFF]
      data.length = 18 ∧
        exec .sourceStatus s =
          .next ((s.carryOut n [0x25, BitVec.ofNat 8 q.val]).produceAnswer ([0x25, 0x00] ++ data))) ∧
    (∀ (s : State) (n : Byte) (q : Fin 28), s.orderInTurn = some (n, [0x26, BitVec.ofNat 8 q.val]) →
      let t := (s.carryOut n [0x26, BitVec.ofNat 8 q.val]).setMiss q 0
      (s.isCondition q = true →
        exec .sourceClear s = .next (t.produceAnswer [0x26, 0x00, 0xFF, BitVec.ofNat 8 (s.miss q)])) ∧
        (s.isCondition q = false →
          exec .sourceClear s =
            .next ((t.setCount q 0).produceAnswer
              [0x26, 0x00, BitVec.ofNat 8 (s.count q), BitVec.ofNat 8 (s.miss q)]))) ∧
    ∀ (s : State) (n b : Byte), 28 ≤ b.toNat →
      (s.orderInTurn = some (n, [0x25, b]) →
        exec .sourceStatus s = .next ((s.carryOut n [0x25, b]).produceAnswer [0x25, 0x03])) ∧
      (s.orderInTurn = some (n, [0x26, b]) →
        exec .sourceClear s = .next ((s.carryOut n [0x26, b]).produceAnswer [0x26, 0x03]))) ∧
  (let flag (b : Bool) : Byte := if b = true then 0x01 else 0x00
   let three (k : Nat) : List Byte := [BitVec.ofNat 8 k, BitVec.ofNat 8 (k / 256), BitVec.ofNat 8 (k / 65536)]
   let noTimer : List Byte := [0x00, 0x00, 0x00, 0xFF, 0xFF, 0x00, 0x00, 0x00]
   ∀ s : State,
     let reads (q : Fin 28) (kind : List Byte) (condition level : Byte) (timer : List Byte) : Prop :=
       s.sourceKindBytes q = kind ∧ s.conditionByte q = condition ∧ s.lineLevelByte q = level ∧ s.timerBytes q = timer
     (∀ n : Fin 12,
        reads (laneSource n) [0x00, 0xFF] (flag (s.lane n).condition) 0xFF noTimer ∧
          s.isCondition (laneSource n) = true) ∧
     (∀ n : Fin 4,
        let l := s.line n
        let mode : Byte :=
          match l.mode with
          | .off => 0x00
          | .rising => 0x01
          | .falling => 0x02
          | .both => 0x03
          | .high => 0x04
          | .low => 0x05
        reads (lineSource n) [0x01, mode]
            (if l.mode = .high ∨ l.mode = .low then flag l.high else 0xFF) (flag l.high) noTimer ∧
          (s.isCondition (lineSource n) = true ↔ l.mode = .high ∨ l.mode = .low)) ∧
     (∀ n : Fin 4,
        let t := s.timer n
        reads (timerSource n) [0x02, 0xFF] 0xFF 0xFF
            (three t.period ++ [if t.mode = .periodic then 0x00 else 0x01, flag t.left.isSome] ++ three (t.left.getD 0)) ∧
          s.isCondition (timerSource n) = false) ∧
     ∀ n : Fin 8, reads (softSource n) [0x03, 0xFF] 0xFF 0xFF noTimer ∧ s.isCondition (softSource n) = false)

/-- O30. LINE_LEVEL_CHANGE counts the edges its mode names; TIMER_EXPIRY counts an event and reloads or stops the
timer. -/
def Obligations.LineLevelsAndTimersGiveEvents : Prop :=
  (∀ (s : State) (n : Fin 4) (high was : Bool), s.resetLow = false → (s.line n).reference = some was →
      let l := s.line n
      let edge := l.mode = .rising ∨ l.mode = .falling ∨ l.mode = .both
      let counted :=
        (l.mode = .rising ∧ was = false ∧ high = true) ∨ (l.mode = .falling ∧ was = true ∧ high = false) ∨
          (l.mode = .both ∧ was ≠ high)
      (edge → counted →
        exec (.lineLevelChange n high) s =
          .next ((s.setLine n { l with high := high, reference := some high }).eventAt (lineSource n)).react) ∧
        (edge → ¬ counted →
          exec (.lineLevelChange n high) s =
            .next (s.setLine n { l with high := high, reference := some high }).react)) ∧
    (∀ (s : State) (n : Fin 4) (high : Bool), s.resetLow = false →
      ((s.line n).mode = .off ∨ (s.line n).mode = .high ∨ (s.line n).mode = .low) →
      exec (.lineLevelChange n high) s = .next (s.setLine n { s.line n with high := high }).react) ∧
    (∀ n : Fin 4, (lineSource n).val = 12 + n.val ∧ (timerSource n).val = 16 + n.val) ∧
    (∀ (s : State) (n : Fin 4), s.resetLow = false → (s.timer n).left ≠ none →
      exec (.timerExpiry n) s =
        .next ((s.setTimer n
          { s.timer n with
            left := if (s.timer n).mode = .periodic then some (s.timer n).period else none }).eventAt
              (timerSource n)).react) ∧
    ∀ (s : State) (n : Fin 4), s.resetLow = false → (s.timer n).left = none → exec (.timerExpiry n) s = .next s

/-- O31. BIND appends a LOADED slot at a queue's tail, CURRENT if it was empty and BOUND otherwise, progress kept. -/
def Obligations.BindAppendsALoadedSlot : Prop :=
  (∀ (s : State) (n : Byte) (i : Fin 64) (q : Fin 28) (d : Descriptor) (p : Progress),
      s.orderInTurn = some (n, [0x30, slotByte i, BitVec.ofNat 8 q.val]) → s.slot i = .live .loaded d p →
      s.waitingMark i = false →
      let st := if s.queue q = [] then LiveState.current else LiveState.bound
      exec .bind s =
        .next ((((s.carryOut n [0x30, slotByte i, BitVec.ofNat 8 q.val]).setQueue q (s.queue q ++ [i])).setSlot i
          (.live st d p)).react.produceAnswer
          [0x30, 0x00, slotByte i, BitVec.ofNat 8 q.val, BitVec.ofNat 8 (s.queue q).length,
            if s.queue q = [] then 0x03 else 0x02])) ∧
    ∀ (s : State) (n b c : Byte), s.orderInTurn = some (n, [0x30, b, c]) →
      let refused (outcome : Byte) := exec .bind s = .next ((s.carryOut n [0x30, b, c]).produceAnswer [0x30, outcome])
      (64 ≤ b.toNat → refused 0x04) ∧
        ∀ i : Fin 64, b = slotByte i →
          (28 ≤ c.toNat → refused 0x03) ∧
            (c.toNat < 28 → (s.slot i).state ≠ some .loaded → refused 0x05) ∧
            (c.toNat < 28 → (s.slot i).state = some .loaded → s.waitingMark i = true → refused 0x0C)

/-- O32. UNBIND leaves a BOUND, CURRENT or FAULTED slot LOADED, out of its queue, the next member CURRENT behind a
head. -/
def Obligations.UnbindTakesASlotOutOfItsQueue : Prop :=
  (∀ (s : State) (n : Byte) (i : Fin 64) (q : Fin 28) (rest : List (Fin 64)) (st : LiveState) (d : Descriptor)
      (p : Progress), s.orderInTurn = some (n, [0x31, slotByte i]) → s.slot i = .live st d p →
      (st = .current ∨ st = .faulted) → s.queueOf i = some q → s.queue q = i :: rest →
      exec .unbind s =
        .next ((((((s.carryOut n [0x31, slotByte i]).setQueue q rest).setSlot i (.live .loaded d p)).promoteHead
          q).react).produceAnswer ([0x31, 0x00, slotByte i, BitVec.ofNat 8 q.val, 0x00] ++ le3 p.remaining))) ∧
    (∀ (s : State) (n : Byte) (i h : Fin 64) (q : Fin 28) (ahead behind : List (Fin 64)) (d : Descriptor)
      (p : Progress), s.orderInTurn = some (n, [0x31, slotByte i]) → s.slot i = .live .bound d p →
      s.queueOf i = some q → s.queue q = h :: (ahead ++ i :: behind) → i ≠ h → i ∉ ahead →
      exec .unbind s =
        .next (((((s.carryOut n [0x31, slotByte i]).setQueue q (h :: (ahead ++ behind))).setSlot i
          (.live .loaded d p)).react).produceAnswer
            ([0x31, 0x00, slotByte i, BitVec.ofNat 8 q.val, BitVec.ofNat 8 (ahead.length + 1)] ++ le3 p.remaining))) ∧
    (∀ (s : State) (q : Fin 28) (h : Fin 64) (rest : List (Fin 64)) (d : Descriptor) (p : Progress),
      s.queue q = h :: rest → s.slot h = .live .bound d p → s.promoteHead q = s.setSlot h (.live .current d p)) ∧
    ∀ (s : State) (n b : Byte), s.orderInTurn = some (n, [0x31, b]) →
      let refused (outcome : Byte) := exec .unbind s = .next ((s.carryOut n [0x31, b]).produceAnswer [0x31, outcome])
      (64 ≤ b.toNat → refused 0x04) ∧
        ∀ i : Fin 64, b = slotByte i → (s.slot i).state ≠ some .bound → (s.slot i).state ≠ some .current →
          (s.slot i).state ≠ some .faulted → refused 0x05

/-- O33. A source is a candidate while its head is CURRENT and eligible and it is pending, by its sort, at the
head's level. -/
def Obligations.CandidatesArePendingEligibleHeads : Prop :=
  ((∀ (s : State) (q : Fin 28) (i : Fin 64) (lv : Nat),
        s.sourceCandidate q = some (i, lv) ↔
          ∃ rest d p, s.queue q = i :: rest ∧ s.slot i = .live .current d p ∧ s.isPending q = true ∧
            s.eligible d.transfer = true ∧ d.level = lv) ∧
      (∀ (s : State) (a b : Side) (u : UnitSize) (k : Nat),
        s.eligible .tally = true ∧ s.eligible (.copy u k a b) = true) ∧
      (∀ (s : State) (n m : Fin 12) (a : Side) (u : UnitSize) (k : Nat),
        let inFit := (s.lane n).enabled = true ∧ (s.lane n).direction = .incoming
        let outFit := (s.lane m).enabled = true ∧ (s.lane m).direction = .outgoing
        (s.eligible (.capture u k n a) = true ↔ (inFit → u.bytes ≤ (s.lane n).fill)) ∧
          (s.eligible (.playout u k m a) = true ↔ (outFit → u.bytes ≤ 32 - (s.lane m).fill)) ∧
          (s.eligible (.relay u k n m) = true ↔
            (inFit → outFit → u.bytes ≤ (s.lane n).fill ∧ u.bytes ≤ 32 - (s.lane m).fill))) ∧
      ∀ (s : State) (t : Transfer) (grant : Bool) (mem : Memory),
        State.eligible { s with grant := grant, mem := mem } t = s.eligible t) ∧
  (∀ s : State,
      (∀ n : Fin 12, s.isPending (laneSource n) = true ↔
        (s.lane n).enabled = true ∧
          (((s.lane n).direction = .incoming ∧ (s.lane n).threshold ≤ (s.lane n).fill) ∨
            ((s.lane n).direction = .outgoing ∧ (s.lane n).threshold ≤ 32 - (s.lane n).fill))) ∧
      (∀ n : Fin 4, s.isPending (lineSource n) = true ↔
        (((s.line n).mode = .rising ∨ (s.line n).mode = .falling ∨ (s.line n).mode = .both) ∧
            1 ≤ s.count (lineSource n)) ∨
          ((s.line n).mode = .high ∧ (s.line n).high = true) ∨ ((s.line n).mode = .low ∧ (s.line n).high = false)) ∧
      (∀ n : Fin 4, s.isPending (timerSource n) = true ↔ 1 ≤ s.count (timerSource n)) ∧
      ∀ n : Fin 8, s.isPending (softSource n) = true ↔ 1 ≤ s.count (softSource n))

/-- O34. The winner has the highest level, the link access first, then the lowest source; a selection performs it till
a burst stays. That one step runs at most 2^24 choices is the model's bound (log 10). -/
def Obligations.SelectionTakesTheHighestCandidate : Prop :=
  (∀ s : State, s.sched.freeze ≠ .frozen →
      (s.winner = none ↔ s.linkCandidate = none ∧ ∀ q, s.sourceCandidate q = none) ∧
      (∀ c lv, s.winner = some (c, lv) →
        (∀ c' l, s.linkCandidate = some (c', l) → l ≤ lv) ∧
        (∀ q i l, s.sourceCandidate q = some (i, l) → l ≤ lv) ∧
        (c = .link → s.linkCandidate = some (.link, lv)) ∧
        c ≠ .resume ∧
        ∀ i, c = .source i →
          ∃ q, s.sourceCandidate q = some (i, lv) ∧ (∀ r < q, ∀ j l, s.sourceCandidate r = some (j, l) → l < lv) ∧
            ∀ c' l, s.linkCandidate = some (c', l) → l < lv) ∧
      (s.sched.stack = [] → s.choose = s.winner.map Prod.fst) ∧
      ∀ e rest, s.sched.stack = e :: rest →
        s.choose = some (match s.winner with
          | some (c, lv) => if e.level < lv then c else .resume
          | none => .resume)) ∧
    (∀ s : State, s.sched.freeze = .frozen → s.choose = s.linkCandidate.map Prod.fst) ∧
    (∀ s : State, s.select = selection (2 ^ 24) s) ∧
    ∀ (s : State) (k : Nat),
      (s.sched.burst ≠ none → selection k s = s) ∧
        (s.sched.burst = none → s.choose = none →
          selection k s = s.setMover { state := .idle, request := false, timer := none, unit := none }) ∧
        ∀ c, s.sched.burst = none → s.choose = some c → selection (k + 1) s = selection k (s.perform c)

/-- O35. A chosen head or link access starts a burst, a head's lanes may fault it; only a higher candidate pushes; a
resumption pops. -/
def Obligations.BurstsStartPushAndResume : Prop :=
  (∀ (s : State) (i : Fin 64) (st : LiveState) (d : Descriptor) (p : Progress), s.slot i = .live st d p →
      let t := (s.setSlot i (.live .active d p)).setBurst
        (some { owner := .slot i, level := d.level, moved := 0, block := d.transfer.block })
      (s.laneFault d.transfer = none → s.perform (.source i) = t.takeUp) ∧
        (∀ f, s.laneFault d.transfer = some f → s.perform (.source i) = t.lowerRequest.faultProcessing i f) ∧
        ∀ (n m : Fin 12) (a : Side) (u : UnitSize) (k : Nat),
          let fault (n : Fin 12) (need : Direction) : Option FaultKind :=
            if (s.lane n).enabled = false then some .laneOff
            else if (s.lane n).direction ≠ need then some .laneDirection else none
          s.laneFault (.capture u k n a) = fault n .incoming ∧ s.laneFault (.playout u k m a) = fault m .outgoing ∧
            (∀ f, fault n .incoming = some f → s.laneFault (.relay u k n m) = some f) ∧
            (fault n .incoming = none → s.laneFault (.relay u k n m) = fault m .outgoing) ∧
            s.laneFault .tally = none ∧ ∀ b, s.laneFault (.copy u k a b) = none) ∧
  ((∀ s : State, s.sched.burst ≠ none → s.mover.unit ≠ none → s.react = s) ∧
      (∀ (s : State) (b : Burst), s.sched.burst = some b → s.mover.unit = none →
        (∀ c lv, s.winner = some (c, lv) → lv ≤ b.level) → s.react = s) ∧
      (∀ (s : State) (b : Burst) (c : Choice) (lv : Nat), s.sched.burst = some b → s.mover.unit = none →
        s.winner = some (c, lv) → b.level < lv → s.react = ((s.push b).perform c).select) ∧
      (∀ (s : State) (b : Burst),
        (s.push b).sched.burst = none ∧
          (s.push b).sched.stack = { owner := b.owner, level := b.level, moved := b.moved } :: s.sched.stack ∧
          ∀ i, b.owner = .slot i → (s.push b).slot i = (s.slot i).to .preempted) ∧
      ∀ (s : State) (e : StackEntry) (rest : List StackEntry) (i : Fin 64) (st : LiveState) (d : Descriptor) (p : Progress),
        s.sched.stack = e :: rest → e.owner = .slot i → s.slot i = .live st d p →
        s.perform .resume =
          (((s.setSlot i (.live .active d p)).setStack rest).setBurst
            (some { owner := .slot i, level := e.level, moved := e.moved, block := d.transfer.block })).takeUp) ∧
  ((∀ (s : State) (a : LinkAccess), s.sched.access = some a →
        let started (t : State) : State :=
          ((t.setAccess (some { a with candidate := false })).setBurst
            (some { owner := .link, level := a.level, moved := 0, block := a.kind.length })).takeUp
        (s.sched.freeze ≠ .frozen → s.perform .link = started s) ∧
          (s.sched.freeze = .frozen → s.perform .link = started (s.cutAbove a.level s.sched.stack)) ∧
          ∀ e rest, s.sched.stack = e :: rest → e.owner = .link →
            s.perform .resume =
              ((s.setStack rest).setBurst
                (some { owner := .link, level := e.level, moved := e.moved, block := a.kind.length })).takeUp) ∧
      (∀ count result data,
        (AccessKind.peek count result).length = count ∧ (AccessKind.poke data).length = data.length) ∧
      ∀ (s : State) (level : Nat) (e : StackEntry) (rest : List StackEntry),
        s.cutAbove level [] = s.setStack [] ∧
          (e.level < level → s.cutAbove level (e :: rest) = s.setStack (e :: rest)) ∧
          (level ≤ e.level → e.owner = .link → s.cutAbove level (e :: rest) = s.cutAbove level rest) ∧
          ∀ i st d p, level ≤ e.level → e.owner = .slot i → s.slot i = .live st d p →
            s.cutAbove level (e :: rest) = (s.setSlot i (.live .current d p)).cutAbove level rest)

/-- O36. FREEZE cuts the burst at once, or at its unit's boundary while FREEZING; THAW makes FROZEN RUNNING and
selects. -/
def Obligations.FreezeAndThaw : Prop :=
  (∀ (s : State) (n : Byte), s.orderInTurn = some (n, [0x40]) →
      let t := s.carryOut n [0x40]
      let entries : Byte := BitVec.ofNat 8 s.sched.stack.length
      (s.sched.freeze = .frozen → exec .freeze s = .next (t.produceAnswer [0x40, 0x00, 0xFF, entries])) ∧
      (s.sched.freeze = .running → s.sched.burst = none →
        exec .freeze s = .next ((t.setFreeze .frozen).produceAnswer [0x40, 0x00, 0xFF, entries])) ∧
      (∀ b i d p, s.sched.freeze = .running → s.sched.burst = some b → b.owner = .slot i →
        s.slot i = .live .active d p → s.mover.unit = none →
        exec .freeze s =
          .next ((State.setFreeze
            { (t.setBurst none).setSlot i (.live .current d p) with
              mover := { state := .idle, request := false, timer := none, unit := none }
              lowered := s.lowered || decide (s.mover.state = .asking) } .frozen).produceAnswer [0x40, 0x00, slotByte i, entries])) ∧
      ∀ b i, s.sched.freeze = .running → s.sched.burst = some b → b.owner = .slot i → s.mover.unit ≠ none →
        exec .freeze s =
          .next { (t.setFreeze .freezing) with
            inHand := some { number := n, payload := [0x40], task := .freeze, waiting := none } }) ∧
  (∀ (s : State) (n : Byte), s.orderInTurn = some (n, [0x41]) →
      let t := s.carryOut n [0x41]
      (s.sched.freeze = .frozen → exec .thaw s = .next ((t.setFreeze .running).react.produceAnswer [0x41, 0x00])) ∧
        (s.sched.freeze = .running → exec .thaw s = .next (t.produceAnswer [0x41, 0x00])) ∧
        (s.sched.burst = none → (t.setFreeze .running).react = (t.setFreeze .running).select))

/-- O37. How the mover takes up a burst: asks for the memory, goes on under the grant held, or lowers the request. -/
def Obligations.MoverTakesUpBursts : Prop :=
  (∀ (s : State) (b : Burst), s.sched.burst = some b →
      (s.burstNeedsMemory b = true → s.mover.request = false → s.grant = false →
        s.takeUp =
          s.setMover { s.mover with state := .asking, request := true, timer := some s.cfg.grantLimit }) ∧
      (s.burstNeedsMemory b = true → s.mover.request = false → s.grant = true →
        s.takeUp = s.setMover { s.mover with state := .yielding }) ∧
      (s.burstNeedsMemory b = true → s.mover.request = true → s.mover.state = .asking →
        s.takeUp = s.setMover { s.mover with timer := some s.cfg.grantLimit }) ∧
      (s.burstNeedsMemory b = true → s.mover.request = true → s.mover.state ≠ .asking → s.takeUp = s.beginNext) ∧
      (s.burstNeedsMemory b = false →
        s.takeUp =
          State.beginNext
            { s with
              mover := { s.mover with state := .moving, request := false, timer := none }
              lowered := s.lowered || decide (s.mover.state = .asking) })) ∧
    (∀ s : State,
      s.lowerRequest =
        { s with
          mover := { s.mover with request := false, timer := none }
          lowered := s.lowered || decide (s.mover.state = .asking) }) ∧
    ∀ (s : State) (b : Burst),
      (b.owner = .link → s.burstNeedsMemory b = true) ∧
        ∀ i st d p, b.owner = .slot i → s.slot i = .live st d p →
          (s.burstNeedsMemory b = true ↔
            match d.transfer with
            | .capture _ _ _ _ | .playout _ _ _ _ | .copy _ _ _ _ => True
            | .relay _ _ _ _ | .tally => False)

/-- O38. GRANT_ASSERTED to an ASKING mover begins the burst's next unit or ends it by a shortfall; else it is no
grant. That a grant in the moment an ASKING mover lowered its request may be stale is a free value (log 22); after a
yield it serves, for O39 and O41 leave the mark clear. -/
def Obligations.GrantAssertedBeginsAUnit : Prop :=
  (∀ (s : State) (b : Burst) (i : Fin 64) (d : Descriptor) (p : Progress), s.sched.burst = some b →
      b.owner = .slot i → s.slot i = .live .active d p →
      let begun (op : UnitOp) (buffer : List Byte) : State :=
        s.setMover { s.mover with state := .moving, timer := none, unit := some { op := op, buffer := buffer } }
      let oldest (n : Fin 12) (u : UnitSize) : List Byte := (s.lane n).fifo.take u.bytes
      (s.lanesCanMove d.transfer = true →
        (∀ u k n side a, d.transfer = .capture u k n side → p.nextA = some a →
          s.beginNext = begun (.capture n a u) (oldest n u)) ∧
        (∀ u k n side a, d.transfer = .playout u k n side → p.nextA = some a →
          s.beginNext = begun (.playout n a u) []) ∧
        (∀ u k sideA sideB a c, d.transfer = .copy u k sideA sideB → p.nextA = some a → p.nextB = some c →
          s.beginNext = begun (.copy a c u) []) ∧
        (∀ u k n m, d.transfer = .relay u k n m → s.beginNext = begun (.relay n m u) (oldest n u)) ∧
        (d.transfer = .tally →
          let t := s.setMover { s.mover with state := .moving }
          let moved := (t.setSlot i (.live .active d (d.commit p))).setBurst (some { b with moved := b.moved + 1 })
          let after := if b.moved = 0 then moved.consume (moved.sourceOf i) else moved
          (p.remaining = 1 → s.beginNext = after.endProcessing i) ∧
            (2 ≤ p.remaining →
              s.beginNext = (after.setBurst none).setSlot i (.live .current d (d.commit p))))) ∧
      (s.lanesCanMove d.transfer = false →
        s.beginNext =
          ((s.setMover { s.mover with state := .moving }).setBurst none).setSlot i (.live .current d p))) ∧
  (∀ (s : State) (b : Burst) (a : LinkAccess), s.sched.burst = some b → b.owner = .link → s.sched.access = some a →
      let begun (op : UnitOp) (buffer : List Byte) : State :=
        s.setMover { s.mover with state := .moving, timer := none, unit := some { op := op, buffer := buffer } }
      let address := a.start + BitVec.ofNat 24 b.moved
      (∀ count result, a.kind = .peek count result → s.beginNext = begun (.peek address) []) ∧
        ∀ data x, a.kind = .poke data → data[b.moved]? = some x → s.beginNext = begun (.poke address) [x]) ∧
  (∀ (s : State) (b : Burst), s.resetLow = false → s.mover.state = .asking → s.mover.unit = none →
      s.sched.burst = some b →
      let seen : State := { s with grant := true, lowered := false }
      let drawn : State := { seen with freeCount := s.freeCount + 1 }
      let serve (t : State) (op : UnitOp) (buffer : List Byte) : State :=
        t.setMover { s.mover with state := .moving, timer := none, unit := some { op := op, buffer := buffer } }
      let shortfall (t : State) (i : Fin 64) (d : Descriptor) (p : Progress) : State :=
        (((t.setMover { s.mover with state := .moving, timer := none }).setBurst none).setSlot i
          (.live .current d p)).select
      let stale := drawn.setMover { s.mover with state := .yielding, request := false, timer := none }
      let answers (t : State → State) : Prop :=
        (s.lowered = false → exec .grantAsserted s = .next (t seen)) ∧
          (s.lowered = true →
            exec .grantAsserted s = .next (if Config.grantIsStale s.freeCount then stale else t drawn))
      (∀ i d p, b.owner = .slot i → s.slot i = .live .active d p → s.lanesCanMove d.transfer = true →
        (∀ u k n side a, d.transfer = .capture u k n side → p.nextA = some a →
          answers fun t => serve t (.capture n a u) ((s.lane n).fifo.take u.bytes)) ∧
        (∀ u k n side a, d.transfer = .playout u k n side → p.nextA = some a →
          answers fun t => serve t (.playout n a u) []) ∧
        ∀ u k sideA sideB a c, d.transfer = .copy u k sideA sideB → p.nextA = some a → p.nextB = some c →
          answers fun t => serve t (.copy a c u) []) ∧
      (∀ i d p, b.owner = .slot i → s.slot i = .live .active d p → s.lanesCanMove d.transfer = false →
        answers fun t => shortfall t i d p) ∧
      ∀ a, b.owner = .link → s.sched.access = some a →
        (∀ count result, a.kind = .peek count result →
          answers fun t => serve t (.peek (a.start + BitVec.ofNat 24 b.moved)) []) ∧
        ∀ data x, a.kind = .poke data → data[b.moved]? = some x →
          answers fun t => serve t (.poke (a.start + BitVec.ofNat 24 b.moved)) [x]) ∧
  ∀ s : State, s.mover.state ≠ .asking → exec .grantAsserted s = .next { s with grant := true }

/-- O39. GRANT_DEASSERTED withdraws the grant or ends the wait for it; GRANT_WAIT_EXPIRY ends the burst in hand. -/
def Obligations.GrantLossAndGrantTimeout : Prop :=
  (∀ s : State, s.resetLow = false →
      let t : State := { s with grant := false, lowered := false }
      (s.mover.state = .moving → s.mover.request = true → s.mover.unit ≠ none →
        exec .grantDeasserted s = .next (t.setMover { s.mover with state := .yielding })) ∧
      (s.mover.state = .yielding → s.mover.unit = none →
        exec .grantDeasserted s =
          .next (t.setMover
            { s.mover with state := .asking, request := true, timer := some s.cfg.grantLimit })) ∧
      (s.mover.state = .idle ∨ s.mover.state = .asking ∨ (s.mover.state = .moving ∧ s.mover.request = false) ∨
          (s.mover.state = .yielding ∧ s.mover.unit ≠ none) →
        exec .grantDeasserted s = .next t)) ∧
  ((∀ (s : State) (b : Burst) (i : Fin 64), s.resetLow = false → s.mover.state = .asking → s.sched.burst = some b →
        b.owner = .slot i →
        exec .grantWaitExpiry s =
          .next (State.faultProcessing
            { s with mover := { s.mover with request := false, timer := none }, lowered := true }
            i .grantTimeout).select) ∧
      (∀ (s : State) (b : Burst) (a : LinkAccess) (data : List Byte) (count : Nat), s.resetLow = false →
        s.mover.state = .asking → s.sched.burst = some b → b.owner = .link → s.sched.access = some a →
        let lowered : State :=
          { s with mover := { s.mover with request := false, timer := none }, lowered := true }
        let t := (lowered.setAccess none).setBurst none
        (a.kind = .poke data →
          exec .grantWaitExpiry s = .next (t.produceAnswer [0x51, 0x09, BitVec.ofNat 8 b.moved]).select) ∧
          (a.kind = .peek count data →
            exec .grantWaitExpiry s =
              .next (t.produceAnswer ([0x50, 0x09, BitVec.ofNat 8 b.moved] ++ data)).select)) ∧
      ∀ s : State, s.resetLow = false → s.mover.state ≠ .asking → exec .grantWaitExpiry s = .next s)

/-- O40. What each unit does at its end: bytes to or from memory with good parity, out of and into the lanes, over its
bus cycles. A lane's exchange goes on before the boundary's tests by the model's choice (log 24). -/
def Obligations.UnitsMoveTheirBytesWhole : Prop :=
  ∀ s : State, s.mem.wf →
    (∀ n a size buffer, buffer.length = size.bytes → a.toNat + size.bytes ≤ s.memorySize →
      ∃ m, s.performUnit { op := .capture n a size, buffer := buffer } = .moved ((s.setMem m).laneTake n size.bytes) ∧
        (∀ k x, buffer[k]? = some x → m.read (a.toNat + k) = MemByte.ofData x ∧ (m.read (a.toNat + k)).good = true) ∧
        ∀ c, (c < a.toNat ∨ a.toNat + size.bytes ≤ c) → m.read c = s.mem.read c) ∧
    (∀ a x, a.toNat + 1 ≤ s.memorySize →
      ∃ m, s.performUnit { op := .poke a, buffer := [x] } = .moved (s.setMem m) ∧
        m.read a.toNat = MemByte.ofData x ∧ ∀ c, c ≠ a.toNat → m.read c = s.mem.read c) ∧
    (∀ n a size buffer, a.toNat + size.bytes ≤ s.memorySize →
      (∀ k < size.bytes, (s.mem.read (a.toNat + k)).good = true) →
      s.performUnit { op := .playout n a size, buffer := buffer } =
        .moved (s.lanePut n ((List.range size.bytes).map fun k => (s.mem.read (a.toNat + k)).data))) ∧
    (∀ a b size buffer, a.toNat + size.bytes ≤ s.memorySize → b.toNat + size.bytes ≤ s.memorySize →
      (∀ k < size.bytes, (s.mem.read (a.toNat + k)).good = true) →
      ∃ m, s.performUnit { op := .copy a b size, buffer := buffer } = .moved (s.setMem m) ∧
        (∀ k < size.bytes, m.read (b.toNat + k) = MemByte.ofData (s.mem.read (a.toNat + k)).data) ∧
        ∀ c, (c < b.toNat ∨ b.toNat + size.bytes ≤ c) → m.read c = s.mem.read c) ∧
    (∀ u a size k buffer, ((∃ b, u = UnitOp.copy a b size ∧ b.toNat + size.bytes ≤ s.memorySize) ∨ ∃ n, u = .playout n a size) →
      a.toNat + size.bytes ≤ s.memorySize → k < size.bytes → (s.mem.read (a.toNat + k)).good = false →
      (∀ j < k, (s.mem.read (a.toNat + j)).good = true) →
      s.performUnit { op := u, buffer := buffer } = .failed (a + BitVec.ofNat 24 k)) ∧
    (∀ a buffer, a.toNat + 1 ≤ s.memorySize → (s.mem.read a.toNat).good = false →
      s.performUnit { op := .peek a, buffer := buffer } = .failed a) ∧
    (∀ n m size buffer,
      s.performUnit { op := .relay n m size, buffer := buffer } =
        .moved ((s.laneTake n size.bytes).lanePut m buffer)) ∧
    (∀ n count bytes,
      s.laneTake n count = s.setLane n (Lane.settle { s.lane n with fifo := (s.lane n).fifo.drop count }) ∧
        s.lanePut n bytes = s.setLane n (Lane.settle { s.lane n with fifo := (s.lane n).fifo ++ bytes })) ∧
    (let even (write : Bool) (a : Nat) (x y : MemByte) : BusCycle :=
      { write := write, address := BitVec.ofNat 20 a, low := some x, high := some y }
     let cycles (write : Bool) (a : Nat) (bytes : Nat → MemByte) : UnitSize → List BusCycle
      | .one =>
        if a % 2 = 0 then
          [{ write := write, address := BitVec.ofNat 20 a, low := some (bytes 0), high := none }]
        else [{ write := write, address := BitVec.ofNat 20 a, low := none, high := some (bytes 0) }]
      | .two => [even write a (bytes 0) (bytes 1)]
      | .four => [even write a (bytes 0) (bytes 1), even write (a + 2) (bytes 2) (bytes 3)]
     let stored (a : Addr) (k : Nat) : MemByte := s.mem.read (a.toNat + k)
     let given (bytes : List Byte) (k : Nat) : MemByte := MemByte.ofData (bytes.getD k 0)
     ∀ (a : Addr) (size : UnitSize), a.toNat % size.bytes = 0 →
      (∀ n buffer, buffer.length = size.bytes →
        s.unitCycles { op := .capture n a size, buffer := buffer } = cycles true a.toNat (given buffer) size) ∧
      (∀ n buffer, s.unitCycles { op := .playout n a size, buffer := buffer } = cycles false a.toNat (stored a) size) ∧
      (∀ b buffer, b.toNat % size.bytes = 0 → (∀ k < size.bytes, (stored a k).good = true) →
        s.unitCycles { op := .copy a b size, buffer := buffer } =
          cycles false a.toNat (stored a) size ++
            cycles true b.toNat (fun k => MemByte.ofData (stored a k).data) size) ∧
      (∀ b buffer, (∃ k < size.bytes, (stored a k).good = false) →
        s.unitCycles { op := .copy a b size, buffer := buffer } = cycles false a.toNat (stored a) size) ∧
      (∀ n m buffer, s.unitCycles { op := .relay n m size, buffer := buffer } = []) ∧
      (∀ buffer, s.unitCycles { op := .peek a, buffer := buffer } = cycles false a.toNat (stored a) .one) ∧
      ∀ x, s.unitCycles { op := .poke a, buffer := [x] } = cycles true a.toNat (fun _ => MemByte.ofData x) .one)

/-- O41. UNIT_BOUNDARY commits: progress steps, moved rises, the event is consumed; the burst ends or goes on, a
withdrawn grant released first. -/
def Obligations.UnitBoundaryCommitsAndGoesOn : Prop :=
  ∀ (s t : State) (u : UnitInProgress) (b : Burst) (i : Fin 64) (d : Descriptor) (p : Progress), s.resetLow = false →
    s.mover.unit = some u → s.performUnit u = .moved t → (s.mover.state = .moving ∨ s.mover.state = .yielding) →
    s.sched.burst = some b → b.owner = .slot i → s.slot i = .live .active d p → s.sched.freeze = .running →
    s.cancelWaits i = false →
    let atEnd : State :=
      if s.mover.state = .moving then t.setMover { s.mover with unit := none }
      else t.setMover { s.mover with unit := none, request := false, timer := none }
    let moved := (atEnd.setSlot i (.live .active d (d.commit p))).setBurst (some { b with moved := b.moved + 1 })
    let after := if b.moved = 0 then moved.consume (moved.sourceOf i) else moved
    let current := (after.setBurst none).setSlot i (.live .current d (d.commit p))
    (p.remaining = 1 → exec .unitBoundary s = .next (after.endProcessing i).select) ∧
    (2 ≤ p.remaining → b.block ≤ b.moved + 1 → exec .unitBoundary s = .next current.select) ∧
    (2 ≤ p.remaining → b.moved + 1 < b.block → after.preemptor { b with moved := b.moved + 1 } = none →
      (s.mover.state = .moving → exec .unitBoundary s = .next after.beginNext.select) ∧
        (s.mover.state = .yielding → after.lanesCanMove d.transfer = false →
          exec .unitBoundary s = .next current.select) ∧
        (s.mover.state = .yielding → after.lanesCanMove d.transfer = true → s.grant = false →
          exec .unitBoundary s =
            .next (after.setMover
              { state := .asking, request := true, timer := some s.cfg.grantLimit, unit := none })) ∧
        (s.mover.state = .yielding → after.lanesCanMove d.transfer = true → s.grant = true →
          exec .unitBoundary s =
            .next (after.setMover { state := .yielding, request := false, timer := none, unit := none }))) ∧
    (∀ c, 2 ≤ p.remaining → b.moved + 1 < b.block → after.preemptor { b with moved := b.moved + 1 } = some c →
      exec .unitBoundary s = .next ((after.push { b with moved := b.moved + 1 }).perform c).select)

/-- O42. UNIT_BOUNDARY of a failed unit faults with PARITY; a waiting CANCEL is answered DONE or ENDED; a FREEZE takes
hold. That a FREEZE names no slot where the unit itself ended the burst is the model's reading (log 12). -/
def Obligations.FailedUnitsAndHeldOrdersAtTheBoundary : Prop :=
  (∀ (s : State) (u : UnitInProgress) (a : Addr) (b : Burst) (i : Fin 64), s.resetLow = false → s.mover.unit = some u →
      s.performUnit u = .failed a → (s.mover.state = .moving ∨ s.mover.state = .yielding) → s.sched.burst = some b →
      b.owner = .slot i →
      let atEnd : State :=
        if s.mover.state = .moving then s.setMover { s.mover with unit := none }
        else s.setMover { s.mover with unit := none, request := false, timer := none }
      let faulted := atEnd.faultProcessing i (.parity a)
      (s.sched.freeze = .running → s.cancelWaits i = false → exec .unitBoundary s = .next faulted.select) ∧
      (∀ st d p, s.sched.freeze = .running → s.cancelWaits i = true → s.slot i = .live st d p →
        exec .unitBoundary s =
          .next ((faulted.takeOut i).produceAnswer
            ([0x70, 0x00, slotByte i, 0x04] ++ le3 p.committed ++ le3 p.remaining)).select) ∧
      (s.sched.freeze = .freezing → s.cancelWaits i = false →
        exec .unitBoundary s =
          .next (((faulted.setFreeze .frozen).produceAnswer
            [0x40, 0x00, 0xFF, BitVec.ofNat 8 s.sched.stack.length]).setMover
              { state := .idle, request := false, timer := none, unit := none }))) ∧
    ∀ (s t : State) (u : UnitInProgress) (b : Burst) (i : Fin 64) (d : Descriptor) (p : Progress), s.resetLow = false →
      s.mover.unit = some u → s.performUnit u = .moved t → (s.mover.state = .moving ∨ s.mover.state = .yielding) →
      s.sched.burst = some b → b.owner = .slot i → s.slot i = .live .active d p →
      let atEnd : State :=
        if s.mover.state = .moving then t.setMover { s.mover with unit := none }
        else t.setMover { s.mover with unit := none, request := false, timer := none }
      let moved := (atEnd.setSlot i (.live .active d (d.commit p))).setBurst (some { b with moved := b.moved + 1 })
      let after := if b.moved = 0 then moved.consume (moved.sourceOf i) else moved
      let ended := after.endProcessing i
      let current := (after.setBurst none).setSlot i (.live .current d (d.commit p))
      let frozen (v : State) (cut : Byte) : State :=
        ((v.setFreeze .frozen).produceAnswer [0x40, 0x00, cut, BitVec.ofNat 8 s.sched.stack.length]).setMover
          { state := .idle, request := false, timer := none, unit := none }
      (s.cancelWaits i = true → s.sched.freeze = .running →
        (p.remaining = 1 →
          exec .unitBoundary s =
            .next (ended.produceAnswer
              ([0x70, 0x0B, slotByte i, (ended.slot i).code] ++ le3 (p.committed + 1))).select) ∧
        (2 ≤ p.remaining →
          exec .unitBoundary s =
            .next (((after.setBurst none).takeOut i).produceAnswer
              ([0x70, 0x00, slotByte i, 0x04] ++ le3 (p.committed + 1) ++ le3 (p.remaining - 1))).select)) ∧
      (s.cancelWaits i = false → s.sched.freeze = .freezing →
        (p.remaining = 1 → exec .unitBoundary s = .next (frozen ended 0xFF)) ∧
          (2 ≤ p.remaining → b.block ≤ b.moved + 1 → exec .unitBoundary s = .next (frozen current 0xFF)) ∧
          (2 ≤ p.remaining → b.moved + 1 < b.block → exec .unitBoundary s = .next (frozen current (slotByte i))))

/-- O43. PEEK and POKE inside the memory become the link access and hold the executor; else BAD_FIELD or
OUT_OF_RANGE. -/
def Obligations.PeekAndPokeOpenTheLinkAccess : Prop :=
  (∀ (s : State) (n a0 a1 a2 c : Byte), s.orderInTurn = some (n, [0x50, a0, a1, a2, c]) →
      let start := readLE [a0, a1, a2]
      let t := s.carryOut n [0x50, a0, a1, a2, c]
      (c.toNat = 0 ∨ 192 < c.toNat → exec .peek s = .next (t.produceAnswer [0x50, 0x03])) ∧
      (1 ≤ c.toNat → c.toNat ≤ 192 → s.memorySize < start + c.toNat →
        exec .peek s = .next (t.produceAnswer [0x50, 0x06])) ∧
      (1 ≤ c.toNat → c.toNat ≤ 192 → start + c.toNat ≤ s.memorySize →
        exec .peek s =
          .next (State.react
            { t.setAccess
                (some { start := BitVec.ofNat 24 start, kind := .peek c.toNat [], level := s.cfg.linkLevel,
                        candidate := true }) with
              inHand := some { number := n, payload := [0x50, a0, a1, a2, c], task := .linkAccess, waiting := none } }))) ∧
    ∀ (s : State) (n a0 a1 a2 : Byte) (data : List Byte), s.orderInTurn = some (n, 0x51 :: a0 :: a1 :: a2 :: data) →
      1 ≤ data.length → data.length ≤ 192 →
      let start := readLE [a0, a1, a2]
      let t := s.carryOut n (0x51 :: a0 :: a1 :: a2 :: data)
      (s.memorySize < start + data.length → exec .poke s = .next (t.produceAnswer [0x51, 0x06])) ∧
      (start + data.length ≤ s.memorySize →
        exec .poke s =
          .next (State.react
            { t.setAccess
                (some { start := BitVec.ofNat 24 start, kind := .poke data, level := s.cfg.linkLevel,
                        candidate := true }) with
              inHand := some
                { number := n, payload := 0x51 :: a0 :: a1 :: a2 :: data, task := .linkAccess, waiting := none } }))

/-- O44. UNIT_BOUNDARY of the link access: a byte joins the result or is written, and the last one or a bad one
answers. -/
def Obligations.LinkAccessEndsWithItsAnswer : Prop :=
  ∀ (s : State) (b : Burst) (a : LinkAccess) (addr : Addr) (buffer : List Byte), s.resetLow = false →
    (s.mover.state = .moving ∨ s.mover.state = .yielding) → s.sched.burst = some b → b.owner = .link →
    s.sched.access = some a → addr.toNat + 1 ≤ s.memorySize →
    let atEnd : State :=
      if s.mover.state = .moving then s.setMover { s.mover with unit := none }
      else s.setMover { s.mover with unit := none, request := false, timer := none }
    let goesOn (kept : State) : State :=
      if s.mover.state = .moving then kept.beginNext.select
      else if s.grant = true then kept.setMover { state := .yielding, request := false, timer := none, unit := none }
      else kept.setMover { state := .asking, request := true, timer := some s.cfg.grantLimit, unit := none }
    (∀ count result, a.kind = .peek count result → s.mover.unit = some { op := .peek addr, buffer := buffer } →
      let byte := s.mem.read addr.toNat
      let kept := (atEnd.setAccess (some { a with kind := .peek count (result ++ [byte.data]) })).setBurst
        (some { b with moved := b.moved + 1 })
      (byte.good = false →
        exec .unitBoundary s =
          .next (((atEnd.setAccess none).setBurst none).produceAnswer
            ([0x50, 0x0A, BitVec.ofNat 8 b.moved] ++ result)).select) ∧
      (byte.good = true → b.block ≤ b.moved + 1 →
        exec .unitBoundary s =
          .next (((atEnd.setAccess none).setBurst none).produceAnswer
            ([0x50, 0x00] ++ le3 a.start.toNat ++ [BitVec.ofNat 8 count] ++ result ++ [byte.data])).select) ∧
      (byte.good = true → b.moved + 1 < b.block → kept.preemptor { b with moved := b.moved + 1 } = none →
        exec .unitBoundary s = .next (goesOn kept)) ∧
      ∀ c, byte.good = true → b.moved + 1 < b.block → kept.preemptor { b with moved := b.moved + 1 } = some c →
        exec .unitBoundary s = .next ((kept.push { b with moved := b.moved + 1 }).perform c).select) ∧
    ∀ data x, s.mem.wf → a.kind = .poke data → s.mover.unit = some { op := .poke addr, buffer := [x] } →
      ∃ m, (m.read addr.toNat = MemByte.ofData x ∧ ∀ c, c ≠ addr.toNat → m.read c = s.mem.read c) ∧
        let wrote := atEnd.setMem m
        let kept := wrote.setBurst (some { b with moved := b.moved + 1 })
        (b.block ≤ b.moved + 1 →
          exec .unitBoundary s =
            .next (((wrote.setAccess none).setBurst none).produceAnswer
              ([0x51, 0x00] ++ le3 a.start.toNat ++ [BitVec.ofNat 8 data.length])).select) ∧
        (b.moved + 1 < b.block → kept.preemptor { b with moved := b.moved + 1 } = none →
          exec .unitBoundary s = .next (goesOn kept)) ∧
        ∀ c, b.moved + 1 < b.block → kept.preemptor { b with moved := b.moved + 1 } = some c →
          exec .unitBoundary s = .next ((kept.push { b with moved := b.moved + 1 }).perform c).select

/-- O45. The strobe and acknowledge of a lane move its FIFO by the handshake rows of section 6.2, and the scheduler
reacts. -/
def Obligations.LanesExchangeByTheirHandshakes : Prop :=
  ∀ (s : State) (n : Fin 12) (x : Byte), s.resetLow = false →
    let l := s.lane n
    (l.direction = .incoming → l.phase = .ready → l.enabled = true → l.fill < 32 →
      exec (.lnstbAsserted n x) s =
        .next (s.setLane n { l with strobe := some x, fifo := l.fifo ++ [x], phase := .taken }).react) ∧
    (l.direction = .incoming → l.phase = .ready → (l.enabled = false ∨ 32 ≤ l.fill) →
      exec (.lnstbAsserted n x) s = .next (s.setLane n { l with strobe := some x }).react) ∧
    (l.direction = .incoming → l.phase = .taken →
      exec (.lnstbDeasserted n) s = .next (s.setLane n { l with strobe := none, phase := .ready }).react) ∧
    (l.direction = .outgoing → l.phase = .offered →
      exec (.lnackAsserted n) s =
        .next (s.setLane n { l with ack := true, fifo := l.fifo.drop 1, phase := .releasing }).react) ∧
    (l.direction = .outgoing → l.phase = .releasing →
      exec (.lnackDeasserted n) s =
        .next (s.setLane n
          { l with ack := false, phase := if l.enabled = true ∧ l.fifo ≠ [] then .offered else .quiet }).react) ∧
    (let settled (l : Lane) : State := (s.setLane n l.settle).react
     exec (.lnstbAsserted n x) s = .next (settled { l with strobe := some x }) ∧
      exec (.lnstbDeasserted n) s = .next (settled { l with strobe := none }) ∧
      exec (.lnackAsserted n) s = .next (settled { l with ack := true }) ∧
      exec (.lnackDeasserted n) s = .next (settled { l with ack := false })) ∧
    (let offers (l : Lane) : Prop := l.enabled = true ∧ l.fifo ≠ [] ∧ l.ack = false
     ∀ l : Lane,
      (∀ y, l.direction = .incoming → l.phase = .ready → l.strobe = some y → l.enabled = true → l.fifo.length < 32 →
        l.settle = { l with fifo := l.fifo ++ [y], phase := .taken }) ∧
      (l.direction = .incoming → l.phase = .ready → (l.strobe = none ∨ l.enabled = false ∨ 32 ≤ l.fifo.length) →
        l.settle = l) ∧
      (l.direction = .incoming → l.phase = .taken →
        (l.strobe = none → l.settle = { l with phase := .ready }) ∧ (l.strobe ≠ none → l.settle = l)) ∧
      (l.direction = .outgoing → l.phase = .quiet →
        (offers l → l.settle = { l with phase := .offered }) ∧ (¬ offers l → l.settle = l)) ∧
      (l.direction = .outgoing → l.phase = .offered →
        (l.ack = true → l.settle = { l with fifo := l.fifo.drop 1, phase := .releasing }) ∧
          (l.ack = false → l.settle = l)) ∧
      (l.direction = .outgoing → l.phase = .releasing →
        (l.ack = true → l.settle = l) ∧ (offers l → l.settle = { l with phase := .offered }) ∧
          (l.ack = false → ¬ offers l → l.settle = { l with phase := .quiet })))

/-- O46. LANE SETUP sets a lane not in use: a turn or a flush empties it, a turn makes it idle, an offer is
withdrawn. -/
def Obligations.LaneSetupSetsTheLane : Prop :=
  (∀ (s : State) (n th : Byte) (k : Fin 12) (enabled flush : Bool) (direction : Direction), 1 ≤ th.toNat → th.toNat ≤ 32 →
      let order : List Byte :=
        [0x60, BitVec.ofNat 8 k.val, if enabled then 1 else 0, if direction = .outgoing then 1 else 0, th,
          if flush then 1 else 0]
      s.orderInTurn = some (n, order) →
      let l := s.lane k
      let turned := direction ≠ l.direction
      let l' : Lane :=
        { l with
          enabled := enabled
          direction := direction
          threshold := th.toNat
          fifo := if turned ∨ flush = true then [] else l.fifo
          phase :=
            if turned then (if direction = .incoming then .ready else .quiet)
            else if l.phase = .offered ∧ (flush = true ∨ enabled = false) then .quiet else l.phase }
      (s.laneInUse k = true → exec .laneSetup s = .next ((s.carryOut n order).produceAnswer [0x60, 0x05])) ∧
        (s.laneInUse k = false →
          exec .laneSetup s =
            .next (((s.carryOut n order).setLane k l'.settle).react.produceAnswer
              [0x60, 0x00, BitVec.ofNat 8 k.val, if turned ∨ flush = true then BitVec.ofNat 8 l.fill else 0,
                BitVec.ofNat 8 l'.fill, if l'.condition = true then 1 else 0]))) ∧
    (∀ (s : State) (k : Fin 12), s.laneInUse k = true ↔
      ∃ i st d p, s.slot i = .live st d p ∧ (st = .active ∨ st = .preempted) ∧ d.transfer.names k = true) ∧
    ∀ (s : State) (n k e d th f : Byte), s.orderInTurn = some (n, [0x60, k, e, d, th, f]) →
      (12 ≤ k.toNat ∨ 2 ≤ e.toNat ∨ 2 ≤ d.toNat ∨ th.toNat = 0 ∨ 32 < th.toNat ∨ 2 ≤ f.toNat) →
      exec .laneSetup s = .next ((s.carryOut n [0x60, k, e, d, th, f]).produceAnswer [0x60, 0x03])

/-- O47. HELLO, SUMMARY, QUEUE LIST and LANE STATUS answer DONE with their data and change nothing. -/
def Obligations.ReportOrdersChangeNothing : Prop :=
  ∀ (s : State) (n : Byte),
    let byte (k : Nat) : Byte := BitVec.ofNat 8 k
    let three (k : Nat) : List Byte := [byte k, byte (k / 256), byte (k / 65536)]
    let mover : Byte :=
      match s.mover.state with
      | .idle => 0
      | .asking => 1
      | .moving => 2
      | .yielding => 3
    let owner (o : Owner) : Byte :=
      match o with
      | .slot i => byte i.val
      | .link => 0xFF
    let burst : List Byte :=
      match s.sched.burst with
      | some b => [owner b.owner, byte b.level, byte b.moved, byte b.block]
      | none => [0xFF, 0, 0, 0]
    (s.orderInTurn = some (n, [0x01]) →
      exec .hello s =
        .next ((s.carryOut n [0x01]).produceAnswer
          (([0x01, 0x00, 0x27, 0x0E, 0x64, 0x28, 0x01] : List Byte) ++ three (131072 * 2 ^ s.cfg.msize.toNat) ++
            three (115200 * 2 ^ s.cfg.baud.toNat) ++ ([64, 28, 6, 5, 12, 32, 8, 32, 64, 192] : List Byte)))) ∧
    (s.orderInTurn = some (n, [0x03]) → s.sched.freeze ≠ .freezing →
      (∀ b, s.sched.burst = some b → b.owner ≠ .link) →
      exec .summary s =
        .next ((s.carryOut n [0x03]).produceAnswer
          ([0x03, 0x00, if s.sched.freeze = .running then 0 else 2, mover] ++ burst ++ [byte s.sched.stack.length] ++
            (s.sched.stack.reverse.flatMap fun e => [owner e.owner, byte e.level, byte e.moved]) ++
            [byte ((List.finRange 64).countP fun i => s.slot i = .free), byte s.notes.list.length,
              byte s.notes.waiting.length, byte (s.link.table.countP Entry.isPending)]))) ∧
    (∀ q : Fin 28, s.orderInTurn = some (n, [0x32, byte q.val]) →
      exec .queueList s =
        .next ((s.carryOut n [0x32, byte q.val]).produceAnswer
          ([0x32, 0x00, byte q.val, byte (s.queue q).length] ++
            (s.queue q).flatMap fun i => [slotByte i, (s.slot i).code]))) ∧
    (∀ k : Fin 12, s.orderInTurn = some (n, [0x61, byte k.val]) →
      let l := s.lane k
      let phase : Byte :=
        match l.phase with
        | .ready => 0
        | .taken => 1
        | .quiet => 2
        | .offered => 3
        | .releasing => 4
      exec .laneStatus s =
        .next ((s.carryOut n [0x61, byte k.val]).produceAnswer
          [0x61, 0x00, byte k.val, byte l.fifo.length, if l.direction = .outgoing then 1 else 0,
            if l.enabled = true then 1 else 0, byte l.threshold, if l.condition = true then 1 else 0, phase,
            if s.laneInUse k = true then 1 else 0])) ∧
    ∀ b : Byte,
      (28 ≤ b.toNat → s.orderInTurn = some (n, [0x32, b]) →
        exec .queueList s = .next ((s.carryOut n [0x32, b]).produceAnswer [0x32, 0x03])) ∧
      (12 ≤ b.toNat → s.orderInTurn = some (n, [0x61, b]) →
        exec .laneStatus s = .next ((s.carryOut n [0x61, b]).produceAnswer [0x61, 0x03]))

/-- O48. CANCEL takes a BOUND, CURRENT, FAULTED, PREEMPTED or ACTIVE descriptor out as LOADED, or waits for its
unit's boundary. -/
def Obligations.CancelActsByTheSlotsState : Prop :=
  (∀ (s : State) (n b : Byte), s.orderInTurn = some (n, [0x70, b]) →
      let t := s.carryOut n [0x70, b]
      (64 ≤ b.toNat → exec .cancel s = .next (t.produceAnswer [0x70, 0x04])) ∧
      ∀ i : Fin 64, b = slotByte i →
        (((s.slot i).state = none ∨ (s.slot i).state = some .loaded ∨ (s.slot i).state = some .spent ∨
            (s.slot i).state = some .held) → exec .cancel s = .next (t.produceAnswer [0x70, 0x05])) ∧
        ∀ st d p, s.slot i = .live st d p →
          let done (u : State) : Prop :=
            exec .cancel s =
              .next ((u.takeOut i).react.produceAnswer
                ([0x70, 0x00, slotByte i, (s.slot i).code] ++ le3 p.committed ++ le3 p.remaining))
          ((st = .bound ∨ st = .current ∨ st = .faulted) → done t) ∧
          (st = .preempted → done (t.setStack (s.sched.stack.filter fun e => e.owner ≠ .slot i))) ∧
          (st = .active → s.mover.unit = none → s.mover.state = .asking →
            done (State.setBurst
              { t with
                mover := { s.mover with request := false, timer := none }, lowered := true }
              none)) ∧
          (st = .active → s.mover.unit = none → s.mover.state ≠ .asking → done (t.setBurst none)) ∧
          (st = .active → s.mover.unit ≠ none →
            exec .cancel s =
              .next { t with
                inHand := some { number := n, payload := [0x70, b], task := .cancel i, waiting := none } })) ∧
    (∀ (s : State) (i : Fin 64) (q : Fin 28) (rest : List (Fin 64)) (st : LiveState) (d : Descriptor) (p : Progress),
      s.queueOf i = some q → s.queue q = i :: rest → s.slot i = .live st d p →
      s.takeOut i = ((s.setQueue q rest).setSlot i (.live .loaded d p)).promoteHead q) ∧
    ∀ (s : State) (i h : Fin 64) (q : Fin 28) (ahead behind : List (Fin 64)) (st : LiveState) (d : Descriptor)
      (p : Progress), s.queueOf i = some q → s.queue q = h :: (ahead ++ i :: behind) → i ≠ h → i ∉ ahead →
      s.slot i = .live st d p →
      s.takeOut i = (s.setQueue q (h :: (ahead ++ behind))).setSlot i (.live .loaded d p)

/-- O49. RETRY makes a FAULTED head CURRENT with no last fault; SKIP removes it as SPENT; else they are refused. -/
def Obligations.RetryAndSkipTakeAFaultedSlot : Prop :=
  (∀ (s : State) (n : Byte) (i : Fin 64) (d : Descriptor) (p : Progress), s.slot i = .live .faulted d p →
      (s.orderInTurn = some (n, [0x71, slotByte i]) → s.waitingMark i = false →
        exec .retry s =
          .next (((s.carryOut n [0x71, slotByte i]).setSlot i (.live .current d { p with lastFault := none })).react.produceAnswer
            ([0x71, 0x00, slotByte i] ++ le3 p.remaining))) ∧
      (s.orderInTurn = some (n, [0x71, slotByte i]) → s.waitingMark i = true →
        exec .retry s = .next ((s.carryOut n [0x71, slotByte i]).produceAnswer [0x71, 0x0C])) ∧
      (∀ q rest, s.orderInTurn = some (n, [0x72, slotByte i]) → s.queueOf i = some q → s.queue q = i :: rest →
        exec .skip s =
          .next (((((s.carryOut n [0x72, slotByte i]).setQueue q rest).setSlot i (.live .spent d p)).promoteHead
            q).react.produceAnswer ([0x72, 0x00, slotByte i] ++ le3 p.committed ++ le3 p.remaining)))) ∧
    ∀ (s : State) (c : Instr) (code n b : Byte), (c = .retry ∧ code = 0x71 ∨ c = .skip ∧ code = 0x72) →
      s.orderInTurn = some (n, [code, b]) →
      let refused (outcome : Byte) : Prop := exec c s = .next ((s.carryOut n [code, b]).produceAnswer [code, outcome])
      (64 ≤ b.toNat → refused 0x04) ∧
        ∀ i : Fin 64, b = slotByte i → (s.slot i).state ≠ some .faulted → refused 0x05

/-- O50. ACKNOWLEDGE removes the named notice and every older one, then waiting records are placed while there is
room. -/
def Obligations.AcknowledgeRemovesAndDrains : Prop :=
  (∀ (s : State) (n lo hi : Byte), s.orderInTurn = some (n, [0x80, lo, hi]) →
      let t := s.carryOut n [0x80, lo, hi]
      (s.notes.list = [] → exec .acknowledge s = .next (t.produceAnswer [0x80, 0x03])) ∧
      ∀ oldest newer, s.notes.list = oldest :: newer →
        let k := ((hi ++ lo : Half) - oldest.number).toNat
        let kept := s.notes.list.drop (k + 1)
        let r := drain 32
          (t.setNotes
            { s.notes with list := kept, txQueue := s.notes.txQueue.filter fun m => kept.any fun x => x.number = m }) 0
        (s.notes.list.length ≤ k → exec .acknowledge s = .next (t.produceAnswer [0x80, 0x03])) ∧
        (k < s.notes.list.length →
          exec .acknowledge s =
            .next (r.1.react.produceAnswer
              [0x80, 0x00, BitVec.ofNat 8 (k + 1), BitVec.ofNat 8 r.2, BitVec.ofNat 8 r.1.notes.list.length,
                BitVec.ofNat 8 r.1.notes.waiting.length]))) ∧
    (∀ (s : State) (fuel k : Nat), 32 ≤ s.notes.list.length ∨ s.notes.waiting = [] → drain fuel s k = (s, k)) ∧
    (∀ (s : State) (fuel k : Nat) (r : Record) (rest : List Record), s.notes.list.length < 32 →
      s.notes.waiting = r :: rest →
      drain (fuel + 1) s k =
        drain fuel ((((s.setNotes { s.notes with waiting := rest }).place (.report r)).drained r).drainReaction)
          (k + 1)) ∧
    (∀ s : State,
      let t := { s with freeCount := s.freeCount + 1 }
      (s.notes.list.length < 32 → s.notes.waiting ≠ [] → s.drainReaction = t ∨ s.drainReaction = t.react) ∧
        (32 ≤ s.notes.list.length ∨ s.notes.waiting = [] → s.drainReaction = s) ∧
        (s.firingReaction = t ∨ s.firingReaction = t.react ∧ t.react.notes = s.notes)) ∧
    ∀ (s : State) (r : FaultRecord) (e : EndRecord),
      s.drained (.faulted r) = s ∧ s.drained (.ended e) = ((s.requeue e).firingReaction).fireEndAction e.slot

/-- O51. RESEND queues every notice that is not queued, oldest first, keeps the others' places and changes nothing
else. -/
def Obligations.ResendQueuesEveryNotice : Prop :=
  (∀ (s : State) (n : Byte), s.orderInTurn = some (n, [0x81]) →
      let fresh := s.notes.list.filter fun x => x.queued = false
      exec .resend s =
        .next (((s.carryOut n [0x81]).setNotes
          { s.notes with
            list := s.notes.list.map fun x => { x with queued := true }
            txQueue := s.notes.txQueue ++ fresh.map Notice.number }).produceAnswer
          ([0x81, 0x00, BitVec.ofNat 8 fresh.length, BitVec.ofNat 8 s.notes.list.length] ++
            match s.notes.list with
            | [] => [0, 0]
            | oldest :: _ => [oldest.number.extractLsb' 0 8, oldest.number.extractLsb' 8 8])) ∧
        (s.notes.list = [] → fresh = [])) ∧
    ∀ (s : State) (m : Half) (rest : List Half), s.resetLow = false → s.link.tx = none → s.link.refusals = [] →
      s.link.answers = [] → s.notes.txQueue = m :: rest →
      ∃ t, exec .transmitFrame s = .next t ∧ t.notes.txQueue = rest ∧
        t.notes.list.map Notice.number = s.notes.list.map Notice.number ∧
        ∀ x ∈ t.notes.list, x.number = m → x.queued = false

/-- O52. End and fault processing: the record with the cleared misses, placed at once or waiting, and a placement's
consequences. -/
def Obligations.EndsAndFaultsMakeTheirRecords : Prop :=
  (∀ (s : State) (i : Fin 64) (st : LiveState) (d : Descriptor) (p : Progress) (f : FaultKind),
      s.slot i = .live st d p →
      let q := s.sourceOf i
      let now := s.notes.list.length < 32 ∧ s.notes.waiting = []
      let ended : EndRecord :=
        { slot := i, label := d.label, source := q, committed := p.committed, nextA := p.nextA, nextB := p.nextB,
          misses := s.miss q, recirculate := d.recirculate }
      let faulted : FaultRecord :=
        { slot := i, label := d.label, source := q, fault := f, committed := p.committed, misses := s.miss q }
      let e := (s.setBurst none).setMiss q 0
      let t := ((s.setBurst none).setSlot i (.live .faulted d { p with lastFault := some f })).setMiss q 0
      (now → s.endProcessing i = (e.place (.report (.ended ended))).placed (.ended ended)) ∧
      (¬ now →
        s.endProcessing i =
          (e.setSlot i (.live .held d p)).setNotes { s.notes with waiting := s.notes.waiting ++ [.ended ended] }) ∧
      (now → s.faultProcessing i f = t.place (.report (.faulted faulted))) ∧
      (¬ now →
        s.faultProcessing i f = t.setNotes { s.notes with waiting := s.notes.waiting ++ [.faulted faulted] })) ∧
    (∀ (s : State) (r : EndRecord) (rest : List (Fin 64)) (st : LiveState) (d : Descriptor) (p : Progress),
      s.queue r.source = r.slot :: rest → s.slot r.slot = .live st d p →
      let fire (u : State) : State :=
        match d.endAction with
        | none => u
        | some k => u.eventAt (softSource k)
      (r.recirculate = false →
        s.placed (.ended r) =
          fire (((s.setQueue r.source rest).setSlot r.slot (.live .spent d p)).promoteHead r.source)) ∧
      (r.recirculate = true →
        s.placed (.ended r) =
          fire (((s.setQueue r.source (rest ++ [r.slot])).setSlot r.slot
            (.live .bound d
              { remaining := d.total, committed := 0, nextA := d.transfer.sideA?.map Side.start,
                nextB := d.transfer.sideB?.map Side.start, lastFault := p.lastFault })).promoteHead r.source))) ∧
    ∀ (s : State) (body : NoticeBody),
      s.place body =
        s.setNotes
          { s.notes with
            list := s.notes.list ++ [{ number := s.notes.next, body := body, queued := true }]
            txQueue := s.notes.txQueue ++ [s.notes.next]
            next := s.notes.next + 1 }

/-- O53. CONFIGURE sets link level and grant-wait limit as one step; RESET PART answers DONE and stays in hand until
it is sent. -/
def Obligations.ConfigureAndResetPartAnswer : Prop :=
  (∀ (s : State) (n lv lo hi : Byte), s.orderInTurn = some (n, [0x02, lv, lo, hi]) →
      let t := s.carryOut n [0x02, lv, lo, hi]
      let limit := readLE [lo, hi]
      (1 ≤ lv.toNat → lv.toNat ≤ 6 → 1 ≤ limit →
        exec .configure s =
          .next (State.produceAnswer { t with cfg := { s.cfg with linkLevel := lv.toNat, grantLimit := limit } }
            ([0x02, 0x00, lv, lo, hi, BitVec.ofNat 8 s.cfg.linkLevel] ++ le2 s.cfg.grantLimit))) ∧
      (lv.toNat = 0 ∨ 6 < lv.toNat ∨ limit = 0 → exec .configure s = .next (t.produceAnswer [0x02, 0x03]))) ∧
    ∀ (s : State) (n : Byte), s.orderInTurn = some (n, [0x0F]) →
      exec .resetPart s =
          .next (State.produceAnswer
            { s.carryOut n [0x0F] with
              inHand := some { number := n, payload := [0x0F], task := .resetPart, waiting := none } } [0x0F, 0x00]) ∧
        ∀ t, exec .resetPart s = .next t → t.resetInHand = true ∧ t.slots = s.slots ∧ t.sched = s.sched

/-- O54. Every step keeps the memory's canonical form, so each address holds one byte. -/
def Obligations.MemoryKeepsItsForm : Prop :=
  ∀ s t : State, s.mem.wf → step s = .next t → t.mem.wf

/-- O55. Every step keeps the notice list numbered, each queued notice once in the transmit queue, and records
waiting only when full. -/
def Obligations.NoticeListKeepsItsLaws : Prop :=
  ∀ s t : State, s.notes.numbered → s.notes.queuedOnce → s.notes.waitsOnlyWhenFull → step s = .next t →
    t.notes.numbered ∧ t.notes.queuedOnce ∧ t.notes.waitsOnlyWhenFull

/-- O56. Every step keeps the order table's numbers up to E - 1, tables and queues in their capacities, no order left by
an idle executor. -/
def Obligations.LinkPortKeepsItsLaws : Prop :=
  (∀ s t : State, s.link.tableNumbered → s.link.queuesBounded → step s = .next t →
      t.link.tableNumbered ∧ t.link.queuesBounded) ∧
    ∀ s t : State, s.ordersTaken → step s = .next t → t.ordersTaken

/-- O57. Every step keeps pending counts in 0 to 3, misses in 0 to 255, levels in 1 to 6 and the stack strictly
rising. -/
def Obligations.LevelsCountsAndStackKeepTheirLaws : Prop :=
  (∀ s t : State, s.countsBounded → step s = .next t → t.countsBounded) ∧
    (∀ s t : State, s.levelsLegal → step s = .next t → t.levelsLegal) ∧
    (∀ s t : State, s.stackOrdered → step s = .next t → t.stackOrdered) ∧
    ∀ (s : State) (b : Burst), s.levelsLegal → s.stackOrdered → s.sched.burst = some b → s.sched.stack.length ≤ 5

/-- O58. Every step keeps what the mover's table says of request, timer, unit and burst in each of its states. -/
def Obligations.MoverKeepsItsTable : Prop :=
  (∀ s t : State, (s.resetLow = false → s.moverLegal) → step s = .next t → t.resetLow = false → t.moverLegal) ∧
    ∀ s t : State, s.slotLaws → (s.resetLow = false → s.moverLegal ∧ s.moverServes) → step s = .next t →
      t.resetLow = false → t.moverServes

/-- O59. Every step keeps queue membership, heads, burst owner, stack entries, waiting records and progress in
agreement. -/
def Obligations.SlotLawsAreKept : Prop :=
  ∀ s t : State, s.slotLaws → step s = .next t → t.slotLaws

/-- O60. Every step keeps every lane at 0 to 32 bytes: a unit in progress has room, and a lane in use is not set up. -/
def Obligations.LanesNeverOverflow : Prop :=
  ∀ s t : State, s.slotLaws → (s.resetLow = false → s.moverLegal) → s.lanesLawful → step s = .next t → t.lanesLawful
end

