-- ==== Sys2Proof/Laws/State.lean ====
section
/-! SUPPORT. One lemma per field per named update of the state: what each leaves as it was, and what the readers of slots,
lanes, lines, timers, counts and queues give after a write. -/

namespace Sys2Proof.Machine

@[simp] theorem State.setSlot_pending (s : State) (i : Fin 64) (v : Slot) : (s.setSlot i v).pending = s.pending := rfl
@[simp] theorem State.setSlot_resetLow (s : State) (i : Fin 64) (v : Slot) : (s.setSlot i v).resetLow = s.resetLow := rfl
@[simp] theorem State.setSlot_grant (s : State) (i : Fin 64) (v : Slot) : (s.setSlot i v).grant = s.grant := rfl
@[simp] theorem State.setSlot_timePhase (s : State) (i : Fin 64) (v : Slot) : (s.setSlot i v).timePhase = s.timePhase := rfl
@[simp] theorem State.setSlot_cfg (s : State) (i : Fin 64) (v : Slot) : (s.setSlot i v).cfg = s.cfg := rfl
@[simp] theorem State.setSlot_link (s : State) (i : Fin 64) (v : Slot) : (s.setSlot i v).link = s.link := rfl
@[simp] theorem State.setSlot_inHand (s : State) (i : Fin 64) (v : Slot) : (s.setSlot i v).inHand = s.inHand := rfl
@[simp] theorem State.setSlot_trig (s : State) (i : Fin 64) (v : Slot) : (s.setSlot i v).trig = s.trig := rfl
@[simp] theorem State.setSlot_sched (s : State) (i : Fin 64) (v : Slot) : (s.setSlot i v).sched = s.sched := rfl
@[simp] theorem State.setSlot_mover (s : State) (i : Fin 64) (v : Slot) : (s.setSlot i v).mover = s.mover := rfl
@[simp] theorem State.setSlot_lanes (s : State) (i : Fin 64) (v : Slot) : (s.setSlot i v).lanes = s.lanes := rfl
@[simp] theorem State.setSlot_notes (s : State) (i : Fin 64) (v : Slot) : (s.setSlot i v).notes = s.notes := rfl
@[simp] theorem State.setSlot_mem (s : State) (i : Fin 64) (v : Slot) : (s.setSlot i v).mem = s.mem := rfl
@[simp] theorem State.setSlot_freeCount (s : State) (i : Fin 64) (v : Slot) : (s.setSlot i v).freeCount = s.freeCount := rfl
@[simp] theorem State.setSlot_lowered (s : State) (i : Fin 64) (v : Slot) : (s.setSlot i v).lowered = s.lowered := rfl

@[simp] theorem State.setLane_pending (s : State) (n : Fin 12) (l : Lane) : (s.setLane n l).pending = s.pending := rfl
@[simp] theorem State.setLane_resetLow (s : State) (n : Fin 12) (l : Lane) : (s.setLane n l).resetLow = s.resetLow := rfl
@[simp] theorem State.setLane_grant (s : State) (n : Fin 12) (l : Lane) : (s.setLane n l).grant = s.grant := rfl
@[simp] theorem State.setLane_timePhase (s : State) (n : Fin 12) (l : Lane) : (s.setLane n l).timePhase = s.timePhase := rfl
@[simp] theorem State.setLane_cfg (s : State) (n : Fin 12) (l : Lane) : (s.setLane n l).cfg = s.cfg := rfl
@[simp] theorem State.setLane_link (s : State) (n : Fin 12) (l : Lane) : (s.setLane n l).link = s.link := rfl
@[simp] theorem State.setLane_inHand (s : State) (n : Fin 12) (l : Lane) : (s.setLane n l).inHand = s.inHand := rfl
@[simp] theorem State.setLane_slots (s : State) (n : Fin 12) (l : Lane) : (s.setLane n l).slots = s.slots := rfl
@[simp] theorem State.setLane_trig (s : State) (n : Fin 12) (l : Lane) : (s.setLane n l).trig = s.trig := rfl
@[simp] theorem State.setLane_sched (s : State) (n : Fin 12) (l : Lane) : (s.setLane n l).sched = s.sched := rfl
@[simp] theorem State.setLane_mover (s : State) (n : Fin 12) (l : Lane) : (s.setLane n l).mover = s.mover := rfl
@[simp] theorem State.setLane_notes (s : State) (n : Fin 12) (l : Lane) : (s.setLane n l).notes = s.notes := rfl
@[simp] theorem State.setLane_mem (s : State) (n : Fin 12) (l : Lane) : (s.setLane n l).mem = s.mem := rfl
@[simp] theorem State.setLane_freeCount (s : State) (n : Fin 12) (l : Lane) : (s.setLane n l).freeCount = s.freeCount := rfl
@[simp] theorem State.setLane_lowered (s : State) (n : Fin 12) (l : Lane) : (s.setLane n l).lowered = s.lowered := rfl

@[simp] theorem State.setLine_pending (s : State) (n : Fin 4) (l : Line) : (s.setLine n l).pending = s.pending := rfl
@[simp] theorem State.setLine_resetLow (s : State) (n : Fin 4) (l : Line) : (s.setLine n l).resetLow = s.resetLow := rfl
@[simp] theorem State.setLine_grant (s : State) (n : Fin 4) (l : Line) : (s.setLine n l).grant = s.grant := rfl
@[simp] theorem State.setLine_timePhase (s : State) (n : Fin 4) (l : Line) : (s.setLine n l).timePhase = s.timePhase := rfl
@[simp] theorem State.setLine_cfg (s : State) (n : Fin 4) (l : Line) : (s.setLine n l).cfg = s.cfg := rfl
@[simp] theorem State.setLine_link (s : State) (n : Fin 4) (l : Line) : (s.setLine n l).link = s.link := rfl
@[simp] theorem State.setLine_inHand (s : State) (n : Fin 4) (l : Line) : (s.setLine n l).inHand = s.inHand := rfl
@[simp] theorem State.setLine_slots (s : State) (n : Fin 4) (l : Line) : (s.setLine n l).slots = s.slots := rfl
@[simp] theorem State.setLine_sched (s : State) (n : Fin 4) (l : Line) : (s.setLine n l).sched = s.sched := rfl
@[simp] theorem State.setLine_mover (s : State) (n : Fin 4) (l : Line) : (s.setLine n l).mover = s.mover := rfl
@[simp] theorem State.setLine_lanes (s : State) (n : Fin 4) (l : Line) : (s.setLine n l).lanes = s.lanes := rfl
@[simp] theorem State.setLine_notes (s : State) (n : Fin 4) (l : Line) : (s.setLine n l).notes = s.notes := rfl
@[simp] theorem State.setLine_mem (s : State) (n : Fin 4) (l : Line) : (s.setLine n l).mem = s.mem := rfl
@[simp] theorem State.setLine_freeCount (s : State) (n : Fin 4) (l : Line) : (s.setLine n l).freeCount = s.freeCount := rfl
@[simp] theorem State.setLine_lowered (s : State) (n : Fin 4) (l : Line) : (s.setLine n l).lowered = s.lowered := rfl

@[simp] theorem State.setTimer_pending (s : State) (n : Fin 4) (t : Timer) : (s.setTimer n t).pending = s.pending := rfl
@[simp] theorem State.setTimer_resetLow (s : State) (n : Fin 4) (t : Timer) : (s.setTimer n t).resetLow = s.resetLow := rfl
@[simp] theorem State.setTimer_grant (s : State) (n : Fin 4) (t : Timer) : (s.setTimer n t).grant = s.grant := rfl
@[simp] theorem State.setTimer_timePhase (s : State) (n : Fin 4) (t : Timer) : (s.setTimer n t).timePhase = s.timePhase := rfl
@[simp] theorem State.setTimer_cfg (s : State) (n : Fin 4) (t : Timer) : (s.setTimer n t).cfg = s.cfg := rfl
@[simp] theorem State.setTimer_link (s : State) (n : Fin 4) (t : Timer) : (s.setTimer n t).link = s.link := rfl
@[simp] theorem State.setTimer_inHand (s : State) (n : Fin 4) (t : Timer) : (s.setTimer n t).inHand = s.inHand := rfl
@[simp] theorem State.setTimer_slots (s : State) (n : Fin 4) (t : Timer) : (s.setTimer n t).slots = s.slots := rfl
@[simp] theorem State.setTimer_sched (s : State) (n : Fin 4) (t : Timer) : (s.setTimer n t).sched = s.sched := rfl
@[simp] theorem State.setTimer_mover (s : State) (n : Fin 4) (t : Timer) : (s.setTimer n t).mover = s.mover := rfl
@[simp] theorem State.setTimer_lanes (s : State) (n : Fin 4) (t : Timer) : (s.setTimer n t).lanes = s.lanes := rfl
@[simp] theorem State.setTimer_notes (s : State) (n : Fin 4) (t : Timer) : (s.setTimer n t).notes = s.notes := rfl
@[simp] theorem State.setTimer_mem (s : State) (n : Fin 4) (t : Timer) : (s.setTimer n t).mem = s.mem := rfl
@[simp] theorem State.setTimer_freeCount (s : State) (n : Fin 4) (t : Timer) : (s.setTimer n t).freeCount = s.freeCount := rfl
@[simp] theorem State.setTimer_lowered (s : State) (n : Fin 4) (t : Timer) : (s.setTimer n t).lowered = s.lowered := rfl

@[simp] theorem State.setCount_pending (s : State) (q : Fin 28) (c : Nat) : (s.setCount q c).pending = s.pending := rfl
@[simp] theorem State.setCount_resetLow (s : State) (q : Fin 28) (c : Nat) : (s.setCount q c).resetLow = s.resetLow := rfl
@[simp] theorem State.setCount_grant (s : State) (q : Fin 28) (c : Nat) : (s.setCount q c).grant = s.grant := rfl
@[simp] theorem State.setCount_timePhase (s : State) (q : Fin 28) (c : Nat) : (s.setCount q c).timePhase = s.timePhase := rfl
@[simp] theorem State.setCount_cfg (s : State) (q : Fin 28) (c : Nat) : (s.setCount q c).cfg = s.cfg := rfl
@[simp] theorem State.setCount_link (s : State) (q : Fin 28) (c : Nat) : (s.setCount q c).link = s.link := rfl
@[simp] theorem State.setCount_inHand (s : State) (q : Fin 28) (c : Nat) : (s.setCount q c).inHand = s.inHand := rfl
@[simp] theorem State.setCount_slots (s : State) (q : Fin 28) (c : Nat) : (s.setCount q c).slots = s.slots := rfl
@[simp] theorem State.setCount_sched (s : State) (q : Fin 28) (c : Nat) : (s.setCount q c).sched = s.sched := rfl
@[simp] theorem State.setCount_mover (s : State) (q : Fin 28) (c : Nat) : (s.setCount q c).mover = s.mover := rfl
@[simp] theorem State.setCount_lanes (s : State) (q : Fin 28) (c : Nat) : (s.setCount q c).lanes = s.lanes := rfl
@[simp] theorem State.setCount_notes (s : State) (q : Fin 28) (c : Nat) : (s.setCount q c).notes = s.notes := rfl
@[simp] theorem State.setCount_mem (s : State) (q : Fin 28) (c : Nat) : (s.setCount q c).mem = s.mem := rfl
@[simp] theorem State.setCount_freeCount (s : State) (q : Fin 28) (c : Nat) : (s.setCount q c).freeCount = s.freeCount := rfl
@[simp] theorem State.setCount_lowered (s : State) (q : Fin 28) (c : Nat) : (s.setCount q c).lowered = s.lowered := rfl

@[simp] theorem State.setMiss_pending (s : State) (q : Fin 28) (c : Nat) : (s.setMiss q c).pending = s.pending := rfl
@[simp] theorem State.setMiss_resetLow (s : State) (q : Fin 28) (c : Nat) : (s.setMiss q c).resetLow = s.resetLow := rfl
@[simp] theorem State.setMiss_grant (s : State) (q : Fin 28) (c : Nat) : (s.setMiss q c).grant = s.grant := rfl
@[simp] theorem State.setMiss_timePhase (s : State) (q : Fin 28) (c : Nat) : (s.setMiss q c).timePhase = s.timePhase := rfl
@[simp] theorem State.setMiss_cfg (s : State) (q : Fin 28) (c : Nat) : (s.setMiss q c).cfg = s.cfg := rfl
@[simp] theorem State.setMiss_link (s : State) (q : Fin 28) (c : Nat) : (s.setMiss q c).link = s.link := rfl
@[simp] theorem State.setMiss_inHand (s : State) (q : Fin 28) (c : Nat) : (s.setMiss q c).inHand = s.inHand := rfl
@[simp] theorem State.setMiss_slots (s : State) (q : Fin 28) (c : Nat) : (s.setMiss q c).slots = s.slots := rfl
@[simp] theorem State.setMiss_sched (s : State) (q : Fin 28) (c : Nat) : (s.setMiss q c).sched = s.sched := rfl
@[simp] theorem State.setMiss_mover (s : State) (q : Fin 28) (c : Nat) : (s.setMiss q c).mover = s.mover := rfl
@[simp] theorem State.setMiss_lanes (s : State) (q : Fin 28) (c : Nat) : (s.setMiss q c).lanes = s.lanes := rfl
@[simp] theorem State.setMiss_notes (s : State) (q : Fin 28) (c : Nat) : (s.setMiss q c).notes = s.notes := rfl
@[simp] theorem State.setMiss_mem (s : State) (q : Fin 28) (c : Nat) : (s.setMiss q c).mem = s.mem := rfl
@[simp] theorem State.setMiss_freeCount (s : State) (q : Fin 28) (c : Nat) : (s.setMiss q c).freeCount = s.freeCount := rfl
@[simp] theorem State.setMiss_lowered (s : State) (q : Fin 28) (c : Nat) : (s.setMiss q c).lowered = s.lowered := rfl

@[simp] theorem State.setQueue_pending (s : State) (q : Fin 28) (l : List (Fin 64)) : (s.setQueue q l).pending = s.pending := rfl
@[simp] theorem State.setQueue_resetLow (s : State) (q : Fin 28) (l : List (Fin 64)) : (s.setQueue q l).resetLow = s.resetLow := rfl
@[simp] theorem State.setQueue_grant (s : State) (q : Fin 28) (l : List (Fin 64)) : (s.setQueue q l).grant = s.grant := rfl
@[simp] theorem State.setQueue_timePhase (s : State) (q : Fin 28) (l : List (Fin 64)) : (s.setQueue q l).timePhase = s.timePhase := rfl
@[simp] theorem State.setQueue_cfg (s : State) (q : Fin 28) (l : List (Fin 64)) : (s.setQueue q l).cfg = s.cfg := rfl
@[simp] theorem State.setQueue_link (s : State) (q : Fin 28) (l : List (Fin 64)) : (s.setQueue q l).link = s.link := rfl
@[simp] theorem State.setQueue_inHand (s : State) (q : Fin 28) (l : List (Fin 64)) : (s.setQueue q l).inHand = s.inHand := rfl
@[simp] theorem State.setQueue_slots (s : State) (q : Fin 28) (l : List (Fin 64)) : (s.setQueue q l).slots = s.slots := rfl
@[simp] theorem State.setQueue_trig (s : State) (q : Fin 28) (l : List (Fin 64)) : (s.setQueue q l).trig = s.trig := rfl
@[simp] theorem State.setQueue_mover (s : State) (q : Fin 28) (l : List (Fin 64)) : (s.setQueue q l).mover = s.mover := rfl
@[simp] theorem State.setQueue_lanes (s : State) (q : Fin 28) (l : List (Fin 64)) : (s.setQueue q l).lanes = s.lanes := rfl
@[simp] theorem State.setQueue_notes (s : State) (q : Fin 28) (l : List (Fin 64)) : (s.setQueue q l).notes = s.notes := rfl
@[simp] theorem State.setQueue_mem (s : State) (q : Fin 28) (l : List (Fin 64)) : (s.setQueue q l).mem = s.mem := rfl
@[simp] theorem State.setQueue_freeCount (s : State) (q : Fin 28) (l : List (Fin 64)) : (s.setQueue q l).freeCount = s.freeCount := rfl
@[simp] theorem State.setQueue_lowered (s : State) (q : Fin 28) (l : List (Fin 64)) : (s.setQueue q l).lowered = s.lowered := rfl

@[simp] theorem State.setState_pending (s : State) (i : Fin 64) (st : LiveState) : (s.setState i st).pending = s.pending := rfl
@[simp] theorem State.setState_resetLow (s : State) (i : Fin 64) (st : LiveState) : (s.setState i st).resetLow = s.resetLow := rfl
@[simp] theorem State.setState_grant (s : State) (i : Fin 64) (st : LiveState) : (s.setState i st).grant = s.grant := rfl
@[simp] theorem State.setState_timePhase (s : State) (i : Fin 64) (st : LiveState) : (s.setState i st).timePhase = s.timePhase := rfl
@[simp] theorem State.setState_cfg (s : State) (i : Fin 64) (st : LiveState) : (s.setState i st).cfg = s.cfg := rfl
@[simp] theorem State.setState_link (s : State) (i : Fin 64) (st : LiveState) : (s.setState i st).link = s.link := rfl
@[simp] theorem State.setState_inHand (s : State) (i : Fin 64) (st : LiveState) : (s.setState i st).inHand = s.inHand := rfl
@[simp] theorem State.setState_trig (s : State) (i : Fin 64) (st : LiveState) : (s.setState i st).trig = s.trig := rfl
@[simp] theorem State.setState_sched (s : State) (i : Fin 64) (st : LiveState) : (s.setState i st).sched = s.sched := rfl
@[simp] theorem State.setState_mover (s : State) (i : Fin 64) (st : LiveState) : (s.setState i st).mover = s.mover := rfl
@[simp] theorem State.setState_lanes (s : State) (i : Fin 64) (st : LiveState) : (s.setState i st).lanes = s.lanes := rfl
@[simp] theorem State.setState_notes (s : State) (i : Fin 64) (st : LiveState) : (s.setState i st).notes = s.notes := rfl
@[simp] theorem State.setState_mem (s : State) (i : Fin 64) (st : LiveState) : (s.setState i st).mem = s.mem := rfl
@[simp] theorem State.setState_freeCount (s : State) (i : Fin 64) (st : LiveState) : (s.setState i st).freeCount = s.freeCount := rfl
@[simp] theorem State.setState_lowered (s : State) (i : Fin 64) (st : LiveState) : (s.setState i st).lowered = s.lowered := rfl

@[simp] theorem State.setNotes_pending (s : State) (l : NoticeList) : (s.setNotes l).pending = s.pending := rfl
@[simp] theorem State.setNotes_resetLow (s : State) (l : NoticeList) : (s.setNotes l).resetLow = s.resetLow := rfl
@[simp] theorem State.setNotes_grant (s : State) (l : NoticeList) : (s.setNotes l).grant = s.grant := rfl
@[simp] theorem State.setNotes_timePhase (s : State) (l : NoticeList) : (s.setNotes l).timePhase = s.timePhase := rfl
@[simp] theorem State.setNotes_cfg (s : State) (l : NoticeList) : (s.setNotes l).cfg = s.cfg := rfl
@[simp] theorem State.setNotes_link (s : State) (l : NoticeList) : (s.setNotes l).link = s.link := rfl
@[simp] theorem State.setNotes_inHand (s : State) (l : NoticeList) : (s.setNotes l).inHand = s.inHand := rfl
@[simp] theorem State.setNotes_slots (s : State) (l : NoticeList) : (s.setNotes l).slots = s.slots := rfl
@[simp] theorem State.setNotes_trig (s : State) (l : NoticeList) : (s.setNotes l).trig = s.trig := rfl
@[simp] theorem State.setNotes_sched (s : State) (l : NoticeList) : (s.setNotes l).sched = s.sched := rfl
@[simp] theorem State.setNotes_mover (s : State) (l : NoticeList) : (s.setNotes l).mover = s.mover := rfl
@[simp] theorem State.setNotes_lanes (s : State) (l : NoticeList) : (s.setNotes l).lanes = s.lanes := rfl
@[simp] theorem State.setNotes_mem (s : State) (l : NoticeList) : (s.setNotes l).mem = s.mem := rfl
@[simp] theorem State.setNotes_freeCount (s : State) (l : NoticeList) : (s.setNotes l).freeCount = s.freeCount := rfl
@[simp] theorem State.setNotes_lowered (s : State) (l : NoticeList) : (s.setNotes l).lowered = s.lowered := rfl

@[simp] theorem State.place_pending (s : State) (b : NoticeBody) : (s.place b).pending = s.pending := rfl
@[simp] theorem State.place_resetLow (s : State) (b : NoticeBody) : (s.place b).resetLow = s.resetLow := rfl
@[simp] theorem State.place_grant (s : State) (b : NoticeBody) : (s.place b).grant = s.grant := rfl
@[simp] theorem State.place_timePhase (s : State) (b : NoticeBody) : (s.place b).timePhase = s.timePhase := rfl
@[simp] theorem State.place_cfg (s : State) (b : NoticeBody) : (s.place b).cfg = s.cfg := rfl
@[simp] theorem State.place_link (s : State) (b : NoticeBody) : (s.place b).link = s.link := rfl
@[simp] theorem State.place_inHand (s : State) (b : NoticeBody) : (s.place b).inHand = s.inHand := rfl
@[simp] theorem State.place_slots (s : State) (b : NoticeBody) : (s.place b).slots = s.slots := rfl
@[simp] theorem State.place_trig (s : State) (b : NoticeBody) : (s.place b).trig = s.trig := rfl
@[simp] theorem State.place_sched (s : State) (b : NoticeBody) : (s.place b).sched = s.sched := rfl
@[simp] theorem State.place_mover (s : State) (b : NoticeBody) : (s.place b).mover = s.mover := rfl
@[simp] theorem State.place_lanes (s : State) (b : NoticeBody) : (s.place b).lanes = s.lanes := rfl
@[simp] theorem State.place_mem (s : State) (b : NoticeBody) : (s.place b).mem = s.mem := rfl
@[simp] theorem State.place_freeCount (s : State) (b : NoticeBody) : (s.place b).freeCount = s.freeCount := rfl
@[simp] theorem State.place_lowered (s : State) (b : NoticeBody) : (s.place b).lowered = s.lowered := rfl

@[simp] theorem State.makeWait_pending (s : State) (r : Record) : (s.makeWait r).pending = s.pending := rfl
@[simp] theorem State.makeWait_resetLow (s : State) (r : Record) : (s.makeWait r).resetLow = s.resetLow := rfl
@[simp] theorem State.makeWait_grant (s : State) (r : Record) : (s.makeWait r).grant = s.grant := rfl
@[simp] theorem State.makeWait_timePhase (s : State) (r : Record) : (s.makeWait r).timePhase = s.timePhase := rfl
@[simp] theorem State.makeWait_cfg (s : State) (r : Record) : (s.makeWait r).cfg = s.cfg := rfl
@[simp] theorem State.makeWait_link (s : State) (r : Record) : (s.makeWait r).link = s.link := rfl
@[simp] theorem State.makeWait_inHand (s : State) (r : Record) : (s.makeWait r).inHand = s.inHand := rfl
@[simp] theorem State.makeWait_slots (s : State) (r : Record) : (s.makeWait r).slots = s.slots := rfl
@[simp] theorem State.makeWait_trig (s : State) (r : Record) : (s.makeWait r).trig = s.trig := rfl
@[simp] theorem State.makeWait_sched (s : State) (r : Record) : (s.makeWait r).sched = s.sched := rfl
@[simp] theorem State.makeWait_mover (s : State) (r : Record) : (s.makeWait r).mover = s.mover := rfl
@[simp] theorem State.makeWait_lanes (s : State) (r : Record) : (s.makeWait r).lanes = s.lanes := rfl
@[simp] theorem State.makeWait_mem (s : State) (r : Record) : (s.makeWait r).mem = s.mem := rfl
@[simp] theorem State.makeWait_freeCount (s : State) (r : Record) : (s.makeWait r).freeCount = s.freeCount := rfl
@[simp] theorem State.makeWait_lowered (s : State) (r : Record) : (s.makeWait r).lowered = s.lowered := rfl

@[simp] theorem State.clearBurst_pending (s : State) : (s.clearBurst).pending = s.pending := rfl
@[simp] theorem State.clearBurst_resetLow (s : State) : (s.clearBurst).resetLow = s.resetLow := rfl
@[simp] theorem State.clearBurst_grant (s : State) : (s.clearBurst).grant = s.grant := rfl
@[simp] theorem State.clearBurst_timePhase (s : State) : (s.clearBurst).timePhase = s.timePhase := rfl
@[simp] theorem State.clearBurst_cfg (s : State) : (s.clearBurst).cfg = s.cfg := rfl
@[simp] theorem State.clearBurst_link (s : State) : (s.clearBurst).link = s.link := rfl
@[simp] theorem State.clearBurst_inHand (s : State) : (s.clearBurst).inHand = s.inHand := rfl
@[simp] theorem State.clearBurst_slots (s : State) : (s.clearBurst).slots = s.slots := rfl
@[simp] theorem State.clearBurst_trig (s : State) : (s.clearBurst).trig = s.trig := rfl
@[simp] theorem State.clearBurst_mover (s : State) : (s.clearBurst).mover = s.mover := rfl
@[simp] theorem State.clearBurst_lanes (s : State) : (s.clearBurst).lanes = s.lanes := rfl
@[simp] theorem State.clearBurst_notes (s : State) : (s.clearBurst).notes = s.notes := rfl
@[simp] theorem State.clearBurst_mem (s : State) : (s.clearBurst).mem = s.mem := rfl
@[simp] theorem State.clearBurst_freeCount (s : State) : (s.clearBurst).freeCount = s.freeCount := rfl
@[simp] theorem State.clearBurst_lowered (s : State) : (s.clearBurst).lowered = s.lowered := rfl

@[simp] theorem State.lowerRequest_pending (s : State) : (s.lowerRequest).pending = s.pending := rfl
@[simp] theorem State.lowerRequest_resetLow (s : State) : (s.lowerRequest).resetLow = s.resetLow := rfl
@[simp] theorem State.lowerRequest_grant (s : State) : (s.lowerRequest).grant = s.grant := rfl
@[simp] theorem State.lowerRequest_timePhase (s : State) : (s.lowerRequest).timePhase = s.timePhase := rfl
@[simp] theorem State.lowerRequest_cfg (s : State) : (s.lowerRequest).cfg = s.cfg := rfl
@[simp] theorem State.lowerRequest_link (s : State) : (s.lowerRequest).link = s.link := rfl
@[simp] theorem State.lowerRequest_inHand (s : State) : (s.lowerRequest).inHand = s.inHand := rfl
@[simp] theorem State.lowerRequest_slots (s : State) : (s.lowerRequest).slots = s.slots := rfl
@[simp] theorem State.lowerRequest_trig (s : State) : (s.lowerRequest).trig = s.trig := rfl
@[simp] theorem State.lowerRequest_sched (s : State) : (s.lowerRequest).sched = s.sched := rfl
@[simp] theorem State.lowerRequest_lanes (s : State) : (s.lowerRequest).lanes = s.lanes := rfl
@[simp] theorem State.lowerRequest_notes (s : State) : (s.lowerRequest).notes = s.notes := rfl
@[simp] theorem State.lowerRequest_mem (s : State) : (s.lowerRequest).mem = s.mem := rfl
@[simp] theorem State.lowerRequest_freeCount (s : State) : (s.lowerRequest).freeCount = s.freeCount := rfl

@[simp] theorem State.rest_pending (s : State) : (s.rest).pending = s.pending := rfl
@[simp] theorem State.rest_resetLow (s : State) : (s.rest).resetLow = s.resetLow := rfl
@[simp] theorem State.rest_grant (s : State) : (s.rest).grant = s.grant := rfl
@[simp] theorem State.rest_timePhase (s : State) : (s.rest).timePhase = s.timePhase := rfl
@[simp] theorem State.rest_cfg (s : State) : (s.rest).cfg = s.cfg := rfl
@[simp] theorem State.rest_link (s : State) : (s.rest).link = s.link := rfl
@[simp] theorem State.rest_inHand (s : State) : (s.rest).inHand = s.inHand := rfl
@[simp] theorem State.rest_slots (s : State) : (s.rest).slots = s.slots := rfl
@[simp] theorem State.rest_trig (s : State) : (s.rest).trig = s.trig := rfl
@[simp] theorem State.rest_sched (s : State) : (s.rest).sched = s.sched := rfl
@[simp] theorem State.rest_lanes (s : State) : (s.rest).lanes = s.lanes := rfl
@[simp] theorem State.rest_notes (s : State) : (s.rest).notes = s.notes := rfl
@[simp] theorem State.rest_mem (s : State) : (s.rest).mem = s.mem := rfl
@[simp] theorem State.rest_freeCount (s : State) : (s.rest).freeCount = s.freeCount := rfl
@[simp] theorem State.rest_lowered (s : State) : (s.rest).lowered = s.lowered := rfl

@[simp] theorem State.beginUnit_pending (s : State) (op : UnitOp) (b : List Byte) : (s.beginUnit op b).pending = s.pending := rfl
@[simp] theorem State.beginUnit_resetLow (s : State) (op : UnitOp) (b : List Byte) : (s.beginUnit op b).resetLow = s.resetLow := rfl
@[simp] theorem State.beginUnit_grant (s : State) (op : UnitOp) (b : List Byte) : (s.beginUnit op b).grant = s.grant := rfl
@[simp] theorem State.beginUnit_timePhase (s : State) (op : UnitOp) (b : List Byte) : (s.beginUnit op b).timePhase = s.timePhase := rfl
@[simp] theorem State.beginUnit_cfg (s : State) (op : UnitOp) (b : List Byte) : (s.beginUnit op b).cfg = s.cfg := rfl
@[simp] theorem State.beginUnit_link (s : State) (op : UnitOp) (b : List Byte) : (s.beginUnit op b).link = s.link := rfl
@[simp] theorem State.beginUnit_inHand (s : State) (op : UnitOp) (b : List Byte) : (s.beginUnit op b).inHand = s.inHand := rfl
@[simp] theorem State.beginUnit_slots (s : State) (op : UnitOp) (b : List Byte) : (s.beginUnit op b).slots = s.slots := rfl
@[simp] theorem State.beginUnit_trig (s : State) (op : UnitOp) (b : List Byte) : (s.beginUnit op b).trig = s.trig := rfl
@[simp] theorem State.beginUnit_sched (s : State) (op : UnitOp) (b : List Byte) : (s.beginUnit op b).sched = s.sched := rfl
@[simp] theorem State.beginUnit_lanes (s : State) (op : UnitOp) (b : List Byte) : (s.beginUnit op b).lanes = s.lanes := rfl
@[simp] theorem State.beginUnit_notes (s : State) (op : UnitOp) (b : List Byte) : (s.beginUnit op b).notes = s.notes := rfl
@[simp] theorem State.beginUnit_mem (s : State) (op : UnitOp) (b : List Byte) : (s.beginUnit op b).mem = s.mem := rfl
@[simp] theorem State.beginUnit_freeCount (s : State) (op : UnitOp) (b : List Byte) : (s.beginUnit op b).freeCount = s.freeCount := rfl
@[simp] theorem State.beginUnit_lowered (s : State) (op : UnitOp) (b : List Byte) : (s.beginUnit op b).lowered = s.lowered := rfl

@[simp] theorem State.hold_pending (s : State) (t : Task) : (s.hold t).pending = s.pending := rfl
@[simp] theorem State.hold_resetLow (s : State) (t : Task) : (s.hold t).resetLow = s.resetLow := rfl
@[simp] theorem State.hold_grant (s : State) (t : Task) : (s.hold t).grant = s.grant := rfl
@[simp] theorem State.hold_timePhase (s : State) (t : Task) : (s.hold t).timePhase = s.timePhase := rfl
@[simp] theorem State.hold_cfg (s : State) (t : Task) : (s.hold t).cfg = s.cfg := rfl
@[simp] theorem State.hold_link (s : State) (t : Task) : (s.hold t).link = s.link := rfl
@[simp] theorem State.hold_slots (s : State) (t : Task) : (s.hold t).slots = s.slots := rfl
@[simp] theorem State.hold_trig (s : State) (t : Task) : (s.hold t).trig = s.trig := rfl
@[simp] theorem State.hold_sched (s : State) (t : Task) : (s.hold t).sched = s.sched := rfl
@[simp] theorem State.hold_mover (s : State) (t : Task) : (s.hold t).mover = s.mover := rfl
@[simp] theorem State.hold_lanes (s : State) (t : Task) : (s.hold t).lanes = s.lanes := rfl
@[simp] theorem State.hold_notes (s : State) (t : Task) : (s.hold t).notes = s.notes := rfl
@[simp] theorem State.hold_mem (s : State) (t : Task) : (s.hold t).mem = s.mem := rfl
@[simp] theorem State.hold_freeCount (s : State) (t : Task) : (s.hold t).freeCount = s.freeCount := rfl
@[simp] theorem State.hold_lowered (s : State) (t : Task) : (s.hold t).lowered = s.lowered := rfl

@[simp] theorem State.setFreeze_pending (s : State) (f : Freeze) : (s.setFreeze f).pending = s.pending := rfl
@[simp] theorem State.setFreeze_resetLow (s : State) (f : Freeze) : (s.setFreeze f).resetLow = s.resetLow := rfl
@[simp] theorem State.setFreeze_grant (s : State) (f : Freeze) : (s.setFreeze f).grant = s.grant := rfl
@[simp] theorem State.setFreeze_timePhase (s : State) (f : Freeze) : (s.setFreeze f).timePhase = s.timePhase := rfl
@[simp] theorem State.setFreeze_cfg (s : State) (f : Freeze) : (s.setFreeze f).cfg = s.cfg := rfl
@[simp] theorem State.setFreeze_link (s : State) (f : Freeze) : (s.setFreeze f).link = s.link := rfl
@[simp] theorem State.setFreeze_inHand (s : State) (f : Freeze) : (s.setFreeze f).inHand = s.inHand := rfl
@[simp] theorem State.setFreeze_slots (s : State) (f : Freeze) : (s.setFreeze f).slots = s.slots := rfl
@[simp] theorem State.setFreeze_trig (s : State) (f : Freeze) : (s.setFreeze f).trig = s.trig := rfl
@[simp] theorem State.setFreeze_mover (s : State) (f : Freeze) : (s.setFreeze f).mover = s.mover := rfl
@[simp] theorem State.setFreeze_lanes (s : State) (f : Freeze) : (s.setFreeze f).lanes = s.lanes := rfl
@[simp] theorem State.setFreeze_notes (s : State) (f : Freeze) : (s.setFreeze f).notes = s.notes := rfl
@[simp] theorem State.setFreeze_mem (s : State) (f : Freeze) : (s.setFreeze f).mem = s.mem := rfl
@[simp] theorem State.setFreeze_freeCount (s : State) (f : Freeze) : (s.setFreeze f).freeCount = s.freeCount := rfl
@[simp] theorem State.setFreeze_lowered (s : State) (f : Freeze) : (s.setFreeze f).lowered = s.lowered := rfl

@[simp] theorem State.seeGrant_pending (s : State) (g : Bool) : (s.seeGrant g).pending = s.pending := rfl
@[simp] theorem State.seeGrant_resetLow (s : State) (g : Bool) : (s.seeGrant g).resetLow = s.resetLow := rfl
@[simp] theorem State.seeGrant_timePhase (s : State) (g : Bool) : (s.seeGrant g).timePhase = s.timePhase := rfl
@[simp] theorem State.seeGrant_cfg (s : State) (g : Bool) : (s.seeGrant g).cfg = s.cfg := rfl
@[simp] theorem State.seeGrant_link (s : State) (g : Bool) : (s.seeGrant g).link = s.link := rfl
@[simp] theorem State.seeGrant_inHand (s : State) (g : Bool) : (s.seeGrant g).inHand = s.inHand := rfl
@[simp] theorem State.seeGrant_slots (s : State) (g : Bool) : (s.seeGrant g).slots = s.slots := rfl
@[simp] theorem State.seeGrant_trig (s : State) (g : Bool) : (s.seeGrant g).trig = s.trig := rfl
@[simp] theorem State.seeGrant_sched (s : State) (g : Bool) : (s.seeGrant g).sched = s.sched := rfl
@[simp] theorem State.seeGrant_mover (s : State) (g : Bool) : (s.seeGrant g).mover = s.mover := rfl
@[simp] theorem State.seeGrant_lanes (s : State) (g : Bool) : (s.seeGrant g).lanes = s.lanes := rfl
@[simp] theorem State.seeGrant_notes (s : State) (g : Bool) : (s.seeGrant g).notes = s.notes := rfl
@[simp] theorem State.seeGrant_mem (s : State) (g : Bool) : (s.seeGrant g).mem = s.mem := rfl
@[simp] theorem State.seeGrant_freeCount (s : State) (g : Bool) : (s.seeGrant g).freeCount = s.freeCount := rfl
@[simp] theorem State.seeGrant_lowered (s : State) (g : Bool) : (s.seeGrant g).lowered = s.lowered := rfl

@[simp] theorem State.configure_pending (s : State) (l m : Nat) : (s.configure l m).pending = s.pending := rfl
@[simp] theorem State.configure_resetLow (s : State) (l m : Nat) : (s.configure l m).resetLow = s.resetLow := rfl
@[simp] theorem State.configure_grant (s : State) (l m : Nat) : (s.configure l m).grant = s.grant := rfl
@[simp] theorem State.configure_timePhase (s : State) (l m : Nat) : (s.configure l m).timePhase = s.timePhase := rfl
@[simp] theorem State.configure_link (s : State) (l m : Nat) : (s.configure l m).link = s.link := rfl
@[simp] theorem State.configure_inHand (s : State) (l m : Nat) : (s.configure l m).inHand = s.inHand := rfl
@[simp] theorem State.configure_slots (s : State) (l m : Nat) : (s.configure l m).slots = s.slots := rfl
@[simp] theorem State.configure_trig (s : State) (l m : Nat) : (s.configure l m).trig = s.trig := rfl
@[simp] theorem State.configure_sched (s : State) (l m : Nat) : (s.configure l m).sched = s.sched := rfl
@[simp] theorem State.configure_mover (s : State) (l m : Nat) : (s.configure l m).mover = s.mover := rfl
@[simp] theorem State.configure_lanes (s : State) (l m : Nat) : (s.configure l m).lanes = s.lanes := rfl
@[simp] theorem State.configure_notes (s : State) (l m : Nat) : (s.configure l m).notes = s.notes := rfl
@[simp] theorem State.configure_mem (s : State) (l m : Nat) : (s.configure l m).mem = s.mem := rfl
@[simp] theorem State.configure_freeCount (s : State) (l m : Nat) : (s.configure l m).freeCount = s.freeCount := rfl
@[simp] theorem State.configure_lowered (s : State) (l m : Nat) : (s.configure l m).lowered = s.lowered := rfl

@[simp] theorem State.rxGo_pending (s : State) (r : Receiver) : (s.rxGo r).pending = s.pending := rfl
@[simp] theorem State.rxGo_resetLow (s : State) (r : Receiver) : (s.rxGo r).resetLow = s.resetLow := rfl
@[simp] theorem State.rxGo_grant (s : State) (r : Receiver) : (s.rxGo r).grant = s.grant := rfl
@[simp] theorem State.rxGo_timePhase (s : State) (r : Receiver) : (s.rxGo r).timePhase = s.timePhase := rfl
@[simp] theorem State.rxGo_cfg (s : State) (r : Receiver) : (s.rxGo r).cfg = s.cfg := rfl
@[simp] theorem State.rxGo_inHand (s : State) (r : Receiver) : (s.rxGo r).inHand = s.inHand := rfl
@[simp] theorem State.rxGo_slots (s : State) (r : Receiver) : (s.rxGo r).slots = s.slots := rfl
@[simp] theorem State.rxGo_trig (s : State) (r : Receiver) : (s.rxGo r).trig = s.trig := rfl
@[simp] theorem State.rxGo_sched (s : State) (r : Receiver) : (s.rxGo r).sched = s.sched := rfl
@[simp] theorem State.rxGo_mover (s : State) (r : Receiver) : (s.rxGo r).mover = s.mover := rfl
@[simp] theorem State.rxGo_lanes (s : State) (r : Receiver) : (s.rxGo r).lanes = s.lanes := rfl
@[simp] theorem State.rxGo_notes (s : State) (r : Receiver) : (s.rxGo r).notes = s.notes := rfl
@[simp] theorem State.rxGo_mem (s : State) (r : Receiver) : (s.rxGo r).mem = s.mem := rfl
@[simp] theorem State.rxGo_freeCount (s : State) (r : Receiver) : (s.rxGo r).freeCount = s.freeCount := rfl
@[simp] theorem State.rxGo_lowered (s : State) (r : Receiver) : (s.rxGo r).lowered = s.lowered := rfl

@[simp] theorem State.rxHunt_pending (s : State) : (s.rxHunt).pending = s.pending := rfl
@[simp] theorem State.rxHunt_resetLow (s : State) : (s.rxHunt).resetLow = s.resetLow := rfl
@[simp] theorem State.rxHunt_grant (s : State) : (s.rxHunt).grant = s.grant := rfl
@[simp] theorem State.rxHunt_timePhase (s : State) : (s.rxHunt).timePhase = s.timePhase := rfl
@[simp] theorem State.rxHunt_cfg (s : State) : (s.rxHunt).cfg = s.cfg := rfl
@[simp] theorem State.rxHunt_inHand (s : State) : (s.rxHunt).inHand = s.inHand := rfl
@[simp] theorem State.rxHunt_slots (s : State) : (s.rxHunt).slots = s.slots := rfl
@[simp] theorem State.rxHunt_trig (s : State) : (s.rxHunt).trig = s.trig := rfl
@[simp] theorem State.rxHunt_sched (s : State) : (s.rxHunt).sched = s.sched := rfl
@[simp] theorem State.rxHunt_mover (s : State) : (s.rxHunt).mover = s.mover := rfl
@[simp] theorem State.rxHunt_lanes (s : State) : (s.rxHunt).lanes = s.lanes := rfl
@[simp] theorem State.rxHunt_notes (s : State) : (s.rxHunt).notes = s.notes := rfl
@[simp] theorem State.rxHunt_mem (s : State) : (s.rxHunt).mem = s.mem := rfl
@[simp] theorem State.rxHunt_freeCount (s : State) : (s.rxHunt).freeCount = s.freeCount := rfl
@[simp] theorem State.rxHunt_lowered (s : State) : (s.rxHunt).lowered = s.lowered := rfl

/-- The taking of the next order touches the order table and the order in hand, and nothing else. -/
theorem State.takeNext_frame (s : State) :
    ∃ table inHand, s.takeNext = { s with link := { s.link with table := table }, inHand := inHand } := by
  unfold State.takeNext
  split
  · exact ⟨_, _, rfl⟩
  · exact ⟨s.link.table, s.inHand, rfl⟩

@[simp] theorem State.takeNext_pending (s : State) : s.takeNext.pending = s.pending := by
  obtain ⟨t, h, e⟩ := s.takeNext_frame; rw [e]
@[simp] theorem State.takeNext_resetLow (s : State) : s.takeNext.resetLow = s.resetLow := by
  obtain ⟨t, h, e⟩ := s.takeNext_frame; rw [e]
@[simp] theorem State.takeNext_grant (s : State) : s.takeNext.grant = s.grant := by
  obtain ⟨t, h, e⟩ := s.takeNext_frame; rw [e]
@[simp] theorem State.takeNext_timePhase (s : State) : s.takeNext.timePhase = s.timePhase := by
  obtain ⟨t, h, e⟩ := s.takeNext_frame; rw [e]
@[simp] theorem State.takeNext_cfg (s : State) : s.takeNext.cfg = s.cfg := by
  obtain ⟨t, h, e⟩ := s.takeNext_frame; rw [e]
@[simp] theorem State.takeNext_slots (s : State) : s.takeNext.slots = s.slots := by
  obtain ⟨t, h, e⟩ := s.takeNext_frame; rw [e]
@[simp] theorem State.takeNext_trig (s : State) : s.takeNext.trig = s.trig := by
  obtain ⟨t, h, e⟩ := s.takeNext_frame; rw [e]
@[simp] theorem State.takeNext_sched (s : State) : s.takeNext.sched = s.sched := by
  obtain ⟨t, h, e⟩ := s.takeNext_frame; rw [e]
@[simp] theorem State.takeNext_mover (s : State) : s.takeNext.mover = s.mover := by
  obtain ⟨t, h, e⟩ := s.takeNext_frame; rw [e]
@[simp] theorem State.takeNext_lowered (s : State) : s.takeNext.lowered = s.lowered := by
  obtain ⟨t, h, e⟩ := s.takeNext_frame; rw [e]
@[simp] theorem State.takeNext_lanes (s : State) : s.takeNext.lanes = s.lanes := by
  obtain ⟨t, h, e⟩ := s.takeNext_frame; rw [e]
@[simp] theorem State.takeNext_notes (s : State) : s.takeNext.notes = s.notes := by
  obtain ⟨t, h, e⟩ := s.takeNext_frame; rw [e]
@[simp] theorem State.takeNext_mem (s : State) : s.takeNext.mem = s.mem := by
  obtain ⟨t, h, e⟩ := s.takeNext_frame; rw [e]
@[simp] theorem State.takeNext_freeCount (s : State) : s.takeNext.freeCount = s.freeCount := by
  obtain ⟨t, h, e⟩ := s.takeNext_frame; rw [e]

@[simp] theorem State.placeAnswer_pending (s : State) (h : OrderInHand) (p : List Byte) : (s.placeAnswer h p).pending = s.pending := by
  simp [State.placeAnswer]
@[simp] theorem State.placeAnswer_resetLow (s : State) (h : OrderInHand) (p : List Byte) : (s.placeAnswer h p).resetLow = s.resetLow := by
  simp [State.placeAnswer]
@[simp] theorem State.placeAnswer_grant (s : State) (h : OrderInHand) (p : List Byte) : (s.placeAnswer h p).grant = s.grant := by
  simp [State.placeAnswer]
@[simp] theorem State.placeAnswer_timePhase (s : State) (h : OrderInHand) (p : List Byte) : (s.placeAnswer h p).timePhase = s.timePhase := by
  simp [State.placeAnswer]
@[simp] theorem State.placeAnswer_cfg (s : State) (h : OrderInHand) (p : List Byte) : (s.placeAnswer h p).cfg = s.cfg := by
  simp [State.placeAnswer]
@[simp] theorem State.placeAnswer_slots (s : State) (h : OrderInHand) (p : List Byte) : (s.placeAnswer h p).slots = s.slots := by
  simp [State.placeAnswer]
@[simp] theorem State.placeAnswer_trig (s : State) (h : OrderInHand) (p : List Byte) : (s.placeAnswer h p).trig = s.trig := by
  simp [State.placeAnswer]
@[simp] theorem State.placeAnswer_sched (s : State) (h : OrderInHand) (p : List Byte) : (s.placeAnswer h p).sched = s.sched := by
  simp [State.placeAnswer]
@[simp] theorem State.placeAnswer_mover (s : State) (h : OrderInHand) (p : List Byte) : (s.placeAnswer h p).mover = s.mover := by
  simp [State.placeAnswer]
@[simp] theorem State.placeAnswer_lowered (s : State) (h : OrderInHand) (p : List Byte) : (s.placeAnswer h p).lowered = s.lowered := by
  simp [State.placeAnswer]
@[simp] theorem State.placeAnswer_lanes (s : State) (h : OrderInHand) (p : List Byte) : (s.placeAnswer h p).lanes = s.lanes := by
  simp [State.placeAnswer]
@[simp] theorem State.placeAnswer_notes (s : State) (h : OrderInHand) (p : List Byte) : (s.placeAnswer h p).notes = s.notes := by
  simp [State.placeAnswer]
@[simp] theorem State.placeAnswer_mem (s : State) (h : OrderInHand) (p : List Byte) : (s.placeAnswer h p).mem = s.mem := by
  simp [State.placeAnswer]
@[simp] theorem State.placeAnswer_freeCount (s : State) (h : OrderInHand) (p : List Byte) : (s.placeAnswer h p).freeCount = s.freeCount := by
  simp [State.placeAnswer]

@[simp] theorem State.settleRequest_pending (s : State) : (s.settleRequest).pending = s.pending := rfl
@[simp] theorem State.settleRequest_resetLow (s : State) : (s.settleRequest).resetLow = s.resetLow := rfl
@[simp] theorem State.settleRequest_grant (s : State) : (s.settleRequest).grant = s.grant := rfl
@[simp] theorem State.settleRequest_timePhase (s : State) : (s.settleRequest).timePhase = s.timePhase := rfl
@[simp] theorem State.settleRequest_cfg (s : State) : (s.settleRequest).cfg = s.cfg := rfl
@[simp] theorem State.settleRequest_slots (s : State) : (s.settleRequest).slots = s.slots := rfl
@[simp] theorem State.settleRequest_trig (s : State) : (s.settleRequest).trig = s.trig := rfl
@[simp] theorem State.settleRequest_sched (s : State) : (s.settleRequest).sched = s.sched := rfl
@[simp] theorem State.settleRequest_mover (s : State) : (s.settleRequest).mover = s.mover := rfl
@[simp] theorem State.settleRequest_lanes (s : State) : (s.settleRequest).lanes = s.lanes := rfl
@[simp] theorem State.settleRequest_notes (s : State) : (s.settleRequest).notes = s.notes := rfl
@[simp] theorem State.settleRequest_mem (s : State) : (s.settleRequest).mem = s.mem := rfl
@[simp] theorem State.settleRequest_freeCount (s : State) : (s.settleRequest).freeCount = s.freeCount := rfl
@[simp] theorem State.settleRequest_link (s : State) : (s.settleRequest).link = s.link := rfl
@[simp] theorem State.settleRequest_inHand (s : State) : (s.settleRequest).inHand = s.inHand := rfl

@[simp] theorem State.carryOut_pending (s : State) (n : Byte) (o : List Byte) : (s.carryOut n o).pending = s.pending := rfl
@[simp] theorem State.carryOut_link (s : State) (n : Byte) (o : List Byte) : (s.carryOut n o).link = s.link := rfl
@[simp] theorem State.carryOut_resetLow (s : State) (n : Byte) (o : List Byte) : (s.carryOut n o).resetLow = s.resetLow := rfl
@[simp] theorem State.carryOut_grant (s : State) (n : Byte) (o : List Byte) : (s.carryOut n o).grant = s.grant := rfl
@[simp] theorem State.carryOut_timePhase (s : State) (n : Byte) (o : List Byte) : (s.carryOut n o).timePhase = s.timePhase := rfl
@[simp] theorem State.carryOut_cfg (s : State) (n : Byte) (o : List Byte) : (s.carryOut n o).cfg = s.cfg := rfl
@[simp] theorem State.carryOut_slots (s : State) (n : Byte) (o : List Byte) : (s.carryOut n o).slots = s.slots := rfl
@[simp] theorem State.carryOut_trig (s : State) (n : Byte) (o : List Byte) : (s.carryOut n o).trig = s.trig := rfl
@[simp] theorem State.carryOut_sched (s : State) (n : Byte) (o : List Byte) : (s.carryOut n o).sched = s.sched := rfl
@[simp] theorem State.carryOut_mover (s : State) (n : Byte) (o : List Byte) : (s.carryOut n o).mover = s.mover := rfl
@[simp] theorem State.carryOut_lanes (s : State) (n : Byte) (o : List Byte) : (s.carryOut n o).lanes = s.lanes := rfl
@[simp] theorem State.carryOut_notes (s : State) (n : Byte) (o : List Byte) : (s.carryOut n o).notes = s.notes := rfl
@[simp] theorem State.carryOut_mem (s : State) (n : Byte) (o : List Byte) : (s.carryOut n o).mem = s.mem := rfl
@[simp] theorem State.carryOut_freeCount (s : State) (n : Byte) (o : List Byte) : (s.carryOut n o).freeCount = s.freeCount := rfl
@[simp] theorem State.carryOut_lowered (s : State) (n : Byte) (o : List Byte) : (s.carryOut n o).lowered = s.lowered := rfl

@[simp] theorem State.setBurst_pending (s : State) (b : Option Burst) : (s.setBurst b).pending = s.pending := rfl
@[simp] theorem State.setBurst_resetLow (s : State) (b : Option Burst) : (s.setBurst b).resetLow = s.resetLow := rfl
@[simp] theorem State.setBurst_grant (s : State) (b : Option Burst) : (s.setBurst b).grant = s.grant := rfl
@[simp] theorem State.setBurst_timePhase (s : State) (b : Option Burst) : (s.setBurst b).timePhase = s.timePhase := rfl
@[simp] theorem State.setBurst_cfg (s : State) (b : Option Burst) : (s.setBurst b).cfg = s.cfg := rfl
@[simp] theorem State.setBurst_link (s : State) (b : Option Burst) : (s.setBurst b).link = s.link := rfl
@[simp] theorem State.setBurst_inHand (s : State) (b : Option Burst) : (s.setBurst b).inHand = s.inHand := rfl
@[simp] theorem State.setBurst_slots (s : State) (b : Option Burst) : (s.setBurst b).slots = s.slots := rfl
@[simp] theorem State.setBurst_trig (s : State) (b : Option Burst) : (s.setBurst b).trig = s.trig := rfl
@[simp] theorem State.setBurst_mover (s : State) (b : Option Burst) : (s.setBurst b).mover = s.mover := rfl
@[simp] theorem State.setBurst_lanes (s : State) (b : Option Burst) : (s.setBurst b).lanes = s.lanes := rfl
@[simp] theorem State.setBurst_notes (s : State) (b : Option Burst) : (s.setBurst b).notes = s.notes := rfl
@[simp] theorem State.setBurst_mem (s : State) (b : Option Burst) : (s.setBurst b).mem = s.mem := rfl
@[simp] theorem State.setBurst_freeCount (s : State) (b : Option Burst) : (s.setBurst b).freeCount = s.freeCount := rfl
@[simp] theorem State.setBurst_lowered (s : State) (b : Option Burst) : (s.setBurst b).lowered = s.lowered := rfl

@[simp] theorem State.setStack_pending (s : State) (l : List StackEntry) : (s.setStack l).pending = s.pending := rfl
@[simp] theorem State.setStack_resetLow (s : State) (l : List StackEntry) : (s.setStack l).resetLow = s.resetLow := rfl
@[simp] theorem State.setStack_grant (s : State) (l : List StackEntry) : (s.setStack l).grant = s.grant := rfl
@[simp] theorem State.setStack_timePhase (s : State) (l : List StackEntry) : (s.setStack l).timePhase = s.timePhase := rfl
@[simp] theorem State.setStack_cfg (s : State) (l : List StackEntry) : (s.setStack l).cfg = s.cfg := rfl
@[simp] theorem State.setStack_link (s : State) (l : List StackEntry) : (s.setStack l).link = s.link := rfl
@[simp] theorem State.setStack_inHand (s : State) (l : List StackEntry) : (s.setStack l).inHand = s.inHand := rfl
@[simp] theorem State.setStack_slots (s : State) (l : List StackEntry) : (s.setStack l).slots = s.slots := rfl
@[simp] theorem State.setStack_trig (s : State) (l : List StackEntry) : (s.setStack l).trig = s.trig := rfl
@[simp] theorem State.setStack_mover (s : State) (l : List StackEntry) : (s.setStack l).mover = s.mover := rfl
@[simp] theorem State.setStack_lanes (s : State) (l : List StackEntry) : (s.setStack l).lanes = s.lanes := rfl
@[simp] theorem State.setStack_notes (s : State) (l : List StackEntry) : (s.setStack l).notes = s.notes := rfl
@[simp] theorem State.setStack_mem (s : State) (l : List StackEntry) : (s.setStack l).mem = s.mem := rfl
@[simp] theorem State.setStack_freeCount (s : State) (l : List StackEntry) : (s.setStack l).freeCount = s.freeCount := rfl
@[simp] theorem State.setStack_lowered (s : State) (l : List StackEntry) : (s.setStack l).lowered = s.lowered := rfl

@[simp] theorem State.setAccess_pending (s : State) (a : Option LinkAccess) : (s.setAccess a).pending = s.pending := rfl
@[simp] theorem State.setAccess_resetLow (s : State) (a : Option LinkAccess) : (s.setAccess a).resetLow = s.resetLow := rfl
@[simp] theorem State.setAccess_grant (s : State) (a : Option LinkAccess) : (s.setAccess a).grant = s.grant := rfl
@[simp] theorem State.setAccess_timePhase (s : State) (a : Option LinkAccess) : (s.setAccess a).timePhase = s.timePhase := rfl
@[simp] theorem State.setAccess_cfg (s : State) (a : Option LinkAccess) : (s.setAccess a).cfg = s.cfg := rfl
@[simp] theorem State.setAccess_link (s : State) (a : Option LinkAccess) : (s.setAccess a).link = s.link := rfl
@[simp] theorem State.setAccess_inHand (s : State) (a : Option LinkAccess) : (s.setAccess a).inHand = s.inHand := rfl
@[simp] theorem State.setAccess_slots (s : State) (a : Option LinkAccess) : (s.setAccess a).slots = s.slots := rfl
@[simp] theorem State.setAccess_trig (s : State) (a : Option LinkAccess) : (s.setAccess a).trig = s.trig := rfl
@[simp] theorem State.setAccess_mover (s : State) (a : Option LinkAccess) : (s.setAccess a).mover = s.mover := rfl
@[simp] theorem State.setAccess_lanes (s : State) (a : Option LinkAccess) : (s.setAccess a).lanes = s.lanes := rfl
@[simp] theorem State.setAccess_notes (s : State) (a : Option LinkAccess) : (s.setAccess a).notes = s.notes := rfl
@[simp] theorem State.setAccess_mem (s : State) (a : Option LinkAccess) : (s.setAccess a).mem = s.mem := rfl
@[simp] theorem State.setAccess_freeCount (s : State) (a : Option LinkAccess) : (s.setAccess a).freeCount = s.freeCount := rfl
@[simp] theorem State.setAccess_lowered (s : State) (a : Option LinkAccess) : (s.setAccess a).lowered = s.lowered := rfl

@[simp] theorem State.setMover_pending (s : State) (m : Mover) : (s.setMover m).pending = s.pending := rfl
@[simp] theorem State.setMover_resetLow (s : State) (m : Mover) : (s.setMover m).resetLow = s.resetLow := rfl
@[simp] theorem State.setMover_grant (s : State) (m : Mover) : (s.setMover m).grant = s.grant := rfl
@[simp] theorem State.setMover_timePhase (s : State) (m : Mover) : (s.setMover m).timePhase = s.timePhase := rfl
@[simp] theorem State.setMover_cfg (s : State) (m : Mover) : (s.setMover m).cfg = s.cfg := rfl
@[simp] theorem State.setMover_link (s : State) (m : Mover) : (s.setMover m).link = s.link := rfl
@[simp] theorem State.setMover_inHand (s : State) (m : Mover) : (s.setMover m).inHand = s.inHand := rfl
@[simp] theorem State.setMover_slots (s : State) (m : Mover) : (s.setMover m).slots = s.slots := rfl
@[simp] theorem State.setMover_trig (s : State) (m : Mover) : (s.setMover m).trig = s.trig := rfl
@[simp] theorem State.setMover_sched (s : State) (m : Mover) : (s.setMover m).sched = s.sched := rfl
@[simp] theorem State.setMover_lanes (s : State) (m : Mover) : (s.setMover m).lanes = s.lanes := rfl
@[simp] theorem State.setMover_notes (s : State) (m : Mover) : (s.setMover m).notes = s.notes := rfl
@[simp] theorem State.setMover_mem (s : State) (m : Mover) : (s.setMover m).mem = s.mem := rfl
@[simp] theorem State.setMover_freeCount (s : State) (m : Mover) : (s.setMover m).freeCount = s.freeCount := rfl
@[simp] theorem State.setMover_lowered (s : State) (m : Mover) : (s.setMover m).lowered = s.lowered := rfl

@[simp] theorem State.goes_pending (s : State) (m : MoverState) : (s.goes m).pending = s.pending := rfl
@[simp] theorem State.goes_resetLow (s : State) (m : MoverState) : (s.goes m).resetLow = s.resetLow := rfl
@[simp] theorem State.goes_grant (s : State) (m : MoverState) : (s.goes m).grant = s.grant := rfl
@[simp] theorem State.goes_timePhase (s : State) (m : MoverState) : (s.goes m).timePhase = s.timePhase := rfl
@[simp] theorem State.goes_cfg (s : State) (m : MoverState) : (s.goes m).cfg = s.cfg := rfl
@[simp] theorem State.goes_link (s : State) (m : MoverState) : (s.goes m).link = s.link := rfl
@[simp] theorem State.goes_inHand (s : State) (m : MoverState) : (s.goes m).inHand = s.inHand := rfl
@[simp] theorem State.goes_slots (s : State) (m : MoverState) : (s.goes m).slots = s.slots := rfl
@[simp] theorem State.goes_trig (s : State) (m : MoverState) : (s.goes m).trig = s.trig := rfl
@[simp] theorem State.goes_sched (s : State) (m : MoverState) : (s.goes m).sched = s.sched := rfl
@[simp] theorem State.goes_lanes (s : State) (m : MoverState) : (s.goes m).lanes = s.lanes := rfl
@[simp] theorem State.goes_notes (s : State) (m : MoverState) : (s.goes m).notes = s.notes := rfl
@[simp] theorem State.goes_mem (s : State) (m : MoverState) : (s.goes m).mem = s.mem := rfl
@[simp] theorem State.goes_freeCount (s : State) (m : MoverState) : (s.goes m).freeCount = s.freeCount := rfl
@[simp] theorem State.goes_lowered (s : State) (m : MoverState) : (s.goes m).lowered = s.lowered := rfl

@[simp] theorem State.setMem_pending (s : State) (m : Memory) : (s.setMem m).pending = s.pending := rfl
@[simp] theorem State.setMem_resetLow (s : State) (m : Memory) : (s.setMem m).resetLow = s.resetLow := rfl
@[simp] theorem State.setMem_grant (s : State) (m : Memory) : (s.setMem m).grant = s.grant := rfl
@[simp] theorem State.setMem_timePhase (s : State) (m : Memory) : (s.setMem m).timePhase = s.timePhase := rfl
@[simp] theorem State.setMem_cfg (s : State) (m : Memory) : (s.setMem m).cfg = s.cfg := rfl
@[simp] theorem State.setMem_link (s : State) (m : Memory) : (s.setMem m).link = s.link := rfl
@[simp] theorem State.setMem_inHand (s : State) (m : Memory) : (s.setMem m).inHand = s.inHand := rfl
@[simp] theorem State.setMem_slots (s : State) (m : Memory) : (s.setMem m).slots = s.slots := rfl
@[simp] theorem State.setMem_trig (s : State) (m : Memory) : (s.setMem m).trig = s.trig := rfl
@[simp] theorem State.setMem_sched (s : State) (m : Memory) : (s.setMem m).sched = s.sched := rfl
@[simp] theorem State.setMem_mover (s : State) (m : Memory) : (s.setMem m).mover = s.mover := rfl
@[simp] theorem State.setMem_lanes (s : State) (m : Memory) : (s.setMem m).lanes = s.lanes := rfl
@[simp] theorem State.setMem_notes (s : State) (m : Memory) : (s.setMem m).notes = s.notes := rfl
@[simp] theorem State.setMem_freeCount (s : State) (m : Memory) : (s.setMem m).freeCount = s.freeCount := rfl
@[simp] theorem State.setMem_lowered (s : State) (m : Memory) : (s.setMem m).lowered = s.lowered := rfl

@[simp] theorem State.setBurst_sched_queues (s : State) (b : Option Burst) : (s.setBurst b).sched.queues = s.sched.queues := rfl
@[simp] theorem State.setBurst_sched_burst (s : State) (b : Option Burst) : (s.setBurst b).sched.burst = b := rfl
@[simp] theorem State.setBurst_sched_stack (s : State) (b : Option Burst) : (s.setBurst b).sched.stack = s.sched.stack := rfl
@[simp] theorem State.setBurst_sched_freeze (s : State) (b : Option Burst) : (s.setBurst b).sched.freeze = s.sched.freeze := rfl
@[simp] theorem State.setBurst_sched_access (s : State) (b : Option Burst) : (s.setBurst b).sched.access = s.sched.access := rfl

@[simp] theorem State.setStack_sched_queues (s : State) (l : List StackEntry) : (s.setStack l).sched.queues = s.sched.queues := rfl
@[simp] theorem State.setStack_sched_burst (s : State) (l : List StackEntry) : (s.setStack l).sched.burst = s.sched.burst := rfl
@[simp] theorem State.setStack_sched_stack (s : State) (l : List StackEntry) : (s.setStack l).sched.stack = l := rfl
@[simp] theorem State.setStack_sched_freeze (s : State) (l : List StackEntry) : (s.setStack l).sched.freeze = s.sched.freeze := rfl
@[simp] theorem State.setStack_sched_access (s : State) (l : List StackEntry) : (s.setStack l).sched.access = s.sched.access := rfl

@[simp] theorem State.setAccess_sched_queues (s : State) (a : Option LinkAccess) : (s.setAccess a).sched.queues = s.sched.queues := rfl
@[simp] theorem State.setAccess_sched_burst (s : State) (a : Option LinkAccess) : (s.setAccess a).sched.burst = s.sched.burst := rfl
@[simp] theorem State.setAccess_sched_stack (s : State) (a : Option LinkAccess) : (s.setAccess a).sched.stack = s.sched.stack := rfl
@[simp] theorem State.setAccess_sched_freeze (s : State) (a : Option LinkAccess) : (s.setAccess a).sched.freeze = s.sched.freeze := rfl
@[simp] theorem State.setAccess_sched_access (s : State) (a : Option LinkAccess) : (s.setAccess a).sched.access = a := rfl

@[simp] theorem State.setQueue_sched_burst (s : State) (q : Fin 28) (l : List (Fin 64)) : (s.setQueue q l).sched.burst = s.sched.burst := rfl
@[simp] theorem State.setQueue_sched_stack (s : State) (q : Fin 28) (l : List (Fin 64)) : (s.setQueue q l).sched.stack = s.sched.stack := rfl
@[simp] theorem State.setQueue_sched_freeze (s : State) (q : Fin 28) (l : List (Fin 64)) : (s.setQueue q l).sched.freeze = s.sched.freeze := rfl
@[simp] theorem State.setQueue_sched_access (s : State) (q : Fin 28) (l : List (Fin 64)) : (s.setQueue q l).sched.access = s.sched.access := rfl

@[simp] theorem State.setFreeze_sched_queues (s : State) (f : Freeze) : (s.setFreeze f).sched.queues = s.sched.queues := rfl
@[simp] theorem State.setFreeze_sched_burst (s : State) (f : Freeze) : (s.setFreeze f).sched.burst = s.sched.burst := rfl
@[simp] theorem State.setFreeze_sched_stack (s : State) (f : Freeze) : (s.setFreeze f).sched.stack = s.sched.stack := rfl
@[simp] theorem State.setFreeze_sched_freeze (s : State) (f : Freeze) : (s.setFreeze f).sched.freeze = f := rfl
@[simp] theorem State.setFreeze_sched_access (s : State) (f : Freeze) : (s.setFreeze f).sched.access = s.sched.access := rfl

@[simp] theorem State.setMover_mover (s : State) (m : Mover) : (s.setMover m).mover = m := rfl
@[simp] theorem State.setMem_mem (s : State) (m : Memory) : (s.setMem m).mem = m := rfl
@[simp] theorem State.setNotes_notes (s : State) (l : NoticeList) : (s.setNotes l).notes = l := rfl

@[simp] theorem State.setLine_trig_counts (s : State) (n : Fin 4) (l : Line) : (s.setLine n l).trig.counts = s.trig.counts := rfl
@[simp] theorem State.setLine_trig_misses (s : State) (n : Fin 4) (l : Line) : (s.setLine n l).trig.misses = s.trig.misses := rfl
@[simp] theorem State.setLine_trig_timers (s : State) (n : Fin 4) (l : Line) : (s.setLine n l).trig.timers = s.trig.timers := rfl

@[simp] theorem State.setTimer_trig_counts (s : State) (n : Fin 4) (t : Timer) : (s.setTimer n t).trig.counts = s.trig.counts := rfl
@[simp] theorem State.setTimer_trig_misses (s : State) (n : Fin 4) (t : Timer) : (s.setTimer n t).trig.misses = s.trig.misses := rfl
@[simp] theorem State.setTimer_trig_lines (s : State) (n : Fin 4) (t : Timer) : (s.setTimer n t).trig.lines = s.trig.lines := rfl

@[simp] theorem State.setCount_trig_misses (s : State) (q : Fin 28) (c : Nat) : (s.setCount q c).trig.misses = s.trig.misses := rfl
@[simp] theorem State.setCount_trig_lines (s : State) (q : Fin 28) (c : Nat) : (s.setCount q c).trig.lines = s.trig.lines := rfl
@[simp] theorem State.setCount_trig_timers (s : State) (q : Fin 28) (c : Nat) : (s.setCount q c).trig.timers = s.trig.timers := rfl

@[simp] theorem State.setMiss_trig_counts (s : State) (q : Fin 28) (c : Nat) : (s.setMiss q c).trig.counts = s.trig.counts := rfl
@[simp] theorem State.setMiss_trig_lines (s : State) (q : Fin 28) (c : Nat) : (s.setMiss q c).trig.lines = s.trig.lines := rfl
@[simp] theorem State.setMiss_trig_timers (s : State) (q : Fin 28) (c : Nat) : (s.setMiss q c).trig.timers = s.trig.timers := rfl

@[simp] theorem State.slot_setSlot_self (s : State) (i : Fin 64) (v : Slot) : (s.setSlot i v).slot i = v := by
  simp [State.slot, State.setSlot]

theorem State.slot_setSlot (s : State) (i j : Fin 64) (v : Slot) :
    (s.setSlot i v).slot j = if i = j then v else s.slot j := by
  simp only [State.slot, State.setSlot, Fin.getElem_fin, Vector.getElem_set, Fin.ext_iff]

theorem State.slot_setSlot_ne (s : State) {i j : Fin 64} (h : i ≠ j) (v : Slot) : (s.setSlot i v).slot j = s.slot j := by
  rw [State.slot_setSlot, if_neg h]

@[simp] theorem State.lane_setLane_self (s : State) (i : Fin 12) (v : Lane) : (s.setLane i v).lane i = v := by
  simp [State.lane, State.setLane]

theorem State.lane_setLane (s : State) (i j : Fin 12) (v : Lane) :
    (s.setLane i v).lane j = if i = j then v else s.lane j := by
  simp only [State.lane, State.setLane, Fin.getElem_fin, Vector.getElem_set, Fin.ext_iff]

theorem State.lane_setLane_ne (s : State) {i j : Fin 12} (h : i ≠ j) (v : Lane) : (s.setLane i v).lane j = s.lane j := by
  rw [State.lane_setLane, if_neg h]

@[simp] theorem State.line_setLine_self (s : State) (i : Fin 4) (v : Line) : (s.setLine i v).line i = v := by
  simp [State.line, State.setLine]

theorem State.line_setLine (s : State) (i j : Fin 4) (v : Line) :
    (s.setLine i v).line j = if i = j then v else s.line j := by
  simp only [State.line, State.setLine, Fin.getElem_fin, Vector.getElem_set, Fin.ext_iff]

theorem State.line_setLine_ne (s : State) {i j : Fin 4} (h : i ≠ j) (v : Line) : (s.setLine i v).line j = s.line j := by
  rw [State.line_setLine, if_neg h]

@[simp] theorem State.timer_setTimer_self (s : State) (i : Fin 4) (v : Timer) : (s.setTimer i v).timer i = v := by
  simp [State.timer, State.setTimer]

theorem State.timer_setTimer (s : State) (i j : Fin 4) (v : Timer) :
    (s.setTimer i v).timer j = if i = j then v else s.timer j := by
  simp only [State.timer, State.setTimer, Fin.getElem_fin, Vector.getElem_set, Fin.ext_iff]

theorem State.timer_setTimer_ne (s : State) {i j : Fin 4} (h : i ≠ j) (v : Timer) : (s.setTimer i v).timer j = s.timer j := by
  rw [State.timer_setTimer, if_neg h]

@[simp] theorem State.count_setCount_self (s : State) (i : Fin 28) (v : Nat) : (s.setCount i v).count i = v := by
  simp [State.count, State.setCount]

theorem State.count_setCount (s : State) (i j : Fin 28) (v : Nat) :
    (s.setCount i v).count j = if i = j then v else s.count j := by
  simp only [State.count, State.setCount, Fin.getElem_fin, Vector.getElem_set, Fin.ext_iff]

theorem State.count_setCount_ne (s : State) {i j : Fin 28} (h : i ≠ j) (v : Nat) : (s.setCount i v).count j = s.count j := by
  rw [State.count_setCount, if_neg h]

@[simp] theorem State.miss_setMiss_self (s : State) (i : Fin 28) (v : Nat) : (s.setMiss i v).miss i = v := by
  simp [State.miss, State.setMiss]

theorem State.miss_setMiss (s : State) (i j : Fin 28) (v : Nat) :
    (s.setMiss i v).miss j = if i = j then v else s.miss j := by
  simp only [State.miss, State.setMiss, Fin.getElem_fin, Vector.getElem_set, Fin.ext_iff]

theorem State.miss_setMiss_ne (s : State) {i j : Fin 28} (h : i ≠ j) (v : Nat) : (s.setMiss i v).miss j = s.miss j := by
  rw [State.miss_setMiss, if_neg h]

@[simp] theorem State.queue_setQueue_self (s : State) (i : Fin 28) (v : List (Fin 64)) : (s.setQueue i v).queue i = v := by
  simp [State.queue, State.setQueue]

theorem State.queue_setQueue (s : State) (i j : Fin 28) (v : List (Fin 64)) :
    (s.setQueue i v).queue j = if i = j then v else s.queue j := by
  simp only [State.queue, State.setQueue, Fin.getElem_fin, Vector.getElem_set, Fin.ext_iff]

theorem State.queue_setQueue_ne (s : State) {i j : Fin 28} (h : i ≠ j) (v : List (Fin 64)) : (s.setQueue i v).queue j = s.queue j := by
  rw [State.queue_setQueue, if_neg h]

end Sys2Proof.Machine
end

