-- ==== Sys2Proof/Laws/Memory.lean ====
section
/-! SUPPORT. The memory: every write keeps its canonical form, and a read after a write. -/

namespace Sys2Proof.Machine

theorem Memory.wf_nil : Memory.wf [] := List.Pairwise.nil

/-- Every address a write leaves listed is one that was listed, or the one written. -/
theorem Memory.mem_put (m : Memory) (a : Nat) (v : MemByte) (p : Nat × MemByte) (h : p ∈ m.put a v) :
    p.1 = a ∨ p ∈ m := by
  induction m with
  | nil => simp_all [Memory.put]
  | cons c m ih =>
    obtain ⟨b, x⟩ := c
    unfold Memory.put at h
    split_ifs at h with h1 h2
    · rcases List.mem_cons.1 h with h | h
      · exact .inl (by simp [h])
      · exact .inr h
    · rcases List.mem_cons.1 h with h | h
      · exact .inl (by simp [h])
      · exact .inr (List.mem_cons_of_mem _ h)
    · rcases List.mem_cons.1 h with h | h
      · exact .inr (by simp [h])
      · rcases ih h with h | h
        · exact .inl h
        · exact .inr (List.mem_cons_of_mem _ h)

/-- A write keeps the canonical form. -/
theorem Memory.wf_put {m : Memory} (h : m.wf) (a : Nat) (v : MemByte) : (m.put a v).wf := by
  induction m with
  | nil => simp [Memory.put, Memory.wf]
  | cons c m ih =>
    obtain ⟨b, x⟩ := c
    obtain ⟨hb, hm⟩ := List.pairwise_cons.1 h
    unfold Memory.put
    split_ifs with h1 h2
    · refine List.pairwise_cons.2 ⟨?_, h⟩
      intro p hp
      rcases List.mem_cons.1 hp with hp | hp
      · simpa [hp] using h1
      · exact Nat.lt_trans h1 (hb p hp)
    · subst h2
      exact List.pairwise_cons.2 ⟨hb, hm⟩
    · refine List.pairwise_cons.2 ⟨?_, ih hm⟩
      intro p hp
      rcases Memory.mem_put m a v p hp with hp | hp
      · simp only [hp]; omega
      · exact hb p hp

theorem Memory.wf_putBytes {m : Memory} (h : m.wf) (a : Nat) (bytes : List Byte) : (m.putBytes a bytes).wf := by
  induction bytes generalizing m a with
  | nil => exact h
  | cons b bs ih => exact ih (Memory.wf_put h a _) (a + 1)

theorem Memory.wf_scramble {m : Memory} (h : m.wf) (a k n : Nat) : (m.scramble a k n).wf := by
  induction n generalizing m a k with
  | zero => exact h
  | succ n ih => exact ih (Memory.wf_put h a _) (a + 1) (k + 1)

/-- The listed byte after a write: the byte written, at its address, and else what was listed. -/
theorem Memory.find_put {m : Memory} (h : m.wf) (a b : Nat) (v : MemByte) :
    (m.put a v).find b = if a = b then some v else m.find b := by
  induction m with
  | nil => simp only [Memory.put, Memory.find]
  | cons c m ih =>
    obtain ⟨d, x⟩ := c
    obtain ⟨hb, hm⟩ := List.pairwise_cons.1 h
    unfold Memory.put
    split_ifs with h1 h2 h3 h4 h5
    · simp [Memory.find, h2]
    · simp [Memory.find, h2]
    · subst h3; subst h4; simp [Memory.find]
    · subst h3; simp [Memory.find, h4]
    · subst h5
      have : d ≠ a := fun e => h3 e.symm
      simp [Memory.find, this, ih hm]
    · simp only [Memory.find, ih hm, if_neg h5]

/-- A read after a write (R102). -/
theorem Memory.read_put {m : Memory} (h : m.wf) (a b : Nat) (v : MemByte) :
    (m.put a v).read b = if a = b then v else m.read b := by
  simp only [Memory.read, Memory.find_put h]
  split_ifs <;> rfl

/-- A read outside the bytes a run of writes stores to. -/
theorem Memory.read_putBytes_out {m : Memory} (h : m.wf) (a b : Nat) (bytes : List Byte)
    (out : b < a ∨ a + bytes.length ≤ b) : (m.putBytes a bytes).read b = m.read b := by
  induction bytes generalizing m a with
  | nil => rfl
  | cons x xs ih =>
    simp only [List.length_cons] at out
    simp only [Memory.putBytes]
    rw [ih (Memory.wf_put h a _) (a + 1) (by omega), Memory.read_put h, if_neg (by omega)]

/-- A read of a byte a run of writes stored. -/
theorem Memory.read_putBytes_in {m : Memory} (h : m.wf) (a k : Nat) (bytes : List Byte) (x : Byte)
    (hk : bytes[k]? = some x) : (m.putBytes a bytes).read (a + k) = MemByte.ofData x := by
  induction bytes generalizing m a k with
  | nil => simp at hk
  | cons y ys ih =>
    simp only [Memory.putBytes]
    cases k with
    | zero =>
      simp only [List.getElem?_cons_zero, Option.some.injEq] at hk
      have out := Memory.read_putBytes_out (Memory.wf_put h a (MemByte.ofData y)) (a + 1) (a + 0) ys (.inl (by omega))
      rw [out, Memory.read_put h, if_pos (by omega), hk]
    | succ k =>
      rw [show a + (k + 1) = a + 1 + k by omega]
      exact ih (Memory.wf_put h a _) (a + 1) k (by simpa using hk)

/-- A read outside the bytes an abandoned unit leaves open. -/
theorem Memory.read_scramble_out {m : Memory} (h : m.wf) (a b k n : Nat) (out : b < a ∨ a + n ≤ b) :
    (m.scramble a k n).read b = m.read b := by
  induction n generalizing m a k with
  | zero => rfl
  | succ n ih =>
    simp only [Memory.scramble]
    rw [ih (Memory.wf_put h a _) (a + 1) (k + 1) (by omega), Memory.read_put h, if_neg (by omega)]

/-- A byte the part writes passes its check (R102, R103). -/
theorem MemByte.good_ofData (b : Byte) : (MemByte.ofData b).good = true := by
  simp [MemByte.ofData, MemByte.good]

end Sys2Proof.Machine
end

