-- ==== Sys2Proof/Laws/Reaction.lean ====
section
/-! SUPPORT. What the scheduler's reaction can do: it leaves `State.still` alone, and it is a chain of starts, resumptions
and pushes (`selection_induction`). -/

namespace Sys2Proof.Machine

/-! ## The frame of the elementary changes -/

@[simp] theorem State.still_setSlot (s : State) (i : Fin 64) (v : Slot) : (s.setSlot i v).still = s.still := rfl
@[simp] theorem State.still_setState (s : State) (i : Fin 64) (st : LiveState) : (s.setState i st).still = s.still := rfl
@[simp] theorem State.still_setCount (s : State) (q : Fin 28) (c : Nat) : (s.setCount q c).still = s.still := rfl
@[simp] theorem State.still_setMiss (s : State) (q : Fin 28) (c : Nat) : (s.setMiss q c).still = s.still := rfl
@[simp] theorem State.still_clearMiss (s : State) (q : Fin 28) : (s.clearMiss q).still = s.still := rfl
@[simp] theorem State.still_setQueue (s : State) (q : Fin 28) (l : List (Fin 64)) : (s.setQueue q l).still = s.still :=
  rfl
@[simp] theorem State.still_setNotes (s : State) (l : NoticeList) : (s.setNotes l).still = s.still := rfl
@[simp] theorem State.still_place (s : State) (b : NoticeBody) : (s.place b).still = s.still := rfl
@[simp] theorem State.still_makeWait (s : State) (r : Record) : (s.makeWait r).still = s.still := rfl
@[simp] theorem State.still_clearBurst (s : State) : s.clearBurst.still = s.still := rfl
@[simp] theorem State.still_lowerRequest (s : State) : s.lowerRequest.still = s.still := rfl
@[simp] theorem State.still_rest (s : State) : s.rest.still = s.still := rfl
@[simp] theorem State.still_beginUnit (s : State) (op : UnitOp) (b : List Byte) : (s.beginUnit op b).still = s.still := rfl
@[simp] theorem State.still_setBurst (s : State) (b : Option Burst) : (s.setBurst b).still = s.still := rfl
@[simp] theorem State.still_setStack (s : State) (l : List StackEntry) : (s.setStack l).still = s.still := rfl
@[simp] theorem State.still_setAccess (s : State) (a : Option LinkAccess) : (s.setAccess a).still = s.still := rfl
@[simp] theorem State.still_setFreeze (s : State) (f : Freeze) : (s.setFreeze f).still = s.still := rfl
@[simp] theorem State.still_setMover (s : State) (m : Mover) : (s.setMover m).still = s.still := rfl
@[simp] theorem State.still_goes (s : State) (m : MoverState) : (s.goes m).still = s.still := rfl

@[simp] theorem State.still_eventAt (s : State) (q : Fin 28) : (s.eventAt q).still = s.still := by
  unfold State.eventAt; split <;> simp

@[simp] theorem State.still_consume (s : State) (q : Fin 28) : (s.consume q).still = s.still := by
  unfold State.consume; split <;> simp

@[simp] theorem State.still_ask (s : State) : s.ask.still = s.still := by
  unfold State.ask; split <;> rfl

@[simp] theorem State.still_promoteHead (s : State) (q : Fin 28) : (s.promoteHead q).still = s.still := by
  unfold State.promoteHead; split
  · rfl
  · split <;> simp

@[simp] theorem State.still_removeHead (s : State) (q : Fin 28) (st : LiveState) :
    (s.removeHead q st).still = s.still := by
  unfold State.removeHead; split <;> simp

@[simp] theorem State.still_moveHeadToTail (s : State) (q : Fin 28) : (s.moveHeadToTail q).still = s.still := by
  unfold State.moveHeadToTail; split <;> simp

@[simp] theorem State.still_removeMember (s : State) (q : Fin 28) (i : Fin 64) :
    (s.removeMember q i).still = s.still := by simp [State.removeMember]

@[simp] theorem State.still_takeOut (s : State) (i : Fin 64) : (s.takeOut i).still = s.still := by
  unfold State.takeOut; split
  · rfl
  · split <;> simp

@[simp] theorem State.still_fireEndAction (s : State) (i : Fin 64) : (s.fireEndAction i).still = s.still := by
  unfold State.fireEndAction; split
  · split <;> simp
  · rfl

@[simp] theorem State.still_recirculate (s : State) (i : Fin 64) : (s.recirculate i).still = s.still := by
  unfold State.recirculate; split <;> simp

@[simp] theorem State.still_requeue (s : State) (r : EndRecord) : (s.requeue r).still = s.still := by
  unfold State.requeue; split <;> simp

@[simp] theorem State.still_placed (s : State) (r : Record) : (s.placed r).still = s.still := by
  cases r <;> simp [State.placed]

@[simp] theorem State.still_endProcessing (s : State) (i : Fin 64) : (s.endProcessing i).still = s.still := by
  unfold State.endProcessing; split
  · simp
  · dsimp only; split <;> simp

@[simp] theorem State.still_faultProcessing (s : State) (i : Fin 64) (f : FaultKind) :
    (s.faultProcessing i f).still = s.still := by
  unfold State.faultProcessing; split
  · simp
  · dsimp only; split <;> simp

@[simp] theorem State.still_endCurrent (s : State) (i : Fin 64) : (s.endCurrent i).still = s.still := by
  simp [State.endCurrent]

@[simp] theorem State.still_commitProgress (s : State) (i : Fin 64) (d : Descriptor) (p : Progress) (b : Burst) :
    (s.commitProgress i d p b).still = s.still := by
  unfold State.commitProgress; dsimp only; split <;> simp

@[simp] theorem State.still_tallyUnit (s : State) (i : Fin 64) (d : Descriptor) (p : Progress) (b : Burst) :
    (s.tallyUnit i d p b).still = s.still := by
  unfold State.tallyUnit; dsimp only; split <;> simp

@[simp] theorem State.still_beginNext (s : State) : s.beginNext.still = s.still := by
  unfold State.beginNext
  repeat' split
  all_goals simp

@[simp] theorem State.still_takeUp (s : State) : s.takeUp.still = s.still := by
  unfold State.takeUp
  repeat' split
  all_goals simp

/-! ## Starts, resumptions, pushes -/

@[simp] theorem State.still_startBurst (s : State) (i : Fin 64) : (s.startBurst i).still = s.still := by
  unfold State.startBurst
  split
  · rfl
  · dsimp only; split <;> simp

@[simp] theorem State.still_cutAbove (s : State) (level : Nat) (stack : List StackEntry) :
    (s.cutAbove level stack).still = s.still := by
  induction stack generalizing s with
  | nil => simp [State.cutAbove]
  | cons e rest ih =>
    unfold State.cutAbove
    split
    · simp
    · split <;> simp [ih]

@[simp] theorem State.still_startLink (s : State) : s.startLink.still = s.still := by
  unfold State.startLink
  split
  · rfl
  · dsimp only; split <;> simp

@[simp] theorem State.still_resume (s : State) : s.resume.still = s.still := by
  unfold State.resume
  split
  · rfl
  · dsimp only; split <;> simp

@[simp] theorem State.still_perform (s : State) (c : Choice) : (s.perform c).still = s.still := by
  cases c <;> simp [State.perform]

@[simp] theorem State.still_push (s : State) (b : Burst) : (s.push b).still = s.still := by
  unfold State.push
  dsimp only; split <;> simp

/-- What every choice of a selection keeps, and the rest at its end, the whole selection keeps. -/
theorem selection_induction (P : State → Prop)
    (perform : ∀ s c, s.sched.burst = none → s.choose = some c → P s → P (s.perform c))
    (rest : ∀ s, s.sched.burst = none → P s → P s.rest) (n : Nat) (s : State) (h : P s) : P (selection n s) := by
  induction n generalizing s with
  | zero =>
    unfold selection
    split
    · exact h
    · next hb => exact rest s (by simpa using hb) h
  | succ n ih =>
    unfold selection
    split
    · exact h
    · next hb =>
      split
      · exact rest s hb h
      · next c hc => exact ih _ (perform s c hb hc h)

@[simp] theorem State.still_select (s : State) : s.select.still = s.still := by
  refine selection_induction (fun t => t.still = s.still) ?_ ?_ _ s rfl
  · intro t c _ _ h; simp [h]
  · intro t _ h; simp [h]

/-- The reaction of the scheduler leaves `State.still` alone. -/
@[simp] theorem State.still_react (s : State) : s.react.still = s.still := by
  unfold State.react
  repeat' split
  all_goals simp

/-- With no burst in hand the mover does not stay at work: a selection leaves a burst in hand or the mover at rest. -/
theorem selection_ends (n : Nat) (s : State) :
    (selection n s).sched.burst ≠ none ∨ (selection n s).mover = Mover.atReset := by
  induction n generalizing s with
  | zero =>
    unfold selection
    split
    · next h => exact .inl (by intro e; simp [e] at h)
    · exact .inr rfl
  | succ n ih =>
    unfold selection
    split
    · next b h => exact .inl (by simp [h])
    · split
      · exact .inr rfl
      · exact ih _

/-! ## The fields of `still`, one by one -/

section
variable {s t : State} (h : s.still = t.still)
include h

theorem State.still.pending : s.pending = t.pending := by simp only [State.still, Prod.mk.injEq] at h; exact h.1
theorem State.still.resetLow : s.resetLow = t.resetLow := by simp only [State.still, Prod.mk.injEq] at h; exact h.2.1
theorem State.still.grant : s.grant = t.grant := by simp only [State.still, Prod.mk.injEq] at h; exact h.2.2.1
theorem State.still.timePhase : s.timePhase = t.timePhase := by
  simp only [State.still, Prod.mk.injEq] at h; exact h.2.2.2.1
theorem State.still.cfg : s.cfg = t.cfg := by simp only [State.still, Prod.mk.injEq] at h; exact h.2.2.2.2.1
theorem State.still.link : s.link = t.link := by simp only [State.still, Prod.mk.injEq] at h; exact h.2.2.2.2.2.1
theorem State.still.inHand : s.inHand = t.inHand := by
  simp only [State.still, Prod.mk.injEq] at h; exact h.2.2.2.2.2.2.1
theorem State.still.lines : s.trig.lines = t.trig.lines := by
  simp only [State.still, Prod.mk.injEq] at h; exact h.2.2.2.2.2.2.2.1
theorem State.still.timers : s.trig.timers = t.trig.timers := by
  simp only [State.still, Prod.mk.injEq] at h; exact h.2.2.2.2.2.2.2.2.1
theorem State.still.lanes : s.lanes = t.lanes := by
  simp only [State.still, Prod.mk.injEq] at h; exact h.2.2.2.2.2.2.2.2.2.1
theorem State.still.mem : s.mem = t.mem := by
  simp only [State.still, Prod.mk.injEq] at h; exact h.2.2.2.2.2.2.2.2.2.2.1
theorem State.still.freeCount : s.freeCount = t.freeCount := by
  simp only [State.still, Prod.mk.injEq] at h; exact h.2.2.2.2.2.2.2.2.2.2.2

end

end Sys2Proof.Machine
end

