-- ==== Sys2Proof/Laws/Orders.lean ====
section
/-! SUPPORT. What the order executor's shared operations do: the taking of the order in turn (`runOrder`), what a taken
order leaves readable, the reading of one-byte operands, and the production of an answer. -/

namespace Sys2Proof.Machine

/-! ## The order in turn -/

/-- An order of a length that fits is taken and carried out by its body. -/
theorem runOrder_taken {code n : Byte} {operands : List Byte} {body : List Byte → State → OrderEnd} {s : State}
    (turn : s.orderInTurn = some (n, code :: operands)) (fits : lengthFits code operands.length = some true) :
    runOrder code body s = (body operands (s.carryOut n (code :: operands))).finish code := by
  simp [runOrder, turn, fits]

/-- An order of another length is answered BAD_LENGTH. -/
theorem runOrder_badLength {code n : Byte} {operands : List Byte} {body : List Byte → State → OrderEnd} {s : State}
    (turn : s.orderInTurn = some (n, code :: operands)) (fits : lengthFits code operands.length = some false) :
    runOrder code body s = (s.carryOut n (code :: operands)).produceAnswer [code, 0x02] := by
  simp [runOrder, turn, fits, refusal, OrderEnd.finish, OutcomeCode.byte]

/-- With no order in turn, nothing happens. -/
theorem runOrder_idle {code : Byte} {body : List Byte → State → OrderEnd} {s : State} (turn : s.orderInTurn = none) :
    runOrder code body s = s := by
  simp [runOrder, turn]

/-- With another order in turn, nothing happens. -/
theorem runOrder_other {code other n : Byte} {operands : List Byte} {body : List Byte → State → OrderEnd} {s : State}
    (turn : s.orderInTurn = some (n, other :: operands)) (ne : other ≠ code) : runOrder code body s = s := by
  simp [runOrder, turn, ne]

/-! ## Readers of a state that has just taken its order -/

section
variable (s : State) (n : Byte) (order : List Byte)

@[simp] theorem State.carryOut_slot (i : Fin 64) : (s.carryOut n order).slot i = s.slot i := rfl
@[simp] theorem State.carryOut_queue (q : Fin 28) : (s.carryOut n order).queue q = s.queue q := rfl
@[simp] theorem State.carryOut_queueOf (i : Fin 64) : (s.carryOut n order).queueOf i = s.queueOf i := rfl
@[simp] theorem State.carryOut_sourceOf (i : Fin 64) : (s.carryOut n order).sourceOf i = s.sourceOf i := rfl
@[simp] theorem State.carryOut_count (q : Fin 28) : (s.carryOut n order).count q = s.count q := rfl
@[simp] theorem State.carryOut_miss (q : Fin 28) : (s.carryOut n order).miss q = s.miss q := rfl
@[simp] theorem State.carryOut_lane (k : Fin 12) : (s.carryOut n order).lane k = s.lane k := rfl
@[simp] theorem State.carryOut_line (k : Fin 4) : (s.carryOut n order).line k = s.line k := rfl
@[simp] theorem State.carryOut_timer (k : Fin 4) : (s.carryOut n order).timer k = s.timer k := rfl
@[simp] theorem State.carryOut_waitingMark (i : Fin 64) : (s.carryOut n order).waitingMark i = s.waitingMark i := rfl
@[simp] theorem State.carryOut_memorySize : (s.carryOut n order).memorySize = s.memorySize := rfl
@[simp] theorem State.carryOut_pendingOrders : (s.carryOut n order).pendingOrders = s.pendingOrders := rfl
@[simp] theorem State.carryOut_laneInUse (k : Fin 12) : (s.carryOut n order).laneInUse k = s.laneInUse k := rfl
@[simp] theorem State.carryOut_isCondition (q : Fin 28) : (s.carryOut n order).isCondition q = s.isCondition q := rfl
@[simp] theorem State.carryOut_isPending (q : Fin 28) : (s.carryOut n order).isPending q = s.isPending q := rfl
@[simp] theorem State.carryOut_membershipBytes (i : Fin 64) :
    (s.carryOut n order).membershipBytes i = s.membershipBytes i := rfl

@[simp] theorem State.carryOut_inState (i : Fin 64) (st : LiveState) :
    (s.carryOut n order).inState i st = s.inState i st := rfl

end

/-! ## Operands -/

theorem fieldAt_zero (b : Byte) (rest : List Byte) : fieldAt (b :: rest) 0 1 = b.toNat := by simp [fieldAt, readLE]

theorem fieldAt_succ (b : Byte) (rest : List Byte) (offset size : Nat) :
    fieldAt (b :: rest) (offset + 1) size = fieldAt rest offset size := by simp [fieldAt]

theorem slotByte_toNat (i : Fin 64) : (slotByte i).toNat = i.val := by simp [slotByte, le1]; omega

@[simp] theorem slotOf_slotByte (i : Fin 64) : slotOf (slotByte i).toNat = some i := by simp [slotByte_toNat, slotOf]

theorem slotOf_none {n : Nat} (h : 64 ≤ n) : slotOf n = none := by simp [slotOf, Nat.not_lt.mpr h]
theorem sourceNumber_none {n : Nat} (h : 28 ≤ n) : sourceNumber n = none := by simp [sourceNumber, Nat.not_lt.mpr h]
theorem laneOf_none {n : Nat} (h : 12 ≤ n) : laneOf n = none := by simp [laneOf, Nat.not_lt.mpr h]
theorem lineOf_none {n : Nat} (h : 4 ≤ n) : lineOf n = none := by simp [lineOf, Nat.not_lt.mpr h]
theorem softOf_none {n : Nat} (h : 8 ≤ n) : softOf n = none := by simp [softOf, Nat.not_lt.mpr h]

@[simp] theorem sourceNumber_val (q : Fin 28) : sourceNumber (BitVec.ofNat 8 q.val).toNat = some q := by
  have : q.val % 256 = q.val := by omega
  simp [sourceNumber, this]

@[simp] theorem laneOf_val (k : Fin 12) : laneOf (BitVec.ofNat 8 k.val).toNat = some k := by
  have : k.val % 256 = k.val := by omega
  simp [laneOf, this]

@[simp] theorem lineOf_val (k : Fin 4) : lineOf (BitVec.ofNat 8 k.val).toNat = some k := by
  have : k.val % 256 = k.val := by omega
  simp [lineOf, this]

@[simp] theorem softOf_val (k : Fin 8) : softOf (BitVec.ofNat 8 k.val).toNat = some k := by
  have : k.val % 256 = k.val := by omega
  simp [softOf, this]

/-! ## Answers -/

/-- The order in turn is the one in hand that the executor has taken and not carried out (R174). -/
theorem State.orderInTurn_iff (s : State) (n : Byte) (order : List Byte) :
    s.orderInTurn = some (n, order) ↔
      s.resetLow = false ∧
        ∃ waiting, s.inHand = some { number := n, payload := order, task := .taken, waiting := waiting } := by
  unfold State.orderInTurn
  split
  · rename_i low hand
    simp only [low, hand, Option.some.injEq, Prod.mk.injEq, OrderInHand.mk.injEq, true_and]
    constructor
    · rintro ⟨rfl, rfl⟩; exact ⟨_, rfl, rfl, rfl⟩
    · rintro ⟨_, rfl, rfl, _⟩; exact ⟨rfl, rfl⟩
  · rename_i no
    constructor
    · nofun
    · rintro ⟨low, waiting, hand⟩; exact (no _ _ _ low hand).elim

/-- The production of an answer touches the order table, the answer queue and the order in hand, and nothing else. -/
theorem State.produceAnswer_frame (s : State) (payload : List Byte) :
    ∃ table answers inHand,
      s.produceAnswer payload =
        { s with link := { s.link with table := table, answers := answers }, inHand := inHand } := by
  unfold State.produceAnswer
  split
  · exact ⟨s.link.table, s.link.answers, s.inHand, rfl⟩
  · split
    · unfold State.placeAnswer
      obtain ⟨table, hand, e⟩ := State.takeNext_frame _
      exact ⟨table, _, hand, e⟩
    · exact ⟨s.link.table, s.link.answers, _, rfl⟩

@[simp] theorem State.produceAnswer_mem (s : State) (p : List Byte) : (s.produceAnswer p).mem = s.mem := by
  obtain ⟨t, a, h, e⟩ := s.produceAnswer_frame p; rw [e]
@[simp] theorem State.produceAnswer_sched (s : State) (p : List Byte) : (s.produceAnswer p).sched = s.sched := by
  obtain ⟨t, a, h, e⟩ := s.produceAnswer_frame p; rw [e]
@[simp] theorem State.produceAnswer_slots (s : State) (p : List Byte) : (s.produceAnswer p).slots = s.slots := by
  obtain ⟨t, a, h, e⟩ := s.produceAnswer_frame p; rw [e]
@[simp] theorem State.produceAnswer_notes (s : State) (p : List Byte) : (s.produceAnswer p).notes = s.notes := by
  obtain ⟨t, a, h, e⟩ := s.produceAnswer_frame p; rw [e]
@[simp] theorem State.produceAnswer_mover (s : State) (p : List Byte) : (s.produceAnswer p).mover = s.mover := by
  obtain ⟨t, a, h, e⟩ := s.produceAnswer_frame p; rw [e]
@[simp] theorem State.produceAnswer_trig (s : State) (p : List Byte) : (s.produceAnswer p).trig = s.trig := by
  obtain ⟨t, a, h, e⟩ := s.produceAnswer_frame p; rw [e]
@[simp] theorem State.produceAnswer_lanes (s : State) (p : List Byte) : (s.produceAnswer p).lanes = s.lanes := by
  obtain ⟨t, a, h, e⟩ := s.produceAnswer_frame p; rw [e]
@[simp] theorem State.produceAnswer_cfg (s : State) (p : List Byte) : (s.produceAnswer p).cfg = s.cfg := by
  obtain ⟨t, a, h, e⟩ := s.produceAnswer_frame p; rw [e]
@[simp] theorem State.produceAnswer_lowered (s : State) (p : List Byte) : (s.produceAnswer p).lowered = s.lowered := by
  obtain ⟨t, a, h, e⟩ := s.produceAnswer_frame p; rw [e]
@[simp] theorem State.produceAnswer_resetLow (s : State) (p : List Byte) :
    (s.produceAnswer p).resetLow = s.resetLow := by
  obtain ⟨t, a, h, e⟩ := s.produceAnswer_frame p; rw [e]
@[simp] theorem State.produceAnswer_grant (s : State) (p : List Byte) : (s.produceAnswer p).grant = s.grant := by
  obtain ⟨t, a, h, e⟩ := s.produceAnswer_frame p; rw [e]

end Sys2Proof.Machine
end

