-- ==== Sys2Proof/WellFormed.lean ====
section
/-! DEFINITION. Which commands name something the data book has. Lane, line, timer and strap operands are bounded by
their types; the one check left is the length of a whole frame's body (R154). -/

namespace Sys2Proof

/-- The body of a frame holds 2 to 250 bytes (R154). -/
def frameBodyFits (body : List Byte) : Bool := 2 ≤ body.length && body.length ≤ 250

/-- A well-formed command. -/
def Instr.wf : Instr → Bool
  | .receiveFrame body _ => frameBodyFits body
  | .resetLow | .resetRelease _ _ | .interByteTimeout | .stopBitLow | .transmitFrame | .frameSent
  | .lineLevelChange _ _ | .timerExpiry _ | .grantAsserted | .grantDeasserted | .grantWaitExpiry | .unitBoundary
  | .lnstbAsserted _ _ | .lnstbDeasserted _ | .lnackAsserted _ | .lnackDeasserted _ | .unknownOrder | .define
  | .inspect | .rearm | .release | .trigger | .lineSetup | .timerSetup | .timerStart | .timerStop | .sourceStatus
  | .sourceClear | .bind | .unbind | .queueList | .freeze | .thaw | .peek | .poke | .laneSetup | .laneStatus
  | .cancel | .retry | .skip | .acknowledge | .resend | .hello | .configure | .summary | .resetPart
  | .byteReceived _ => true

end Sys2Proof
end

