-- ==== Sys2Proof/Laws/PerInstr.lean ====
section
/-! SUPPORT. Statements about every command as syntax, one lemma per constructor: a command is well formed exactly where
the line can carry it, which only the length of a whole frame's body limits (R154). -/

namespace Sys2Proof.Laws.WellFormed

/-- Well formed exactly where a frame's body, if the command carries one, has 2 to 250 bytes. -/
def Statement (i : Instr) : Prop :=
  i.wf = true ↔ ∀ body check, i = .receiveFrame body check → 2 ≤ body.length ∧ body.length ≤ 250

/-- A command that carries no frame is well formed. -/
theorem of_noFrame {i : Instr} (wf : i.wf = true) (none : ∀ body check, i ≠ .receiveFrame body check) : Statement i :=
  ⟨fun _ body check h => absurd h (none body check), fun _ => wf⟩

theorem resetLow : Statement (.resetLow) := of_noFrame rfl nofun
theorem resetRelease (baud : BitVec 2) (msize : BitVec 2) :
    Statement (.resetRelease baud msize) := of_noFrame rfl nofun
theorem receiveFrame (body : List Byte) (check : Half) : Statement (.receiveFrame body check) := by
  simp [Statement, Instr.wf, frameBodyFits]

theorem interByteTimeout : Statement (.interByteTimeout) := of_noFrame rfl nofun
theorem stopBitLow : Statement (.stopBitLow) := of_noFrame rfl nofun
theorem transmitFrame : Statement (.transmitFrame) := of_noFrame rfl nofun
theorem frameSent : Statement (.frameSent) := of_noFrame rfl nofun
theorem lineLevelChange (line : Fin 4) (high : Bool) : Statement (.lineLevelChange line high) := of_noFrame rfl nofun
theorem timerExpiry (timer : Fin 4) : Statement (.timerExpiry timer) := of_noFrame rfl nofun
theorem grantAsserted : Statement (.grantAsserted) := of_noFrame rfl nofun
theorem grantDeasserted : Statement (.grantDeasserted) := of_noFrame rfl nofun
theorem grantWaitExpiry : Statement (.grantWaitExpiry) := of_noFrame rfl nofun
theorem unitBoundary : Statement (.unitBoundary) := of_noFrame rfl nofun
theorem lnstbAsserted (lane : Fin 12) (data : Byte) : Statement (.lnstbAsserted lane data) := of_noFrame rfl nofun
theorem lnstbDeasserted (lane : Fin 12) : Statement (.lnstbDeasserted lane) := of_noFrame rfl nofun
theorem lnackAsserted (lane : Fin 12) : Statement (.lnackAsserted lane) := of_noFrame rfl nofun
theorem lnackDeasserted (lane : Fin 12) : Statement (.lnackDeasserted lane) := of_noFrame rfl nofun
theorem unknownOrder : Statement (.unknownOrder) := of_noFrame rfl nofun
theorem define : Statement (.define) := of_noFrame rfl nofun
theorem inspect : Statement (.inspect) := of_noFrame rfl nofun
theorem rearm : Statement (.rearm) := of_noFrame rfl nofun
theorem release : Statement (.release) := of_noFrame rfl nofun
theorem trigger : Statement (.trigger) := of_noFrame rfl nofun
theorem lineSetup : Statement (.lineSetup) := of_noFrame rfl nofun
theorem timerSetup : Statement (.timerSetup) := of_noFrame rfl nofun
theorem timerStart : Statement (.timerStart) := of_noFrame rfl nofun
theorem timerStop : Statement (.timerStop) := of_noFrame rfl nofun
theorem sourceStatus : Statement (.sourceStatus) := of_noFrame rfl nofun
theorem sourceClear : Statement (.sourceClear) := of_noFrame rfl nofun
theorem bind : Statement (.bind) := of_noFrame rfl nofun
theorem unbind : Statement (.unbind) := of_noFrame rfl nofun
theorem queueList : Statement (.queueList) := of_noFrame rfl nofun
theorem freeze : Statement (.freeze) := of_noFrame rfl nofun
theorem thaw : Statement (.thaw) := of_noFrame rfl nofun
theorem peek : Statement (.peek) := of_noFrame rfl nofun
theorem poke : Statement (.poke) := of_noFrame rfl nofun
theorem laneSetup : Statement (.laneSetup) := of_noFrame rfl nofun
theorem laneStatus : Statement (.laneStatus) := of_noFrame rfl nofun
theorem cancel : Statement (.cancel) := of_noFrame rfl nofun
theorem retry : Statement (.retry) := of_noFrame rfl nofun
theorem skip : Statement (.skip) := of_noFrame rfl nofun
theorem acknowledge : Statement (.acknowledge) := of_noFrame rfl nofun
theorem resend : Statement (.resend) := of_noFrame rfl nofun
theorem hello : Statement (.hello) := of_noFrame rfl nofun
theorem configure : Statement (.configure) := of_noFrame rfl nofun
theorem summary : Statement (.summary) := of_noFrame rfl nofun
theorem resetPart : Statement (.resetPart) := of_noFrame rfl nofun
theorem byteReceived (data : Byte) : Statement (.byteReceived data) := of_noFrame rfl nofun

end Sys2Proof.Laws.WellFormed
end

