-- ==== Sys2Proof/Tests/Slice0.lean ====
section
/-! SUPPORT. Tests: the well-formedness smoke test, examples of the data book, and for every statement of
Certificates/Slice0/Obligations.lean with hypotheses a witness (`test_meets_…`): a state and operands that meet them, at
the boundary values of each clause. -/

namespace Sys2Proof.Tests

set_option Elab.async false

open Sys2Proof.Machine

/-! ## States to test on -/

/-- The next state of an outcome. -/
def after : Host.Outcome State Fault Refusal → Option State
  | .next s => some s
  | .fault _ | .refused _ => none

/-- A state with one order accepted under the expected number and, with none in hand, taken: it is in turn. -/
def ordered (s : State) (order : List Byte) : State := (s.enterOrder order).takeNext

/-- A part that has just been reset, with one order in turn. -/
def fresh (order : List Byte) : State := ordered State.reset order

/-- The DEFINE of section 11.6, after its slot, with 00h for the bytes the kind does not use. -/
def captureRecord : List Byte := [1, 2, 2, 2, 4, 0, 3, 0, 6, 0, 0, 2, 0, 0, 0, 0, 0, 0, 0x51, 0x0A]

/-- The descriptor of section 11.6. -/
def capture : Descriptor :=
  { level := 2, total := 4, transfer := .capture .two 2 3 { start := 6, walk := .descend }, recirculate := false,
    endAction := none, label := 0x0A51 }

/-- A COPY as slot 40's in section 7.6.1. -/
def copy : Descriptor :=
  { level := 3, total := 10, transfer := .copy .four 8 { start := 0, walk := .ascend } { start := 64, walk := .ascend },
    recirculate := false, endAction := some 5, label := 7 }

/-- A RELAY as slot 9's in section 12.3. -/
def relay : Descriptor :=
  { level := 5, total := 100, transfer := .relay .one 4 6 7, recirculate := false, endAction := none, label := 9 }

/-- A TALLY as slot 50's in section 7.6.2. -/
def tally : Descriptor :=
  { level := 2, total := 3, transfer := .tally, recirculate := true, endAction := none, label := 0 }

/-- A slot with a fresh arming. -/
def live (st : LiveState) (d : Descriptor) : Slot := .live st d (d.freshProgress none)

/-- A state with one slot, heading a queue. -/
def heading (s : State) (i : Fin 64) (q : Fin 28) (sl : Slot) : State := (s.setSlot i sl).setQueue q [i]

/-- A burst of a slot. -/
def burstOf (i : Fin 64) (level moved block : Nat) : Option Burst :=
  some { owner := .slot i, level := level, moved := moved, block := block }

/-- The COPY's burst in hand, the mover in a state. -/
def copying (m : Mover) (moved : Nat) : State :=
  ((heading State.reset 40 20 (live .active copy)).setBurst (burstOf 40 3 moved 8)).setMover m

def asking : Mover := { state := .asking, request := true, timer := some 1000, unit := none }

def moving (op : UnitOp) (buffer : List Byte) : Mover :=
  { state := .moving, request := true, timer := none, unit := some { op := op, buffer := buffer } }

/-- Four bytes at address 0, the last of them with the given parity bit. -/
def fourBytes (lastParity : Bool) : Memory :=
  [(0, MemByte.ofData 1), (1, MemByte.ofData 2), (2, MemByte.ofData 3), (3, { data := 4, parity := lastParity })]

/-- The first COPY unit in progress, over these bytes. -/
def copyUnit (moved : Nat) (lastParity : Bool) : State :=
  { copying (moving (.copy 0 64 .four) []) moved with grant := true, mem := fourBytes lastParity }

/-- A waiting FAULT record of a slot. -/
def waitingFault (i : Fin 64) : Record :=
  .faulted { slot := i, label := 0, source := 0, fault := .laneOff, committed := 0, misses := 0 }

/-- A state in which a record waits for a slot. -/
def waitingFor (s : State) (i : Fin 64) : State := s.makeWait (waitingFault i)

/-- A state with n frames in the refusal queue. -/
def withRefusals (s : State) (n : Nat) : State :=
  { s with link := { s.link with refusals := List.replicate n { kind := .refusal, number := 0, payload := [1] } } }

/-- A state with n answers in the answer queue. -/
def withAnswers (s : State) (n : Nat) : State :=
  { s with link := { s.link with answers := List.replicate n { number := 9, payload := [1, 0] } } }

/-- A state with a lane set. -/
def withLane (s : State) (n : Fin 12) (direction : Direction) (phase : Phase) (fifo : List Byte) : State :=
  s.setLane n
    { enabled := true, direction := direction, threshold := 1, fifo := fifo, phase := phase, strobe := none, ack := false }

/-- A link access in hand on the byte at an address, with its unit in progress. -/
def linkUnit (kind : AccessKind) (block moved : Nat) (op : UnitOp) (buffer : List Byte) : State :=
  ((((State.reset.setAccess (some { start := 0, kind := kind, level := 1, candidate := false })).setBurst
    (some { owner := .link, level := 1, moved := moved, block := block })).setMover (moving op buffer)).setMem
      (fourBytes true))

/-! ## Well-formedness -/

theorem test_wf_empty_body_refused : (Instr.receiveFrame [] 0).wf = false := by decide

theorem test_wf_one_byte_body_refused : (Instr.receiveFrame [1] 0).wf = false := by decide

theorem test_wf_long_body_refused : (Instr.receiveFrame (List.replicate 251 0) 0).wf = false := by
  decide +kernel

theorem test_wf_bodies_at_the_bounds :
    (Instr.receiveFrame [1, 0] 0).wf = true ∧ (Instr.receiveFrame (List.replicate 250 0) 0).wf = true := by
  decide +kernel

theorem test_no_word_spells_a_command : decodeTableWord 8 0 = none ∧ decodeTableWord 32 0xFFFFFFFF = none := by decide

/-! ## Examples of the data book -/

/-- Section 9.2. -/
theorem test_frame_check : crc16 [0x31, 0x32, 0x33, 0x34, 0x35, 0x36, 0x37, 0x38, 0x39] = 0x29B1 := by decide +kernel

/-- Section 11.6. -/
theorem test_define_of_section_11_6 :
    (after (exec .define (fresh (0x10 :: 9 :: captureRecord)))).map (fun t => (t.slot 9, t.link.answers)) =
      some (live .loaded capture, [{ number := 0, payload := [0x10, 0x00, 0x09] }]) := by decide +kernel

theorem test_inspect_marks_absence :
    (after (exec .inspect (ordered (State.reset.setSlot 9 (live .loaded capture)) [0x11, 9]))).map
        (fun t => t.link.answers.map fun a => (a.payload.drop 4).take 20) =
      some [[1, 2, 2, 2, 4, 0, 3, 0xFF, 6, 0, 0, 2, 0, 0, 0, 0xFF, 0, 0, 0x51, 0x0A]] := by decide +kernel

/-- A side that must go below address 0 is out of range (R19). -/
theorem test_define_out_of_range :
    (after (exec .define (fresh (0x10 :: 9 :: captureRecord.set 4 5)))).map (fun t => (t.slot 9, t.link.answers)) =
      some (.free, [{ number := 0, payload := [0x10, 0x06] }]) := by decide +kernel

/-- A soft trigger raised at a bound TALLY is consumed at once by its one unit. -/
theorem test_trigger_runs_a_tally :
    (after (exec .trigger (ordered (heading State.reset 50 20 (live .current tally)) [0x20, 0]))).map
        (fun t => (t.slot 50, t.count 20, t.sched.burst, t.link.answers)) =
      some (.live .current tally { tally.freshProgress none with remaining := 2, committed := 1 }, 0, none,
        [{ number := 0, payload := [0x20, 0x00, 1] }]) := by decide +kernel

/-- The third unit ends the arming: notice 1, and the TALLY recirculates (R127). -/
theorem test_tally_ends :
    (after (exec .trigger
        (ordered
          (heading State.reset 50 20
            (.live .current tally { tally.freshProgress none with remaining := 1, committed := 2 })) [0x20, 0]))).map
        (fun t => (t.slot 50, t.queue 20, t.notes.list.map Notice.number, t.notes.txQueue)) =
      some (live .current tally, [50], [0, 1], [0, 1]) := by decide +kernel

/-- A bound COPY whose source fires asks for the memory (R93). -/
theorem test_copy_asks :
    (after (exec .trigger (ordered (heading State.reset 40 20 (live .current copy)) [0x20, 0]))).map
        (fun t => (t.inState 40 .active, t.mover, t.requestOut)) = some (true, asking, true) := by decide +kernel

/-- The grant begins its first unit (R93). -/
theorem test_grant_begins_the_copy :
    (after (exec .grantAsserted (copying asking 0))).map (fun t => (t.mover, t.memoryLinesDriven)) =
      some (moving (.copy 0 64 .four) [], true) := by decide +kernel

/-- The unit's end writes side B with good parity and begins the next (R87). -/
theorem test_copy_unit_moves :
    (after (exec .unitBoundary (copyUnit 0 false))).map
        (fun t => (t.mem.find 64, t.mem.find 67, (t.slot 40).counts, t.mover.unit.map UnitInProgress.op)) =
      some (some (MemByte.ofData 1), some (MemByte.ofData 4), (1, 9), some (.copy 4 68 .four)) := by decide +kernel

/-- A byte of even parity faults the COPY at its address (R89, R131). -/
theorem test_copy_unit_parity :
    (after (exec .unitBoundary (copyUnit 0 true))).map
        (fun t => (t.slot 40, t.mem == fourBytes true, t.mover, t.notes.list.length)) =
      some (.live .faulted copy { copy.freshProgress none with lastFault := some (.parity 3) }, true, Mover.atReset, 2) := by
  decide +kernel

theorem test_grant_withdrawn :
    (after (exec .grantDeasserted (copyUnit 0 false))).map (fun t => t.mover.state) = some .yielding := by decide +kernel

/-- The COPY's unit ends after the withdrawal: the request is lowered, and raised once the grant is gone (R97). -/
theorem test_boundary_after_a_withdrawal :
    ((after (exec .grantDeasserted (copyUnit 0 false))).bind (fun t => after (exec .unitBoundary t))).map
        (fun t => (t.mover, t.lowered, (t.slot 40).counts)) = some (asking, false, (1, 9)) := by decide +kernel

/-- In the moment an ASKING mover lowered its request, a grant either begins the unit or waits for its end (R100). -/
theorem test_grant_after_a_lowering :
    let s := { copying asking 0 with lowered := true }
    (after (exec .grantAsserted s)).map (fun t => (t.mover, t.lowered)) =
      some (if Config.grantIsStale 0 then ({ asking with state := .yielding, request := false, timer := none }, false)
        else (moving (.copy 0 64 .four) [], false)) := by
  have served : { { copying asking 0 with lowered := true } with grant := true, lowered := false, freeCount := 1 }.serveGrant.mover =
      moving (.copy 0 64 .four) [] := by decide +kernel
  have settled : { { copying asking 0 with lowered := true } with grant := true, lowered := false, freeCount := 1 }.serveGrant.lowered =
      false := by decide +kernel
  simp only [exec, execGrantAsserted, State.grantSeen, State.running, State.seeGrant]
  show (after (.next (if Config.grantIsStale 0 then _ else _))).map _ = _
  split
  · rfl
  · exact congrArg some (Prod.ext served settled)

theorem test_grant_timeout :
    (after (exec .grantWaitExpiry (copying asking 0))).map (fun t => (t.slot 40, t.mover)) =
      some (.live .faulted copy { copy.freshProgress none with lastFault := some .grantTimeout }, Mover.atReset) := by
  decide +kernel

/-- A byte strobed on an enabled IN lane is taken (R111). -/
theorem test_in_lane_takes :
    (after (exec (.lnstbAsserted 3 0x55) (withLane State.reset 3 .incoming .ready []))).map
        (fun t => ((t.lane 3).fifo, t.ackOut 3)) = some ([0x55], true) := by decide +kernel

/-- An OUT lane offers again after its release (R112). -/
theorem test_out_lane_offers_again :
    (after (exec (.lnackDeasserted 3) (withLane State.reset 3 .outgoing .releasing [7, 8]))).map
        (fun t => ((t.lane 3).phase, t.dataOut 3)) = some (.offered, some 7) := by decide +kernel

theorem test_line_edge_counts :
    (after (exec (.lineLevelChange 1 true)
        (State.reset.setLine 1 { mode := .rising, high := false, reference := some false }))).map (fun t => t.count 13) =
      some 1 := by decide +kernel

theorem test_timer_runs_out :
    (after (step { State.reset.setTimer 2 { period := 5, mode := .periodic, left := some 1 } with timePhase := 9 })).map
        (fun t => (t.count 18, (t.timer 2).left)) = some (1, some 5) := by decide +kernel

/-- A whole ORDER frame is accepted under number 0 (R161). -/
theorem test_order_frame_accepted :
    (after (exec (.receiveFrame [1, 0, 0x01] (frameCheck [1, 0, 0x01])) State.reset)).map
        (fun t => (t.link.expected, t.orderInTurn)) = some (1, some (0, [0x01])) := by decide +kernel

/-- An order is taken at its acceptance, the next one at the placement of its answer (R174). -/
theorem test_orders_are_taken_in_turn :
    let s := ordered (ordered State.reset [0x01]) [0x03]
    (s.orderInTurn, (after (exec .hello s)).map State.orderInTurn) = (some (0, [0x01]), some (some (1, [0x03]))) := by
  decide +kernel

/-- From the taking of a RESET PART on, frames are discarded (R172). -/
theorem test_reset_part_taken_discards_frames :
    (after (exec (.receiveFrame [1, 1, 0x01] (frameCheck [1, 1, 0x01])) (fresh [0x0F]))).map (fun t => t.link) =
      some (fresh [0x0F]).link := by decide +kernel

/-- A CANCEL whose answer waits for room is over: the next boundary leaves it alone (R138, R177). -/
theorem test_cancel_answered_once :
    let s := { withAnswers (copyUnit 0 false) 8 with
      inHand := some { number := 1, payload := [0x70, 40], task := .cancel 40, waiting := none } }
    (after (exec .unitBoundary s)).map (fun t => (t.inHand, t.cancelWaits 40)) =
      some (some { number := 1, payload := [0x70, 40], task := .carriedOut, waiting := some [0x70, 0, 40, 4, 1, 0, 0, 9, 0, 0] },
        false) := by decide +kernel

theorem test_bad_check_refused :
    (after (exec (.receiveFrame [1, 0, 0x01] (frameCheck [1, 0, 0x01] + 1)) State.reset)).map
        (fun t => t.link.refusals) = some [{ kind := .refusal, number := 0, payload := [1] }] := by decide +kernel

/-- The RESTART notice goes out with number, kind, reason, memory size and revision (R152, R192). -/
theorem test_restart_notice_sent :
    (after (exec .transmitFrame State.reset)).map (fun t => t.link.tx) =
      some (some { kind := .notice, number := 0, payload := [0, 0, 1, 1, 0, 0, 2, 1] }) := by decide +kernel

theorem test_acknowledge_restart :
    (after (exec .acknowledge (fresh [0x80, 0, 0]))).map (fun t => (t.notes.list, t.notes.txQueue, t.link.answers)) =
      some ([], [], [{ number := 0, payload := [0x80, 0, 1, 0, 0, 0] }]) := by decide +kernel

theorem test_reset_part_resets :
    ((after (exec .resetPart (fresh [0x0F]))).bind (fun t => after (exec .transmitFrame t))).bind
        (fun t => (after (exec .frameSent { t with timePhase := 4 }))) =
      some { State.reset.resetBlocks .order with timePhase := 4 } := by decide +kernel

theorem test_freeze_cuts_an_asking_burst :
    (after (exec .freeze (ordered (copying asking 0) [0x40]))).map
        (fun t => (t.inState 40 .current, t.sched.freeze, t.mover, t.link.answers)) =
      some (true, .frozen, Mover.atReset, [{ number := 0, payload := [0x40, 0, 40, 0] }]) := by decide +kernel

theorem test_cancel_waits_for_the_unit :
    ((after (exec .cancel (ordered (copyUnit 0 false) [0x70, 40]))).bind (fun t => after (exec .unitBoundary t))).map
        (fun t => ((t.slot 40).state, t.queue 20, t.link.answers)) =
      some (some .loaded, [], [{ number := 0, payload := [0x70, 0, 40, 4, 1, 0, 0, 9, 0, 0] }]) := by decide +kernel

theorem test_higher_relay_pushes_an_asking_copy :
    (after (exec (.lnstbAsserted 6 0xAA)
        (heading (withLane (withLane (copying asking 2) 6 .incoming .ready []) 7 .outgoing .quiet []) 9 6
          (live .current relay)))).map
        (fun t => (t.sched.stack, t.inState 40 .preempted, t.mover.request, t.mover.unit.map UnitInProgress.op)) =
      some ([{ owner := .slot 40, level := 3, moved := 2 }], true, false, some (.relay 6 7 .one)) := by decide +kernel

theorem test_peek_reads_one_byte :
    (after (exec .unitBoundary (linkUnit (.peek 1 []) 1 0 (.peek 0) []))).map (fun t => (t.sched.access, t.mover)) =
      some (none, Mover.atReset) := by decide +kernel

/-- 55h on the line: start bit, data with the least significant bit first, stop bit (R153). -/
theorem test_character : charBits 0x55 = [false, true, false, true, false, true, false, true, false, true] := by decide

/-- The COPY's cycles: both halves of the bus, two reads and two writes; a bad byte leaves the reads alone (R91). -/
theorem test_bus_cycles_of_a_copy :
    (copyUnit 0 false).cyclesOut =
        [{ write := false, address := 0, low := some (MemByte.ofData 1), high := some (MemByte.ofData 2) },
          { write := false, address := 2, low := some (MemByte.ofData 3), high := some (MemByte.ofData 4) },
          { write := true, address := 64, low := some (MemByte.ofData 1), high := some (MemByte.ofData 2) },
          { write := true, address := 66, low := some (MemByte.ofData 3), high := some (MemByte.ofData 4) }] ∧
      (copyUnit 0 true).cyclesOut.length = 2 := by decide +kernel

/-- A byte at an odd address travels on MD15:8 (R91). -/
theorem test_bus_cycle_of_an_odd_byte :
    (linkUnit (.poke [7]) 1 0 (.poke 5) [7]).cyclesOut =
      [{ write := true, address := 5, low := none, high := some (MemByte.ofData 7) }] := by decide +kernel

/-! ## Witnesses of the statements' hypotheses -/

theorem test_meets_StepRunsTheFrontCommand :
    (State.pending { State.reset with pending := [.frameSent] }) = .frameSent :: [] := by decide

/-- An expiring timer in either mode, one that goes on, a tick inside a 10 us step and one that ends it with each count
left of the grant-wait and inter-byte timers, and RESET# low. -/
theorem test_meets_EmptyQueuePassesOneMicrosecond :
    let at9 (mode : TimerMode) (left : Nat) : State :=
      { State.reset.setTimer 3 { period := 5, mode := mode, left := some left } with timePhase := 9 }
    (at9 .periodic 1).resetLow = false ∧ (at9 .periodic 1).timePhase = 9 ∧ ((at9 .periodic 1).timer 3).left = some 1 ∧
      ((at9 .single 1).timer 3).left = some 1 ∧ ((at9 .single 2).timer 3).left = some (0 + 2) ∧
      State.reset.timePhase < 9 ∧ State.reset.pending = [] ∧ (State.resetLow { State.reset with resetLow := true }) = true ∧
      (State.reset.setMover { asking with timer := some (0 + 2) }).mover.timer = some (0 + 2) ∧
      (State.reset.setMover { asking with timer := some 1 }).mover.timer = some 1 ∧ State.reset.mover.timer = none ∧
      (State.reset.rxGo .length).link.rxTimer = some (198 + 2) ∧ State.reset.link.rxTimer = none ∧
      (∀ k < 2,
        let s := { State.reset.setMover { asking with timer := some (k + 1) } with
          timePhase := 9, link.rxTimer := some (k + 1) }
        s.resetLow = false ∧ s.timePhase = 9 ∧ s.mover.timer = some (k + 1) ∧ s.link.rxTimer = some (k + 1)) ∧
      (State.timer { State.reset.setTimer 0 { period := 1, mode := .single, left := none } with timePhase := 9 } 0).left =
        none := by
  decide +kernel

theorem test_meets_ReleaseResetsEveryBlock : State.reset.takeLow.resetLow = true := by decide +kernel

theorem test_meets_ResetLowHoldsThePartStill :
    (copyUnit 0 false).mem.wf ∧ (copyUnit 0 false).outsideUnit 63 ∧ (copyUnit 0 false).outsideUnit 68 ∧
      (copyUnit 0 false).takeLow.resetLow = true ∧ (copyUnit 0 false).takeLow.mover.unit = none := by
  have dest : (copyUnit 0 false).destination { op := .copy 0 64 .four, buffer := [] } = some (64, 4) := by decide +kernel
  have unit : (copyUnit 0 false).mover.unit = some { op := .copy 0 64 .four, buffer := [] } := by decide +kernel
  have outside : ∀ a, (a < 64 ∨ 68 ≤ a) → (copyUnit 0 false).outsideUnit a := by
    intro a out u hu b n hb
    rw [unit] at hu
    cases hu
    rw [dest] at hb
    cases hb
    exact out
  exact ⟨by decide +kernel, outside 63 (by omega), outside 68 (by omega), by decide +kernel, by decide +kernel⟩

/-- The answer of a RESET PART in hand being sent. -/
def resetAnswerGoing : State :=
  { State.reset with
    inHand := some { number := 7, payload := [0x0F], task := .resetPart, waiting := none }
    link := { LinkPort.atReset with tx := some { kind := .answer, number := 7, payload := [0x0F, 0x00] } } }

theorem test_meets_FrameSentFreesTheTransmitter :
    resetAnswerGoing.resetLow = false ∧ resetAnswerGoing.inHand.map OrderInHand.task = some .resetPart ∧
      resetAnswerGoing.link.tx = some { kind := .answer, number := 7, payload := [0x0F, 0x00] } ∧
      State.isResetAnswer { resetAnswerGoing with inHand := none } { kind := .answer, number := 7, payload := [0x0F, 0] } =
        false ∧
      State.reset.mem.wf ∧ State.reset.link.tx = none := by decide +kernel

/-- A part whose receiver stands in a state. -/
def receiving (rx : Receiver) : State := State.reset.rxGo rx

theorem test_meets_ReceiverFollowsItsTable :
    State.reset.link.rx = .hunt ∧ (receiving .length).link.rx = .length ∧ (receiving (.body 3 [1])).link.rx = .body 3 [1] ∧
      [(1 : Byte)].length + 1 < 3 ∧ (receiving (.body 2 [1])).link.rx = .body 2 [1] ∧ [(1 : Byte)].length + 1 = 2 ∧
      (receiving (.check [1, 2] none)).link.rx = .check [1, 2] none ∧
      (receiving (.check [1, 2] (some 0))).link.rx = .check [1, 2] (some 0) ∧ (receiving .length).resetLow = false ∧
      2 ≤ (2 : Byte).toNat ∧ (250 : Byte).toNat ≤ 250 ∧ (1 : Byte).toNat < 2 ∧ 250 < (251 : Byte).toNat ∧
      (0xD3 : Byte) ≠ 0xD2 := by decide

theorem test_meets_StopBitLowDiscardsTheFrame :
    (receiving .length).resetLow = false ∧ State.reset.link.rx = .hunt ∧ State.reset.link.rxTimer = none := by decide

/-- A frame in progress, and neither a frame nor RESET# high. -/
theorem test_meets_FrameCheckIsTheCrcOfTheDataBook :
    resetAnswerGoing.link.tx.isSome = true ∧ resetAnswerGoing.resetLow = false ∧ State.reset.link.tx = none ∧
      State.reset.takeLow.resetLow = true := by decide +kernel

theorem test_meets_CompletedFramesAreHandledByKind :
    State.reset.resetLow = false ∧ State.reset.link.rx = .hunt ∧ State.reset.link.rxTimer = none ∧
      (List.replicate 248 (0 : Byte)).length ≤ 248 ∧ State.reset.resetInHand = false ∧
      State.resetInHand { resetAnswerGoing with link := LinkPort.atReset } = true ∧ (fresh [0x0F]).resetInHand = true ∧
      (fresh [0x0F, 0]).resetInHand = false ∧ State.reset.inHand = none ∧
      (frameCheck [3, 0] + 1) ≠ frameCheck [3, 0] ∧ (0 : Byte) ≠ 0x01 ∧ (3 : Byte) ≠ 0x02 := by decide +kernel

/-- A part that listens with this order table and E = 8. -/
def withTable (table : List Entry) : State :=
  { State.reset with link := { LinkPort.atReset with table := table, expected := 8 } }

/-- Eight entries numbered 0 to 7, all PENDING. -/
def fullTable : List Entry :=
  (List.range 8).map fun k => { number := BitVec.ofNat 8 k, status := .pending none, queued := false }

/-- One answered entry, number 7. -/
def answeredEntry (queued : Bool) : Entry := { number := 7, status := .answered [1, 0], queued := queued }

theorem test_meets_OrderFramesAreAcceptedOrRefused :
    (withTable fullTable).listening ∧
      (withTable fullTable).entry 7 = some { number := 7, status := .pending none, queued := false } ∧
      (withTable fullTable).entry 8 = none ∧ (8 : Byte) = (withTable fullTable).link.expected ∧
      8 ≤ (withTable fullTable).pendingOrders ∧ (withTable [answeredEntry false]).pendingOrders < 8 ∧
      (withTable [answeredEntry false]).entry 9 = none ∧ (9 : Byte) ≠ (withTable [answeredEntry false]).link.expected ∧
      (withTable [answeredEntry false]).entry 7 = some (answeredEntry false) ∧
      (withTable [answeredEntry true]).entry 7 = some (answeredEntry true) ∧
      8 ≤ (withAnswers (withTable [answeredEntry false]) 8).link.answers.length ∧
      (withAnswers (withTable [answeredEntry false]) 7).link.answers.length < 8 := by
  unfold State.listening
  decide +kernel

theorem test_meets_SyncSetsTheExpectedNumber :
    (withTable fullTable).listening ∧ 0 < (withTable fullTable).pendingOrders ∧
      (withTable [answeredEntry false]).pendingOrders = 0 := by
  unfold State.listening
  decide +kernel

theorem test_meets_RefusalQueueDropsTheFifthFrame :
    (withRefusals State.reset 3).link.refusals.length < 4 ∧ (withRefusals State.reset 4).link.refusals.length = 4 ∧
      (withRefusals State.reset 4).listening ∧ (withRefusals State.reset 4).entry 5 = none ∧
      (5 : Byte) ≠ (withRefusals State.reset 4).link.expected ∧ (withRefusals State.reset 4).pendingOrders = 0 ∧
      (0 : Half) ≠ frameCheck [0x01, 5] := by
  unfold State.listening
  decide +kernel

/-- An answer that waits for room. -/
def answerWaits : State :=
  { withAnswers State.reset 8 with
    inHand := some { number := 3, payload := [0x01], task := .carriedOut, waiting := some [0x01, 0x00] } }

theorem test_meets_TransmitterTakesTheMostUrgentFrame :
    (withRefusals State.reset 1).resetLow = false ∧ (withRefusals State.reset 1).link.tx = none ∧
      (withRefusals State.reset 1).link.refusals = { kind := .refusal, number := 0, payload := [1] } :: [] ∧
      (withAnswers State.reset 1).link.refusals = [] ∧
      (withAnswers State.reset 1).link.answers = { number := 9, payload := [1, 0] } :: [] ∧
      State.reset.link.answers = [] ∧ State.reset.notes.txQueue = 0 :: [] ∧
      (State.reset.notes.list.find? fun y => y.number = 0) =
        some { number := 0, body := .restart .line 131072 1, queued := true } ∧
      (State.reset.setNotes { State.reset.notes with txQueue := [] }).notes.txQueue = [] ∧
      resetAnswerGoing.link.tx ≠ none ∧ (withAnswers State.reset 1).inHand = none ∧
      answerWaits.inHand.map OrderInHand.waiting = some (some [0x01, 0x00]) ∧ answerWaits.link.refusals = [] ∧
      answerWaits.link.answers.length = 8 := by decide +kernel

theorem test_meets_WaitingAnswerTakesTheFreedRoom :
    answerWaits.resetLow = false ∧ answerWaits.link.tx = none ∧ answerWaits.link.refusals = [] ∧
      answerWaits.link.answers.length = 8 ∧ answerWaits.inHand.map OrderInHand.waiting = some (some [0x01, 0x00]) ∧
      (withAnswers State.reset 7).link.answers.length < 8 ∧ answerWaits.link.table = [] ∧
      (answerWaits.enterOrder [0x03]).link.table =
        [] ++ { number := 0, status := .pending (some [0x03]), queued := false } :: [] ∧ (0 : Byte) ≠ 3 ∧
      answerWaits.inHand.map OrderInHand.task = some .carriedOut ∧
      resetAnswerGoing.inHand.map OrderInHand.task = some .resetPart := by decide +kernel

theorem test_meets_ExecutorTakesTheOldestOrder :
    (State.reset.enterOrder [0x01]).resetLow = false ∧ (State.reset.enterOrder [0x01]).inHand = none ∧
      (State.reset.enterOrder [0x01]).link.table =
        [] ++ { number := 0, status := .pending (some [0x01]), queued := false } :: [] ∧
      (fresh [0x01]).inHand.map OrderInHand.task = some .taken ∧
      answerWaits.inHand.map OrderInHand.task = some .carriedOut ∧ State.reset.link.table = [] ∧
      State.reset.takeLow.resetLow = true := by decide +kernel

theorem test_meets_OrdersThatFitNoOrderAreRefused :
    orderCode .define = some 0x10 ∧ (fresh [0x10, 0]).orderInTurn = some (0, [0x10, 0]) ∧
      lengthFits 0x10 [0].length = some false ∧ lengthFits 0x51 3 = some false ∧ lengthFits 0x51 196 = some false ∧
      State.reset.orderInTurn = none ∧ (fresh []).orderInTurn = some (0, []) ∧
      (fresh [0x11, 0]).orderInTurn = some (0, 0x11 :: [0]) ∧ orderCode .inspect = some 0x11 ∧
      (fresh [0xFF]).orderInTurn = some (0, [0xFF]) ∧
      lengthFits 0xFF 0 = none ∧ lengthFits 0x00 0 = none := by decide +kernel

theorem test_meets_DefineLoadsTheSlot :
    let s := fresh (0x10 :: slotByte 63 :: captureRecord)
    s.orderInTurn = some (0, 0x10 :: slotByte 63 :: captureRecord) ∧ captureRecord.length = 20 ∧
      (s.slot 63).state = none ∧ ((s.setSlot 63 (live .loaded tally)).slot 63).state = some .loaded ∧
      ((s.setSlot 63 (live .spent tally)).slot 63).state = some .spent ∧ s.waitingMark 63 = false ∧
      readRecord captureRecord = some capture ∧ capture.transfer.aligned = true ∧ capture.inside s.memorySize = true := by
  decide +kernel

theorem test_meets_DefineIsRefusedByTheFirstFailedCheck :
    let s := fresh (0x10 :: slotByte 0 :: captureRecord)
    (fresh (0x10 :: 64 :: captureRecord)).orderInTurn = some (0, 0x10 :: 64 :: captureRecord) ∧ 64 ≤ (64 : Byte).toNat ∧
      ((s.setSlot 0 (live .held tally)).slot 0).state = some .held ∧ (waitingFor s 0).waitingMark 0 = true ∧
      readRecord (captureRecord.set 0 6) = none ∧ s.waitingMark 0 = false ∧
      (readRecord (captureRecord.set 8 7)).map (fun d => d.transfer.aligned) = some false ∧
      (readRecord (captureRecord.set 4 5)).map (fun d => (d.transfer.aligned, d.inside s.memorySize)) =
        some (true, false) := by decide +kernel

/-- Records with the greatest values each kind of field takes, and the least ones above them. -/
theorem test_meets_DefineFieldsAndWalks :
    (captureRecord.set 6 11).length = 20 ∧ (readRecord (captureRecord.set 6 11)).isSome = true ∧
      readRecord (captureRecord.set 6 12) = none ∧ (readRecord (captureRecord.set 1 6)).isSome = true ∧
      readRecord (captureRecord.set 1 7) = none ∧ (readRecord (captureRecord.set 17 8)).isSome = true ∧
      readRecord (captureRecord.set 17 9) = none ∧ (readRecord (captureRecord.set 11 3)).isSome = true ∧
      readRecord (captureRecord.set 11 4) = none ∧ readRecord (captureRecord.set 16 2) = none := by decide +kernel

/-- The greatest level, total and block. -/
def largest : Descriptor :=
  { level := 6, total := 65536, transfer := .playout .four 256 11 { start := 0, walk := .ascend }, recirculate := true,
    endAction := some 7, label := 0xFFFF }

theorem test_meets_RecordReadBackIsTheRecordDefined : largest.legal ∧ relay.legal ∧ tally.legal := by
  simp [Descriptor.legal, Transfer.legal, largest, relay, tally]

theorem test_meets_DescriptorWalks :
    largest.legal ∧ largest.inside 262144 = true ∧ largest.transfer.aligned = true ∧ 262144 ≤ 1048576 ∧
      65536 ≤ largest.total ∧ capture.inside 8 = true := by
  simp [Descriptor.legal, Transfer.legal, largest]
  decide +kernel

theorem test_meets_InspectReportsTheSlot :
    (fresh [0x11, 64]).orderInTurn = some (0, [0x11, 64]) ∧ 64 ≤ (64 : Byte).toNat ∧
      (fresh [0x11, slotByte 63]).orderInTurn = some (0, [0x11, slotByte 63]) ∧ (fresh [0x11, slotByte 63]).slot 63 = .free ∧
      ((fresh [0x11, slotByte 63]).setSlot 63 (live .loaded copy)).slot 63 = live .loaded copy ∧
      (∀ q, 63 ∉ State.reset.queue q) ∧ (State.reset.setQueue 27 [1, 63, 2]).queue 27 = [1] ++ 63 :: [2] ∧
      (63 : Fin 64) ∉ ([1] : List (Fin 64)) ∧ (∀ q, q ≠ 27 → 63 ∉ (State.reset.setQueue 27 [1, 63, 2]).queue q) ∧
      (waitingFor State.reset 63).waitingMark 63 = true := by decide +kernel

theorem test_meets_RearmAndReleaseTakeALoadedOrSpentSlot :
    let s (code : Byte) (st : LiveState) := ordered (State.reset.setSlot 63 (live st copy)) [code, slotByte 63]
    (s 0x12 .loaded).slot 63 = live .loaded copy ∧ (s 0x13 .spent).slot 63 = live .spent copy ∧
      (s 0x12 .loaded).orderInTurn = some (0, [0x12, slotByte 63]) ∧ (s 0x13 .spent).orderInTurn = some (0, [0x13, slotByte 63]) ∧
      (s 0x12 .loaded).waitingMark 63 = false ∧ ((s 0x12 .held).slot 63).state = some .held ∧
      (waitingFor (s 0x13 .spent) 63).waitingMark 63 = true ∧ 64 ≤ (64 : Byte).toNat := by decide +kernel

theorem test_meets_EventsAreCountedAndConsumed :
    (State.reset.setCount 27 2).count 27 < 3 ∧ 3 ≤ (State.reset.setCount 27 3).count 27 ∧ (26 : Fin 28) ≠ 27 ∧
      State.reset.isEvent 27 = true ∧ State.reset.isEvent 0 = false := by decide +kernel

theorem test_meets_TriggerRaisesASoftTrigger :
    let s (count : Nat) := ordered (State.reset.setCount 27 count) [0x20, 7]
    (s 2).orderInTurn = some (0, [0x20, BitVec.ofNat 8 (7 : Fin 8).val]) ∧ (s 2).count (softSource 7) < 3 ∧
      3 ≤ (s 3).count (softSource 7) ∧ (fresh [0x20, 8]).orderInTurn = some (0, [0x20, 8]) ∧ 8 ≤ (8 : Byte).toNat := by
  decide +kernel

theorem test_meets_LineSetupSetsTheMode :
    (5 : Byte) = LineMode.code .low ∧
      (fresh [0x21, 3, 5]).orderInTurn = some (0, [0x21, BitVec.ofNat 8 (3 : Fin 4).val, 5]) ∧
      (fresh [0x21, 4, 5]).orderInTurn = some (0, [0x21, 4, 5]) ∧ 4 ≤ (4 : Byte).toNat ∧ 6 ≤ (6 : Byte).toNat := by
  decide +kernel

theorem test_meets_TimerOrdersSetStartAndStop :
    (1 : Byte) = TimerMode.code .single ∧ readLE [1, 0, 0] = 1 ∧ readLE [0x40, 0x42, 0x0F] = 1000000 ∧
      (fresh [0x22, 3, 1, 0, 0, 1]).orderInTurn = some (0, [0x22, BitVec.ofNat 8 (3 : Fin 4).val, 1, 0, 0, 1]) ∧
      (fresh [0x23, 3]).orderInTurn = some (0, [0x23, BitVec.ofNat 8 (3 : Fin 4).val]) ∧
      (fresh [0x24, 4]).orderInTurn = some (0, [0x24, 4]) ∧ readLE [0, 0, 0] = 0 ∧ 1000000 < readLE [0x41, 0x42, 0x0F] ∧
      2 ≤ (2 : Byte).toNat := by decide +kernel

theorem test_meets_SourceStatusAndClear :
    (fresh [0x25, 27]).orderInTurn = some (0, [0x25, BitVec.ofNat 8 (27 : Fin 28).val]) ∧
      (fresh [0x26, 0]).orderInTurn = some (0, [0x26, BitVec.ofNat 8 (0 : Fin 28).val]) ∧
      (fresh [0x26, 0]).isCondition 0 = true ∧ (fresh [0x26, 27]).isCondition 27 = false ∧ 28 ≤ (28 : Byte).toNat ∧
      (fresh [0x26, 28]).orderInTurn = some (0, [0x26, 28]) := by decide +kernel

theorem test_meets_LineLevelsAndTimersGiveEvents :
    let rising := State.reset.setLine 3 { mode := .rising, high := false, reference := some false }
    rising.resetLow = false ∧ (rising.line 3).reference = some false ∧ (rising.line 3).mode = .rising ∧
      (State.reset.line 3).mode = .off ∧
      ((State.reset.setTimer 3 { period := 1, mode := .single, left := some 1 }).timer 3).left ≠ none ∧
      (State.reset.timer 3).left = none := by decide +kernel

theorem test_meets_BindAppendsALoadedSlot :
    let s := ordered (State.reset.setSlot 63 (live .loaded copy)) [0x30, slotByte 63, 27]
    s.orderInTurn = some (0, [0x30, slotByte 63, BitVec.ofNat 8 (27 : Fin 28).val]) ∧ s.slot 63 = live .loaded copy ∧
      s.waitingMark 63 = false ∧ s.queue 27 = [] ∧ (heading s 5 27 (live .current tally)).queue 27 ≠ [] ∧
      (fresh [0x30, 64, 28]).orderInTurn = some (0, [0x30, 64, 28]) ∧ 64 ≤ (64 : Byte).toNat ∧ 28 ≤ (28 : Byte).toNat ∧
      ((fresh [0x30, 0, 0]).slot 0).state ≠ some .loaded ∧ (waitingFor s 63).waitingMark 63 = true := by decide +kernel

/-- A queue of three: a head, and two BOUND members. -/
def threeInLine : State :=
  (((State.reset.setSlot 1 (live .current copy)).setSlot 2 (live .bound relay)).setSlot 3 (live .bound tally)).setQueue 27
    [1, 2, 3]

theorem test_meets_UnbindTakesASlotOutOfItsQueue :
    (ordered threeInLine [0x31, 1]).orderInTurn = some (0, [0x31, slotByte 1]) ∧
      (ordered threeInLine [0x31, 1]).slot 1 = live .current copy ∧
      (ordered threeInLine [0x31, 1]).queueOf 1 = some 27 ∧ threeInLine.queue 27 = 1 :: [2, 3] ∧
      (ordered threeInLine [0x31, 3]).slot 3 = live .bound tally ∧ threeInLine.queueOf 3 = some 27 ∧
      threeInLine.queue 27 = 1 :: ([2] ++ 3 :: []) ∧ (3 : Fin 64) ≠ 1 ∧ (3 : Fin 64) ∉ [(2 : Fin 64)] ∧
      (threeInLine.setQueue 27 [2, 3]).slot 2 = live .bound relay ∧ 64 ≤ (64 : Byte).toNat ∧
      ((fresh [0x31, 0]).slot 0).state = none := by decide +kernel

theorem test_meets_CandidatesArePendingEligibleHeads :
    let s := (heading State.reset 40 20 (live .current copy)).setCount 20 1
    s.queue 20 = 40 :: [] ∧ s.slot 40 = live .current copy ∧ s.isPending 20 = true ∧
      s.eligible copy.transfer = true ∧ s.sourceCandidate 20 = some (40, 3) := by decide +kernel

theorem test_meets_SelectionTakesTheHighestCandidate :
    let s := (heading State.reset 40 20 (live .current copy)).setCount 20 1
    s.sched.freeze ≠ .frozen ∧ s.winner = some (.source 40, 3) ∧ s.sched.stack = [] ∧
      (s.setStack [{ owner := .slot 1, level := 3, moved := 0 }]).sched.stack =
        { owner := .slot 1, level := 3, moved := 0 } :: [] ∧
      (s.setFreeze .frozen).sched.freeze = .frozen ∧ State.reset.winner = none ∧ s.sched.burst = none ∧
      s.choose = some (.source 40) ∧ State.reset.choose = none ∧ (copying asking 0).sched.burst ≠ none := by decide +kernel

theorem test_meets_BurstsStartPushAndResume :
    (State.reset.setSlot 9 (live .current relay)).slot 9 = live .current relay ∧
      (State.reset.setSlot 9 (live .current relay)).laneFault relay.transfer = some .laneOff ∧
      (copyUnit 0 false).sched.burst ≠ none ∧ (copyUnit 0 false).mover.unit ≠ none ∧
      (copying asking 0).sched.burst = burstOf 40 3 0 8 ∧ (copying asking 0).mover.unit = none ∧
      (copying asking 0).winner = none ∧
      ((heading (copying asking 0) 50 21 (live .current { tally with level := 4 })).setCount 21 1).winner =
        some (.source 50, 4) ∧
      (((copying asking 0).setBurst none).setStack [{ owner := .slot 40, level := 3, moved := 1 }]).sched.stack =
        { owner := .slot 40, level := 3, moved := 1 } :: [] ∧
      (linkUnit (.peek 2 []) 2 1 (.peek 1) []).sched.access.isSome = true ∧
      ((linkUnit (.peek 2 []) 2 1 (.peek 1) []).setFreeze .frozen).sched.freeze = .frozen ∧
      ((linkUnit (.peek 2 []) 2 1 (.peek 1) []).setStack [{ owner := .link, level := 1, moved := 1 }]).sched.stack =
        { owner := .link, level := 1, moved := 1 } :: [] ∧
      (State.reset.setSlot 40 (live .preempted copy)).slot 40 = live .preempted copy := by decide +kernel

theorem test_meets_FreezeAndThaw :
    (fresh [0x40]).orderInTurn = some (0, [0x40]) ∧ (fresh [0x40]).sched.freeze = .running ∧
      (fresh [0x40]).sched.burst = none ∧ ((fresh [0x40]).setFreeze .frozen).sched.freeze = .frozen ∧
      (ordered (copying asking 0) [0x40]).orderInTurn = some (0, [0x40]) ∧
      (ordered (copying asking 0) [0x40]).slot 40 = live .active copy ∧ (copying asking 0).mover.unit = none ∧
      (ordered (copyUnit 0 false) [0x40]).mover.unit ≠ none ∧ (fresh [0x41]).orderInTurn = some (0, [0x41]) := by
  decide +kernel

theorem test_meets_MoverTakesUpBursts :
    let b : Burst := { owner := .slot 40, level := 3, moved := 0, block := 8 }
    (copying Mover.atReset 0).sched.burst = some b ∧ (copying Mover.atReset 0).burstNeedsMemory b = true ∧
      (copying Mover.atReset 0).mover.request = false ∧ (copying Mover.atReset 0).grant = false ∧
      ((copying Mover.atReset 0).seeGrant true).grant = true ∧ (copying asking 0).mover.request = true ∧
      (copying asking 0).mover.state = .asking ∧ (copyUnit 0 false).mover.state ≠ .asking ∧
      ((copying Mover.atReset 0).setSlot 40 (live .active relay)).burstNeedsMemory b = false := by decide +kernel

/-- A burst of slot 40 of each kind of descriptor, with 1 unit and with 2 left; its link access; the request lowered. -/
theorem test_meets_GrantAssertedBeginsAUnit :
    let s := copying asking 0
    let of (d : Descriptor) (left : Nat) : State :=
      s.setSlot 40 (.live .active d { d.freshProgress none with remaining := left, committed := d.total - left })
    let playout : Descriptor := { copy with transfer := .playout .two 8 7 { start := 4, walk := .hold } }
    let link (kind : AccessKind) : State := (linkUnit kind 2 1 (.peek 1) []).setMover asking
    s.resetLow = false ∧ s.mover.state = .asking ∧ s.mover.unit = none ∧ s.sched.burst = burstOf 40 3 0 8 ∧
      s.slot 40 = live .active copy ∧ s.lanesCanMove copy.transfer = true ∧ (copy.freshProgress none).nextA = some 0 ∧
      (copy.freshProgress none).nextB = some 64 ∧
      (withLane (of capture 1) 3 .incoming .taken [1, 2]).lanesCanMove capture.transfer = true ∧
      (of capture 1).lanesCanMove capture.transfer = false ∧ (of playout 2).lanesCanMove playout.transfer = true ∧
      (playout.freshProgress none).nextA = some 4 ∧
      (withLane (of relay 2) 6 .incoming .taken [1]).lanesCanMove relay.transfer = true ∧
      (of tally 1).slot 40 = .live .active tally { tally.freshProgress none with remaining := 1, committed := 2 } ∧
      (of tally 2).lanesCanMove tally.transfer = true ∧
      (link (.peek 2 [9])).sched.access.map LinkAccess.kind = some (.peek 2 [9]) ∧
      (link (.poke [5, 6])).sched.burst.map Burst.moved = some 1 ∧ [(5 : Byte), 6][1]? = some 6 ∧
      (link (.poke [5, 6])).mover.state = .asking ∧ s.lowered = false ∧
      (State.lowered { s with lowered := true }) = true ∧ State.reset.mover.state ≠ .asking := by decide +kernel

theorem test_meets_GrantLossAndGrantTimeout :
    let link := linkUnit (.poke [1]) 1 0 (.poke 0) [1]
    (copyUnit 0 false).mover.state = .moving ∧ (copyUnit 0 false).mover.request = true ∧
      (copyUnit 0 false).mover.unit ≠ none ∧ (copying { Mover.atReset with state := .yielding } 0).mover.unit = none ∧
      State.reset.mover.state = .idle ∧ (copying asking 0).mover.state = .asking ∧
      (copying asking 0).sched.burst = burstOf 40 3 0 8 ∧ (link.setMover asking).mover.state = .asking ∧
      link.sched.burst.map Burst.owner = some .link ∧ link.sched.access.map LinkAccess.kind = some (.poke [1]) := by
  decide +kernel

theorem test_meets_UnitsMoveTheirBytesWhole :
    (copyUnit 0 false).mem.wf ∧ [(1 : Byte), 2].length = UnitSize.bytes .two ∧
      (0x01FFFC : Addr).toNat + UnitSize.bytes .four ≤ (copyUnit 0 false).memorySize ∧
      (∀ k < 4, ((copyUnit 0 false).mem.read (0 + k)).good = true) ∧
      (∀ j < 3, ((copyUnit 0 true).mem.read (0 + j)).good = true) ∧ ((copyUnit 0 true).mem.read (0 + 3)).good = false ∧
      (64 : Addr).toNat + UnitSize.bytes .four ≤ (copyUnit 0 true).memorySize ∧ (64 : Addr).toNat % UnitSize.bytes .four = 0 ∧
      (0x01FFFF : Addr).toNat + 1 ≤ (copyUnit 0 true).memorySize ∧ (0x01FFFF : Addr).toNat % UnitSize.bytes .one = 0 := by
  decide +kernel

/-- Did the unit move its data? -/
def moved : UnitEnd → Bool
  | .moved _ => true
  | .failed _ | .outside _ => false

/-- The COPY's unit with 1 unit left, and with 2 left at the block and below it. -/
theorem test_meets_UnitBoundaryCommitsAndGoesOn :
    let s := copyUnit 7 false
    let nearEnd (n : Nat) := Slot.live .active copy { copy.freshProgress none with remaining := n, committed := 10 - n }
    let u : UnitInProgress := { op := .copy 0 64 .four, buffer := [] }
    s.resetLow = false ∧ s.mover.unit = some u ∧ moved (s.performUnit u) = true ∧ s.mover.state = .moving ∧
      s.sched.burst = burstOf 40 3 7 8 ∧ (s.setSlot 40 (nearEnd 1)).slot 40 = nearEnd 1 ∧
      (s.setSlot 40 (nearEnd 2)).slot 40 = nearEnd 2 ∧ s.sched.freeze = .running ∧ s.cancelWaits 40 = false ∧
      8 ≤ 7 + 1 ∧ (copyUnit 6 false).sched.burst = burstOf 40 3 6 8 ∧ 6 + 1 < 8 ∧
      (copyUnit 6 false).preemptor { owner := .slot 40, level := 3, moved := 7, block := 8 } = none ∧
      ((heading (copyUnit 6 false) 50 21 (live .current { tally with level := 4 })).setCount 21 1).preemptor
        { owner := .slot 40, level := 3, moved := 7, block := 8 } = some (.source 50) ∧
      ((copyUnit 6 false).goes .yielding).mover.state = .yielding ∧
      ((copyUnit 6 false).goes .yielding).lanesCanMove copy.transfer = true ∧
      ((copyUnit 6 false).setSlot 40 (live .active capture)).lanesCanMove capture.transfer = false ∧
      (copyUnit 6 false).grant = true ∧ ((copyUnit 6 false).seeGrant false).grant = false := by decide +kernel

theorem test_meets_FailedUnitsAndHeldOrdersAtTheBoundary :
    let u : UnitInProgress := { op := .copy 0 64 .four, buffer := [] }
    let held (task : Task) : State :=
      { copyUnit 0 false with inHand := some { number := 1, payload := [0x70, 40], task := task, waiting := none } }
    (copyUnit 0 true).mover.unit = some u ∧ (copyUnit 0 true).performUnit u = .failed 3 ∧
      (copyUnit 0 true).cancelWaits 40 = false ∧ moved ((held (.cancel 40)).performUnit u) = true ∧
      (held (.cancel 40)).cancelWaits 40 = true ∧ (held (.cancel 40)).sched.freeze = .running ∧
      (held .freeze).cancelWaits 40 = false ∧ ((held .freeze).setFreeze .freezing).sched.freeze = .freezing ∧
      (held .freeze).slot 40 = live .active copy ∧ 2 ≤ (copy.freshProgress none).remaining ∧
      (State.cancelWaits { copyUnit 0 true with inHand := (held (.cancel 40)).inHand } 40) = true ∧
      ((copyUnit 0 true).setFreeze .freezing).sched.freeze = .freezing ∧
      ((copyUnit 0 true).goes .yielding).mover.state = .yielding ∧ (copyUnit 0 true).slot 40 = live .active copy ∧
      (held (.cancel 40)).mover.state = .moving ∧ (copyUnit 7 false).sched.burst = burstOf 40 3 7 8 := by decide +kernel

theorem test_meets_PeekAndPokeOpenTheLinkAccess :
    (fresh [0x50, 0, 0, 0, 192]).orderInTurn = some (0, [0x50, 0, 0, 0, 192]) ∧ (192 : Byte).toNat ≤ 192 ∧
      192 < (193 : Byte).toNat ∧ (0 : Byte).toNat = 0 ∧
      readLE [0xFF, 0xFF, 0x01] + 1 ≤ State.reset.memorySize ∧ State.reset.memorySize < readLE [0xFF, 0xFF, 0x01] + 2 ∧
      (fresh [0x51, 0, 0, 0, 1]).orderInTurn = some (0, 0x51 :: 0 :: 0 :: 0 :: [1]) ∧
      (List.replicate 192 (0 : Byte)).length ≤ 192 := by decide +kernel

theorem test_meets_LinkAccessEndsWithItsAnswer :
    let peek := linkUnit (.peek 2 []) 2 0 (.peek 0) []
    let poke := linkUnit (.poke [5, 6]) 2 1 (.poke 1) [6]
    peek.resetLow = false ∧ peek.mover.state = .moving ∧ peek.sched.burst.map Burst.owner = some .link ∧
      peek.sched.access.map LinkAccess.kind = some (.peek 2 []) ∧ (0 : Addr).toNat + 1 ≤ peek.memorySize ∧
      (peek.mem.read 0).good = true ∧ (peek.mem.read 3).good = false ∧ 0 + 1 < 2 ∧
      peek.preemptor { owner := .link, level := 1, moved := 1, block := 2 } = none ∧ (peek.goes .yielding).mover.state = .yielding ∧
      ((heading peek 50 21 (live .current tally)).setCount 21 1).preemptor
        { owner := .link, level := 1, moved := 1, block := 2 } = some (.source 50) ∧ poke.mem.wf ∧
      poke.mover.unit = some { op := .poke 1, buffer := [6] } ∧ 2 ≤ 1 + 1 := by decide +kernel

theorem test_meets_LanesExchangeByTheirHandshakes :
    let idle := withLane State.reset 11 .incoming .ready (List.replicate 31 0)
    idle.resetLow = false ∧ (idle.lane 11).direction = .incoming ∧ (idle.lane 11).phase = .ready ∧
      (idle.lane 11).enabled = true ∧ (idle.lane 11).fill < 32 ∧
      32 ≤ ((withLane State.reset 11 .incoming .ready (List.replicate 32 0)).lane 11).fill ∧
      (State.reset.lane 11).enabled = false ∧
      ((withLane State.reset 11 .incoming .taken [0]).lane 11).phase = .taken ∧
      ((withLane State.reset 11 .outgoing .offered [0]).lane 11).phase = .offered ∧
      ((withLane State.reset 11 .outgoing .releasing []).lane 11).phase = .releasing ∧
      ((withLane State.reset 11 .outgoing .quiet [0]).lane 11).phase = .quiet ∧
      ((withLane State.reset 11 .outgoing .quiet [0]).lane 11).ack = false := by decide +kernel

theorem test_meets_LaneSetupSetsTheLane :
    let order : List Byte := [0x60, BitVec.ofNat 8 (11 : Fin 12).val, 1, 1, 32, 1]
    1 ≤ (1 : Byte).toNat ∧ (32 : Byte).toNat ≤ 32 ∧ (fresh order).orderInTurn = some (0, order) ∧
      (fresh order).laneInUse 11 = false ∧
      ((fresh order).setSlot 4 (live .preempted relay)).laneInUse 7 = true ∧
      (fresh [0x60, 12, 0, 0, 1, 0]).orderInTurn = some (0, [0x60, 12, 0, 0, 1, 0]) ∧ 12 ≤ (12 : Byte).toNat ∧
      32 < (33 : Byte).toNat := by decide +kernel

theorem test_meets_ReportOrdersChangeNothing :
    (fresh [0x01]).orderInTurn = some (0, [0x01]) ∧ (fresh [0x03]).orderInTurn = some (0, [0x03]) ∧
      (fresh [0x03]).sched.freeze ≠ .freezing ∧ (fresh [0x03]).sched.burst = none ∧
      (fresh [0x32, 27]).orderInTurn = some (0, [0x32, BitVec.ofNat 8 (27 : Fin 28).val]) ∧
      (fresh [0x61, 11]).orderInTurn = some (0, [0x61, BitVec.ofNat 8 (11 : Fin 12).val]) ∧ 28 ≤ (28 : Byte).toNat ∧
      12 ≤ (12 : Byte).toNat ∧ (fresh [0x61, 12]).orderInTurn = some (0, [0x61, 12]) := by decide +kernel

theorem test_meets_CancelActsByTheSlotsState :
    let s (st : LiveState) := ordered (heading State.reset 63 27 (live st copy)) [0x70, 63]
    (s .current).orderInTurn = some (0, [0x70, 63]) ∧ (63 : Byte) = slotByte 63 ∧
      (s .bound).slot 63 = live .bound copy ∧ (s .faulted).slot 63 = live .faulted copy ∧
      (s .preempted).slot 63 = live .preempted copy ∧ ((s .held).slot 63).state = some .held ∧
      64 ≤ (64 : Byte).toNat ∧ (ordered (copying asking 0) [0x70, 40]).slot 40 = live .active copy ∧
      (copying asking 0).mover.unit = none ∧ (copyUnit 0 false).mover.unit ≠ none ∧
      (copying { Mover.atReset with state := .yielding } 0).mover.state ≠ .asking ∧ (s .current).queueOf 63 = some 27 ∧
      (s .current).queue 27 = 63 :: [] ∧ threeInLine.queueOf 3 = some 27 ∧ threeInLine.queue 27 = 1 :: ([2] ++ 3 :: []) ∧
      (3 : Fin 64) ≠ 1 ∧ (3 : Fin 64) ∉ [(2 : Fin 64)] ∧ threeInLine.slot 3 = live .bound tally := by decide +kernel

theorem test_meets_RetryAndSkipTakeAFaultedSlot :
    let s (code : Byte) := ordered (heading State.reset 63 27 (live .faulted copy)) [code, 63]
    (s 0x71).slot 63 = live .faulted copy ∧ (s 0x71).orderInTurn = some (0, [0x71, slotByte 63]) ∧
      (s 0x71).waitingMark 63 = false ∧ (waitingFor (s 0x71) 63).waitingMark 63 = true ∧
      (s 0x72).orderInTurn = some (0, [0x72, slotByte 63]) ∧ (s 0x72).queueOf 63 = some 27 ∧
      (s 0x72).queue 27 = 63 :: [] ∧ 64 ≤ (64 : Byte).toNat ∧ ((fresh [0x71, 0]).slot 0).state ≠ some .faulted := by
  decide +kernel

/-- A full list of 32 notices with two records waiting. -/
def fullList : State :=
  { waitingFor (waitingFor State.reset 1) 2 with
    notes :=
      { list := (List.range 32).map fun k =>
          { number := BitVec.ofNat 16 (200 + k), body := .restart .order 131072 1, queued := k % 2 = 0 }
        next := 232
        waiting := [waitingFault 1, waitingFault 2]
        txQueue := (List.range 16).map fun k => BitVec.ofNat 16 (200 + 2 * k) } }

theorem test_meets_AcknowledgeRemovesAndDrains :
    (ordered fullList [0x80, 200, 0]).orderInTurn = some (0, [0x80, 200, 0]) ∧
      fullList.notes.list.length = 32 ∧ (0x00C8 - (200 : Half)).toNat < 32 ∧ 32 ≤ (0x00E8 - (200 : Half)).toNat ∧
      fullList.notes.waiting = waitingFault 1 :: [waitingFault 2] ∧
      (fullList.setNotes (fullList.notes.remove 1)).notes.list.length < 32 ∧
      (fullList.setNotes { fullList.notes with list := [] }).notes.list = [] ∧ State.reset.notes.waiting = [] ∧
      (waitingFor State.reset 1).notes.list.length < 32 ∧ (waitingFor State.reset 1).notes.waiting ≠ [] := by
  decide +kernel

theorem test_meets_ResendQueuesEveryNotice :
    (ordered fullList [0x81]).orderInTurn = some (0, [0x81]) ∧ fullList.resetLow = false ∧ fullList.link.tx = none ∧
      fullList.link.refusals = [] ∧ fullList.link.answers = [] ∧ fullList.notes.txQueue.head? = some 200 ∧
      (fullList.setNotes { fullList.notes with list := [] }).notes.list = [] := by decide +kernel

theorem test_meets_EndsAndFaultsMakeTheirRecords :
    (copying asking 0).slot 40 = live .active copy ∧ (copying asking 0).notes.list.length < 32 ∧
      (copying asking 0).notes.waiting = [] ∧ fullList.notes.list.length = 32 ∧
      (copying asking 0).queue 20 = 40 :: [] ∧
      ((copying asking 0).endRecord 40 copy (copy.freshProgress none)).recirculate = false ∧
      ((copying asking 0).endRecord 40 tally (tally.freshProgress none)).recirculate = true := by decide +kernel

theorem test_meets_ConfigureAndResetPartAnswer :
    (fresh [0x02, 6, 1, 0]).orderInTurn = some (0, [0x02, 6, 1, 0]) ∧ 1 ≤ (1 : Byte).toNat ∧ (6 : Byte).toNat ≤ 6 ∧
      1 ≤ readLE [1, 0] ∧ 6 < (7 : Byte).toNat ∧ readLE [0, 0] = 0 ∧ (fresh [0x0F]).orderInTurn = some (0, [0x0F]) := by
  decide +kernel

/-- A part with RESET# high a while after its reset. -/
def later : State := { State.reset with timePhase := 3, pending := [.transmitFrame] }

theorem test_meets_MemoryKeepsItsForm : (copyUnit 0 false).mem.wf ∧ (after (step (copyUnit 0 false))).isSome = true := by
  decide +kernel

theorem test_meets_NoticeListKeepsItsLaws :
    later.notes.numbered ∧ later.notes.queuedOnce ∧ later.notes.waitsOnlyWhenFull ∧ (after (step later)).isSome = true := by
  refine ⟨by unfold NoticeList.numbered; decide +kernel, ⟨by decide +kernel, fun n => ?_⟩, .inl (by decide +kernel), ?_⟩
  · have queue : later.notes.txQueue = [0] := by decide +kernel
    have list : later.notes.list = [{ number := 0, body := .restart .line 131072 1, queued := true }] := by decide +kernel
    rw [queue, list]
    constructor
    · intro h
      exact ⟨_, List.mem_singleton.mpr rfl, (List.mem_singleton.mp h).symm, rfl⟩
    · rintro ⟨x, hx, rfl, _⟩
      rw [List.mem_singleton.mp hx]
      exact List.mem_singleton.mpr rfl
  · decide +kernel

theorem test_meets_LinkPortKeepsItsLaws :
    (withTable fullTable).link.tableNumbered ∧ (withTable fullTable).link.queuesBounded ∧
      (after (step (withTable fullTable))).isSome = true ∧ (withTable fullTable).ordersTaken := by
  unfold LinkPort.tableNumbered LinkPort.queuesBounded
  refine ⟨by decide +kernel, by decide +kernel, by decide +kernel, fun _ _ e he order h => ?_⟩
  obtain ⟨k, _, rfl⟩ := List.mem_map.mp he
  cases h

theorem test_meets_LevelsCountsAndStackKeepTheirLaws :
    later.countsBounded ∧ later.levelsLegal ∧ (copying asking 0).stackOrdered ∧ (after (step later)).isSome = true := by
  refine ⟨by unfold State.countsBounded; decide +kernel, ⟨⟨by decide +kernel, by decide +kernel⟩, ?_, nofun, nofun, nofun⟩, trivial,
    by decide +kernel⟩
  intro i st d p h
  have free : ∀ i, later.slot i = .free := by decide +kernel
  rw [free] at h
  cases h

theorem later_slot : ∀ i, later.slot i = .free := by decide +kernel

theorem later_queue : ∀ q, later.queue q = [] := by decide +kernel

theorem later_inState (i : Fin 64) (st : LiveState) : later.inState i st = false := by
  simp [State.inState, later_slot, Slot.state]

theorem test_meets_SlotLawsAreKept : later.slotLaws := by
  have noBurst : later.sched.burst = none := rfl
  have noStack : later.sched.stack = [] := rfl
  have noRecord : later.notes.waiting = [] := rfl
  refine ⟨?_, ⟨?_, ?_⟩, ?_, ?_, ?_, ⟨?_, ?_, ?_, ?_⟩, ?_⟩
  · intro i
    simp [later_slot, later_queue, Slot.state]
  · intro q
    simp [later_queue]
  · intro q r _ i h
    simp [later_queue] at h
  · intro q h rest e
    simp [later_queue] at e
  · intro i
    simp [later_inState, noBurst]
  · intro i
    simp [later_inState, noStack]
  · simp [noRecord]
  · intro i
    simp [later_inState, noRecord]
  · simp [noRecord]
  · simp [noRecord]
  · intro i st d p h
    rw [later_slot] at h
    cases h

theorem test_meets_MoverKeepsItsTable :
    (copying asking 0).moverLegal ∧ (after (step (copying asking 0))).isSome = true ∧ (copying asking 0).moverServes ∧
      later.slotLaws ∧ later.moverLegal ∧ later.moverServes := by
  refine ⟨⟨by decide +kernel, rfl, by decide +kernel, rfl, rfl⟩, by decide +kernel, ?_, test_meets_SlotLawsAreKept,
    ⟨rfl, rfl, rfl, rfl⟩, trivial⟩
  intro b h
  cases h
  decide +kernel

theorem test_meets_EveryUnitOfAWalkLiesInMemory : later.slotLaws ∧ later.moverLegal ∧ later.walksLawful := by
  refine ⟨test_meets_SlotLawsAreKept, ⟨rfl, rfl, rfl, rfl⟩, ⟨rfl, by decide +kernel⟩, ?_, ⟨rfl, nofun, nofun, nofun⟩, nofun⟩
  intro i st d p h
  rw [later_slot] at h
  cases h

theorem test_meets_LanesNeverOverflow :
    later.slotLaws ∧ later.moverLegal ∧ later.lanesLawful ∧ (after (step later)).isSome = true := by
  refine ⟨test_meets_SlotLawsAreKept, ⟨rfl, rfl, rfl, rfl⟩,
    ⟨by unfold State.lanesBounded; decide +kernel, ?_, nofun⟩, by decide +kernel⟩
  intro i st d p h
  rw [later_slot] at h
  cases h

end Sys2Proof.Tests
end

