-- ==== Sys2Proof/Proofs/Resend.lean ====
section
/-! RESEND (R150) and the transmitter's turn to the notice class (R147, R168). -/

namespace Sys2Proof.Machine

/-! ## What RESEND reads of the notice list -/

/-- A number of two bytes, low byte first (R189). -/
theorem le2_toNat (n : Half) : le2 n.toNat = [n.extractLsb' 0 8, n.extractLsb' 8 8] := by
  have low : BitVec.ofNat 8 n.toNat = n.extractLsb' 0 8 := by simp [BitVec.extractLsb']
  have high : BitVec.ofNat 8 (n.toNat / 256) = n.extractLsb' 8 8 := by
    simp [BitVec.extractLsb', Nat.shiftRight_eq_div_pow]
  rw [le2, low, high]

theorem NoticeList.oldestBytes_nil {l : NoticeList} (empty : l.list = []) : l.oldestBytes = [0, 0] := by
  simp [NoticeList.oldestBytes, empty, le2]

theorem NoticeList.oldestBytes_cons {l : NoticeList} {oldest : Notice} {newer : List Notice}
    (e : l.list = oldest :: newer) :
    l.oldestBytes = [oldest.number.extractLsb' 0 8, oldest.number.extractLsb' 8 8] := by
  simp [NoticeList.oldestBytes, e, le2_toNat]

theorem NoticeList.oldestBytes_eq (l : NoticeList) :
    l.oldestBytes =
      match l.list with
      | [] => [0, 0]
      | oldest :: _ => [oldest.number.extractLsb' 0 8, oldest.number.extractLsb' 8 8] := by
  split
  next e => exact l.oldestBytes_nil e
  next e => exact l.oldestBytes_cons e

theorem NoticeList.unqueued_eq (l : NoticeList) :
    l.unqueued = (l.list.filter fun x => x.queued = false).map Notice.number := by
  simp [NoticeList.unqueued]

/-! ## RESEND in turn -/

/-- RESEND in turn puts the resent list in place and is answered DONE (R150). -/
theorem exec_resend {s : State} {n : Byte} (turn : s.orderInTurn = some (n, [0x81])) :
    exec .resend s =
      .next (((s.carryOut n [0x81]).setNotes s.notes.resend).produceAnswer
        ([0x81, 0x00, le1 s.notes.unqueued.length, le1 s.notes.list.length] ++ s.notes.oldestBytes)) := by
  have run := runOrder_taken (body := orderResend) turn rfl
  exact congrArg Host.Outcome.next run

/-! ## The transmitter turns to the notice class -/

@[simp] theorem Notice.unqueue_number (n : Half) (x : Notice) : (x.unqueue n).number = x.number := by
  unfold Notice.unqueue
  split <;> rfl

/-- The notice the transmitter takes loses its mark (R147). -/
theorem Notice.unqueue_queued {n : Half} {x : Notice} (same : (x.unqueue n).number = n) :
    (x.unqueue n).queued = false := by
  rw [Notice.unqueue_number] at same
  simp [Notice.unqueue, same]

/-- An idle transmitter with no refusal and no answer takes the head of the notice transmit queue (R168). -/
theorem exec_transmitFrame_notice {s : State} {m : Half} {rest : List Half} (high : s.resetLow = false)
    (idle : s.link.tx = none) (noRefusal : s.link.refusals = []) (noAnswer : s.link.answers = [])
    (queue : s.notes.txQueue = m :: rest) : exec .transmitFrame s = .next (s.sendNotice m rest) := by
  have takes : s.transmit = s.sendNotice m rest := by simp [State.transmit, idle, noRefusal, noAnswer, queue]
  have runs : s.running State.transmit = s.transmit := by simp [State.running, high]
  exact congrArg Host.Outcome.next (runs.trans takes)

theorem State.sendNotice_list (s : State) (m : Half) (rest : List Half) :
    (s.sendNotice m rest).notes.list = s.notes.list.map (Notice.unqueue m) := rfl

theorem State.sendNotice_numbers (s : State) (m : Half) (rest : List Half) :
    (s.sendNotice m rest).notes.list.map Notice.number = s.notes.list.map Notice.number := by
  simp [State.sendNotice_list]

/-- No notice with the number sent is left marked queued, so the next RESEND queues it again (R150). -/
theorem State.sendNotice_unqueued {s : State} {m : Half} {rest : List Half} {x : Notice}
    (mem : x ∈ (s.sendNotice m rest).notes.list) (number : x.number = m) : x.queued = false := by
  rw [State.sendNotice_list, List.mem_map] at mem
  obtain ⟨y, -, rfl⟩ := mem
  exact Notice.unqueue_queued number

/-- Settles O51: RESEND by its order's own equation, and the sending of a notice by the transmitter's. -/
theorem resendQueuesEveryNotice : Obligations.ResendQueuesEveryNotice := by
  refine ⟨fun s n turn => ⟨?_, fun empty => by simp [empty]⟩, ?_⟩
  · rw [exec_resend turn, NoticeList.oldestBytes_eq, NoticeList.resend, NoticeList.unqueued_eq, List.length_map]
    rfl
  · intro s m rest high idle noRefusal noAnswer queue
    exact ⟨s.sendNotice m rest, exec_transmitFrame_notice high idle noRefusal noAnswer queue, rfl,
      s.sendNotice_numbers m rest, fun _ mem number => State.sendNotice_unqueued mem number⟩

end Sys2Proof.Machine
end

