-- ==== Sys2Proof/Proofs/HostLink.lean ====
section
/-! The receiver (R156 to R158), the handling of a whole frame by its kind (R159, R161, R165), and the refusal queue's
four places (R169). -/

namespace Sys2Proof.Machine

/-! ## The receiver, byte by byte -/

theorem State.running_high {s : State} (high : s.resetLow = false) (effect : State → State) :
    s.running effect = effect s := by
  simp [State.running, high]

/-- A receiver that stands in HUNT with its timer stopped is where `rxHunt` puts it. -/
theorem State.rxHunt_eq {s : State} (hunt : s.link.rx = .hunt) (stopped : s.link.rxTimer = none) : s.rxHunt = s := by
  simp only [State.rxHunt, ← hunt, ← stopped]

@[simp] theorem State.rxHunt_rxGo (s : State) (r : Receiver) : (s.rxGo r).rxHunt = s.rxHunt := rfl
@[simp] theorem State.rxGo_rxGo (s : State) (r r' : Receiver) : (s.rxGo r).rxGo r' = s.rxGo r' := rfl

theorem State.rxByte_sync {s : State} (hunt : s.link.rx = .hunt) : s.rxByte syncByte = s.rxGo .length := by
  simp [State.rxByte, hunt]

theorem State.rxByte_length (s : State) {b : Byte} (low : 2 ≤ b.toNat) (high : b.toNat ≤ 250) :
    (s.rxGo .length).rxByte b = s.rxGo (.body b.toNat []) := by
  simp [State.rxByte, State.rxGo, low, high]

theorem State.rxByte_body (s : State) (length : Nat) (bytes : List Byte) (b : Byte) :
    (s.rxGo (.body length bytes)).rxByte b = s.rxGo (bodyOrCheck length (bytes ++ [b])) := rfl

theorem State.rxByte_firstCheck (s : State) (body : List Byte) (hi : Byte) :
    (s.rxGo (.check body none)).rxByte hi = s.rxGo (.check body (some hi)) := rfl

theorem State.rxByte_secondCheck (s : State) (body : List Byte) (hi lo : Byte) :
    (s.rxGo (.check body (some hi))).rxByte lo = s.rxHunt.handleFrame body (readCheck hi lo) := rfl

/-- Body bytes join the ones held, up to the frame's length (R156). -/
theorem State.rxBytes_body (s : State) {length : Nat} {held : List Byte} (bytes : List Byte)
    (short : held.length < length) (fits : held.length + bytes.length ≤ length) :
    (s.rxGo (.body length held)).rxBytes bytes = s.rxGo (bodyOrCheck length (held ++ bytes)) := by
  induction bytes generalizing held with
  | nil => simp [State.rxBytes, bodyOrCheck, short]
  | cons b rest ih =>
    have first : (s.rxGo (.body length held)).rxBytes (b :: rest) =
        (s.rxGo (bodyOrCheck length (held ++ [b]))).rxBytes rest := rfl
    rw [List.length_cons] at fits
    by_cases more : (held ++ [b]).length < length
    · have holds : bodyOrCheck length (held ++ [b]) = .body length (held ++ [b]) := if_pos more
      rw [first, holds, ih more (by simp; omega), List.append_assoc, List.singleton_append]
    · have last : rest = [] := List.eq_nil_of_length_eq_zero (by simp at more; omega)
      rw [first, last]
      rfl

/-! ## A whole frame -/

theorem readCheck_getLsbD (hi lo : Byte) (i : Nat) :
    (readCheck hi lo).getLsbD i = if i < 8 then lo.getLsbD i else hi.getLsbD (i - 8) := BitVec.getLsbD_append

/-- The check is the one its two bytes make (R154). -/
theorem readCheck_checkBytes (c : Half) : readCheck ((c >>> 8).setWidth 8) (c.setWidth 8) = c := by
  apply BitVec.eq_of_getLsbD_eq
  intro i _
  by_cases low : i < 8
  · simp [readCheck_getLsbD, low]
  · have back : 8 + (i - 8) = i := by omega
    have under : i - 8 < 8 := by omega
    simp [readCheck_getLsbD, low, back, under]

/-- A whole frame whose body has 2 to 250 bytes passes through a receiver in HUNT and is handled (R156, R159). -/
theorem State.rxBytes_frame {s : State} {body : List Byte} (check : Half) (hunt : s.link.rx = .hunt)
    (stopped : s.link.rxTimer = none) (low : 2 ≤ body.length) (high : body.length ≤ 250) :
    s.rxBytes (frameBytes body check) = s.handleFrame body check := by
  have len : (le1 body.length).toNat = body.length := by simp [le1]; omega
  have full : bodyOrCheck body.length body = .check body none := if_neg (lt_irrefl _)
  have opened : (s.rxByte syncByte).rxByte (le1 body.length) = s.rxGo (.body body.length []) := by
    rw [State.rxByte_sync hunt, State.rxByte_length s (by omega) (by omega), len]
  have held : (s.rxGo (.body body.length [])).rxBytes body = s.rxGo (.check body none) := by
    rw [State.rxBytes_body s body (by simp; omega) (by simp), List.nil_append, full]
  calc s.rxBytes (frameBytes body check)
      = (((s.rxByte syncByte).rxByte (le1 body.length)).rxBytes body).rxBytes (checkBytes check) := by
        simp [State.rxBytes, frameBytes]
    _ = (s.rxGo (.check body none)).rxBytes (checkBytes check) := by rw [opened, held]
    _ = s.rxHunt.handleFrame body (readCheck ((check >>> 8).setWidth 8) (check.setWidth 8)) := rfl
    _ = s.handleFrame body check := by rw [State.rxHunt_eq hunt stopped, readCheck_checkBytes]

/-- A listening part handles a whole frame of kind, number and payload by its check and kind (R159). -/
theorem exec_receiveFrame {s : State} {kind n : Byte} {payload : List Byte} (check : Half) (listens : s.listening)
    (fits : payload.length ≤ 248) :
    exec (.receiveFrame (kind :: n :: payload) check) s = .next (s.handleFrame (kind :: n :: payload) check) := by
  obtain ⟨high, hunt, stopped, -⟩ := listens
  have frame := State.rxBytes_frame (body := kind :: n :: payload) check hunt stopped (by simp) (by simp; omega)
  exact congrArg Host.Outcome.next ((State.running_high high _).trans frame)

/-! ## The frame's handling by its check and kind -/

theorem State.handleFrame_badCheck {s : State} {body : List Byte} {check : Half} (acts : s.resetInHand = false)
    (bad : check ≠ frameCheck body) : s.handleFrame body check = s.refuseFrame .check := by
  simp [State.handleFrame, acts, bad]

theorem State.handleFrame_order {s : State} (n : Byte) (order : List Byte) (acts : s.resetInHand = false) :
    s.handleFrame (0x01 :: n :: order) (frameCheck (0x01 :: n :: order)) = s.acceptOrder n order := by
  simp [State.handleFrame, acts]

theorem State.handleFrame_sync {s : State} (m : Byte) (payload : List Byte) (acts : s.resetInHand = false) :
    s.handleFrame (0x02 :: m :: payload) (frameCheck (0x02 :: m :: payload)) = s.sync m := by
  simp [State.handleFrame, acts]

/-- An order number that is neither in the table nor E is refused with SEQUENCE (R161). -/
theorem State.acceptOrder_outOfSequence {s : State} {n : Byte} (order : List Byte) (unknown : s.entry n = none)
    (ne : n ≠ s.link.expected) : s.acceptOrder n order = s.refuseFrame (.sequence n) := by
  simp [State.acceptOrder, unknown, ne]

/-- With no PENDING entry a SYNC empties the table and sets E, and its SYNCED frame goes to the refusal queue (R165). -/
theorem State.sync_taken {s : State} (m : Byte) (noPending : s.pendingOrders = 0) :
    s.sync m =
      State.queueRefusal { s with link := { s.link with table := [], expected := m } }
        { kind := .synced, number := m, payload := [] } := by
  simp [State.sync, noPending]

/-! ## The refusal queue -/

theorem State.queueRefusal_room {s : State} (f : Frame) (room : s.link.refusals.length < 4) :
    s.queueRefusal f = { s with link := { s.link with refusals := s.link.refusals ++ [f] } } := if_pos room

theorem State.queueRefusal_full {s : State} (f : Frame) (full : 4 ≤ s.link.refusals.length) : s.queueRefusal f = s :=
  if_neg (Nat.not_lt.mpr full)

theorem State.queueRefusal_bounded {s : State} (f : Frame) (bounded : s.link.refusals.length ≤ 4) :
    (s.queueRefusal f).link.refusals.length ≤ 4 := by
  by_cases room : s.link.refusals.length < 4
  · rw [State.queueRefusal_room f room]
    simpa using room
  · rwa [State.queueRefusal_full f (Nat.not_lt.mp room)]

/-- Settles O13: a frame refused or synced while four stand in the queue is handled by its kind's equation, and what it
queues is dropped. -/
theorem refusalQueueDropsTheFifthFrame : Obligations.RefusalQueueDropsTheFifthFrame := by
  refine ⟨fun s f => ⟨s.queueRefusal_room f, s.queueRefusal_full f, s.queueRefusal_bounded f⟩, ?_⟩
  intro s n payload check listens fits four
  have acts : s.resetInHand = false := by
    obtain ⟨-, -, -, acts⟩ := listens
    exact acts
  have dropped (r : RefusalReason) : s.refuseFrame r = s := State.queueRefusal_full _ four.ge
  refine ⟨fun bad => ?_, fun unknown ne => ?_, fun noPending => ?_⟩ <;> rw [exec_receiveFrame _ listens fits]
  · rw [State.handleFrame_badCheck acts bad, dropped]
  · rw [State.handleFrame_order n payload acts, State.acceptOrder_outOfSequence payload unknown ne, dropped]
  · rw [State.handleFrame_sync n payload acts, State.sync_taken n noPending]
    exact congrArg Host.Outcome.next (State.queueRefusal_full _ four.ge)

/-! ## A low stop bit -/

theorem exec_stopBitLow {s : State} (high : s.resetLow = false) : exec .stopBitLow s = .next s.rxHunt :=
  congrArg Host.Outcome.next (State.running_high high _)

theorem exec_byteReceived {s : State} (b : Byte) (high : s.resetLow = false) :
    exec (.byteReceived b) s = .next (s.rxByte b) :=
  congrArg Host.Outcome.next (State.running_high high _)

/-- Settles O8: STOP_BIT_LOW is `rxHunt`, which a receiver in HUNT does not notice, so a good D2h is its next sync. -/
theorem stopBitLowDiscardsTheFrame : Obligations.StopBitLowDiscardsTheFrame := by
  intro s high
  refine ⟨exec_stopBitLow high, fun hunt stopped => ⟨?_, ?_⟩⟩
  · rw [exec_stopBitLow high, State.rxHunt_eq hunt stopped]
  · exact (exec_byteReceived _ high).trans (congrArg Host.Outcome.next (State.rxByte_sync hunt))

end Sys2Proof.Machine
end

