-- ==== Sys2Proof/Proofs/Acts.lean ====
section
/-! The acts a step of the part is made of: `Act` says once what each of them does and when it can occur, and `step_acts`
(below, in Steps.lean) that every step is a chain of them. An invariant of the part is then a property of the points
between acts that every act keeps. -/

namespace Sys2Proof.Machine

/-! ## Where a step stands between two acts -/

/-- The command in hand: an event of the part, an order of the executor, or an ACKNOWLEDGE in its drain. -/
inductive Mode where
  | plain | order | drain

/-- What comes next: nothing but another command's part, the scheduler's choice, the mover's beginning of the next unit of
the burst in hand, or the tests that follow a commit. -/
inductive Stage where
  | rest | choosing | beginning | committed

/-- A point between two acts of a step. -/
structure Point where
  mode : Mode
  stage : Stage
  state : State

/-! ## Pieces of the acts -/

/-- The burst of a descriptor that starts (R66). -/
def State.begun (s : State) (i : Fin 64) (d : Descriptor) (p : Progress) : State :=
  (s.setSlot i (.live .active d p)).setBurst
    (some { owner := .slot i, level := d.level, moved := 0, block := d.transfer.block })

/-- The burst of the link access that starts (R68). -/
def State.begunLink (s : State) (a : LinkAccess) : State :=
  (s.setAccess (some { a with candidate := false })).setBurst
    (some { owner := .link, level := a.level, moved := 0, block := a.kind.length })

/-- The owner of a stack entry taken out of it, in a state of its own choosing (R64, R76). -/
def State.unowned (s : State) (st : LiveState) : Owner → State
  | .slot i => s.setState i st
  | .link => s

/-- The burst of a stack entry that is resumed, the entry gone (R76). -/
def State.resumed (s : State) (e : StackEntry) (rest : List StackEntry) : State :=
  ((s.unowned .active e.owner).setStack rest).setBurst
    (some { owner := e.owner, level := e.level, moved := e.moved, block := s.blockOf e.owner })

/-- The stages at which a burst that starts is chosen: a choice, and the preemption check that follows a commit. -/
inductive Stage.Chooses : Stage → Prop where
  | choosing : Chooses .choosing
  | committed : Chooses .committed

/-- How the mover is handed a burst (R86): it restarts its timer or asks, and the scheduler is done; or it is to begin the
burst's first unit. -/
inductive Hands (s : State) (b : Burst) : Stage → State → Prop where
  | waits : s.burstNeedsMemory b = true → s.mover.request = true → s.mover.state = .asking →
      Hands s b .choosing (s.setMover { s.mover with timer := some s.cfg.grantLimit })
  | holdsGrant : s.burstNeedsMemory b = true → s.mover.request = true → s.mover.state ≠ .asking → Hands s b .beginning s
  | asks : s.burstNeedsMemory b = true → s.mover.request = false → Hands s b .choosing s.ask
  | goes : s.burstNeedsMemory b = false → Hands s b .beginning (s.lowerRequest.goes .moving)

/-- No burst is in hand, or the one in hand has no unit in progress and is pushed (R62, R70, R74). -/
inductive Opens (s : State) : State → Prop where
  | free : s.sched.burst = none → Opens s s
  | push (b : Burst) : s.sched.burst = some b → s.mover.unit = none → Opens s (s.push b)

/-- The top of the stack lies below a level. -/
def State.outranked (s : State) (level : Nat) : Prop := ∀ e ∈ s.sched.stack.head?, e.level < level

/-- Operation and buffer of the next unit of an ACTIVE descriptor; a TALLY has none (R87, R90). -/
def State.nextUnit (s : State) (t : Transfer) (p : Progress) : Option (UnitOp × List Byte) :=
  match t with
  | .capture u _ n a => some (.capture n (p.nextA.getD a.start) u, (s.lane n).fifo.take u.bytes)
  | .playout u _ n a => some (.playout n (p.nextA.getD a.start) u, [])
  | .copy u _ a c => some (.copy (p.nextA.getD a.start) (p.nextB.getD c.start) u, [])
  | .relay u _ n m => some (.relay n m u, (s.lane n).fifo.take u.bytes)
  | .tally => none

/-- Operation and buffer of byte k of a link access (R104, R105). -/
def LinkAccess.unit (a : LinkAccess) (k : Nat) : UnitOp × List Byte :=
  match a.kind with
  | .peek _ _ => (.peek (a.address k), [])
  | .poke data => (.poke (a.address k), (data.drop k).take 1)

/-- The burst in hand has no owner to begin a unit for: no run reaches this. -/
def State.ownerless (s : State) (b : Burst) : Prop :=
  match b.owner with
  | .link => s.sched.access = none
  | .slot i => ∀ d p, s.slot i ≠ .live .active d p

/-- A unit in progress ends with its data moved (R69). -/
inductive Moves (s : State) : State → Prop where
  | intro (u : UnitInProgress) (v : State) : s.resetLow = false → s.mover.unit = some u → s.performUnit u = .moved v →
      Moves s v.unitOver

/-- A unit in progress ends, or the wait for the grant does (R69, R89, R99). -/
inductive Stops (s : State) : State → Prop where
  | moved {w : State} : Moves s w → Stops s w
  | failed (u : UnitInProgress) (a : Addr) : s.resetLow = false → s.mover.unit = some u → s.performUnit u = .failed a →
      Stops s s.unitOver
  | timeout : s.resetLow = false → s.mover.state = .asking → Stops s s.lowerRequest

/-- The placement of the oldest waiting record, with its queue change (R126, R127, R145). -/
def State.drainPlace (s : State) (r : Record) (rest : List Record) : State :=
  let t := (s.setNotes { s.notes with waiting := rest }).place (.report r)
  match r with
  | .ended e => t.requeue e
  | .faulted _ => t

/-- The end of a RESET PART's answer: the reset (R183). -/
def State.resetByOrder (s : State) : State :=
  (State.abandonUnit { s with link := { s.link with tx := none } }).resetBlocks .order

/-! ## The acts -/

/-- What one act does, and what holds where it occurs. -/
inductive Act : Point → Point → Prop where
  -- the scheduler's reaction
  | wake {m s} : s.resetLow = false → Act ⟨m, .rest, s⟩ ⟨m, .choosing, s⟩
  | stay {m s} : s.sched.burst ≠ none → Act ⟨m, .choosing, s⟩ ⟨m, .rest, s⟩
  | idle {m s} : s.sched.burst = none → Act ⟨m, .choosing, s⟩ ⟨m, .rest, s.rest⟩
  | start {m s u i d p b st t o} : Opens s u → s.slot i = .live .current d p → s.laneFault d.transfer = none →
      u.outranked d.level → (u.begun i d p).sched.burst = some b → Hands (u.begun i d p) b st t →
      o.Chooses → Act ⟨m, o, s⟩ ⟨m, st, t⟩
  | startFaulted {m s u i d p f o} : Opens s u → s.slot i = .live .current d p → s.laneFault d.transfer = some f →
      u.outranked d.level → o.Chooses →
      Act ⟨m, o, s⟩ ⟨m, .choosing, (u.begun i d p).lowerRequest.faultProcessing i f⟩
  | startLink {m s u a b st t o} : Opens s u → s.sched.access = some a → a.candidate = true → u.outranked a.level →
      (u.begunLink a).sched.burst = some b → Hands (u.begunLink a) b st t → o.Chooses → Act ⟨m, o, s⟩ ⟨m, st, t⟩
  | cut {m s a e rest} : s.sched.burst = none → s.sched.access = some a → a.candidate = true →
      s.sched.stack = e :: rest → Act ⟨m, .choosing, s⟩ ⟨m, .choosing, (s.unowned .current e.owner).setStack rest⟩
  | resume {m s e rest b st t} : s.sched.burst = none → s.sched.stack = e :: rest →
      (s.resumed e rest).sched.burst = some b → Hands (s.resumed e rest) b st t → Act ⟨m, .choosing, s⟩ ⟨m, st, t⟩
  -- the next unit
  | beginSlot {m s b i d p op buffer} : s.sched.burst = some b → b.owner = .slot i → s.slot i = .live .active d p →
      s.lanesCanMove d.transfer = true → s.nextUnit d.transfer p = some (op, buffer) →
      Act ⟨m, .beginning, s⟩ ⟨m, .choosing, s.beginUnit op buffer⟩
  | beginLink {m s b a} : s.sched.burst = some b → b.owner = .link → s.sched.access = some a →
      Act ⟨m, .beginning, s⟩ ⟨m, .choosing, s.beginUnit (a.unit b.moved).1 (a.unit b.moved).2⟩
  | tallyEnds {m s b i d p} : s.sched.burst = some b → b.owner = .slot i → s.slot i = .live .active d p →
      (d.commit p).remaining = 0 →
      Act ⟨m, .beginning, s⟩ ⟨m, .choosing, ((s.goes .moving).commitProgress i d p b).endProcessing i⟩
  | tallyGoesOn {m s b i d p} : s.sched.burst = some b → b.owner = .slot i → s.slot i = .live .active d p →
      (d.commit p).remaining ≠ 0 →
      Act ⟨m, .beginning, s⟩ ⟨m, .choosing, ((s.goes .moving).commitProgress i d p b).endCurrent i⟩
  | fallsShort {m s b i d p} : s.sched.burst = some b → b.owner = .slot i → s.slot i = .live .active d p →
      Act ⟨m, .beginning, s⟩ ⟨m, .choosing, (s.goes .moving).endCurrent i⟩
  | beginNothing {m s b} : s.sched.burst = some b → s.ownerless b →
      Act ⟨m, .beginning, s⟩ ⟨m, .choosing, s.clearBurst⟩
  | beginsNone {m s} : s.sched.burst = none → Act ⟨m, .beginning, s⟩ ⟨m, .choosing, s⟩
  -- the boundary
  | commits {s w b i d p} : Moves s w → w.sched.burst = some b → b.owner = .slot i → w.slot i = .live .active d p →
      (d.commit p).remaining ≠ 0 → w.cancelWaits i = false →
      Act ⟨.plain, .rest, s⟩ ⟨.plain, .committed, w.commitProgress i d p b⟩
  | finishes {s w b i d p} : Moves s w → w.sched.burst = some b → b.owner = .slot i → w.slot i = .live .active d p →
      (d.commit p).remaining = 0 →
      Act ⟨.plain, .rest, s⟩
        ⟨.plain, .choosing, ((w.commitProgress i d p b).endProcessing i).answerEnded i (d.commit p).committed⟩
  | cancels {s w b i d p payload} : Moves s w → w.sched.burst = some b → b.owner = .slot i →
      w.slot i = .live .active d p → (d.commit p).remaining ≠ 0 → w.cancelWaits i = true →
      Act ⟨.plain, .rest, s⟩
        ⟨.plain, .choosing, ((w.commitProgress i d p b).clearBurst.takeOut i).produceAnswer payload⟩
  | fails {s u a b i} : s.resetLow = false → s.mover.unit = some u → s.performUnit u = .failed a →
      s.sched.burst = some b → b.owner = .slot i →
      Act ⟨.plain, .rest, s⟩
        ⟨.plain, .choosing, (s.unitOver.faultProcessing i (.parity a)).cancelFaulted i⟩
  | linkMoves {s w b a} : Moves s w → w.sched.burst = some b → b.owner = .link → w.sched.access = some a →
      b.moved + 1 < b.block →
      Act ⟨.plain, .rest, s⟩ ⟨.plain, .committed, w.setBurst (some { b with moved := b.moved + 1 })⟩
  | linkEnds {s w b a payload} : Stops s w → w.sched.burst = some b → b.owner = .link → w.sched.access = some a →
      Act ⟨.plain, .rest, s⟩ ⟨.plain, .choosing, ((w.setAccess none).setBurst none).produceAnswer payload⟩
  | timesOut {s b i} : s.resetLow = false → s.mover.state = .asking → s.sched.burst = some b → b.owner = .slot i →
      Act ⟨.plain, .rest, s⟩ ⟨.plain, .choosing, s.lowerRequest.faultProcessing i .grantTimeout⟩
  | stopsIdle {s w} : Stops s w → w.sched.burst = none → Act ⟨.plain, .rest, s⟩ ⟨.plain, .choosing, w⟩
  | stopsOwnerless {s w b} : Stops s w → w.sched.burst = some b → w.ownerless b →
      Act ⟨.plain, .rest, s⟩ ⟨.plain, .choosing, w.clearBurst⟩
  -- after a commit
  | endsCurrent {s b i d p} : s.sched.burst = some b → b.owner = .slot i → s.slot i = .live .active d p →
      Act ⟨.plain, .committed, s⟩ ⟨.plain, .choosing, s.endCurrent i⟩
  | goesOn {s} : s.mover.state ≠ .yielding → Act ⟨.plain, .committed, s⟩ ⟨.plain, .beginning, s⟩
  | asksAgain {s} : s.mover.state = .yielding → Act ⟨.plain, .committed, s⟩ ⟨.plain, .choosing, s.ask⟩
  | losesOwner {s b} : s.sched.burst = some b → s.ownerless b →
      Act ⟨.plain, .committed, s⟩ ⟨.plain, .choosing, s.clearBurst⟩
  | freezes {s payload} : s.sched.freeze = .freezing → s.sched.burst = none →
      Act ⟨.plain, .choosing, s⟩ ⟨.plain, .rest, ((s.setFreeze .frozen).produceAnswer payload).rest⟩
  -- the grant
  | seesGrant {s} : (s.resetLow = false → s.mover.state ≠ .asking) → Act ⟨.plain, .rest, s⟩ ⟨.plain, .rest, s.seeGrant true⟩
  | servesGrant {s lowered count} : s.resetLow = false → s.mover.state = .asking →
      Act ⟨.plain, .rest, s⟩
        ⟨.plain, .beginning,
          State.setMover { s with grant := true, lowered := lowered, freeCount := count }
            { s.mover with state := .moving, timer := none }⟩
  | awaitsGrantEnd {s count} : s.mover.state = .asking →
      Act ⟨.plain, .rest, s⟩
        ⟨.plain, .rest,
          State.awaitGrantEnd { s with grant := true, lowered := false, freeCount := count }⟩
  | losesGrantLow {s} : s.resetLow = true → Act ⟨.plain, .rest, s⟩ ⟨.plain, .rest, (s.seeGrant false).settleRequest⟩
  | losesGrant {s} : s.resetLow = false →
      Act ⟨.plain, .rest, s⟩ ⟨.plain, .rest, (s.seeGrant false).settleRequest.grantGone⟩
  | waitsOn {s n k} : s.mover.timer = some n →
      Act ⟨.plain, .rest, s⟩ ⟨.plain, .rest, s.setMover { s.mover with timer := some k }⟩
  -- sources and lanes
  | event {m s q} : Act ⟨m, .rest, s⟩ ⟨m, .rest, s.eventAt q⟩
  | counted {m s q c} : c ≤ 3 → Act ⟨m, .rest, s⟩ ⟨m, .rest, s.setCount q c⟩
  | clearsMiss {m s q} : Act ⟨m, .rest, s⟩ ⟨m, .rest, s.clearMiss q⟩
  | line {m s n l} : Act ⟨m, .rest, s⟩ ⟨m, .rest, s.setLine n l⟩
  | timer {m s n t} : Act ⟨m, .rest, s⟩ ⟨m, .rest, s.setTimer n t⟩
  | pins {m s n strobe ack} : Act ⟨m, .rest, s⟩ ⟨m, .rest, s.setLane n { s.lane n with strobe := strobe, ack := ack }⟩
  | exchange {m s n} : Act ⟨m, .rest, s⟩ ⟨m, .rest, s.settleLane n (s.lane n)⟩
  | laneSetup {m s n enabled direction threshold flush} : s.laneInUse n = false → 1 ≤ threshold → threshold ≤ 32 →
      Act ⟨m, .rest, s⟩ ⟨m, .rest, s.setLane n ((s.lane n).setup enabled direction threshold flush)⟩
  -- slots, queues and the scheduler's settings
  | define {m s i r d} : (s.slot i).definable = true → s.waitingMark i = false → readRecord r = some d →
      d.transfer.aligned = true → d.inside s.memorySize = true → Act ⟨m, .rest, s⟩ ⟨m, .rest, s.load i d⟩
  | rearm {m s i d} : (s.slot i).atRest? = some d → s.waitingMark i = false → Act ⟨m, .rest, s⟩ ⟨m, .rest, s.load i d⟩
  | release {m s i d} : (s.slot i).atRest? = some d → s.waitingMark i = false →
      Act ⟨m, .rest, s⟩ ⟨m, .rest, s.setSlot i .free⟩
  | bind {m s i q d p} : s.slot i = .live .loaded d p → s.waitingMark i = false →
      Act ⟨m, .rest, s⟩ ⟨m, .rest, s.bindSlot i q⟩
  | unbind {m s i st d p} : s.slot i = .live st d p → (st = .bound ∨ st = .current ∨ st = .faulted) →
      Act ⟨m, .rest, s⟩ ⟨m, .rest, s.takeOut i⟩
  | cancelPreempted {m s i d p} : s.slot i = .live .preempted d p →
      Act ⟨m, .rest, s⟩ ⟨m, .rest, (s.unstack i).takeOut i⟩
  | cancelActive {m s i d p} : s.resetLow = false → s.slot i = .live .active d p → s.mover.unit = none →
      Act ⟨m, .rest, s⟩ ⟨m, .choosing, s.dropBurst.takeOut i⟩
  | retry {m s i d p} : s.slot i = .live .faulted d p → s.waitingMark i = false →
      Act ⟨m, .rest, s⟩ ⟨m, .rest, s.setSlot i (.live .current d { p with lastFault := none })⟩
  | skip {m s i d p} : s.slot i = .live .faulted d p → Act ⟨m, .rest, s⟩ ⟨m, .rest, s.removeHead (s.sourceOf i) .spent⟩
  | freezeNow {m s} : s.sched.freeze = .running → Act ⟨m, .rest, s⟩ ⟨m, .rest, s.setFreeze .frozen⟩
  | freezeCut {m s b i} : s.sched.freeze = .running → s.sched.burst = some b → b.owner = .slot i →
      s.mover.unit = none → Act ⟨m, .rest, s⟩ ⟨m, .rest, (s.endCurrent i).lowerRequest.rest.setFreeze .frozen⟩
  | thaw {m s} : s.sched.freeze = .frozen → Act ⟨m, .rest, s⟩ ⟨m, .rest, s.setFreeze .running⟩
  | configure {m s level limit} : 1 ≤ level → level ≤ 6 → Act ⟨m, .rest, s⟩ ⟨m, .rest, s.configure level limit⟩
  -- orders that hold the executor
  | holdsFreeze {s} : s.sched.freeze = .running →
      Act ⟨.order, .rest, s⟩ ⟨.plain, .rest, (s.setFreeze .freezing).hold .freeze⟩
  | keepsFreeze {s} : s.sched.freeze = .freezing → Act ⟨.order, .rest, s⟩ ⟨.plain, .rest, s.hold .freeze⟩
  | holdsCancel {s i d p} : s.slot i = .live .active d p → s.mover.unit ≠ none →
      Act ⟨.order, .rest, s⟩ ⟨.plain, .rest, s.hold (.cancel i)⟩
  | holdsReset {s} : Act ⟨.order, .rest, s⟩ ⟨.order, .rest, s.hold .resetPart⟩
  | opensAccess {s start kind} : 1 ≤ kind.length → start + kind.length ≤ s.memorySize →
      Act ⟨.order, .rest, s⟩
        ⟨.plain, .rest,
          (s.hold .linkAccess).setAccess
            (some { start := BitVec.ofNat 24 start, kind := kind, level := s.cfg.linkLevel, candidate := true })⟩
  -- the executor
  | takes {s n order} : s.orderInTurn = some (n, order) →
      Act ⟨.plain, .rest, s⟩ ⟨.order, .rest, s.carryOut n order⟩
  | answers {s payload} : Act ⟨.order, .rest, s⟩ ⟨.plain, .rest, s.produceAnswer payload⟩
  -- notices
  | resends {m s} : Act ⟨m, .rest, s⟩ ⟨m, .rest, s.setNotes s.notes.resend⟩
  | acknowledges {s k} : k < s.notes.list.length →
      Act ⟨.order, .rest, s⟩ ⟨.drain, .rest, s.setNotes (s.notes.remove (k + 1))⟩
  | drains {s r rest} : s.notes.list.length < noticePlaces → s.notes.waiting = r :: rest →
      Act ⟨.drain, .rest, s⟩ ⟨.drain, .rest, s.drainPlace r rest⟩
  | drained {s} : noticePlaces ≤ s.notes.list.length ∨ s.notes.waiting = [] → Act ⟨.drain, .rest, s⟩ ⟨.order, .rest, s⟩
  -- the link port
  | listens {s rx timer} :
      Act ⟨.plain, .rest, s⟩ ⟨.plain, .rest, { s with link := { s.link with rx := rx, rxTimer := timer } }⟩
  | refuses {s f} : Act ⟨.plain, .rest, s⟩ ⟨.plain, .rest, s.queueRefusal f⟩
  | replays {s n queued payload} : Act ⟨.plain, .rest, s⟩ ⟨.plain, .rest, s.replay n queued payload⟩
  | enters {s order} : Act ⟨.plain, .rest, s⟩ ⟨.plain, .rest, (s.enterOrder order).takeNext⟩
  | syncs {s n} :
      Act ⟨.plain, .rest, s⟩ ⟨.plain, .rest, { s with link := { s.link with table := [], expected := n } }⟩
  | sends {s f rest} : s.link.refusals = f :: rest →
      Act ⟨.plain, .rest, s⟩ ⟨.plain, .rest, { s with link := { s.link with refusals := rest, tx := some f } }⟩
  | sendsAnswer {s a rest} : s.link.answers = a :: rest → Act ⟨.plain, .rest, s⟩ ⟨.plain, .rest, s.sendAnswer a rest⟩
  | sendsNotice {s n rest} : s.notes.txQueue = n :: rest → Act ⟨.plain, .rest, s⟩ ⟨.plain, .rest, s.sendNotice n rest⟩
  | sent {s} : Act ⟨.plain, .rest, s⟩ ⟨.plain, .rest, { s with link := { s.link with tx := none } }⟩
  -- resets, and what no law speaks of
  | takesLow {s} : Act ⟨.plain, .rest, s⟩ ⟨.plain, .rest, s.takeLow⟩
  | releases {s baud msize} : Act ⟨.plain, .rest, s⟩ ⟨.plain, .rest, s.release baud msize⟩
  | resetsByOrder {s} : Act ⟨.plain, .rest, s⟩ ⟨.plain, .rest, s.resetByOrder⟩
  | aside {m s pending phase count lowered} :
      Act ⟨m, .rest, s⟩
        ⟨m, .rest, { s with pending := pending, timePhase := phase, freeCount := count, lowered := lowered }⟩

/-- A chain of acts. -/
abbrev Acts : Point → Point → Prop := Relation.ReflTransGen Act

/-- What every act keeps, a chain of acts keeps. -/
theorem Acts.keeps {I : Point → Prop} (kept : ∀ {a b}, Act a b → I a → I b) {a b : Point} (chain : Acts a b) (h : I a) :
    I b := by
  induction chain with
  | refl => exact h
  | tail _ act ih => exact kept act ih

theorem Acts.one {a b : Point} (h : Act a b) : Acts a b := .single h

end Sys2Proof.Machine
end

