-- ==== Sys2Proof/Proofs/Steps.lean ====
section
/-! Every step is a chain of acts (`step_acts`): the scheduler's reaction, the end of a unit, the grant, the orders, the
link port and the clock, each taken apart once. -/

namespace Sys2Proof.Machine

open Relation (ReflTransGen)

/-! ## The reaction of the scheduler -/

theorem State.takeUp_hands {s : State} {b : Burst} (burst : s.sched.burst = some b) :
    ∃ st t, Hands s b st t ∧ (st = .choosing ∧ s.takeUp = t ∨ st = .beginning ∧ s.takeUp = t.beginNext) := by
  unfold State.takeUp
  rw [burst]
  dsimp only
  split_ifs with needs request asking
  · exact ⟨_, _, .waits needs request asking, .inl ⟨rfl, rfl⟩⟩
  · exact ⟨_, _, .holdsGrant needs request asking, .inr ⟨rfl, rfl⟩⟩
  · exact ⟨_, _, .asks needs (by simpa using request), .inl ⟨rfl, rfl⟩⟩
  · exact ⟨_, _, .goes (by simpa using needs), .inr ⟨rfl, rfl⟩⟩

theorem State.commitProgress_slot (s : State) (i : Fin 64) (d : Descriptor) (p : Progress) (b : Burst) :
    (s.commitProgress i d p b).slot i = .live .active d (d.commit p) := by
  have kept : ∀ (t : State) (q : Fin 28), (t.consume q).slot i = t.slot i := by
    intro t q
    unfold State.consume
    split <;> rfl
  have set : ((s.setSlot i (.live .active d (d.commit p))).setBurst (some { b with moved := b.moved + 1 })).slot i =
      .live .active d (d.commit p) := State.slot_setSlot_self s i _
  unfold State.commitProgress
  dsimp only
  split
  · rw [kept, set]
  · exact set

/-- The mover's beginning of the next unit, as one act. -/
theorem State.beginNext_acts {m : Mode} (s : State) : Acts ⟨m, .beginning, s⟩ ⟨m, .choosing, s.beginNext⟩ := by
  apply Acts.one
  unfold State.beginNext
  split
  next burst => exact .beginsNone burst
  next b burst =>
    split
    next link =>
      split
      next none => exact .beginNothing burst (by simp only [State.ownerless, link, none])
      next a access =>
        have act := Act.beginLink (m := m) burst link access
        split <;> rename_i kind <;> simpa only [LinkAccess.unit, kind] using act
    next i owner =>
      split
      next d p slot =>
        split_ifs with can
        · split <;> rename_i transfer
          any_goals exact .beginSlot burst owner slot can (by rw [transfer]; rfl)
          unfold State.tallyUnit
          dsimp only
          split_ifs with last
          · exact .tallyEnds burst owner slot last
          · exact .tallyGoesOn burst owner slot last
        · exact .fallsShort burst owner slot
      next other =>
        refine .beginNothing burst ?_
        simp only [State.ownerless, owner]
        exact other

/-- What is handed to the mover is taken up by it. -/
theorem State.takeUp_acts {m : Mode} {p : Point} {s : State} {b : Burst} (burst : s.sched.burst = some b)
    (acts : ∀ {st t}, Hands s b st t → Act p ⟨m, st, t⟩) : Acts p ⟨m, .choosing, s.takeUp⟩ := by
  obtain ⟨st, t, hands, ⟨rfl, e⟩ | ⟨rfl, e⟩⟩ := State.takeUp_hands burst
  · rw [e]; exact .one (acts hands)
  · rw [e]; exact (Acts.one (acts hands)).trans t.beginNext_acts

theorem State.startBurst_live {s : State} {i : Fin 64} {st : LiveState} {d : Descriptor} {p : Progress}
    (slot : s.slot i = .live st d p) :
    s.startBurst i =
      match s.laneFault d.transfer with
      | some f => (s.begun i d p).lowerRequest.faultProcessing i f
      | none => (s.begun i d p).takeUp := by
  unfold State.startBurst
  rw [slot]
  rfl

/-- Record and progress of a slot are those before the push of a burst. -/
theorem Opens.slot {s u : State} (opens : Opens s u) {i : Fin 64} {st : LiveState} {d : Descriptor} {p : Progress}
    (slot : s.slot i = .live st d p) : ∃ st', u.slot i = .live st' d p := by
  cases opens with
  | free => exact ⟨st, slot⟩
  | push b =>
    unfold State.push
    dsimp only
    split
    next j _ =>
      change ∃ st', (s.setState j .preempted).slot i = .live st' d p
      rw [State.setState, State.slot_setSlot]
      split_ifs with same
      · subst same; exact ⟨.preempted, by rw [slot]; rfl⟩
      · exact ⟨st, slot⟩
    next => exact ⟨st, slot⟩

theorem Opens.lanes {s u : State} (opens : Opens s u) : u.lanes = s.lanes := by
  cases opens with
  | free => rfl
  | push b => exact State.still.lanes (State.still_push s b)

theorem State.laneFault_lanes {s u : State} (lanes : u.lanes = s.lanes) (t : Transfer) : u.laneFault t = s.laneFault t := by
  simp only [State.laneFault, State.lane, lanes]

/-- A descriptor's burst starts (R66, R67). -/
theorem State.startBurst_acts {m : Mode} {o : Stage} {s u : State} {i : Fin 64} {d : Descriptor} {p : Progress}
    (opens : Opens s u) (slot : s.slot i = .live .current d p) (outranked : u.outranked d.level) (chooses : o.Chooses) :
    Acts ⟨m, o, s⟩ ⟨m, .choosing, u.startBurst i⟩ := by
  obtain ⟨st, slot'⟩ := opens.slot slot
  rw [State.startBurst_live slot', State.laneFault_lanes opens.lanes]
  split
  next f fault => exact .one (.startFaulted opens slot fault outranked chooses)
  next fault => exact State.takeUp_acts rfl fun hands => .start opens slot fault outranked rfl hands chooses

theorem State.setStack_self (s : State) : s.setStack s.sched.stack = s := rfl

/-- The cuts before a link access starts while FROZEN leave a stack it outranks (R64). -/
theorem State.cutAbove_acts {m : Mode} {s : State} {a : LinkAccess} {stack : List StackEntry}
    (burst : s.sched.burst = none) (access : s.sched.access = some a) (candidate : a.candidate = true)
    (entries : s.sched.stack = stack) :
    ∃ u, s.cutAbove a.level stack = u ∧ Acts ⟨m, .choosing, s⟩ ⟨m, .choosing, u⟩ ∧ u.sched.burst = none ∧
      u.sched.access = some a ∧ u.outranked a.level := by
  induction stack generalizing s with
  | nil =>
    refine ⟨s, ?_, .refl, burst, access, by simp [State.outranked, entries]⟩
    rw [State.cutAbove, ← entries, State.setStack_self]
  | cons e rest ih =>
    by_cases below : e.level < a.level
    · refine ⟨s, ?_, .refl, burst, access, by simpa [State.outranked, entries] using below⟩
      rw [State.cutAbove, if_pos below, ← entries, State.setStack_self]
    · have act := Act.cut (m := m) burst access candidate entries
      have overwrites : ∀ (t : State) (l : List StackEntry) (stack : List StackEntry),
          (t.setStack l).cutAbove a.level stack = t.cutAbove a.level stack := by
        intro t l stack
        induction stack generalizing t with
        | nil => rfl
        | cons f rest ih =>
          unfold State.cutAbove
          split
          · rfl
          · split
            next i _ => exact ih (t.setState i .current)
            · exact ih t
      have cut : s.cutAbove a.level (e :: rest) =
          ((s.unowned .current e.owner).setStack rest).cutAbove a.level rest := by
        rw [overwrites, State.cutAbove, if_neg below]
        cases e.owner <;> rfl
      have sched : (s.unowned .current e.owner).sched = s.sched := by cases e.owner <;> rfl
      obtain ⟨u, eq, chain, rest⟩ := ih (s := (s.unowned .current e.owner).setStack rest)
        (by simpa [sched] using burst) (by simpa [sched] using access) rfl
      exact ⟨u, cut.trans eq, (Acts.one act).trans chain, rest⟩

theorem Opens.access {s u : State} (opens : Opens s u) : u.sched.access = s.sched.access := by
  cases opens with
  | free => rfl
  | push b => unfold State.push; dsimp only; split <;> rfl

theorem Opens.burst {s u : State} (opens : Opens s u) : u.sched.burst = none := by
  cases opens with
  | free burst => exact burst
  | push b => unfold State.push; dsimp only; split <;> rfl

/-- The link access starts where it outranks the stack (R68). -/
theorem State.startLink_acts {m : Mode} {o : Stage} {s u : State} {a : LinkAccess} (opens : Opens s u)
    (access : s.sched.access = some a) (candidate : a.candidate = true) (outranked : u.outranked a.level)
    (chooses : o.Chooses) : Acts ⟨m, o, s⟩ ⟨m, .choosing, u.startLink⟩ := by
  have cuts : u.cutAbove a.level u.sched.stack = u := by
    cases stack : u.sched.stack with
    | nil => rw [State.cutAbove, ← stack, State.setStack_self]
    | cons e rest =>
      have below : e.level < a.level := outranked e (by simp [stack])
      rw [State.cutAbove, if_pos below, ← stack, State.setStack_self]
  have starts : u.startLink = (u.begunLink a).takeUp := by
    unfold State.startLink
    rw [opens.access, access]
    dsimp only
    rw [cuts, ite_self]
    rfl
  rw [starts]
  exact State.takeUp_acts rfl fun hands => .startLink opens access candidate outranked rfl hands chooses

/-- The link access starts past the entries it does not outrank (R64). -/
theorem State.startLink_frozen_acts {m : Mode} {s : State} {a : LinkAccess} (burst : s.sched.burst = none)
    (access : s.sched.access = some a) (candidate : a.candidate = true) (frozen : s.sched.freeze = .frozen) :
    Acts ⟨m, .choosing, s⟩ ⟨m, .choosing, s.startLink⟩ := by
  obtain ⟨u, cuts, chain, burst', access', outranked⟩ :=
    State.cutAbove_acts (m := m) burst access candidate rfl
  have starts : s.startLink = (u.begunLink a).takeUp := by
    unfold State.startLink
    rw [access]
    dsimp only
    rw [if_pos frozen, cuts]
    rfl
  rw [starts]
  exact chain.trans
    (State.takeUp_acts rfl fun hands => .startLink (.free burst') access' candidate outranked rfl hands .choosing)

theorem State.resume_acts {m : Mode} {s : State} (burst : s.sched.burst = none) :
    Acts ⟨m, .choosing, s⟩ ⟨m, .choosing, s.resume⟩ := by
  cases stack : s.sched.stack with
  | nil =>
    have same : s.resume = s := by unfold State.resume; rw [stack]
    rw [same]
  | cons e rest =>
    have resumes : s.resume = (s.resumed e rest).takeUp := by
      obtain ⟨owner, level, moved⟩ := e
      unfold State.resume
      rw [stack]
      cases owner <;> rfl
    rw [resumes]
    exact State.takeUp_acts rfl fun hands => .resume burst stack rfl hands

/-! ### What is chosen -/

theorem State.sourceCandidate_current {s : State} {q : Fin 28} {i : Fin 64} {level : Nat}
    (h : s.sourceCandidate q = some (i, level)) : ∃ d p, s.slot i = .live .current d p ∧ d.level = level := by
  unfold State.sourceCandidate at h
  split at h
  · cases h
  · split at h
    next d p slot =>
      split_ifs at h
      simp only [Option.some.injEq, Prod.mk.injEq] at h
      obtain ⟨rfl, rfl⟩ := h
      exact ⟨d, p, slot, rfl⟩
    · cases h

/-- What can win: the link access as a candidate, or a CURRENT descriptor, each at its level (R58, R60). -/
def State.stands (s : State) : Choice × Nat → Prop
  | (.link, level) => ∃ a, s.sched.access = some a ∧ a.candidate = true ∧ a.level = level
  | (.source i, level) => ∃ d p, s.slot i = .live .current d p ∧ d.level = level
  | (.resume, _) => False

theorem State.linkCandidate_stands {s : State} {w : Choice × Nat} (h : s.linkCandidate = some w) : s.stands w := by
  unfold State.linkCandidate at h
  split at h
  next a access =>
    split_ifs at h with candidate
    cases h
    exact ⟨a, access, candidate, rfl⟩
  · cases h

theorem State.better_stands {s : State} {won : Option (Choice × Nat)} (q : Fin 28) (h : ∀ w, won = some w → s.stands w) :
    ∀ w, s.better won q = some w → s.stands w := by
  intro w hw
  unfold State.better at hw
  split at hw
  · exact h w hw
  next i level candidate =>
    cases hw
    exact State.sourceCandidate_current candidate
  next i level c best candidate =>
    split_ifs at hw <;> cases hw
    · exact State.sourceCandidate_current candidate
    · exact h _ rfl

theorem State.winner_stands {s : State} {w : Choice × Nat} (h : s.winner = some w) : s.stands w := by
  have all : ∀ (l : List (Fin 28)) (won : Option (Choice × Nat)), (∀ w, won = some w → s.stands w) →
      ∀ w, l.foldl s.better won = some w → s.stands w := by
    intro l
    induction l with
    | nil => exact fun won h => h
    | cons q l ih => exact fun won h => ih _ (State.better_stands q h)
  unfold State.winner at h
  split at h
  · exact State.linkCandidate_stands h
  · exact all _ _ (fun w hw => State.linkCandidate_stands hw) w h
  · exact all _ _ (fun w hw => State.linkCandidate_stands hw) w h

/-- What stands at a level above the stack is performed. -/
theorem State.perform_acts {m : Mode} {o : Stage} {s u : State} {c : Choice} {level : Nat} (opens : Opens s u)
    (stands : s.stands (c, level)) (outranked : u.outranked level) (chooses : o.Chooses) :
    Acts ⟨m, o, s⟩ ⟨m, .choosing, u.perform c⟩ := by
  cases c with
  | link =>
    obtain ⟨a, access, candidate, rfl⟩ := stands
    exact State.startLink_acts opens access candidate outranked chooses
  | source i =>
    obtain ⟨d, p, slot, rfl⟩ := stands
    exact State.startBurst_acts opens slot outranked chooses
  | resume => exact stands.elim

theorem State.push_stack (s : State) (b : Burst) :
    (s.push b).sched.stack = { owner := b.owner, level := b.level, moved := b.moved } :: s.sched.stack := rfl

theorem State.preempt_acts {m : Mode} {o : Stage} {s : State} {b : Burst} {c : Choice} (burst : s.sched.burst = some b)
    (unit : s.mover.unit = none) (preemptor : s.preemptor b = some c) (chooses : o.Chooses) :
    Acts ⟨m, o, s⟩ ⟨m, .choosing, (s.push b).perform c⟩ := by
  unfold State.preemptor at preemptor
  split at preemptor
  next c' level won =>
    split_ifs at preemptor with above
    cases preemptor
    exact State.perform_acts (.push b burst unit) (State.winner_stands won)
      (by simpa [State.outranked, State.push_stack] using above) chooses
  · cases preemptor

/-- What a selection chooses while FROZEN is the link access (R64). -/
theorem State.choose_frozen {s : State} {c : Choice} (frozen : s.sched.freeze = .frozen) (choice : s.choose = some c) :
    c = .link ∧ ∃ a, s.sched.access = some a ∧ a.candidate = true := by
  have chosen : s.linkCandidate.map Prod.fst = some c := by
    rw [← choice, State.choose, State.winner, frozen]
  obtain ⟨⟨c', level⟩, link, rfl⟩ := Option.map_eq_some_iff.1 chosen
  unfold State.linkCandidate at link
  split at link
  next a access =>
    split_ifs at link with candidate
    cases link
    exact ⟨rfl, a, access, candidate⟩
  · cases link

/-- What a selection chooses else: a winner that outranks the stack, or the stack's top (R63). -/
theorem State.choose_open {s : State} {c : Choice} (thawed : s.sched.freeze ≠ .frozen) (choice : s.choose = some c) :
    c = .resume ∨ ∃ level, s.winner = some (c, level) ∧ s.outranked level := by
  unfold State.choose at choice
  split at choice
  next frozen => exact (thawed frozen).elim
  · cases choice
  · cases choice; exact .inl rfl
  next level won stack _ => cases choice; exact .inr ⟨level, won, by simp [State.outranked, stack]⟩
  next c' level e rest won stack _ =>
    split_ifs at choice with above
    · cases choice; exact .inr ⟨level, won, by simpa [State.outranked, stack] using above⟩
    · cases choice; exact .inl rfl

theorem State.choice_acts {m : Mode} {s : State} {c : Choice} (burst : s.sched.burst = none) (choice : s.choose = some c) :
    Acts ⟨m, .choosing, s⟩ ⟨m, .choosing, s.perform c⟩ := by
  by_cases frozen : s.sched.freeze = .frozen
  · obtain ⟨rfl, a, access, candidate⟩ := State.choose_frozen frozen choice
    exact State.startLink_frozen_acts burst access candidate frozen
  · obtain rfl | ⟨level, won, outranked⟩ := State.choose_open frozen choice
    · exact State.resume_acts burst
    · exact State.perform_acts (.free burst) (State.winner_stands won) outranked .choosing

theorem selection_acts {m : Mode} (n : Nat) (s : State) : Acts ⟨m, .choosing, s⟩ ⟨m, .rest, selection n s⟩ := by
  induction n generalizing s with
  | zero =>
    unfold selection
    split
    next some => exact .one (.stay (by simpa [Option.isSome_iff_ne_none] using some))
    next none => exact .one (.idle (by simpa using none))
  | succ n ih =>
    unfold selection
    split
    next b burst => exact .one (.stay (by simp [burst]))
    next burst =>
      split
      · exact .one (.idle burst)
      next c choice => exact (State.choice_acts burst choice).trans (ih _)

theorem State.select_acts {m : Mode} (s : State) : Acts ⟨m, .choosing, s⟩ ⟨m, .rest, s.select⟩ := selection_acts _ s

theorem State.reaction_acts {m : Mode} (s : State) : Acts ⟨m, .choosing, s⟩ ⟨m, .rest, s.react⟩ := by
  unfold State.react
  split
  · exact s.select_acts
  next b burst =>
    have stays : Acts ⟨m, .choosing, s⟩ ⟨m, .rest, s⟩ := .one (.stay (by simp [burst]))
    split_ifs with unit
    · exact stays
    · split
      next c preemptor =>
        exact (State.preempt_acts burst (by simpa using unit) preemptor .choosing).trans (State.select_acts _)
      · exact stays

/-- The scheduler's reaction is a chain of acts. -/
theorem State.react_acts {m : Mode} {s : State} (high : s.resetLow = false) : Acts ⟨m, .rest, s⟩ ⟨m, .rest, s.react⟩ :=
  (Acts.one (.wake high)).trans s.reaction_acts

end Sys2Proof.Machine
end

