-- ==== Sys2Proof/Proofs/Frames.lean ====
section
/-! What the changes of slots, queues and counts leave alone besides `State.still`: the scheduler's burst, stack, freeze
state and link access, the mover and the notice list (`State.apart`). -/

namespace Sys2Proof.Machine

/-- The burst in hand, the stack, the freeze state, the link access, the mover and the notice list: what no change of
slots, queues and counts touches. -/
def State.apart (s : State) :=
  (s.sched.burst, s.sched.stack, s.sched.freeze, s.sched.access, s.mover, s.lowered, s.notes)

section
variable (s : State)

@[simp] theorem State.apart_setSlot (i : Fin 64) (v : Slot) : (s.setSlot i v).apart = s.apart := rfl
@[simp] theorem State.apart_setState (i : Fin 64) (st : LiveState) : (s.setState i st).apart = s.apart := rfl
@[simp] theorem State.apart_setCount (q : Fin 28) (c : Nat) : (s.setCount q c).apart = s.apart := rfl
@[simp] theorem State.apart_setMiss (q : Fin 28) (c : Nat) : (s.setMiss q c).apart = s.apart := rfl
@[simp] theorem State.apart_clearMiss (q : Fin 28) : (s.clearMiss q).apart = s.apart := rfl
@[simp] theorem State.apart_setQueue (q : Fin 28) (l : List (Fin 64)) : (s.setQueue q l).apart = s.apart := rfl
@[simp] theorem State.apart_setLane (n : Fin 12) (l : Lane) : (s.setLane n l).apart = s.apart := rfl
@[simp] theorem State.apart_setLine (n : Fin 4) (l : Line) : (s.setLine n l).apart = s.apart := rfl
@[simp] theorem State.apart_setTimer (n : Fin 4) (t : Timer) : (s.setTimer n t).apart = s.apart := rfl

@[simp] theorem State.apart_eventAt (q : Fin 28) : (s.eventAt q).apart = s.apart := by
  unfold State.eventAt; split <;> simp

@[simp] theorem State.apart_consume (q : Fin 28) : (s.consume q).apart = s.apart := by
  unfold State.consume; split <;> simp

@[simp] theorem State.apart_promoteHead (q : Fin 28) : (s.promoteHead q).apart = s.apart := by
  unfold State.promoteHead; split
  · rfl
  · split <;> simp

@[simp] theorem State.apart_removeHead (q : Fin 28) (st : LiveState) : (s.removeHead q st).apart = s.apart := by
  unfold State.removeHead; split <;> simp

@[simp] theorem State.apart_moveHeadToTail (q : Fin 28) : (s.moveHeadToTail q).apart = s.apart := by
  unfold State.moveHeadToTail; split <;> simp

@[simp] theorem State.apart_removeMember (q : Fin 28) (i : Fin 64) : (s.removeMember q i).apart = s.apart := by
  simp [State.removeMember]

@[simp] theorem State.apart_takeOut (i : Fin 64) : (s.takeOut i).apart = s.apart := by
  unfold State.takeOut; split
  · rfl
  · split <;> simp

@[simp] theorem State.apart_fireEndAction (i : Fin 64) : (s.fireEndAction i).apart = s.apart := by
  unfold State.fireEndAction; split
  · split <;> simp
  · rfl

@[simp] theorem State.apart_recirculate (i : Fin 64) : (s.recirculate i).apart = s.apart := by
  unfold State.recirculate; split <;> simp

@[simp] theorem State.apart_requeue (r : EndRecord) : (s.requeue r).apart = s.apart := by
  unfold State.requeue; split <;> simp

@[simp] theorem State.apart_placed (r : Record) : (s.placed r).apart = s.apart := by
  cases r <;> simp [State.placed]

end

section
variable {s t : State} (h : s.apart = t.apart)
include h

theorem State.apart.burst : s.sched.burst = t.sched.burst := congrArg Prod.fst h
theorem State.apart.stack : s.sched.stack = t.sched.stack := congrArg (·.2.1) h
theorem State.apart.freeze : s.sched.freeze = t.sched.freeze := congrArg (·.2.2.1) h
theorem State.apart.access : s.sched.access = t.sched.access := congrArg (·.2.2.2.1) h
theorem State.apart.mover : s.mover = t.mover := congrArg (·.2.2.2.2.1) h
theorem State.apart.lowered : s.lowered = t.lowered := congrArg (·.2.2.2.2.2.1) h
theorem State.apart.notes : s.notes = t.notes := congrArg (·.2.2.2.2.2.2) h

end

/-! ## End and fault processing -/

/-- The parts that the making of a record leaves alone: all of `State.apart` but the burst and the notice list. -/
def State.aloof (s : State) := (s.sched.stack, s.sched.freeze, s.sched.access, s.mover, s.lowered)

theorem State.apart.aloof {s t : State} (h : s.apart = t.apart) : s.aloof = t.aloof := by
  simp only [State.aloof, State.apart.stack h, State.apart.freeze h, State.apart.access h, State.apart.mover h,
    State.apart.lowered h]

section
variable {s t : State} (h : s.aloof = t.aloof)
include h

theorem State.aloof.stack : s.sched.stack = t.sched.stack := congrArg Prod.fst h
theorem State.aloof.freeze : s.sched.freeze = t.sched.freeze := congrArg (·.2.1) h
theorem State.aloof.access : s.sched.access = t.sched.access := congrArg (·.2.2.1) h
theorem State.aloof.mover : s.mover = t.mover := congrArg (·.2.2.2.1) h
theorem State.aloof.lowered : s.lowered = t.lowered := congrArg (·.2.2.2.2) h

end

/-- End processing leaves the stack, the freeze state, the link access and the mover alone. -/
@[simp] theorem State.aloof_endProcessing (s : State) (i : Fin 64) : (s.endProcessing i).aloof = s.aloof := by
  unfold State.endProcessing
  split
  · rfl
  · dsimp only
    split
    · exact (State.apart.aloof (State.apart_placed _ _)).trans rfl
    · rfl

@[simp] theorem State.aloof_faultProcessing (s : State) (i : Fin 64) (f : FaultKind) :
    (s.faultProcessing i f).aloof = s.aloof := by
  unfold State.faultProcessing
  split
  · rfl
  · dsimp only; split <;> rfl

/-- End processing clears the burst in hand (R72). -/
@[simp] theorem State.endProcessing_burst (s : State) (i : Fin 64) : (s.endProcessing i).sched.burst = none := by
  unfold State.endProcessing
  split
  · rfl
  · dsimp only
    split
    · exact (State.apart.burst (State.apart_placed _ _)).trans rfl
    · rfl

@[simp] theorem State.faultProcessing_burst (s : State) (i : Fin 64) (f : FaultKind) :
    (s.faultProcessing i f).sched.burst = none := by
  unfold State.faultProcessing
  split
  · rfl
  · dsimp only; split <;> rfl

/-- What becomes of the notices when a record is made: it is placed where there is room, and else it waits (R125). -/
def NoticeList.offer (l : NoticeList) (r : Record) : NoticeList :=
  if l.list.length < noticePlaces && l.waiting.isEmpty then
    { l with list := l.list ++ [{ number := l.next, body := .report r, queued := true }]
             txQueue := l.txQueue ++ [l.next]
             next := l.next + 1 }
  else { l with waiting := l.waiting ++ [r] }

/-- End processing of a slot offers its END record. -/
theorem State.endProcessing_notes (s : State) (i : Fin 64) :
    (s.endProcessing i).notes = s.notes ∨ ∃ r, (s.endProcessing i).notes = s.notes.offer r := by
  unfold State.endProcessing
  split
  · exact .inl rfl
  next st d p slot =>
    refine .inr ⟨.ended (s.endRecord i d p), ?_⟩
    dsimp only
    split
    next room => exact (State.apart.notes (State.apart_placed _ _)).trans (if_pos room).symm
    next full => exact (if_neg full).symm

/-- Fault processing of a slot offers its FAULT record. -/
theorem State.faultProcessing_notes (s : State) (i : Fin 64) (f : FaultKind) :
    (s.faultProcessing i f).notes = s.notes ∨ ∃ r, (s.faultProcessing i f).notes = s.notes.offer r := by
  unfold State.faultProcessing
  split
  · exact .inl rfl
  next st d p slot =>
    refine .inr ⟨.faulted (s.faultRecord i d p f), ?_⟩
    dsimp only
    split
    next room => exact (if_pos room).symm
    next full => exact (if_neg full).symm

/-! ## Commits -/

/-- A commit leaves all but the burst of `State.apart` alone. -/
@[simp] theorem State.commitProgress_apart (s : State) (i : Fin 64) (d : Descriptor) (p : Progress) (b : Burst) :
    (s.commitProgress i d p b).apart = (s.setBurst (some { b with moved := b.moved + 1 })).apart := by
  unfold State.commitProgress
  dsimp only
  split
  · exact (State.apart_consume _ _).trans rfl
  · rfl

theorem State.commitProgress_burst (s : State) (i : Fin 64) (d : Descriptor) (p : Progress) (b : Burst) :
    (s.commitProgress i d p b).sched.burst = some { b with moved := b.moved + 1 } :=
  State.apart.burst (s.commitProgress_apart i d p b)

@[simp] theorem State.aloof_commitProgress (s : State) (i : Fin 64) (d : Descriptor) (p : Progress) (b : Burst) :
    (s.commitProgress i d p b).aloof = s.aloof := by
  have kept := State.apart.aloof (s.commitProgress_apart i d p b)
  exact kept

/-! ## The end of a unit -/

/-- A unit that moves its data touches lanes, memory and the result of a PEEK, and nothing else. -/
theorem State.performUnit_frame {s v : State} {u : UnitInProgress} (moved : s.performUnit u = .moved v) :
    ∃ lanes mem access, v = { s with lanes := lanes, mem := mem, sched := { s.sched with access := access } } := by
  have read : ∀ {a n} {move : List Byte → State}, s.readUnit a n move = .moved v → ∃ bytes, v = move bytes := by
    intro a n move h
    unfold State.readUnit at h
    split_ifs at h
    dsimp only at h
    split at h <;> cases h
    exact ⟨_, rfl⟩
  have write : ∀ {a bytes w}, s.writeUnit a bytes = .moved w → ∃ m, w = s.setMem m := by
    intro a bytes w h
    unfold State.writeUnit at h
    split_ifs at h
    cases h
    exact ⟨_, rfl⟩
  unfold State.performUnit at moved
  split at moved
  · split at moved
    next w wrote =>
      cases moved
      obtain ⟨m, rfl⟩ := write wrote
      exact ⟨_, m, s.sched.access, rfl⟩
    next other => exact absurd moved (other v)
  · obtain ⟨bytes, rfl⟩ := read moved
    exact ⟨_, s.mem, s.sched.access, rfl⟩
  · split_ifs at moved
    obtain ⟨bytes, rfl⟩ := read moved
    exact ⟨s.lanes, _, s.sched.access, rfl⟩
  · cases moved
    exact ⟨_, s.mem, s.sched.access, rfl⟩
  · obtain ⟨bytes, rfl⟩ := read moved
    unfold State.peekResult
    split
    · split
      · exact ⟨s.lanes, s.mem, _, rfl⟩
      · exact ⟨s.lanes, s.mem, s.sched.access, rfl⟩
    · exact ⟨s.lanes, s.mem, s.sched.access, rfl⟩
  · obtain ⟨m, rfl⟩ := write moved
    exact ⟨s.lanes, m, s.sched.access, rfl⟩

/-- The mover after the end of a unit, and the mark of a lowered request: the request is lowered where the grant was
withdrawn (R97). -/
theorem State.unitOver_eq (s : State) :
    s.unitOver = s.setMover { s.mover with unit := none } ∨
      s.mover.state = .yielding ∧ s.unitOver = s.setMover { s.mover with unit := none, request := false, timer := none } := by
  unfold State.unitOver
  dsimp only
  split_ifs with yielding
  · refine .inr ⟨yielding, ?_⟩
    have unmarked : (s.lowered || decide (s.mover.state = .asking)) = s.lowered := by
      have : s.mover.state = .yielding := yielding
      simp [this]
    unfold State.lowerRequest
    exact congrArg (fun l => { s with mover := { s.mover with unit := none, request := false, timer := none }, lowered := l })
      unmarked
  · exact .inl rfl

/-- The end of a unit touches the mover alone. -/
theorem State.unitOver_frame (s : State) : ∃ m, s.unitOver = s.setMover m := by
  rcases s.unitOver_eq with e | ⟨-, e⟩
  · exact ⟨_, e⟩
  · exact ⟨_, e⟩

/-- What a unit that moves its data leaves as it was. -/
theorem Moves.frame {s w : State} (moves : Moves s w) :
    ∃ lanes mem access mover,
      w = { s with lanes := lanes, mem := mem, sched := { s.sched with access := access }, mover := mover } := by
  cases moves with
  | intro u v _ _ moved =>
    obtain ⟨lanes, mem, access, rfl⟩ := State.performUnit_frame moved
    obtain ⟨m, e⟩ := State.unitOver_frame { s with lanes := lanes, mem := mem, sched := { s.sched with access := access } }
    exact ⟨lanes, mem, access, m, e⟩

/-- What the end of a unit, or of the wait for the grant, leaves as it was. -/
theorem Stops.frame {s w : State} (stops : Stops s w) :
    ∃ lanes mem access mover lowered,
      w = { s with lanes := lanes, mem := mem, sched := { s.sched with access := access }, mover := mover,
                   lowered := lowered } := by
  cases stops with
  | moved moves =>
    obtain ⟨lanes, mem, access, mover, e⟩ := moves.frame
    exact ⟨lanes, mem, access, mover, s.lowered, e⟩
  | failed u a =>
    obtain ⟨m, e⟩ := s.unitOver_frame
    exact ⟨s.lanes, s.mem, s.sched.access, m, s.lowered, e⟩
  | timeout => exact ⟨s.lanes, s.mem, s.sched.access, _, _, rfl⟩

end Sys2Proof.Machine
end

