-- ==== Sys2Proof/Proofs/Boundaries.lean ====
section
/-! The end of a unit, of the wait for the grant, and of the grant itself, as chains of acts. -/

namespace Sys2Proof.Machine

/-! ## After the end of a burst -/

/-- A burst has ended: a FREEZE takes hold, or a selection follows (R65, R80). -/
theorem State.afterEnd_acts {s : State} (burst : s.sched.burst = none) (cut : Option (Fin 64)) :
    Acts ⟨.plain, .choosing, s⟩ ⟨.plain, .rest, s.afterEnd cut⟩ := by
  unfold State.afterEnd
  split
  next freezing => exact .one (.freezes freezing burst)
  · exact s.select_acts
  · exact s.select_acts

theorem State.endCurrent_burst (s : State) (i : Fin 64) : (s.endCurrent i).sched.burst = none := rfl

theorem State.takeOut_burst (s : State) (i : Fin 64) : (s.takeOut i).sched.burst = s.sched.burst :=
  State.apart.burst (s.apart_takeOut i)

theorem State.answerEnded_burst (s : State) (i : Fin 64) (k : Nat) : (s.answerEnded i k).sched.burst = s.sched.burst := by
  unfold State.answerEnded
  split <;> simp

theorem State.cancelFaulted_burst (s : State) (i : Fin 64) : (s.cancelFaulted i).sched.burst = s.sched.burst := by
  unfold State.cancelFaulted
  split
  · simp [State.takeOut_burst]
  · rfl

/-! ## The boundary sequence -/

/-- The burst goes on after a commit: it is preempted, or its next unit is begun or asked for (R69 steps 6 and 7). -/
theorem State.continueBurst_acts {s : State} {b : Burst} (burst : s.sched.burst = some b) (unit : s.mover.unit = none) :
    Acts ⟨.plain, .committed, s⟩ ⟨.plain, .rest, s.continueBurst b⟩ := by
  unfold State.continueBurst
  split
  next c preemptor =>
    exact (State.preempt_acts burst unit preemptor .committed).trans (State.select_acts _)
  next quiet =>
    have asks (yielding : s.mover.state = .yielding) : Acts ⟨.plain, .committed, s⟩ ⟨.plain, .rest, s.ask⟩ := by
      refine (Acts.one (.asksAgain yielding)).trans (Acts.one (.stay ?_))
      have kept : s.ask.sched = s.sched := by unfold State.ask; split <;> rfl
      simp [kept, burst]
    split_ifs with yielding
    · split
      · exact asks yielding
      next i owner =>
        split
        next d p slot =>
          split_ifs with can
          · exact asks yielding
          · exact (Acts.one (.endsCurrent burst owner slot)).trans (State.select_acts _)
        next other =>
          refine (Acts.one (.losesOwner burst ?_)).trans (State.select_acts _)
          simp only [State.ownerless, owner]
          exact other
    · exact ((Acts.one (.goesOn yielding)).trans s.beginNext_acts).trans (State.select_acts _)

theorem Moves.unit {s w : State} (moves : Moves s w) : w.mover.unit = none := by
  cases moves with
  | intro u v =>
    rcases v.unitOver_eq with e | ⟨-, e⟩ <;> rw [e] <;> rfl

theorem State.commitProgress_still (s : State) (i : Fin 64) (d : Descriptor) (p : Progress) (b : Burst) :
    (s.commitProgress i d p b).still = s.still := State.still_commitProgress s i d p b

theorem State.cancelWaits_still {s t : State} (same : s.still = t.still) (i : Fin 64) :
    s.cancelWaits i = t.cancelWaits i := by
  simp only [State.cancelWaits, State.still.inHand same]

/-- Steps 2 to 7 of the boundary sequence (R69). -/
theorem State.afterCommit_acts {s w : State} {b : Burst} {i : Fin 64} {d : Descriptor} {p : Progress}
    (moves : Moves s w) (burst : w.sched.burst = some b) (owner : b.owner = .slot i)
    (slot : w.slot i = .live .active d p) :
    Acts ⟨.plain, .rest, s⟩
      ⟨.plain, .rest, (w.commitProgress i d p b).afterCommit i { b with moved := b.moved + 1 }⟩ := by
  have waits := State.cancelWaits_still (w.commitProgress_still i d p b) i
  have committed := w.commitProgress_slot i d p b
  have burst' := w.commitProgress_burst i d p b
  unfold State.afterCommit
  rw [committed]
  dsimp only
  split_ifs with last cancel full freezing
  · exact (Acts.one (.finishes moves burst owner slot last)).trans
      (State.afterEnd_acts (by rw [State.answerEnded_burst, State.endProcessing_burst]) none)
  · refine (Acts.one (.cancels moves burst owner slot last (waits ▸ cancel))).trans (State.afterEnd_acts ?_ none)
    rw [State.produceAnswer_sched, State.takeOut_burst]
    rfl
  all_goals
    have noCancel : w.cancelWaits i = false := by rw [← waits]; simpa using cancel
    have commit : Acts ⟨.plain, .rest, s⟩ ⟨.plain, .committed, w.commitProgress i d p b⟩ :=
      .one (.commits moves burst owner slot last noCancel)
    refine commit.trans ?_
  · exact (Acts.one (.endsCurrent burst' owner committed)).trans (State.afterEnd_acts rfl none)
  · exact (Acts.one (.endsCurrent burst' owner committed)).trans (State.afterEnd_acts rfl (some i))
  · refine State.continueBurst_acts burst' ?_
    rw [State.aloof.mover (w.aloof_commitProgress i d p b), moves.unit]

/-- The link access ends with its answer (R106). -/
theorem State.endLink_acts {s w : State} {b : Burst} {a : LinkAccess} (stops : Stops s w)
    (burst : w.sched.burst = some b) (owner : b.owner = .link) (access : w.sched.access = some a) (payload : List Byte) :
    Acts ⟨.plain, .rest, s⟩ ⟨.plain, .rest, w.endLink payload⟩ :=
  (Acts.one (.linkEnds stops burst owner access)).trans (State.select_acts _)

theorem State.stopsOwnerless_acts {s w : State} {b : Burst} (stops : Stops s w) (burst : w.sched.burst = some b)
    (lost : w.ownerless b) : Acts ⟨.plain, .rest, s⟩ ⟨.plain, .rest, w.clearBurst.select⟩ :=
  (Acts.one (.stopsOwnerless stops burst lost)).trans (State.select_acts _)

theorem State.stopsIdle_acts {s w : State} (stops : Stops s w) (burst : w.sched.burst = none) :
    Acts ⟨.plain, .rest, s⟩ ⟨.plain, .rest, w.select⟩ :=
  (Acts.one (.stopsIdle stops burst)).trans (State.select_acts _)

/-- The boundary of a unit that moved its data (R69). -/
theorem State.boundaryMoved_acts {s w : State} (moves : Moves s w) :
    Acts ⟨.plain, .rest, s⟩ ⟨.plain, .rest, w.boundaryMoved⟩ := by
  unfold State.boundaryMoved
  split
  next burst => exact State.stopsIdle_acts (.moved moves) burst
  next b burst =>
    split
    next i owner =>
      split
      next d p slot => exact State.afterCommit_acts moves burst owner slot
      next other =>
        refine State.stopsOwnerless_acts (.moved moves) burst ?_
        simp only [State.ownerless, owner]
        exact other
    next owner =>
      split
      next none => exact State.stopsOwnerless_acts (.moved moves) burst (by simp only [State.ownerless, owner, none])
      next a access =>
        dsimp only
        split_ifs with last
        · exact State.endLink_acts (.moved moves) burst owner access _
        · exact (Acts.one (.linkMoves moves burst owner access (by omega))).trans
            (State.continueBurst_acts rfl moves.unit)

/-- The boundary of a unit that failed its parity check (R89). -/
theorem State.boundaryFailed_acts {s : State} {u : UnitInProgress} {a : Addr} (high : s.resetLow = false)
    (unit : s.mover.unit = some u) (failed : s.performUnit u = .failed a) :
    Acts ⟨.plain, .rest, s⟩ ⟨.plain, .rest, s.unitOver.boundaryFailed a⟩ := by
  have stops : Stops s s.unitOver := .failed u a high unit failed
  have sched : s.unitOver.sched = s.sched := by
    obtain ⟨m, e⟩ := s.unitOver_frame
    rw [e, State.setMover_sched]
  unfold State.boundaryFailed
  split
  next burst => exact State.stopsIdle_acts stops burst
  next b burst =>
    split
    next i owner =>
      refine (Acts.one (.fails high unit failed (sched ▸ burst) owner)).trans (State.afterEnd_acts ?_ none)
      rw [State.cancelFaulted_burst, State.faultProcessing_burst]
    next owner =>
      split
      next none => exact State.stopsOwnerless_acts stops burst (by simp only [State.ownerless, owner, none])
      next access => exact State.endLink_acts stops burst owner access _

theorem execUnitBoundary_acts {s t : State} (next : execUnitBoundary s = .next t) :
    Acts ⟨.plain, .rest, s⟩ ⟨.plain, .rest, t⟩ := by
  unfold execUnitBoundary at next
  split at next
  next u high unit =>
    split at next
    next v moved => cases next; exact State.boundaryMoved_acts (.intro u v high unit moved)
    next a failed => cases next; exact State.boundaryFailed_acts high unit failed
    next => cases next
  · cases next; exact .refl

/-! ## The grant -/

/-- The wait for the grant ends (R99). -/
theorem State.grantTimeout_acts {s : State} (high : s.resetLow = false) (asking : s.mover.state = .asking) :
    Acts ⟨.plain, .rest, s⟩ ⟨.plain, .rest, s.grantTimeout⟩ := by
  have stops : Stops s s.lowerRequest := .timeout high asking
  unfold State.grantTimeout
  dsimp only
  split
  next burst => exact State.stopsIdle_acts stops burst
  next b burst =>
    split
    next i owner => exact (Acts.one (.timesOut high asking burst owner)).trans (State.select_acts _)
    next owner =>
      split
      next none => exact State.stopsOwnerless_acts stops burst (by simp only [State.ownerless, owner, none])
      next access => exact State.endLink_acts stops burst owner access _

theorem State.grantWaitOver_acts {s : State} (high : s.resetLow = false) :
    Acts ⟨.plain, .rest, s⟩ ⟨.plain, .rest, s.grantWaitOver⟩ := by
  unfold State.grantWaitOver
  split_ifs with asking
  · exact State.grantTimeout_acts high asking
  · exact .refl

/-- The grant serves the burst in hand (R93). -/
theorem State.serveGrant_acts {s : State} {lowered : Bool} {count : Nat} (high : s.resetLow = false)
    (asking : s.mover.state = .asking) :
    Acts ⟨.plain, .rest, s⟩
      ⟨.plain, .rest, State.serveGrant { s with grant := true, lowered := lowered, freeCount := count }⟩ := by
  have serves : Acts ⟨.plain, .rest, s⟩ ⟨.plain, .beginning, _⟩ :=
    .one (.servesGrant (lowered := lowered) (count := count) high asking)
  exact (serves.trans (State.beginNext_acts _)).trans (State.select_acts _)

theorem execGrantAsserted_acts {s t : State} (next : execGrantAsserted s = .next t) :
    Acts ⟨.plain, .rest, s⟩ ⟨.plain, .rest, t⟩ := by
  cases next
  unfold State.running
  split_ifs with low
  · exact .one (.seesGrant (by simp_all))
  · unfold State.grantSeen
    dsimp only
    split_ifs with asking lowered stale
    · exact .one (.awaitsGrantEnd asking)
    · exact State.serveGrant_acts (by simpa using low) asking
    · exact State.serveGrant_acts (lowered := s.lowered) (count := s.freeCount) (by simpa using low) asking
    · exact .one (.seesGrant fun _ => asking)

theorem execGrantDeasserted_acts {s t : State} (next : execGrantDeasserted s = .next t) :
    Acts ⟨.plain, .rest, s⟩ ⟨.plain, .rest, t⟩ := by
  cases next
  unfold State.running
  split_ifs with low
  · exact .one (.losesGrantLow low)
  · exact .one (.losesGrant (by simpa using low))

end Sys2Proof.Machine
end

