-- ==== Sys2Proof/Proofs/StepActs.lean ====
section
/-! The orders, the notices' drain, the link port, the lanes' pins and the clock as chains of acts, and with them every
step (`step_acts`). -/

namespace Sys2Proof.Machine

/-! ## The drain of ACKNOWLEDGE -/

/-- Places taken in the notice list. -/
def State.placed? (s : State) : Nat := s.notes.list.length

theorem NoticeList.offer_length (l : NoticeList) (r : Record) : l.list.length ≤ (l.offer r).list.length := by
  unfold NoticeList.offer
  split <;> simp

theorem State.placed?_endProcessing (s : State) (i : Fin 64) : s.placed? ≤ (s.endProcessing i).placed? := by
  unfold State.placed?
  rcases s.endProcessing_notes i with e | ⟨r, e⟩ <;> rw [e]
  exact NoticeList.offer_length _ r

theorem State.placed?_faultProcessing (s : State) (i : Fin 64) (f : FaultKind) :
    s.placed? ≤ (s.faultProcessing i f).placed? := by
  unfold State.placed?
  rcases s.faultProcessing_notes i f with e | ⟨r, e⟩ <;> rw [e]
  exact NoticeList.offer_length _ r

theorem State.placed?_commitProgress (s : State) (i : Fin 64) (d : Descriptor) (p : Progress) (b : Burst) :
    (s.commitProgress i d p b).placed? = s.placed? := by
  unfold State.placed?
  rw [State.apart.notes (s.commitProgress_apart i d p b)]
  rfl

theorem State.placed?_beginNext (s : State) : s.placed? ≤ s.beginNext.placed? := by
  have tally : ∀ (t : State) i d p b, t.placed? ≤ (t.tallyUnit i d p b).placed? := by
    intro t i d p b
    unfold State.tallyUnit
    dsimp only
    rw [← t.placed?_commitProgress i d p b]
    split
    · exact State.placed?_endProcessing _ i
    · exact le_rfl
  unfold State.beginNext
  repeat' split
  all_goals first | exact le_rfl | exact tally (s.goes .moving) _ _ _ _

theorem State.placed?_takeUp (s : State) : s.placed? ≤ s.takeUp.placed? := by
  unfold State.takeUp
  repeat' split
  · exact le_rfl
  · exact le_rfl
  · exact s.placed?_beginNext
  · unfold State.ask; split <;> exact le_rfl
  · exact State.placed?_beginNext (s.lowerRequest.goes .moving)

theorem State.placed?_cutAbove (s : State) (level : Nat) (stack : List StackEntry) :
    (s.cutAbove level stack).placed? = s.placed? := by
  induction stack generalizing s with
  | nil => rfl
  | cons e rest ih =>
    unfold State.cutAbove
    split
    · rfl
    · split
      · exact ih _
      · exact ih s

theorem State.placed?_perform (s : State) (c : Choice) : s.placed? ≤ (s.perform c).placed? := by
  cases c with
  | link =>
    change s.placed? ≤ s.startLink.placed?
    unfold State.startLink
    split
    · exact le_rfl
    · refine le_trans (le_of_eq ?_) (State.placed?_takeUp _)
      split
      · exact (s.placed?_cutAbove _ _).symm
      · rfl
  | source i =>
    change s.placed? ≤ (s.startBurst i).placed?
    unfold State.startBurst
    split
    · exact le_rfl
    · dsimp only
      split
      · refine le_trans ?_ (State.placed?_faultProcessing _ i _)
        exact le_rfl
      · refine le_trans ?_ (State.placed?_takeUp _)
        exact le_rfl
  | resume =>
    change s.placed? ≤ s.resume.placed?
    unfold State.resume
    split
    · exact le_rfl
    · refine le_trans (le_of_eq ?_) (State.placed?_takeUp _)
      split <;> rfl

/-- The reaction of the scheduler takes no notice out of the list. -/
theorem State.placed?_react (s : State) : s.placed? ≤ s.react.placed? := by
  have selects : ∀ t : State, s.placed? ≤ t.placed? → s.placed? ≤ t.select.placed? := by
    intro t h
    exact selection_induction (fun u => s.placed? ≤ u.placed?) (fun u c _ _ h => h.trans (u.placed?_perform c))
      (fun u _ h => h) _ t h
  have pushes : ∀ b, (s.push b).placed? = s.placed? := by
    intro b
    unfold State.push
    dsimp only
    split <;> rfl
  unfold State.react
  split
  · exact selects s le_rfl
  next b _ =>
    split
    · exact le_rfl
    · split
      next c _ => exact selects _ ((pushes b).symm.le.trans (State.placed?_perform _ c))
      · exact le_rfl

theorem State.fireEndAction_acts {m : Mode} (s : State) (i : Fin 64) :
    Acts ⟨m, .rest, s⟩ ⟨m, .rest, s.fireEndAction i⟩ := by
  unfold State.fireEndAction
  split
  · split
    · exact .one .event
    · exact .refl
  · exact .refl

/-- A free value is drawn. -/
theorem State.draw_acts {m : Mode} (s : State) :
    Acts ⟨m, .rest, s⟩ ⟨m, .rest, { s with freeCount := s.freeCount + 1 }⟩ :=
  .one (.aside (pending := s.pending) (phase := s.timePhase) (count := s.freeCount + 1) (lowered := s.lowered))

theorem State.firingReaction_acts {m : Mode} {s : State} (high : s.resetLow = false) :
    Acts ⟨m, .rest, s⟩ ⟨m, .rest, s.firingReaction⟩ := by
  unfold State.firingReaction
  dsimp only
  split
  · exact s.draw_acts.trans (State.react_acts high)
  · exact s.draw_acts

theorem State.drainReaction_acts {m : Mode} {s : State} (high : s.resetLow = false) :
    Acts ⟨m, .rest, s⟩ ⟨m, .rest, s.drainReaction⟩ := by
  unfold State.drainReaction
  dsimp only
  split
  · split
    · exact s.draw_acts.trans (State.react_acts high)
    · exact s.draw_acts
  · exact .refl

theorem State.react_resetLow (s : State) : s.react.resetLow = s.resetLow := State.still.resetLow s.still_react

theorem State.firingReaction_resetLow (s : State) : s.firingReaction.resetLow = s.resetLow := by
  unfold State.firingReaction
  dsimp only
  split
  · exact State.react_resetLow _
  · rfl

theorem State.drainReaction_resetLow (s : State) : s.drainReaction.resetLow = s.resetLow := by
  unfold State.drainReaction
  dsimp only
  split
  · split
    · exact State.react_resetLow _
    · rfl
  · rfl

theorem State.firingReaction_notes (s : State) : s.firingReaction.notes = s.notes := by
  unfold State.firingReaction
  dsimp only
  split
  next h =>
    simp only [Bool.and_eq_true, beq_iff_eq] at h
    exact h.2
  · rfl

theorem State.placed?_drainReaction (s : State) : s.placed? ≤ s.drainReaction.placed? := by
  unfold State.drainReaction
  dsimp only
  split
  · split
    · refine le_trans ?_ (State.placed?_react _)
      exact le_rfl
    · exact le_rfl
  · exact le_rfl

/-- One placement of the drain with its consequences (R145). -/
def State.drainStep (s : State) (r : Record) (rest : List Record) : State :=
  (((s.setNotes { s.notes with waiting := rest }).place (.report r)).drained r).drainReaction

theorem State.requeue_resetLow (s : State) (e : EndRecord) : (s.requeue e).resetLow = s.resetLow :=
  State.still.resetLow (s.still_requeue e)

theorem State.drainStep_resetLow (s : State) (r : Record) (rest : List Record) :
    (s.drainStep r rest).resetLow = s.resetLow := by
  refine (State.drainReaction_resetLow _).trans ?_
  cases r with
  | ended e =>
    have fired := State.still.resetLow (State.still_fireEndAction (State.firingReaction
      (((s.setNotes { s.notes with waiting := rest }).place (.report (.ended e))).requeue e)) e.slot)
    exact fired.trans ((State.firingReaction_resetLow _).trans (State.requeue_resetLow _ e))
  | faulted f => rfl

theorem State.drainStep_acts {s : State} {r : Record} {rest : List Record} (high : s.resetLow = false)
    (room : s.notes.list.length < noticePlaces) (waiting : s.notes.waiting = r :: rest) :
    Acts ⟨.drain, .rest, s⟩ ⟨.drain, .rest, s.drainStep r rest⟩ := by
  have place : Acts ⟨.drain, .rest, s⟩ ⟨.drain, .rest, s.drainPlace r rest⟩ := .one (.drains room waiting)
  refine place.trans ?_
  cases r with
  | ended e =>
    have placed : (s.drainPlace (.ended e) rest).resetLow = false := (State.requeue_resetLow _ e).trans high
    have fired := State.still.resetLow (State.still_fireEndAction (s.drainPlace (.ended e) rest).firingReaction e.slot)
    exact ((State.firingReaction_acts placed).trans (State.fireEndAction_acts _ e.slot)).trans
      (State.drainReaction_acts (fired.trans ((State.firingReaction_resetLow _).trans placed)))
  | faulted f => exact State.drainReaction_acts high

theorem State.placed?_drainStep (s : State) (r : Record) (rest : List Record) :
    s.placed? + 1 ≤ (s.drainStep r rest).placed? := by
  have placed : ∀ body, ((s.setNotes { s.notes with waiting := rest }).place body).placed? = s.placed? + 1 := by
    intro body
    simp [State.placed?, State.place]
  refine le_trans ?_ (State.placed?_drainReaction _)
  rw [← placed (.report r)]
  cases r with
  | ended e =>
    refine le_of_eq ?_
    unfold State.placed? State.drained
    rw [State.apart.notes (State.apart_fireEndAction _ _), State.firingReaction_notes,
      State.apart.notes (State.apart_requeue _ e)]
  | faulted f => exact le_rfl

/-- The drain is a chain of acts, and its fuel of 32 lasts till the list is full or nothing waits. -/
theorem drain_acts (fuel : Nat) {s : State} (high : s.resetLow = false) (k : Nat) :
    Acts ⟨.drain, .rest, s⟩ ⟨.drain, .rest, (drain fuel s k).1⟩ ∧ (drain fuel s k).1.resetLow = false ∧
      (noticePlaces ≤ s.placed? + fuel →
        noticePlaces ≤ (drain fuel s k).1.notes.list.length ∨ (drain fuel s k).1.notes.waiting = []) := by
  induction fuel generalizing s k with
  | zero => exact ⟨.refl, high, .inl⟩
  | succ fuel ih =>
    unfold drain
    split
    next room =>
      split
      next none => exact ⟨.refl, high, fun _ => .inr none⟩
      next r rest waiting =>
        obtain ⟨chain, high', ends⟩ := ih ((s.drainStep_resetLow r rest).trans high) (k + 1)
        refine ⟨(State.drainStep_acts high room waiting).trans chain, high', fun enough => ends ?_⟩
        have grows := s.placed?_drainStep r rest
        omega
    next full => exact ⟨.refl, high, fun _ => .inl (Nat.le_of_not_lt full)⟩

/-! ## The orders -/

/-- What the carrying out of an order does is a chain of acts: up to its answer, or up to its hold. -/
def OrderEnd.acts (s : State) : OrderEnd → Prop
  | .answered _ _ t => Acts ⟨.order, .rest, s⟩ ⟨.order, .rest, t⟩
  | .held t => Acts ⟨.order, .rest, s⟩ ⟨.plain, .rest, t⟩

theorem refusal_acts (outcome : OutcomeCode) (s : State) : (refusal outcome s).acts s := Relation.ReflTransGen.refl

theorem withField_acts {α : Type} {value : Option α} {s : State} {go : α → OrderEnd}
    (acts : ∀ x, value = some x → (go x).acts s) : (withField value s go).acts s := by
  unfold withField
  split
  · exact acts _ rfl
  · exact refusal_acts _ s

theorem withSlot_acts {operands : List Byte} {s : State} {go : Fin 64 → OrderEnd} (acts : ∀ i, (go i).acts s) :
    (withSlot operands s go).acts s := by
  unfold withSlot
  split
  · exact acts _
  · exact refusal_acts _ s

/-- A reaction after acts that leave RESET# as it is. -/
theorem Acts.react {m : Mode} {p : Point} {s t : State} (chain : Acts p ⟨m, .rest, t⟩) (same : t.resetLow = s.resetLow)
    (high : s.resetLow = false) : Acts p ⟨m, .rest, t.react⟩ :=
  Relation.ReflTransGen.trans chain (State.react_acts (same.trans high))

theorem OrderEnd.finish_acts {e : OrderEnd} {s : State} (code : Byte) (acts : e.acts s) :
    Acts ⟨.order, .rest, s⟩ ⟨.plain, .rest, e.finish code⟩ := by
  cases e with
  | answered outcome data t => exact Relation.ReflTransGen.trans acts (Acts.one .answers)
  | held t => exact acts

theorem runOrder_acts {code : Byte} {body : List Byte → State → OrderEnd}
    (acts : ∀ operands s, s.resetLow = false → lengthFits code operands.length = some true → (body operands s).acts s)
    (s : State) :
    Acts ⟨.plain, .rest, s⟩ ⟨.plain, .rest, runOrder code body s⟩ := by
  unfold runOrder
  split
  next n c operands turn =>
    split
    next same =>
      have takes : Acts ⟨.plain, .rest, s⟩ ⟨.order, .rest, s.carryOut n (c :: operands)⟩ := .one (.takes turn)
      have high : s.resetLow = false := ((s.orderInTurn_iff n (c :: operands)).mp turn).1
      dsimp only
      split
      next fits => exact takes.trans (OrderEnd.finish_acts code (acts operands _ high fits))
      next => exact takes.trans (OrderEnd.finish_acts code (refusal_acts _ _))
    next => exact .refl
  next => exact .refl
  next => exact .refl

theorem State.inState_iff {s : State} {i : Fin 64} {st : LiveState} :
    s.inState i st = true ↔ ∃ d p, s.slot i = .live st d p := by
  unfold State.inState
  cases s.slot i <;> simp [Slot.state]

section
variable (operands : List Byte) (s : State)

theorem orderDefine_acts : (orderDefine operands s).acts s := by
  refine withSlot_acts fun i => ?_
  split_ifs with state waits
  · exact refusal_acts _ s
  · exact refusal_acts _ s
  · refine withField_acts fun d record => ?_
    split_ifs with aligned inside
    · exact refusal_acts _ s
    · exact refusal_acts _ s
    · exact .one (.define (by simpa using state) (by simpa using waits) record (by simpa using aligned)
        (by simpa using inside))

theorem withRestingSlot_acts {go : Fin 64 → Descriptor → OrderEnd}
    (acts : ∀ i d, (s.slot i).atRest? = some d → s.waitingMark i = false → (go i d).acts s) :
    (withRestingSlot operands s go).acts s := by
  refine withSlot_acts fun i => ?_
  split
  · exact refusal_acts _ s
  next d resting =>
    split_ifs with waits
    · exact refusal_acts _ s
    · exact acts i d resting (by simpa using waits)

theorem rearmOrder_acts : (orderRearm operands s).acts s :=
  withRestingSlot_acts operands s fun _ _ resting waits => .one (.rearm resting waits)

theorem orderRelease_acts : (orderRelease operands s).acts s :=
  withRestingSlot_acts operands s fun _ _ resting waits => .one (.release resting waits)

theorem orderLaneSetup_acts (high : s.resetLow = false) : (orderLaneSetup operands s).acts s := by
  refine withField_acts fun n _ => withField_acts fun enabled _ => withField_acts fun direction _ =>
    withField_acts fun threshold bounds => withField_acts fun flush _ => ?_
  split_ifs with inUse
  · exact refusal_acts _ s
  · obtain ⟨least, most⟩ : 1 ≤ threshold ∧ threshold ≤ 32 := by
      unfold readThreshold at bounds
      split_ifs at bounds with both
      cases bounds
      exact both
    have sets : Acts ⟨.order, .rest, s⟩ ⟨.order, .rest, _⟩ :=
      .one (.laneSetup (enabled := enabled) (direction := direction) (flush := flush) (by simpa using inUse) least most)
    have settles := sets.trans (Acts.one (.exchange (n := n)))
    have same : ∀ l, (s.setLane n l).settleLane n ((s.setLane n l).lane n) = s.settleLane n l := by
      intro l
      rw [State.lane_setLane_self]
      simp [State.settleLane, State.setLane]
    rw [same] at settles
    exact Acts.react settles rfl high

theorem rangedAccess_acts (high : s.resetLow = false) (count : Nat) (kind : AccessKind) (length : kind.length = count) (pos : 1 ≤ count) :
    (rangedAccess s operands count kind).acts s := by
  unfold rangedAccess
  dsimp only
  split_ifs with range
  · have opens : Acts ⟨.order, .rest, s⟩ ⟨.plain, .rest, _⟩ :=
      .one (.opensAccess (s := s) (start := fieldAt operands 0 3) (kind := kind) (length ▸ pos) (length ▸ range))
    exact opens.react rfl high
  · exact refusal_acts _ s

theorem orderPeek_acts (high : s.resetLow = false) : (orderPeek operands s).acts s := by
  refine withField_acts fun count read => rangedAccess_acts operands s high count _ rfl ?_
  unfold readCount at read
  split_ifs at read with bounds
  cases read
  exact bounds.1

theorem orderPoke_acts (high : s.resetLow = false) (fits : lengthFits 0x51 operands.length = some true) : (orderPoke operands s).acts s := by
  refine rangedAccess_acts operands s high _ _ rfl ?_
  have long : 4 ≤ operands.length := by
    have row : orderLengths.lookup 0x51 = some (4, 195) := by decide
    simp only [lengthFits, row, Option.map_some, Option.some.injEq, Bool.and_eq_true, decide_eq_true_eq] at fits
    exact fits.1
  rw [List.length_drop]
  omega

theorem orderAcknowledge_acts (high : s.resetLow = false) : (orderAcknowledge operands s).acts s := by
  refine withField_acts fun k place => ?_
  have inList : k < s.notes.list.length := by
    unfold NoticeList.place? at place
    split at place
    · cases place
    · split_ifs at place with inside
      cases place
      exact inside
  obtain ⟨chain, high', ends⟩ :=
    drain_acts noticePlaces (s := s.setNotes (s.notes.remove (k + 1))) high 0
  have removes : Acts ⟨.order, .rest, s⟩ ⟨.drain, .rest, s.setNotes (s.notes.remove (k + 1))⟩ :=
    .one (.acknowledges inList)
  exact ((removes.trans chain).trans (Acts.one (.drained (ends (by omega))))).trans (State.react_acts high')

theorem orderConfigure_acts : (orderConfigure operands s).acts s := by
  refine withField_acts fun level read => withField_acts fun limit _ => ?_
  unfold readLevel at read
  split_ifs at read with bounds
  cases read
  exact .one (.configure bounds.1 bounds.2)

theorem orderBind_acts (high : s.resetLow = false) : (orderBind operands s).acts s := by
  refine withSlot_acts fun i => withField_acts fun q _ => ?_
  split_ifs with state waits
  · exact refusal_acts _ s
  · exact refusal_acts _ s
  · obtain ⟨d, p, slot⟩ := State.inState_iff.1 (by simpa using state)
    have binds : Acts ⟨.order, .rest, s⟩ ⟨.order, .rest, s.bindSlot i q⟩ := .one (.bind slot (by simpa using waits))
    exact binds.react rfl high

theorem orderUnbind_acts (high : s.resetLow = false) : (orderUnbind operands s).acts s := by
  refine withSlot_acts fun i => ?_
  have leaves : ∀ {st d p}, s.slot i = .live st d p → (st = .bound ∨ st = .current ∨ st = .faulted) →
      Acts ⟨.order, .rest, s⟩ ⟨.order, .rest, (s.takeOut i).react⟩ :=
    fun slot state => (Acts.one (.unbind slot state)).react (State.still.resetLow (s.still_takeOut i)) high
  split
  next slot => exact leaves slot (.inl rfl)
  next slot => exact leaves slot (.inr (.inl rfl))
  next slot => exact leaves slot (.inr (.inr rfl))
  · exact refusal_acts _ s

theorem orderCancel_acts (high : s.resetLow = false) : (orderCancel operands s).acts s := by
  refine withSlot_acts fun i => ?_
  have leaves : ∀ {st d p}, s.slot i = .live st d p → (st = .bound ∨ st = .current ∨ st = .faulted) →
      (cancelled s s i).acts s :=
    fun slot state => (Acts.one (.unbind slot state)).react (State.still.resetLow (s.still_takeOut i)) high
  split
  · exact refusal_acts _ s
  · exact refusal_acts _ s
  · exact refusal_acts _ s
  · exact refusal_acts _ s
  next slot => exact leaves slot (.inl rfl)
  next slot => exact leaves slot (.inr (.inl rfl))
  next slot => exact leaves slot (.inr (.inr rfl))
  next slot => exact (Acts.one (.cancelPreempted slot)).react (State.still.resetLow ((s.unstack i).still_takeOut i)) high
  next slot =>
    split_ifs with unit
    · exact .one (.holdsCancel slot (by simpa [Option.isSome_iff_ne_none] using unit))
    · exact (Acts.one (.cancelActive high slot (by simpa using unit))).trans (State.reaction_acts _)

theorem orderRetry_acts (high : s.resetLow = false) : (orderRetry operands s).acts s := by
  refine withSlot_acts fun i => ?_
  split
  next slot =>
    split_ifs with waits
    · exact refusal_acts _ s
    · exact (Acts.one (.retry slot (by simpa using waits))).react rfl high
  · exact refusal_acts _ s

theorem orderSkip_acts (high : s.resetLow = false) : (orderSkip operands s).acts s := by
  refine withSlot_acts fun i => ?_
  split
  next slot => exact (Acts.one (.skip slot)).react (State.still.resetLow (s.still_removeHead _ _)) high
  · exact refusal_acts _ s

theorem orderFreeze_acts : (orderFreeze operands s).acts s := by
  unfold orderFreeze
  split
  · exact Relation.ReflTransGen.refl
  next freezing => exact .one (.keepsFreeze freezing)
  next running =>
    split
    next i _ _ _ burst =>
      unfold State.freezeBurst
      split_ifs with unit
      · exact .one (.holdsFreeze running)
      · exact .one (.freezeCut running burst rfl (by simpa using unit))
    · exact .one (.freezeNow running)
    · exact .one (.freezeNow running)

theorem orderThaw_acts (high : s.resetLow = false) : (orderThaw operands s).acts s := by
  unfold orderThaw
  split
  next frozen => exact (Acts.one (.thaw frozen)).react rfl high
  · exact Relation.ReflTransGen.refl
  · exact Relation.ReflTransGen.refl

theorem orderTrigger_acts (high : s.resetLow = false) : (orderTrigger operands s).acts s := by
  refine withField_acts fun n _ => ?_
  dsimp only
  split_ifs with below
  · exact (Acts.one (.counted (by omega))).react rfl high
  · exact refusal_acts _ s

theorem orderLineSetup_acts (high : s.resetLow = false) : (orderLineSetup operands s).acts s := by
  refine withField_acts fun n _ => withField_acts fun mode _ => ?_
  have sets : Acts ⟨.order, .rest, s⟩ ⟨.order, .rest, s.setupLine n mode⟩ := by
    unfold State.setupLine
    exact (Acts.one .line).trans (Acts.one (.counted (by omega)))
  exact sets.react rfl high

theorem orderTimerSetup_acts : (orderTimerSetup operands s).acts s :=
  withField_acts fun _ _ => withField_acts fun _ _ => withField_acts fun _ _ => Acts.one .timer

theorem orderTimerStart_acts : (orderTimerStart operands s).acts s := withField_acts fun _ _ => Acts.one .timer

theorem orderTimerStop_acts : (orderTimerStop operands s).acts s := withField_acts fun _ _ => Acts.one .timer

theorem orderResend_acts : (orderResend operands s).acts s := Acts.one .resends

theorem orderResetPart_acts : (orderResetPart operands s).acts s := Acts.one .holdsReset

theorem orderSourceClear_acts : (orderSourceClear operands s).acts s := by
  refine withField_acts fun q _ => ?_
  change Acts ⟨.order, .rest, s⟩ ⟨.order, .rest, s.clearSource q⟩
  unfold State.clearSource
  split_ifs with condition
  · exact .one .clearsMiss
  · exact (Acts.one .clearsMiss).trans (Acts.one (.counted (by omega)))

end

/-! ## The link port -/

theorem State.refuseFrame_acts (s : State) (r : RefusalReason) :
    Acts ⟨.plain, .rest, s⟩ ⟨.plain, .rest, s.refuseFrame r⟩ := .one .refuses

theorem State.acceptOrder_acts (s : State) (n : Byte) (order : List Byte) :
    Acts ⟨.plain, .rest, s⟩ ⟨.plain, .rest, s.acceptOrder n order⟩ := by
  unfold State.acceptOrder
  split
  · split
    · exact .refl
    · exact .one .replays
  · split_ifs
    · exact s.refuseFrame_acts _
    · exact .one .enters
    · exact s.refuseFrame_acts _

theorem State.sync_acts (s : State) (m : Byte) : Acts ⟨.plain, .rest, s⟩ ⟨.plain, .rest, s.sync m⟩ := by
  unfold State.sync
  split_ifs
  · exact s.refuseFrame_acts _
  · exact (Acts.one .syncs).trans (Acts.one .refuses)

theorem State.handleFrame_acts (s : State) (body : List Byte) (check : Half) :
    Acts ⟨.plain, .rest, s⟩ ⟨.plain, .rest, s.handleFrame body check⟩ := by
  unfold State.handleFrame
  split_ifs
  · exact .refl
  · exact s.refuseFrame_acts _
  · split
    · split_ifs
      · exact s.acceptOrder_acts _ _
      · exact s.sync_acts _
      · exact .refl
    · exact .refl

theorem State.rxByte_acts (s : State) (b : Byte) : Acts ⟨.plain, .rest, s⟩ ⟨.plain, .rest, s.rxByte b⟩ := by
  have goes : ∀ r, Acts ⟨.plain, .rest, s⟩ ⟨.plain, .rest, s.rxGo r⟩ := fun _ => .one .listens
  have hunts : Acts ⟨.plain, .rest, s⟩ ⟨.plain, .rest, s.rxHunt⟩ := .one .listens
  unfold State.rxByte
  split
  · split_ifs
    · exact goes _
    · exact .refl
  · split_ifs
    · exact goes _
    · exact hunts
  · exact goes _
  · exact goes _
  · exact hunts.trans (State.handleFrame_acts _ _ _)

theorem State.rxBytes_acts (s : State) (bytes : List Byte) :
    Acts ⟨.plain, .rest, s⟩ ⟨.plain, .rest, s.rxBytes bytes⟩ := by
  induction bytes generalizing s with
  | nil => exact .refl
  | cons b bytes ih => exact (s.rxByte_acts b).trans (ih _)

theorem State.transmit_acts (s : State) : Acts ⟨.plain, .rest, s⟩ ⟨.plain, .rest, s.transmit⟩ := by
  unfold State.transmit
  split
  · exact .refl
  · split
    next refusals => exact .one (.sends refusals)
    · split
      next answers => exact .one (.sendsAnswer answers)
      · split
        next queue => exact .one (.sendsNotice queue)
        · exact .refl

theorem State.frameSent_acts (s : State) : Acts ⟨.plain, .rest, s⟩ ⟨.plain, .rest, s.frameSent⟩ := by
  unfold State.frameSent
  split
  · unfold State.frameOver
    dsimp only
    split_ifs
    · exact .one .resetsByOrder
    · exact .one .sent
  · exact .refl

/-! ## Lines, timers, lanes and the clock -/

theorem State.lineLevel_acts {s : State} (high : s.resetLow = false) (n : Fin 4) (level : Bool) :
    Acts ⟨.plain, .rest, s⟩ ⟨.plain, .rest, s.lineLevel n level⟩ := by
  have follows : Acts ⟨.plain, .rest, s⟩ ⟨.plain, .rest, s.setLine n ((s.line n).follow level)⟩ := .one .line
  unfold State.lineLevel
  dsimp only
  split_ifs
  · exact Acts.react (follows.trans (Acts.one .event)) (State.still.resetLow (State.still_eventAt _ _)) high
  · exact follows.react rfl high

theorem State.expire_acts {s : State} (high : s.resetLow = false) (n : Fin 4) :
    Acts ⟨.plain, .rest, s⟩ ⟨.plain, .rest, s.expire n⟩ :=
  Acts.react (s := s.setTimer n (s.timer n).expired) ((Acts.one .timer).trans (Acts.one .event))
    (State.still.resetLow (State.still_eventAt _ _)) high

theorem State.timerExpiry_acts {s : State} (high : s.resetLow = false) (n : Fin 4) :
    Acts ⟨.plain, .rest, s⟩ ⟨.plain, .rest, s.timerExpiry n⟩ := by
  unfold State.timerExpiry
  split
  · exact State.expire_acts high n
  · exact .refl

theorem State.lanePins_acts (s : State) (n : Fin 12) (strobe : Option Byte) (ack : Bool) :
    Acts ⟨.plain, .rest, s⟩ ⟨.plain, .rest, s.lanePins n { s.lane n with strobe := strobe, ack := ack }⟩ := by
  have follows : Acts ⟨.plain, .rest, s⟩
      ⟨.plain, .rest, s.setLane n { s.lane n with strobe := strobe, ack := ack }⟩ := .one .pins
  unfold State.lanePins
  split_ifs with low
  · exact follows
  · have high : s.resetLow = false := by simpa using low
    have settles := follows.trans (Acts.one (.exchange (n := n)))
    rw [State.lane_setLane_self] at settles
    have same : ∀ l, (s.setLane n l).settleLane n l = s.settleLane n l := by
      intro l
      simp [State.settleLane, State.setLane]
    rw [same] at settles
    exact Acts.react settles rfl high

theorem State.grantTick_acts {s : State} (high : s.resetLow = false) :
    Acts ⟨.plain, .rest, s⟩ ⟨.plain, .rest, s.grantTick⟩ := by
  unfold State.grantTick
  split
  next n timer =>
    split_ifs
    · exact State.grantWaitOver_acts high
    · exact .one (.waitsOn timer)
  · exact .refl

theorem State.rxTick_acts (s : State) : Acts ⟨.plain, .rest, s⟩ ⟨.plain, .rest, s.rxTick⟩ := by
  unfold State.rxTick
  split
  · split_ifs
    · exact .one .listens
    · exact .one (.listens (rx := s.link.rx))
  · exact .refl

theorem State.timerTick_resetLow (s : State) (n : Fin 4) : (s.timerTick n).resetLow = s.resetLow := by
  unfold State.timerTick
  split
  · split_ifs
    · have counted := (s.setTimer n (s.timer n).expired).still_eventAt (timerSource n)
      exact (State.react_resetLow _).trans (State.still.resetLow counted :)
    · rfl
  · rfl

theorem State.timerTick_acts {s : State} (high : s.resetLow = false) (n : Fin 4) :
    Acts ⟨.plain, .rest, s⟩ ⟨.plain, .rest, s.timerTick n⟩ := by
  unfold State.timerTick
  split
  · split_ifs
    · exact State.expire_acts high n
    · exact .one .timer
  · exact .refl

theorem State.timerTicks_acts (l : List (Fin 4)) {s : State} (high : s.resetLow = false) :
    Acts ⟨.plain, .rest, s⟩ ⟨.plain, .rest, l.foldl State.timerTick s⟩ := by
  induction l generalizing s with
  | nil => exact .refl
  | cons n l ih => exact (State.timerTick_acts high n).trans (ih ((s.timerTick_resetLow n).trans high))

theorem State.rxTick_resetLow (s : State) : s.rxTick.resetLow = s.resetLow := by
  unfold State.rxTick
  split
  · split_ifs <;> rfl
  · rfl

theorem State.phaseTick_acts {s : State} (high : s.resetLow = false) :
    Acts ⟨.plain, .rest, s⟩ ⟨.plain, .rest, s.phaseTick⟩ := by
  have phase : ∀ k, Acts ⟨.plain, .rest, s⟩ ⟨.plain, .rest, { s with timePhase := k }⟩ := fun k =>
    .one (.aside (pending := s.pending) (phase := k) (count := s.freeCount) (lowered := s.lowered))
  unfold State.phaseTick
  split
  · exact phase _
  · exact ((phase 0).trans (State.rxTick_acts _)).trans (State.timerTicks_acts _ ((State.rxTick_resetLow _).trans high))

theorem State.grantTimeout_resetLow (s : State) : s.grantTimeout.resetLow = s.resetLow := by
  have selected : ∀ t : State, t.select.resetLow = t.resetLow := fun t => State.still.resetLow t.still_select
  unfold State.grantTimeout
  dsimp only
  split
  · exact selected _
  · split
    · exact (selected _).trans (State.still.resetLow (State.still_faultProcessing _ _ _))
    · split
      · exact selected _
      · exact (selected _).trans (State.produceAnswer_resetLow _ _)

theorem State.grantTick_resetLow (s : State) : s.grantTick.resetLow = s.resetLow := by
  unfold State.grantTick State.grantWaitOver
  split
  · split_ifs
    · exact s.grantTimeout_resetLow
    · rfl
    · rfl
  · rfl

theorem State.tick_acts (s : State) : Acts ⟨.plain, .rest, s⟩ ⟨.plain, .rest, s.tick⟩ := by
  unfold State.tick State.running
  split_ifs with low
  · exact .refl
  · have settles : Acts ⟨.plain, .rest, s⟩ ⟨.plain, .rest, s.settleRequest⟩ :=
      .one (.aside (pending := s.pending) (phase := s.timePhase) (count := s.freeCount) (lowered := false))
    have high : s.resetLow = false := by simpa using low
    exact (settles.trans (State.grantTick_acts high)).trans
      (State.phaseTick_acts ((State.grantTick_resetLow s.settleRequest).trans high))

/-! ## Every command and every step -/

theorem State.running_acts {s : State} {effect : State → State}
    (acts : s.resetLow = false → Acts ⟨.plain, .rest, s⟩ ⟨.plain, .rest, effect s⟩) :
    Acts ⟨.plain, .rest, s⟩ ⟨.plain, .rest, s.running effect⟩ := by
  unfold State.running
  split
  · exact .refl
  next low => exact acts (by simpa using low)

theorem execUnknownOrder_acts {s t : State} (next : execUnknownOrder s = .next t) :
    Acts ⟨.plain, .rest, s⟩ ⟨.plain, .rest, t⟩ := by
  unfold execUnknownOrder at next
  split at next
  next n order turn =>
    split_ifs at next
    · cases next; exact .refl
    · cases next
      have takes : Acts ⟨.plain, .rest, s⟩ ⟨.order, .rest, s.carryOut n order⟩ := .one (.takes turn)
      exact takes.trans (OrderEnd.finish_acts _ (refusal_acts _ _))
  · cases next; exact .refl

theorem exec_acts {c : Instr} {s t : State} (next : exec c s = .next t) :
    Acts ⟨.plain, .rest, s⟩ ⟨.plain, .rest, t⟩ := by
  have report : ∀ (outcome : OutcomeCode) (data : List Byte) (s : State), (OrderEnd.answered outcome data s).acts s :=
    fun _ _ _ => Relation.ReflTransGen.refl
  cases c
  case resetLow => cases next; exact .one .takesLow
  case resetRelease =>
    cases next
    split
    · exact .one .releases
    · exact .refl
  case receiveFrame => cases next; exact State.running_acts fun _ => s.rxBytes_acts _
  case interByteTimeout => cases next; exact State.running_acts fun _ => Acts.one .listens
  case stopBitLow => cases next; exact State.running_acts fun _ => Acts.one .listens
  case transmitFrame => cases next; exact State.running_acts fun _ => s.transmit_acts
  case frameSent => cases next; exact State.running_acts fun _ => s.frameSent_acts
  case lineLevelChange =>
    cases next
    split
    · exact .one .line
    next low => exact State.lineLevel_acts (by simpa using low) _ _
  case timerExpiry n => cases next; exact State.running_acts fun high => State.timerExpiry_acts high n
  case grantAsserted => exact execGrantAsserted_acts next
  case grantDeasserted => exact execGrantDeasserted_acts next
  case grantWaitExpiry =>
    cases next
    unfold State.running
    split_ifs with low
    · exact .refl
    · exact State.grantWaitOver_acts (by simpa using low)
  case unitBoundary => exact execUnitBoundary_acts next
  case lnstbAsserted n data => cases next; exact s.lanePins_acts n (some data) (s.lane n).ack
  case lnstbDeasserted n => cases next; exact s.lanePins_acts n none (s.lane n).ack
  case lnackAsserted n => cases next; exact s.lanePins_acts n (s.lane n).strobe true
  case lnackDeasserted n => cases next; exact s.lanePins_acts n (s.lane n).strobe false
  case unknownOrder => exact execUnknownOrder_acts next
  case define => cases next; exact runOrder_acts (fun o s _ _ => orderDefine_acts o s) s
  case inspect => cases next; exact runOrder_acts (fun o s _ _ => withSlot_acts fun i => report _ _ s) s
  case rearm => cases next; exact runOrder_acts (fun o s _ _ => rearmOrder_acts o s) s
  case release => cases next; exact runOrder_acts (fun o s _ _ => orderRelease_acts o s) s
  case trigger => cases next; exact runOrder_acts (fun o s high _ => orderTrigger_acts o s high) s
  case lineSetup => cases next; exact runOrder_acts (fun o s high _ => orderLineSetup_acts o s high) s
  case timerSetup => cases next; exact runOrder_acts (fun o s _ _ => orderTimerSetup_acts o s) s
  case timerStart => cases next; exact runOrder_acts (fun o s _ _ => orderTimerStart_acts o s) s
  case timerStop => cases next; exact runOrder_acts (fun o s _ _ => orderTimerStop_acts o s) s
  case sourceStatus => cases next; exact runOrder_acts (fun o s _ _ => withField_acts fun q _ => report _ _ s) s
  case sourceClear => cases next; exact runOrder_acts (fun o s _ _ => orderSourceClear_acts o s) s
  case bind => cases next; exact runOrder_acts (fun o s high _ => orderBind_acts o s high) s
  case unbind => cases next; exact runOrder_acts (fun o s high _ => orderUnbind_acts o s high) s
  case queueList => cases next; exact runOrder_acts (fun o s _ _ => withField_acts fun q _ => report _ _ s) s
  case freeze => cases next; exact runOrder_acts (fun o s _ _ => orderFreeze_acts o s) s
  case thaw => cases next; exact runOrder_acts (fun o s high _ => orderThaw_acts o s high) s
  case peek => cases next; exact runOrder_acts (fun o s high _ => orderPeek_acts o s high) s
  case poke => cases next; exact runOrder_acts (fun o s high fits => orderPoke_acts o s high fits) s
  case laneSetup => cases next; exact runOrder_acts (fun o s high _ => orderLaneSetup_acts o s high) s
  case laneStatus => cases next; exact runOrder_acts (fun o s _ _ => withField_acts fun n _ => report _ _ s) s
  case cancel => cases next; exact runOrder_acts (fun o s high _ => orderCancel_acts o s high) s
  case retry => cases next; exact runOrder_acts (fun o s high _ => orderRetry_acts o s high) s
  case skip => cases next; exact runOrder_acts (fun o s high _ => orderSkip_acts o s high) s
  case acknowledge => cases next; exact runOrder_acts (fun o s high _ => orderAcknowledge_acts o s high) s
  case resend => cases next; exact runOrder_acts (fun o s _ _ => orderResend_acts o s) s
  case hello => cases next; exact runOrder_acts (fun o s _ _ => report _ _ s) s
  case configure => cases next; exact runOrder_acts (fun o s _ _ => orderConfigure_acts o s) s
  case summary => cases next; exact runOrder_acts (fun o s _ _ => report _ _ s) s
  case resetPart => cases next; exact runOrder_acts (fun o s _ _ => orderResetPart_acts o s) s
  case byteReceived b => cases next; exact State.running_acts fun _ => s.rxByte_acts b

/-- Every step is a chain of acts between two points at rest. -/
theorem step_acts {s t : State} (next : step s = .next t) : Acts ⟨.plain, .rest, s⟩ ⟨.plain, .rest, t⟩ := by
  unfold step at next
  split at next
  · cases next; exact s.tick_acts
  next c rest _ =>
    have pops : Acts ⟨.plain, .rest, s⟩ ⟨.plain, .rest, { s with pending := rest }⟩ :=
      .one (.aside (pending := rest) (phase := s.timePhase) (count := s.freeCount) (lowered := s.lowered))
    exact pops.trans (exec_acts next)

/-- What every act keeps, every step keeps. -/
theorem step_keeps {I : Point → Prop} (kept : ∀ {a b}, Act a b → I a → I b) {s t : State} (next : step s = .next t)
    (h : I ⟨.plain, .rest, s⟩) : I ⟨.plain, .rest, t⟩ := (step_acts next).keeps kept h

end Sys2Proof.Machine
end

