-- ==== Sys2Proof/Proofs/MemoryForm.lean ====
section
/-! Every act keeps the memory's canonical form (R102, log 6). -/

namespace Sys2Proof.Machine

/-! ## Frames of the acts' pieces -/

/-- The handing over of a burst touches the mover and the mark of its request alone. -/
theorem Hands.frame {s t : State} {b : Burst} {st : Stage} (hands : Hands s b st t) :
    ∃ mover lowered, t = { s with mover := mover, lowered := lowered } := by
  cases hands with
  | waits | goes => exact ⟨_, _, rfl⟩
  | holdsGrant => exact ⟨s.mover, s.lowered, rfl⟩
  | asks =>
    unfold State.ask
    split
    · exact ⟨_, s.lowered, rfl⟩
    · exact ⟨_, s.lowered, rfl⟩

theorem Hands.still {s t : State} {b : Burst} {st : Stage} (hands : Hands s b st t) : t.still = s.still := by
  obtain ⟨mover, lowered, rfl⟩ := hands.frame
  rfl

theorem Opens.still {s u : State} (opens : Opens s u) : u.still = s.still := by
  cases opens with
  | free => rfl
  | push b => exact s.still_push b

@[simp] theorem State.still_begun (s : State) (i : Fin 64) (d : Descriptor) (p : Progress) :
    (s.begun i d p).still = s.still := rfl

@[simp] theorem State.still_begunLink (s : State) (a : LinkAccess) : (s.begunLink a).still = s.still := rfl

@[simp] theorem State.still_unowned (s : State) (st : LiveState) (o : Owner) : (s.unowned st o).still = s.still := by
  cases o <;> rfl

@[simp] theorem State.still_resumed (s : State) (e : StackEntry) (rest : List StackEntry) :
    (s.resumed e rest).still = s.still := by
  simp [State.resumed]

@[simp] theorem State.still_dropBurst (s : State) : s.dropBurst.still = s.still := by
  unfold State.dropBurst
  split <;> simp

@[simp] theorem State.still_drainPlace (s : State) (r : Record) (rest : List Record) :
    (s.drainPlace r rest).still = s.still := by
  cases r <;> simp [State.drainPlace]

theorem State.answerEnded_mem (s : State) (i : Fin 64) (k : Nat) : (s.answerEnded i k).mem = s.mem := by
  unfold State.answerEnded
  split <;> simp

theorem State.takeOut_mem (s : State) (i : Fin 64) : (s.takeOut i).mem = s.mem := State.still.mem (s.still_takeOut i)

theorem State.cancelFaulted_mem (s : State) (i : Fin 64) : (s.cancelFaulted i).mem = s.mem := by
  unfold State.cancelFaulted
  split
  · simp [State.takeOut_mem]
  · rfl

/-! ### The link port's acts touch the link port, the order in hand and the notices sent -/

theorem State.queueRefusal_frame (s : State) (f : Frame) : ∃ link, s.queueRefusal f = { s with link := link } := by
  unfold State.queueRefusal
  split
  · exact ⟨_, rfl⟩
  · exact ⟨s.link, rfl⟩

theorem State.replay_frame (s : State) (n : Byte) (queued : Bool) (payload : List Byte) :
    ∃ link, s.replay n queued payload = { s with link := link } := by
  unfold State.replay
  split
  · exact ⟨s.link, rfl⟩
  · split
    · exact ⟨_, rfl⟩
    · exact ⟨s.link, rfl⟩

theorem State.placeAnswer_frame (s : State) (h : OrderInHand) (payload : List Byte) :
    ∃ link inHand, s.placeAnswer h payload = { s with link := link, inHand := inHand } := by
  unfold State.placeAnswer
  obtain ⟨table, hand, e⟩ := State.takeNext_frame _
  exact ⟨_, hand, e⟩

theorem State.sendAnswer_frame (s : State) (a : Answer) (rest : List Answer) :
    ∃ link inHand, s.sendAnswer a rest = { s with link := link, inHand := inHand } := by
  have clears : ∃ link,
      State.clearQueuedMark { s with link := { s.link with answers := rest, tx := some a.frame } } a.number =
        { s with link := link } := by
    unfold State.clearQueuedMark
    split
    · exact ⟨_, rfl⟩
    · exact ⟨_, rfl⟩
  obtain ⟨link, e⟩ := clears
  unfold State.sendAnswer
  rw [e]
  unfold State.placeWaiting
  split
  · split
    · obtain ⟨link', hand, e'⟩ := State.placeAnswer_frame { s with link := link } _ _
      exact ⟨link', hand, e'⟩
    · exact ⟨link, s.inHand, rfl⟩
  · exact ⟨link, s.inHand, rfl⟩

theorem State.enterOrder_frame (s : State) (order : List Byte) :
    ∃ link inHand, (s.enterOrder order).takeNext = { s with link := link, inHand := inHand } := by
  obtain ⟨table, hand, e⟩ := State.takeNext_frame (s.enterOrder order)
  exact ⟨_, hand, e⟩

theorem State.queueRefusal_mem (s : State) (f : Frame) : (s.queueRefusal f).mem = s.mem := by
  obtain ⟨link, e⟩ := s.queueRefusal_frame f
  rw [e]

theorem State.replay_mem (s : State) (n : Byte) (queued : Bool) (payload : List Byte) :
    (s.replay n queued payload).mem = s.mem := by
  obtain ⟨link, e⟩ := s.replay_frame n queued payload
  rw [e]

theorem State.sendAnswer_mem (s : State) (a : Answer) (rest : List Answer) : (s.sendAnswer a rest).mem = s.mem := by
  obtain ⟨link, inHand, e⟩ := s.sendAnswer_frame a rest
  rw [e]

/-! ## What writes the memory -/

theorem State.performUnit_wf {s v : State} {u : UnitInProgress} (h : s.mem.wf) (moved : s.performUnit u = .moved v) :
    v.mem.wf := by
  have read : ∀ {a n} {move : List Byte → State} {w}, (∀ bytes, (move bytes).mem.wf) → s.readUnit a n move = .moved w →
      w.mem.wf := by
    intro a n move w keeps e
    unfold State.readUnit at e
    split_ifs at e
    dsimp only at e
    split at e <;> cases e
    exact keeps _
  have write : ∀ {a bytes w}, s.writeUnit a bytes = .moved w → w.mem.wf := by
    intro a bytes w e
    unfold State.writeUnit at e
    split_ifs at e
    cases e
    exact Memory.wf_putBytes h _ _
  have peeks : ∀ bytes, (s.peekResult bytes).mem = s.mem := by
    intro bytes
    unfold State.peekResult
    split
    · split <;> rfl
    · rfl
  unfold State.performUnit at moved
  split at moved
  · split at moved
    next w wrote => cases moved; exact write (w := w) wrote
    next other => exact absurd moved (other v)
  · exact read (move := s.lanePut _) (fun _ => h) moved
  · split_ifs at moved
    exact read (fun _ => Memory.wf_putBytes h _ _) moved
  · cases moved; exact h
  · exact read (fun bytes => by rw [peeks]; exact h) moved
  · exact write moved

theorem State.unitOver_mem (s : State) : s.unitOver.mem = s.mem := by
  obtain ⟨m, e⟩ := s.unitOver_frame
  rw [e, State.setMover_mem]

theorem Moves.wf {s w : State} (moves : Moves s w) (h : s.mem.wf) : w.mem.wf := by
  cases moves with
  | intro u v _ _ moved => rw [State.unitOver_mem]; exact State.performUnit_wf h moved

theorem Stops.wf {s w : State} (stops : Stops s w) (h : s.mem.wf) : w.mem.wf := by
  cases stops with
  | moved moves => exact moves.wf h
  | failed => rw [State.unitOver_mem]; exact h
  | timeout => exact h

theorem State.abandonUnit_wf {s : State} (h : s.mem.wf) : s.abandonUnit.mem.wf := by
  unfold State.abandonUnit
  split
  · exact h
  · dsimp only
    split
    · exact Memory.wf_scramble h _ _ _
    · exact h

/-! ## The invariant -/

theorem Act.keeps_wf {a b : Point} (act : Act a b) (h : a.state.mem.wf) : b.state.mem.wf := by
  have same : ∀ {s t : State}, t.mem = s.mem → s.mem.wf → t.mem.wf := fun e h => e ▸ h
  have still : ∀ {s t : State}, t.still = s.still → s.mem.wf → t.mem.wf := fun e h => same (State.still.mem e) h
  cases act with
  | start opens _ _ _ _ hands => exact still (hands.still.trans opens.still) h
  | startFaulted opens => exact still ((State.still_faultProcessing _ _ _).trans opens.still) h
  | startLink opens _ _ _ _ hands => exact still (hands.still.trans opens.still) h
  | cut => exact still (State.still_unowned _ _ _) h
  | resume _ _ _ hands => exact still (hands.still.trans (State.still_resumed _ _ _)) h
  | tallyEnds => exact still ((State.still_endProcessing _ _).trans (State.still_commitProgress _ _ _ _ _)) h
  | tallyGoesOn => exact still ((State.still_endCurrent _ _).trans (State.still_commitProgress _ _ _ _ _)) h
  | commits moves => exact still (State.still_commitProgress _ _ _ _ _) (moves.wf h)
  | finishes moves =>
    exact same (State.answerEnded_mem _ _ _)
      (still ((State.still_endProcessing _ _).trans (State.still_commitProgress _ _ _ _ _)) (moves.wf h))
  | cancels moves =>
    exact same (State.produceAnswer_mem _ _)
      (still ((State.still_takeOut _ _).trans (State.still_commitProgress _ _ _ _ _)) (moves.wf h))
  | fails =>
    exact same (State.cancelFaulted_mem _ _)
      (still (State.still_faultProcessing _ _ _) (same (State.unitOver_mem _) h))
  | linkMoves moves => exact moves.wf h
  | linkEnds stops => exact same (State.produceAnswer_mem _ _) (stops.wf h)
  | timesOut => exact still (State.still_faultProcessing _ _ _) h
  | stopsIdle stops => exact stops.wf h
  | stopsOwnerless stops => exact stops.wf h
  | asksAgain => exact still (State.still_ask _) h
  | freezes => exact same (State.produceAnswer_mem _ _) h
  | losesGrant =>
    unfold State.grantGone
    repeat' split
    all_goals exact h
  | event => exact still (State.still_eventAt _ _) h
  | unbind => exact still (State.still_takeOut _ _) h
  | cancelPreempted => exact still (State.still_takeOut _ _) h
  | cancelActive => exact still ((State.still_takeOut _ _).trans (State.still_dropBurst _)) h
  | skip => exact still (State.still_removeHead _ _ _) h
  | answers => exact same (State.produceAnswer_mem _ _) h
  | drains => exact still (State.still_drainPlace _ _ _) h
  | refuses => exact same (State.queueRefusal_mem _ _) h
  | replays => exact same (State.replay_mem _ _ _ _) h
  | enters => exact same (State.takeNext_mem _) h
  | sendsAnswer => exact same (State.sendAnswer_mem _ _ _) h
  | takesLow => exact State.abandonUnit_wf h
  | @resetsByOrder s => exact State.abandonUnit_wf (s := { s with link := { s.link with tx := none } }) h
  | _ => exact h

/-- Settles O54: every act keeps the memory's form, so every step does. -/
theorem memoryKeepsItsForm : Obligations.MemoryKeepsItsForm :=
  fun _ _ wf next => step_keeps (I := fun p => p.state.mem.wf) Act.keeps_wf next wf

end Sys2Proof.Machine
end

