-- ==== Sys2Proof/Proofs/LinkPortLaws.lean ====
section
/-! Every act keeps the order table's numbers up to E - 1, the capacities of table and queues (R160, R168), and leaves no
order to an idle executor (R174). -/

namespace Sys2Proof.Machine

/-! ## Consecutive numbers -/

theorem numbersFrom_length {w : Nat} (m : BitVec w) (n : Nat) : (numbersFrom m n).length = n := by
  induction n generalizing m with
  | zero => rfl
  | succ n ih => simp [numbersFrom, ih]

theorem ofNat_succ_comm {w : Nat} (n : Nat) : BitVec.ofNat w (n + 1) = 1 + BitVec.ofNat w n := by
  rw [Nat.add_comm, BitVec.ofNat_add]
  rfl

/-- A run of numbers and the one after it. -/
theorem numbersFrom_snoc {w : Nat} (m : BitVec w) (n : Nat) :
    numbersFrom m n ++ [m + BitVec.ofNat w n] = numbersFrom m (n + 1) := by
  induction n generalizing m with
  | zero => simp [numbersFrom]
  | succ n ih =>
    have next : m + BitVec.ofNat w (n + 1) = m + 1 + BitVec.ofNat w n := by
      rw [ofNat_succ_comm, add_assoc]
    rw [next]
    exact congrArg (m :: ·) (ih (m + 1))

/-- The n numbers up to the one before `next`, and `next` itself. -/
theorem numbersFrom_append {w : Nat} (next : BitVec w) (n : Nat) :
    numbersFrom (next - BitVec.ofNat w n) n ++ [next] = numbersFrom (next + 1 - BitVec.ofNat w (n + 1)) (n + 1) := by
  have start : next + 1 - BitVec.ofNat w (n + 1) = next - BitVec.ofNat w n := by
    rw [BitVec.ofNat_add]
    exact add_sub_add_right_eq_sub next (BitVec.ofNat w n) 1
  rw [start, ← numbersFrom_snoc, sub_add_cancel]

theorem numbersFrom_drop {w : Nat} (m : BitVec w) (k n : Nat) :
    (numbersFrom m (k + n)).drop k = numbersFrom (m + BitVec.ofNat w k) n := by
  induction k generalizing m with
  | zero => simp
  | succ k ih =>
    have next : m + BitVec.ofNat w (k + 1) = m + 1 + BitVec.ofNat w k := by
      rw [ofNat_succ_comm, add_assoc]
    rw [next, ← ih, Nat.add_right_comm]
    rfl

/-! ## The laws of the link port -/

/-- The laws of tables and queues taken together. -/
def LinkPort.lawful (l : LinkPort) : Prop := l.tableNumbered ∧ l.queuesBounded

theorem LinkPort.lawful_atReset : LinkPort.atReset.lawful := by
  refine ⟨⟨by decide, rfl⟩, by decide, by decide⟩

/-- What the laws speak of: the numbers of the table, E, and the lengths of the two queues. -/
theorem LinkPort.lawful_congr {l l' : LinkPort} (numbers : l'.table.map Entry.number = l.table.map Entry.number)
    (expected : l'.expected = l.expected) (refusals : l'.refusals.length ≤ l.refusals.length)
    (answers : l'.answers.length ≤ l.answers.length) (h : l.lawful) : l'.lawful := by
  have length : l'.table.length = l.table.length := by simpa using congrArg List.length numbers
  obtain ⟨⟨size, numbered⟩, refusalsFit, answersFit⟩ := h
  refine ⟨⟨length ▸ size, ?_⟩, refusals.trans refusalsFit, answers.trans answersFit⟩
  rw [numbers, expected, length, numbered]

theorem map_number_map {f : Entry → Entry} (keeps : ∀ e, (f e).number = e.number) (table : List Entry) :
    (table.map f).map Entry.number = table.map Entry.number := by
  simp [keeps]

theorem Entry.taken_number (n : Byte) (e : Entry) : (e.taken n).number = e.number := by
  unfold Entry.taken; split <;> rfl

theorem Entry.answer_number (n : Byte) (p : List Byte) (e : Entry) : (e.answer n p).number = e.number := by
  unfold Entry.answer; split <;> rfl

theorem Entry.mark_number (n : Byte) (q : Bool) (e : Entry) : (e.mark n q).number = e.number := by
  unfold Entry.mark; split <;> rfl

/-- The taking of an order changes the status of an entry and nothing else of the link port. -/
theorem State.takeNext_lawful {s : State} (h : s.link.lawful) : s.takeNext.link.lawful := by
  unfold State.takeNext
  split
  · exact LinkPort.lawful_congr (map_number_map (Entry.taken_number _) _) rfl le_rfl le_rfl h
  · exact h

theorem State.placeAnswer_lawful {s : State} (hand : OrderInHand) (payload : List Byte) (h : s.link.lawful)
    (room : s.link.answers.length < answerPlaces) : (s.placeAnswer hand payload).link.lawful := by
  unfold State.placeAnswer
  refine State.takeNext_lawful ?_
  obtain ⟨⟨size, numbered⟩, refusals, -⟩ := h
  refine ⟨⟨by simpa using size, ?_⟩, refusals, ?_⟩
  · dsimp only
    rw [map_number_map (Entry.answer_number _ _), List.length_map]
    exact numbered
  · rw [List.length_append]
    exact room

theorem State.produceAnswer_lawful {s : State} (payload : List Byte) (h : s.link.lawful) :
    (s.produceAnswer payload).link.lawful := by
  unfold State.produceAnswer
  split
  · exact h
  · split
    next room => exact State.placeAnswer_lawful _ payload h room
    · exact h

theorem State.queueRefusal_lawful {s : State} (f : Frame) (h : s.link.lawful) : (s.queueRefusal f).link.lawful := by
  unfold State.queueRefusal
  split
  next room =>
    obtain ⟨table, -, answers⟩ := h
    refine ⟨table, ?_, answers⟩
    rw [List.length_append]
    exact room
  · exact h

theorem State.replay_lawful {s : State} (n : Byte) (queued : Bool) (payload : List Byte) (h : s.link.lawful) :
    (s.replay n queued payload).link.lawful := by
  unfold State.replay
  split
  · exact h
  · split
    next room =>
      obtain ⟨⟨size, numbered⟩, refusals, -⟩ := h
      refine ⟨⟨by simpa using size, ?_⟩, refusals, ?_⟩
      · dsimp only
        rw [map_number_map (Entry.mark_number _ _), List.length_map]
        exact numbered
      · rw [List.length_append]
        exact room
    · exact h

/-- The entry of an order takes the number E, after an eviction where the table is full (R161). -/
theorem State.enterOrder_lawful {s : State} (order : List Byte) (h : s.link.lawful) :
    (s.enterOrder order).link.lawful := by
  obtain ⟨⟨size, numbered⟩, queues⟩ := h
  have evicted : (evict s.link.table).length < orderTableSize ∧
      (evict s.link.table).map Entry.number =
        numbersFrom (s.link.expected - BitVec.ofNat 8 (evict s.link.table).length) (evict s.link.table).length := by
    unfold evict
    split
    next room => exact ⟨room, numbered⟩
    next full =>
      obtain ⟨k, length⟩ : ∃ k, s.link.table.length = 1 + k := ⟨s.link.table.length - 1, by
        simp only [orderTableSize] at full; omega⟩
      have shorter : (s.link.table.drop 1).length = k := by rw [List.length_drop, length]; omega
      refine ⟨by rw [shorter]; simp only [orderTableSize] at size ⊢; omega, ?_⟩
      rw [List.map_drop, numbered, shorter, length, numbersFrom_drop, BitVec.ofNat_add]
      congr 1
      exact sub_add_eq_sub_sub_swap s.link.expected (BitVec.ofNat 8 1) (BitVec.ofNat 8 k) ▸ sub_add_cancel _ _
  obtain ⟨room, numbers⟩ := evicted
  have length : (s.enterOrder order).link.table.length = (evict s.link.table).length + 1 := by
    simp [State.enterOrder]
  refine ⟨⟨?_, ?_⟩, queues⟩
  · exact length ▸ room
  · rw [length]
    refine Eq.trans ?_ (numbersFrom_append s.link.expected (evict s.link.table).length)
    rw [← numbers]
    exact List.map_append

theorem State.sendAnswer_lawful {s : State} {a : Answer} {rest : List Answer} (h : s.link.lawful)
    (queue : s.link.answers = a :: rest) : (s.sendAnswer a rest).link.lawful := by
  have bounded : rest.length < answerPlaces := by
    obtain ⟨-, -, answers⟩ := h
    rw [queue] at answers
    exact answers
  have cleared : (State.clearQueuedMark { s with link := { s.link with answers := rest, tx := some a.frame } }
      a.number).link.lawful ∧
      (State.clearQueuedMark { s with link := { s.link with answers := rest, tx := some a.frame } }
        a.number).link.answers = rest := by
    unfold State.clearQueuedMark
    split
    · exact ⟨LinkPort.lawful_congr (l := s.link) rfl rfl le_rfl (by simp [queue]) h, rfl⟩
    · exact ⟨LinkPort.lawful_congr (l := s.link) (map_number_map (Entry.mark_number _ _) _) rfl le_rfl
        (by simp [queue]) h, rfl⟩
  obtain ⟨lawful, answers⟩ := cleared
  unfold State.sendAnswer State.placeWaiting
  split
  · split
    · exact State.placeAnswer_lawful _ _ lawful (by rw [answers]; exact bounded)
    · exact lawful
  · exact lawful

theorem State.answerEnded_lawful {s : State} (i : Fin 64) (k : Nat) (h : s.link.lawful) :
    (s.answerEnded i k).link.lawful := by
  unfold State.answerEnded
  split
  · exact State.produceAnswer_lawful _ h
  · exact h

theorem State.cancelFaulted_lawful {s : State} (i : Fin 64) (h : s.link.lawful) : (s.cancelFaulted i).link.lawful := by
  unfold State.cancelFaulted
  split
  · exact State.produceAnswer_lawful _ (State.still.link (s.still_takeOut i) ▸ h)
  · exact h

theorem Moves.link {s w : State} (moves : Moves s w) : w.link = s.link := by
  obtain ⟨lanes, mem, access, mover, rfl⟩ := moves.frame
  rfl

theorem Stops.link {s w : State} (stops : Stops s w) : w.link = s.link := by
  obtain ⟨lanes, mem, access, mover, lowered, rfl⟩ := stops.frame
  rfl

theorem State.unitOver_link (s : State) : s.unitOver.link = s.link := by
  obtain ⟨m, e⟩ := s.unitOver_frame
  rw [e, State.setMover_link]

theorem State.abandonUnit_frame (s : State) :
    ∃ mover mem count, s.abandonUnit = { s with mover := mover, mem := mem, freeCount := count } := by
  unfold State.abandonUnit
  split
  · exact ⟨s.mover, s.mem, s.freeCount, rfl⟩
  · dsimp only
    split
    · exact ⟨_, _, _, rfl⟩
    · exact ⟨_, s.mem, s.freeCount, rfl⟩

theorem Act.keeps_linkLawful {a b : Point} (act : Act a b) (h : a.state.link.lawful) : b.state.link.lawful := by
  have still : ∀ {s t : State}, t.still = s.still → s.link.lawful → t.link.lawful := fun e h => State.still.link e ▸ h
  cases act with
  | start opens _ _ _ _ hands => exact still (hands.still.trans opens.still) h
  | startFaulted opens => exact still ((State.still_faultProcessing _ _ _).trans opens.still) h
  | startLink opens _ _ _ _ hands => exact still (hands.still.trans opens.still) h
  | cut => exact still (State.still_unowned _ _ _) h
  | resume _ _ _ hands => exact still (hands.still.trans (State.still_resumed _ _ _)) h
  | tallyEnds => exact still ((State.still_endProcessing _ _).trans (State.still_commitProgress _ _ _ _ _)) h
  | tallyGoesOn => exact still ((State.still_endCurrent _ _).trans (State.still_commitProgress _ _ _ _ _)) h
  | commits moves => exact still (State.still_commitProgress _ _ _ _ _) (moves.link ▸ h)
  | finishes moves =>
    exact State.answerEnded_lawful _ _
      (still ((State.still_endProcessing _ _).trans (State.still_commitProgress _ _ _ _ _)) (moves.link ▸ h))
  | cancels moves =>
    exact State.produceAnswer_lawful _
      (still ((State.still_takeOut _ _).trans (State.still_commitProgress _ _ _ _ _)) (moves.link ▸ h))
  | @fails s =>
    exact State.cancelFaulted_lawful _ (still (State.still_faultProcessing _ _ _) (s.unitOver_link ▸ h))
  | linkMoves moves => exact moves.link ▸ h
  | linkEnds stops => exact State.produceAnswer_lawful _ (stops.link ▸ h)
  | timesOut => exact still (State.still_faultProcessing _ _ _) h
  | stopsIdle stops => exact stops.link ▸ h
  | stopsOwnerless stops => exact stops.link ▸ h
  | asksAgain => exact still (State.still_ask _) h
  | freezes => exact State.produceAnswer_lawful _ h
  | losesGrant =>
    unfold State.grantGone
    repeat' split
    all_goals exact h
  | event => exact still (State.still_eventAt _ _) h
  | unbind => exact still (State.still_takeOut _ _) h
  | cancelPreempted => exact still (State.still_takeOut _ _) h
  | cancelActive => exact still ((State.still_takeOut _ _).trans (State.still_dropBurst _)) h
  | skip => exact still (State.still_removeHead _ _ _) h
  | answers => exact State.produceAnswer_lawful _ h
  | drains => exact still (State.still_drainPlace _ _ _) h
  | refuses => exact State.queueRefusal_lawful _ h
  | replays => exact State.replay_lawful _ _ _ h
  | enters => exact State.takeNext_lawful (State.enterOrder_lawful _ h)
  | syncs => exact ⟨⟨by simp, rfl⟩, h.2⟩
  | @sends s f rest queue => exact LinkPort.lawful_congr (l := s.link) rfl rfl (by simp [queue]) le_rfl h
  | sendsAnswer queue => exact State.sendAnswer_lawful h queue
  | @takesLow s =>
    obtain ⟨mover, mem, count, e⟩ := s.abandonUnit_frame
    have link : s.takeLow.link = { s.link with tx := none } := by rw [State.takeLow, e]
    exact LinkPort.lawful_congr (l := s.link) (by rw [link]) (by rw [link]) (by rw [link]) (by rw [link]) h
  | releases => exact LinkPort.lawful_atReset
  | resetsByOrder => exact LinkPort.lawful_atReset
  | _ => exact h

/-! ## No order left to an idle executor -/

theorem State.takeNext_ordersTaken (s : State) : s.takeNext.ordersTaken := by
  intro _ idle e mem order status
  have found : s.link.table.findSome? Entry.untaken? = none → ∀ e ∈ s.link.table, e.untaken? = none :=
    fun h => List.findSome?_eq_none_iff.1 h
  unfold State.takeNext at idle mem
  split at idle
  · cases idle
  next none =>
    rw [idle] at none mem
    split at mem
    next some => simp_all
    · cases untaken : s.link.table.findSome? Entry.untaken? with
      | none =>
        have := found untaken e mem
        simp [Entry.untaken?, status] at this
      | some p => exact (none p.1 p.2 rfl untaken).elim

theorem State.produceAnswer_ordersTaken {s : State} (payload : List Byte) (h : s.ordersTaken) :
    (s.produceAnswer payload).ordersTaken := by
  unfold State.produceAnswer
  split
  · exact h
  · split
    · exact State.takeNext_ordersTaken _
    · intro _ idle; cases idle

/-- What the law speaks of: RESET#, the order in hand, and the statuses in the table. -/
theorem State.ordersTaken_congr {s t : State} (low : t.resetLow = s.resetLow) (hand : t.inHand = none → s.inHand = none)
    (statuses : ∀ e ∈ t.link.table, ∃ x ∈ s.link.table, x.status = e.status) (h : s.ordersTaken) : t.ordersTaken := by
  intro high idle e mem order status
  obtain ⟨x, mem', same⟩ := statuses e mem
  exact h (low ▸ high) (hand idle) x mem' order (same.trans status)

theorem State.ordersTaken_still {s t : State} (same : t.still = s.still) (h : s.ordersTaken) : t.ordersTaken :=
  State.ordersTaken_congr (State.still.resetLow same) (fun e => State.still.inHand same ▸ e)
    (fun e mem => ⟨e, State.still.link same ▸ mem, rfl⟩) h

theorem State.ordersTaken_hold (s : State) (task : Task) (h : s.ordersTaken) : (s.hold task).ordersTaken :=
  State.ordersTaken_congr (s := s) rfl (fun e => Option.map_eq_none_iff.1 e) (fun e mem => ⟨e, mem, rfl⟩) h

theorem Entry.mark_status (n : Byte) (q : Bool) (e : Entry) : (e.mark n q).status = e.status := by
  unfold Entry.mark; split <;> rfl

theorem State.replay_ordersTaken {s : State} (n : Byte) (queued : Bool) (payload : List Byte) (h : s.ordersTaken) :
    (s.replay n queued payload).ordersTaken := by
  unfold State.replay
  split
  · exact h
  · split
    · refine State.ordersTaken_congr (s := s) rfl id (fun e mem => ?_) h
      obtain ⟨x, mem', rfl⟩ := List.mem_map.1 mem
      exact ⟨x, mem', (x.mark_status n true).symm⟩
    · exact h

theorem State.sendAnswer_ordersTaken {s : State} (a : Answer) (rest : List Answer) (h : s.ordersTaken) :
    (s.sendAnswer a rest).ordersTaken := by
  have cleared : (State.clearQueuedMark { s with link := { s.link with answers := rest, tx := some a.frame } }
      a.number).ordersTaken := by
    unfold State.clearQueuedMark
    split
    · exact h
    · refine State.ordersTaken_congr (s := s) rfl id (fun e mem => ?_) h
      obtain ⟨x, mem', rfl⟩ := List.mem_map.1 mem
      exact ⟨x, mem', (x.mark_status _ false).symm⟩
  unfold State.sendAnswer State.placeWaiting
  split
  · split
    · exact State.takeNext_ordersTaken _
    · exact cleared
  · exact cleared

theorem State.answerEnded_ordersTaken {s : State} (i : Fin 64) (k : Nat) (h : s.ordersTaken) :
    (s.answerEnded i k).ordersTaken := by
  unfold State.answerEnded
  split
  · exact State.produceAnswer_ordersTaken _ h
  · exact h

theorem State.cancelFaulted_ordersTaken {s : State} (i : Fin 64) (h : s.ordersTaken) :
    (s.cancelFaulted i).ordersTaken := by
  unfold State.cancelFaulted
  split
  · exact State.produceAnswer_ordersTaken _ (State.ordersTaken_still (s.still_takeOut i) h)
  · exact h

theorem Moves.ordersTaken {s w : State} (moves : Moves s w) (h : s.ordersTaken) : w.ordersTaken := by
  obtain ⟨lanes, mem, access, mover, rfl⟩ := moves.frame
  exact h

theorem Stops.ordersTaken {s w : State} (stops : Stops s w) (h : s.ordersTaken) : w.ordersTaken := by
  obtain ⟨lanes, mem, access, mover, lowered, rfl⟩ := stops.frame
  exact h

theorem Act.keeps_ordersTaken {a b : Point} (act : Act a b) (h : a.state.ordersTaken) : b.state.ordersTaken := by
  have still : ∀ {s t : State}, t.still = s.still → s.ordersTaken → t.ordersTaken := State.ordersTaken_still
  cases act with
  | start opens _ _ _ _ hands => exact still (hands.still.trans opens.still) h
  | startFaulted opens => exact still ((State.still_faultProcessing _ _ _).trans opens.still) h
  | startLink opens _ _ _ _ hands => exact still (hands.still.trans opens.still) h
  | cut => exact still (State.still_unowned _ _ _) h
  | resume _ _ _ hands => exact still (hands.still.trans (State.still_resumed _ _ _)) h
  | tallyEnds => exact still ((State.still_endProcessing _ _).trans (State.still_commitProgress _ _ _ _ _)) h
  | tallyGoesOn => exact still ((State.still_endCurrent _ _).trans (State.still_commitProgress _ _ _ _ _)) h
  | commits moves => exact still (State.still_commitProgress _ _ _ _ _) (moves.ordersTaken h)
  | finishes moves =>
    exact State.answerEnded_ordersTaken _ _
      (still ((State.still_endProcessing _ _).trans (State.still_commitProgress _ _ _ _ _)) (moves.ordersTaken h))
  | cancels moves =>
    exact State.produceAnswer_ordersTaken _
      (still ((State.still_takeOut _ _).trans (State.still_commitProgress _ _ _ _ _)) (moves.ordersTaken h))
  | fails high unit failed =>
    exact State.cancelFaulted_ordersTaken _
      (still (State.still_faultProcessing _ _ _) (Stops.ordersTaken (.failed _ _ high unit failed) h))
  | linkMoves moves => exact moves.ordersTaken h
  | linkEnds stops => exact State.produceAnswer_ordersTaken _ (stops.ordersTaken h)
  | timesOut => exact still (State.still_faultProcessing _ _ _) h
  | stopsIdle stops => exact stops.ordersTaken h
  | stopsOwnerless stops => exact stops.ordersTaken h
  | asksAgain => exact still (State.still_ask _) h
  | freezes => exact State.produceAnswer_ordersTaken (s := State.setFreeze _ _) _ h
  | losesGrant =>
    unfold State.grantGone
    repeat' split
    all_goals exact h
  | event => exact still (State.still_eventAt _ _) h
  | unbind => exact still (State.still_takeOut _ _) h
  | cancelPreempted => exact still (State.still_takeOut _ _) h
  | cancelActive => exact still ((State.still_takeOut _ _).trans (State.still_dropBurst _)) h
  | skip => exact still (State.still_removeHead _ _ _) h
  | answers => exact State.produceAnswer_ordersTaken _ h
  | drains => exact still (State.still_drainPlace _ _ _) h
  | holdsFreeze | keepsFreeze | holdsCancel | holdsReset | opensAccess =>
    exact State.ordersTaken_hold _ _ h
  | takes => intro _ idle; cases idle
  | refuses =>
    unfold State.queueRefusal
    split
    · exact h
    · exact h
  | replays => exact State.replay_ordersTaken _ _ _ h
  | enters => exact State.takeNext_ordersTaken _
  | syncs => intro _ _ e mem; cases mem
  | sendsAnswer => exact State.sendAnswer_ordersTaken _ _ h
  | takesLow => intro high; cases high
  | releases => intro _ _ e mem; cases mem
  | resetsByOrder => intro _ _ e mem; cases mem
  | _ => exact h

/-- Settles O56: each act keeps the numbers and capacities, and leaves no order to an idle executor. -/
theorem linkPortKeepsItsLaws : Obligations.LinkPortKeepsItsLaws := by
  refine ⟨fun s t numbered bounded next => ?_, fun s t taken next => ?_⟩
  · exact step_keeps (I := fun p => p.state.link.lawful) Act.keeps_linkLawful next ⟨numbered, bounded⟩
  · exact step_keeps (I := fun p => p.state.ordersTaken) Act.keeps_ordersTaken next taken

end Sys2Proof.Machine
end

