-- ==== Sys2Proof/Proofs/NoticeLaws.lean ====
section
/-! Every act keeps the notice list numbered and each queued notice once in the transmit queue, and, outside a drain, a
record waiting only while the list is full (R141, R145, R147). -/

namespace Sys2Proof.Machine

/-! ## The numbers of the list -/

theorem mem_numbersFrom {w : Nat} {m x : BitVec w} {n : Nat} (h : x ∈ numbersFrom m n) :
    ∃ k < n, x = m + BitVec.ofNat w k := by
  induction n generalizing m with
  | zero => cases h
  | succ n ih =>
    rcases List.mem_cons.1 h with rfl | h
    · exact ⟨0, by omega, by simp⟩
    · obtain ⟨k, small, rfl⟩ := ih h
      exact ⟨k + 1, by omega, by rw [ofNat_succ_comm, add_assoc]⟩

theorem numbersFrom_nodup {n : Nat} (m : Half) (small : n ≤ 32) : (numbersFrom m n).Nodup := by
  induction n generalizing m with
  | zero => exact List.nodup_nil
  | succ n ih =>
    refine List.nodup_cons.2 ⟨fun mem => ?_, ih (m + 1) (by omega)⟩
    obtain ⟨k, under, e⟩ := mem_numbersFrom mem
    bv_omega

/-- The next number is none of the list's. -/
theorem next_not_mem {n : Nat} (next : Half) (small : n ≤ 32) : next ∉ numbersFrom (next - BitVec.ofNat 16 n) n := by
  intro mem
  obtain ⟨k, under, e⟩ := mem_numbersFrom mem
  bv_omega

theorem NoticeList.numbered.nodup {l : NoticeList} (h : l.numbered) : (l.list.map Notice.number).Nodup := by
  obtain ⟨size, numbers⟩ := h
  rw [numbers]
  exact numbersFrom_nodup _ size

/-- A number names one notice of the list. -/
theorem NoticeList.numbered.unique {l : NoticeList} (h : l.numbered) {x y : Notice} (hx : x ∈ l.list) (hy : y ∈ l.list)
    (same : x.number = y.number) : x = y :=
  List.inj_on_of_nodup_map h.nodup hx hy same

/-! ## The operations of the list -/

/-- The laws of the list at a point of a step: a drain may find a record waiting while the list has room. -/
def NoticeList.lawful (m : Mode) (l : NoticeList) : Prop :=
  l.numbered ∧ l.queuedOnce ∧ (m ≠ .drain → l.waitsOnlyWhenFull)

theorem NoticeList.lawful_atReset (m : Mode) (reason : ResetReason) (size : Nat) :
    (NoticeList.atReset reason size).lawful m := by
  have queue : (NoticeList.atReset reason size).txQueue = [0] := rfl
  have number : (0 : Half) = 1 - BitVec.ofNat 16 1 := by decide
  refine ⟨⟨?_, congrArg (fun n => [n]) number⟩, ⟨queue ▸ List.nodup_singleton 0, fun n => ?_⟩, fun _ => .inl rfl⟩
  · exact Nat.one_le_iff_ne_zero.2 (by decide)
  · rw [queue, List.mem_singleton]
    constructor
    · rintro rfl
      exact ⟨_, List.mem_singleton.2 rfl, rfl, rfl⟩
    · rintro ⟨x, mem, number, -⟩
      rw [List.mem_singleton.1 mem] at number
      exact number.symm

/-- Outside a drain the laws are those of every mode. -/
theorem NoticeList.lawful.change {m m' : Mode} {l : NoticeList} (h : l.lawful m) (notDrain : m ≠ .drain) :
    l.lawful m' := by
  obtain ⟨numbered, queued, waits⟩ := h
  exact ⟨numbered, queued, fun _ => waits notDrain⟩

/-- A notice takes the next number (R143). -/
def NoticeList.placed (l : NoticeList) (body : NoticeBody) : NoticeList :=
  { l with list := l.list ++ [{ number := l.next, body := body, queued := true }]
           txQueue := l.txQueue ++ [l.next]
           next := l.next + 1 }

theorem NoticeList.placed_numbered {l : NoticeList} (body : NoticeBody) (h : l.numbered)
    (room : l.list.length < noticePlaces) : (l.placed body).numbered := by
  obtain ⟨-, numbers⟩ := h
  have length : (l.placed body).list.length = l.list.length + 1 := by simp [NoticeList.placed]
  refine ⟨length ▸ room, ?_⟩
  rw [length]
  refine Eq.trans ?_ (numbersFrom_append l.next l.list.length)
  rw [← numbers]
  exact List.map_append

theorem NoticeList.placed_queuedOnce {l : NoticeList} (body : NoticeBody) (numbered : l.numbered) (h : l.queuedOnce) :
    (l.placed body).queuedOnce := by
  obtain ⟨nodup, queued⟩ := h
  have fresh : l.next ∉ l.list.map Notice.number := by
    obtain ⟨size, numbers⟩ := numbered
    rw [numbers]
    exact next_not_mem _ size
  have fresh' : l.next ∉ l.txQueue := by
    intro mem
    obtain ⟨x, mem', number, -⟩ := (queued l.next).1 mem
    exact fresh (List.mem_map.2 ⟨x, mem', number⟩)
  refine ⟨List.nodup_append.2 ⟨nodup, by simp, ?_⟩, fun n => ?_⟩
  · intro a ha b hb e
    simp only [List.mem_singleton] at hb
    exact fresh' (hb ▸ e ▸ ha)
  · simp only [NoticeList.placed, List.mem_append, List.mem_singleton, queued n]
    constructor
    · rintro (⟨x, mem, number, q⟩ | rfl)
      · exact ⟨x, .inl mem, number, q⟩
      · exact ⟨_, .inr rfl, rfl, rfl⟩
    · rintro ⟨x, mem | rfl, number, q⟩
      · exact .inl ⟨x, mem, number, q⟩
      · exact .inr number.symm

/-- What the numbers and the transmit queue's law speak of. -/
theorem NoticeList.waits_congr {l : NoticeList} (waiting : List Record) (numbered : l.numbered) (queued : l.queuedOnce) :
    NoticeList.numbered { l with waiting := waiting } ∧ NoticeList.queuedOnce { l with waiting := waiting } :=
  ⟨numbered, queued⟩

/-- A record is placed while there is room, and else waits at a full list (R125). -/
theorem NoticeList.offer_lawful {m : Mode} {l : NoticeList} (r : Record) (h : l.lawful m) : (l.offer r).lawful m := by
  obtain ⟨numbered, queued, waits⟩ := h
  unfold NoticeList.offer
  split
  next room =>
    simp only [Bool.and_eq_true, decide_eq_true_eq, List.isEmpty_iff] at room
    exact ⟨NoticeList.placed_numbered (.report r) numbered room.1,
      NoticeList.placed_queuedOnce (.report r) numbered queued, fun _ => .inl room.2⟩
  next full =>
    refine ⟨numbered, queued, fun notDrain => .inr ?_⟩
    obtain ⟨size, -⟩ := numbered
    rcases waits notDrain with none | all
    · simp only [none, List.isEmpty_nil, Bool.and_true, decide_eq_true_eq] at full
      exact le_antisymm size (Nat.le_of_not_lt full)
    · exact all

theorem NoticeList.remove_lawful {m : Mode} {l : NoticeList} (k : Nat) (h : l.lawful m) : (l.remove k).lawful .drain := by
  obtain ⟨numbered, ⟨nodup, queued⟩, -⟩ := h
  refine ⟨⟨?_, ?_⟩, ⟨nodup.filter _, fun n => ?_⟩, fun no => (no rfl).elim⟩
  · obtain ⟨size, -⟩ := numbered
    exact le_trans (by simp [NoticeList.remove]) size
  · obtain ⟨-, numbers⟩ := numbered
    change (l.list.drop k).map Notice.number =
      numbersFrom (l.next - BitVec.ofNat 16 (l.list.drop k).length) (l.list.drop k).length
    rcases Nat.lt_or_ge l.list.length k with none | some
    · rw [List.drop_eq_nil_of_le none.le]
      rfl
    · obtain ⟨n, length⟩ := Nat.exists_eq_add_of_le some
      have rest : (l.list.drop k).length = n := by rw [List.length_drop, length]; omega
      rw [List.map_drop, numbers, rest, length, numbersFrom_drop, BitVec.ofNat_add]
      congr 1
      exact sub_add_eq_sub_sub_swap l.next (BitVec.ofNat 16 k) (BitVec.ofNat 16 n) ▸ sub_add_cancel _ _
  · simp only [NoticeList.remove, List.mem_filter, List.any_eq_true, decide_eq_true_eq, queued n]
    constructor
    · rintro ⟨⟨x, mem, number, q⟩, y, kept, number'⟩
      have same := numbered.unique mem (List.mem_of_mem_drop kept) (number.trans number'.symm)
      exact ⟨y, kept, number', same ▸ q⟩
    · rintro ⟨x, kept, number, q⟩
      exact ⟨⟨x, List.mem_of_mem_drop kept, number, q⟩, x, kept, number⟩

theorem NoticeList.resend_lawful {m : Mode} {l : NoticeList} (h : l.lawful m) : l.resend.lawful m := by
  obtain ⟨numbered, ⟨nodup, queued⟩, waits⟩ := h
  have unique := fun {x y} => numbered.unique (x := x) (y := y)
  have unqueued : ∀ n, n ∈ l.unqueued ↔ ∃ x ∈ l.list, x.number = n ∧ x.queued = false := by
    intro n
    simp only [NoticeList.unqueued, List.mem_map, List.mem_filter, Bool.not_eq_true', and_assoc]
    exact exists_congr fun x => and_congr_right fun _ => and_comm
  refine ⟨?_, ⟨List.nodup_append.2 ⟨nodup, ?_, ?_⟩, fun n => ?_⟩, fun notDrain => ?_⟩
  · obtain ⟨size, numbers⟩ := numbered
    have length : l.resend.list.length = l.list.length := by simp [NoticeList.resend]
    refine ⟨length ▸ size, ?_⟩
    rw [length]
    refine Eq.trans ?_ numbers
    simp [NoticeList.resend]
  · exact numbered.nodup.sublist (List.filter_sublist.map _)
  · intro a ha b hb e
    obtain ⟨x, memx, numberx, qx⟩ := (queued a).1 ha
    obtain ⟨y, memy, numbery, qy⟩ := (unqueued b).1 hb
    have same := unique memx memy (numberx.trans (e.trans numbery.symm))
    simp [← same, qx] at qy
  · simp only [NoticeList.resend, List.mem_append, queued n, unqueued n, List.mem_map]
    constructor
    · rintro (⟨x, mem, number, -⟩ | ⟨x, mem, number, -⟩)
      · exact ⟨_, ⟨x, mem, rfl⟩, number, rfl⟩
      · exact ⟨_, ⟨x, mem, rfl⟩, number, rfl⟩
    · rintro ⟨-, ⟨x, mem, rfl⟩, number, -⟩
      cases q : x.queued with
      | true => exact .inl ⟨x, mem, number, q⟩
      | false => exact .inr ⟨x, mem, number, q⟩
  · refine (waits notDrain).imp id fun all => ?_
    simpa [NoticeList.resend] using all

/-- The head of the transmit queue is taken, and its notice is queued no more (R147). -/
theorem NoticeList.unqueue_lawful {m : Mode} {l : NoticeList} {n : Half} {rest : List Half} (queue : l.txQueue = n :: rest)
    (h : l.lawful m) : NoticeList.lawful m { l with txQueue := rest, list := l.list.map (Notice.unqueue n) } := by
  obtain ⟨⟨size, numbers⟩, ⟨nodup, queued⟩, waits⟩ := h
  rw [queue] at nodup
  obtain ⟨gone, nodup⟩ := List.nodup_cons.1 nodup
  have same : (l.list.map (Notice.unqueue n)).map Notice.number = l.list.map Notice.number := by simp
  refine ⟨⟨by simpa using size, ?_⟩, ⟨nodup, fun k => ?_⟩, fun notDrain => ?_⟩
  · dsimp only
    rw [same, List.length_map]
    exact numbers
  · by_cases other : k = n
    · subst other
      refine ⟨fun mem => (gone mem).elim, ?_⟩
      rintro ⟨y, mem, number, q⟩
      obtain ⟨x, -, rfl⟩ := List.mem_map.1 mem
      rw [Notice.unqueue_queued number] at q
      cases q
    · have before : k ∈ rest ↔ k ∈ l.txQueue := by simp [queue, other]
      have kept : ∀ x : Notice, x.number = k → x.unqueue n = x := by
        intro x number
        exact if_neg (fun e => other (number.symm.trans e))
      rw [before, queued k]
      constructor
      · rintro ⟨x, mem, number, q⟩
        exact ⟨x, List.mem_map.2 ⟨x, mem, kept x number⟩, number, q⟩
      · rintro ⟨y, mem, number, q⟩
        obtain ⟨x, mem', rfl⟩ := List.mem_map.1 mem
        rw [Notice.unqueue_number] at number
        rw [kept x number] at q
        exact ⟨x, mem', number, q⟩
  · exact (waits notDrain).imp id fun all => by simpa using all

/-! ## The invariant -/

theorem Hands.notes {s t : State} {b : Burst} {st : Stage} (hands : Hands s b st t) : t.notes = s.notes := by
  obtain ⟨mover, lowered, rfl⟩ := hands.frame
  rfl

theorem State.push_notes (s : State) (b : Burst) : (s.push b).notes = s.notes := by
  unfold State.push
  dsimp only
  split <;> rfl

theorem Opens.notes {s u : State} (opens : Opens s u) : u.notes = s.notes := by
  cases opens with
  | free => rfl
  | push b => exact s.push_notes b

theorem State.unowned_notes (s : State) (st : LiveState) (o : Owner) : (s.unowned st o).notes = s.notes := by
  cases o <;> rfl

theorem State.resumed_notes (s : State) (e : StackEntry) (rest : List StackEntry) :
    (s.resumed e rest).notes = s.notes := s.unowned_notes .active e.owner

theorem State.answerEnded_notes (s : State) (i : Fin 64) (k : Nat) : (s.answerEnded i k).notes = s.notes := by
  unfold State.answerEnded
  split <;> simp

theorem State.takeOut_notes (s : State) (i : Fin 64) : (s.takeOut i).notes = s.notes :=
  State.apart.notes (s.apart_takeOut i)

theorem State.cancelFaulted_notes (s : State) (i : Fin 64) : (s.cancelFaulted i).notes = s.notes := by
  unfold State.cancelFaulted
  split
  · simp [State.takeOut_notes]
  · rfl

theorem State.commitProgress_notes (s : State) (i : Fin 64) (d : Descriptor) (p : Progress) (b : Burst) :
    (s.commitProgress i d p b).notes = s.notes := by
  have kept := State.apart.notes (s.commitProgress_apart i d p b)
  exact kept

theorem Moves.notes {s w : State} (moves : Moves s w) : w.notes = s.notes := by
  obtain ⟨lanes, mem, access, mover, rfl⟩ := moves.frame
  rfl

theorem Stops.notes {s w : State} (stops : Stops s w) : w.notes = s.notes := by
  obtain ⟨lanes, mem, access, mover, lowered, rfl⟩ := stops.frame
  rfl

theorem State.ask_notes (s : State) : s.ask.notes = s.notes := by
  unfold State.ask
  split <;> rfl

theorem State.drainPlace_notes (s : State) (r : Record) (rest : List Record) :
    (s.drainPlace r rest).notes = NoticeList.placed { s.notes with waiting := rest } (.report r) := by
  cases r with
  | ended e => exact State.apart.notes (State.apart_requeue _ e)
  | faulted f => rfl

theorem State.dropBurst_notes (s : State) : s.dropBurst.notes = s.notes := by
  unfold State.dropBurst
  split <;> rfl

theorem State.takeLow_notes (s : State) : s.takeLow.notes = s.notes := by
  obtain ⟨mover, mem, count, e⟩ := s.abandonUnit_frame
  rw [State.takeLow, e]

/-- End and fault processing offer a record at most. -/
theorem NoticeList.lawful_of_offer {m : Mode} {l l' : NoticeList} (offers : l' = l ∨ ∃ r, l' = l.offer r)
    (h : l.lawful m) : l'.lawful m := by
  rcases offers with rfl | ⟨r, rfl⟩
  · exact h
  · exact NoticeList.offer_lawful r h

theorem Act.keeps_noticeLawful {a b : Point} (act : Act a b) (h : a.state.notes.lawful a.mode) :
    b.state.notes.lawful b.mode := by
  have same : ∀ {m : Mode} {l l' : NoticeList}, l' = l → l.lawful m → l'.lawful m := fun e h => e ▸ h
  have ends : ∀ {m s i}, s.notes.lawful m → (State.endProcessing s i).notes.lawful m :=
    fun h => NoticeList.lawful_of_offer (State.endProcessing_notes _ _) h
  have faults : ∀ {m s i f}, s.notes.lawful m → (State.faultProcessing s i f).notes.lawful m :=
    fun h => NoticeList.lawful_of_offer (State.faultProcessing_notes _ _ _) h
  cases act with
  | start opens _ _ _ _ hands => exact same (hands.notes.trans opens.notes) h
  | startFaulted opens => exact faults (same opens.notes h)
  | startLink opens _ _ _ _ hands => exact same (hands.notes.trans opens.notes) h
  | cut => exact same (State.unowned_notes _ _ _) h
  | resume _ _ _ hands => exact same (hands.notes.trans (State.resumed_notes _ _ _)) h
  | tallyEnds => exact ends (same (State.commitProgress_notes _ _ _ _ _) h)
  | tallyGoesOn => exact same (State.commitProgress_notes _ _ _ _ _) h
  | commits moves => exact same ((State.commitProgress_notes _ _ _ _ _).trans moves.notes) h
  | finishes moves =>
    exact same (State.answerEnded_notes _ _ _)
      (ends (same ((State.commitProgress_notes _ _ _ _ _).trans moves.notes) h))
  | cancels moves =>
    exact same ((State.produceAnswer_notes _ _).trans
      ((State.takeOut_notes _ _).trans ((State.commitProgress_notes _ _ _ _ _).trans moves.notes))) h
  | fails high unit failed =>
    exact same (State.cancelFaulted_notes _ _) (faults (same (Stops.notes (.failed _ _ high unit failed)) h))
  | linkMoves moves => exact same moves.notes h
  | linkEnds stops => exact same ((State.produceAnswer_notes _ _).trans stops.notes) h
  | timesOut => exact faults h
  | stopsIdle stops => exact same stops.notes h
  | stopsOwnerless stops => exact same stops.notes h
  | freezes => exact same (State.produceAnswer_notes _ _) h
  | losesGrant =>
    unfold State.grantGone
    repeat' split
    all_goals exact h
  | event => exact same (State.apart.notes (State.apart_eventAt _ _)) h
  | unbind => exact same (State.takeOut_notes _ _) h
  | cancelPreempted => exact same (State.takeOut_notes _ _) h
  | cancelActive => exact same ((State.takeOut_notes _ _).trans (State.dropBurst_notes _)) h
  | skip => exact same (State.apart.notes (State.apart_removeHead _ _ _)) h
  | asksAgain => exact same (State.ask_notes _) h
  | holdsFreeze | keepsFreeze | holdsCancel | opensAccess => exact h.change nofun
  | takes => exact h.change nofun
  | answers => exact same (State.produceAnswer_notes _ _) (h.change nofun)
  | resends => exact NoticeList.resend_lawful h
  | acknowledges => exact NoticeList.remove_lawful _ h
  | drains room waiting =>
    obtain ⟨numbered, queued, -⟩ := h
    refine same (State.drainPlace_notes _ _ _)
      ⟨NoticeList.placed_numbered _ numbered room, NoticeList.placed_queuedOnce _ numbered queued, fun no => (no rfl).elim⟩
  | drained ends =>
    obtain ⟨numbered, queued, -⟩ := h
    exact ⟨numbered, queued, fun _ => ends.symm.imp id fun full => le_antisymm numbered.1 full⟩
  | refuses => obtain ⟨link, e⟩ := State.queueRefusal_frame _ _; exact same (congrArg State.notes e) h
  | replays => obtain ⟨link, e⟩ := State.replay_frame _ _ _ _; exact same (congrArg State.notes e) h
  | enters => obtain ⟨link, hand, e⟩ := State.enterOrder_frame _ _; exact same (congrArg State.notes e) h
  | sendsAnswer => obtain ⟨link, hand, e⟩ := State.sendAnswer_frame _ _ _; exact same (congrArg State.notes e) h
  | sendsNotice queue => exact NoticeList.unqueue_lawful queue h
  | takesLow => exact same (State.takeLow_notes _) h
  | releases => exact NoticeList.lawful_atReset _ _ _
  | resetsByOrder => exact NoticeList.lawful_atReset _ _ _
  | _ => exact h

/-- Settles O55: each act keeps the list's laws, a drain's waiting records apart. -/
theorem noticeListKeepsItsLaws : Obligations.NoticeListKeepsItsLaws := by
  intro s t numbered queued waits next
  obtain ⟨numbered', queued', waits'⟩ := step_keeps (I := fun p => p.state.notes.lawful p.mode) Act.keeps_noticeLawful
    next ⟨numbered, queued, fun _ => waits⟩
  exact ⟨numbered', queued', waits' nofun⟩

end Sys2Proof.Machine
end

