-- ==== Sys2Proof/Proofs/Records.lean ====
section
/-! The descriptor records of the slots: no act but DEFINE, REARM, RELEASE and the resets touches one (R3, R15). -/

namespace Sys2Proof.Machine

/-- The record of a slot, if it holds one. -/
def Slot.record? : Slot → Option Descriptor
  | .free => none
  | .live _ d _ => some d

/-- The records of all slots. -/
def State.records (s : State) : Fin 64 → Option Descriptor := fun i => (s.slot i).record?

theorem Slot.record?_eq_some {v : Slot} {d : Descriptor} : v.record? = some d ↔ ∃ st p, v = .live st d p := by
  cases v with
  | free => simp [Slot.record?]
  | live st d' p => simp [Slot.record?]

theorem State.records_live {s : State} {i : Fin 64} {st : LiveState} {d : Descriptor} {p : Progress}
    (slot : s.slot i = .live st d p) : s.records i = some d := by
  simp [State.records, slot, Slot.record?]

@[simp] theorem Slot.record?_to (st : LiveState) (v : Slot) : (v.to st).record? = v.record? := by
  cases v <;> rfl

section
variable (s : State)

theorem State.records_congr {s t : State} (slots : t.slots = s.slots) : t.records = s.records := by
  funext i
  simp only [State.records, State.slot, slots]

theorem State.records_setSlot {s : State} {i : Fin 64} {v : Slot} (same : v.record? = s.records i) :
    (s.setSlot i v).records = s.records := by
  funext j
  simp only [State.records, State.slot_setSlot]
  split_ifs with here
  · subst here; exact same
  · rfl

@[simp] theorem State.records_setState (i : Fin 64) (st : LiveState) : (s.setState i st).records = s.records :=
  State.records_setSlot (Slot.record?_to st _)

@[simp] theorem State.records_setBurst (b : Option Burst) : (s.setBurst b).records = s.records := rfl
@[simp] theorem State.records_clearBurst : s.clearBurst.records = s.records := rfl
@[simp] theorem State.records_setStack (l : List StackEntry) : (s.setStack l).records = s.records := rfl
@[simp] theorem State.records_setAccess (a : Option LinkAccess) : (s.setAccess a).records = s.records := rfl
@[simp] theorem State.records_setQueue (q : Fin 28) (l : List (Fin 64)) : (s.setQueue q l).records = s.records := rfl
@[simp] theorem State.records_setMiss (q : Fin 28) (c : Nat) : (s.setMiss q c).records = s.records := rfl
@[simp] theorem State.records_setCount (q : Fin 28) (c : Nat) : (s.setCount q c).records = s.records := rfl
@[simp] theorem State.records_clearMiss (q : Fin 28) : (s.clearMiss q).records = s.records := rfl
@[simp] theorem State.records_place (body : NoticeBody) : (s.place body).records = s.records := rfl
@[simp] theorem State.records_makeWait (r : Record) : (s.makeWait r).records = s.records := rfl
@[simp] theorem State.records_setNotes (l : NoticeList) : (s.setNotes l).records = s.records := rfl
@[simp] theorem State.records_lowerRequest : s.lowerRequest.records = s.records := rfl
@[simp] theorem State.records_goes (m : MoverState) : (s.goes m).records = s.records := rfl
@[simp] theorem State.records_produceAnswer (p : List Byte) : (s.produceAnswer p).records = s.records :=
  State.records_congr (s.produceAnswer_slots p)

@[simp] theorem State.records_eventAt (q : Fin 28) : (s.eventAt q).records = s.records := by
  unfold State.eventAt; split <;> simp

@[simp] theorem State.records_consume (q : Fin 28) : (s.consume q).records = s.records := by
  unfold State.consume; split <;> simp

@[simp] theorem State.records_promoteHead (q : Fin 28) : (s.promoteHead q).records = s.records := by
  unfold State.promoteHead; split
  · rfl
  · split <;> simp

@[simp] theorem State.records_removeHead (q : Fin 28) (st : LiveState) : (s.removeHead q st).records = s.records := by
  unfold State.removeHead; split <;> simp

@[simp] theorem State.records_moveHeadToTail (q : Fin 28) : (s.moveHeadToTail q).records = s.records := by
  unfold State.moveHeadToTail; split <;> simp

@[simp] theorem State.records_takeOut (i : Fin 64) : (s.takeOut i).records = s.records := by
  unfold State.takeOut; split
  · rfl
  · split <;> simp [State.removeMember]

@[simp] theorem State.records_fireEndAction (i : Fin 64) : (s.fireEndAction i).records = s.records := by
  unfold State.fireEndAction; split
  · split <;> simp
  · rfl

@[simp] theorem State.records_recirculate (i : Fin 64) : (s.recirculate i).records = s.records := by
  unfold State.recirculate; split
  next slot => exact State.records_setSlot (State.records_live slot).symm
  · rfl

@[simp] theorem State.records_requeue (r : EndRecord) : (s.requeue r).records = s.records := by
  unfold State.requeue; split <;> simp

@[simp] theorem State.records_placed (r : Record) : (s.placed r).records = s.records := by
  cases r <;> simp [State.placed]

@[simp] theorem State.records_endProcessing (i : Fin 64) : (s.endProcessing i).records = s.records := by
  unfold State.endProcessing; split
  · rfl
  · dsimp only; split <;> simp

@[simp] theorem State.records_faultProcessing (i : Fin 64) (f : FaultKind) :
    (s.faultProcessing i f).records = s.records := by
  unfold State.faultProcessing; split
  · rfl
  next st d p slot =>
    have kept := State.records_setSlot (s := s.clearBurst) (v := .live .faulted d { p with lastFault := some f })
      (State.records_live slot).symm
    dsimp only
    split
    · exact kept
    · exact kept

@[simp] theorem State.records_endCurrent (i : Fin 64) : (s.endCurrent i).records = s.records := by
  simp [State.endCurrent]

theorem State.records_commitProgress {s : State} {i : Fin 64} {st : LiveState} {d : Descriptor} {p : Progress}
    (slot : s.slot i = .live st d p) (b : Burst) : (s.commitProgress i d p b).records = s.records := by
  have kept : (s.setSlot i (.live .active d (d.commit p))).records = s.records :=
    State.records_setSlot (State.records_live slot).symm
  unfold State.commitProgress
  dsimp only
  split
  · rw [State.records_consume]; exact kept
  · exact kept

@[simp] theorem State.records_unowned (st : LiveState) (o : Owner) : (s.unowned st o).records = s.records := by
  cases o <;> simp [State.unowned]

@[simp] theorem State.records_resumed (e : StackEntry) (rest : List StackEntry) :
    (s.resumed e rest).records = s.records := by
  simp [State.resumed]

@[simp] theorem State.records_push (b : Burst) : (s.push b).records = s.records := by
  unfold State.push
  dsimp only
  split <;> simp

@[simp] theorem State.records_dropBurst : s.dropBurst.records = s.records := by
  unfold State.dropBurst
  split <;> rfl

@[simp] theorem State.records_drainPlace (r : Record) (rest : List Record) :
    (s.drainPlace r rest).records = s.records := by
  cases r <;> simp [State.drainPlace]

@[simp] theorem State.records_answerEnded (i : Fin 64) (k : Nat) : (s.answerEnded i k).records = s.records := by
  unfold State.answerEnded
  split <;> simp

@[simp] theorem State.records_cancelFaulted (i : Fin 64) : (s.cancelFaulted i).records = s.records := by
  unfold State.cancelFaulted
  split <;> simp

theorem State.records_begun {s : State} {i : Fin 64} {st : LiveState} {d : Descriptor} {p : Progress}
    (slot : s.slot i = .live st d p) : (s.begun i d p).records = s.records :=
  State.records_setSlot (s := s) (State.records_live slot).symm

end

theorem Hands.records {s t : State} {b : Burst} {st : Stage} (hands : Hands s b st t) : t.records = s.records := by
  obtain ⟨mover, lowered, rfl⟩ := hands.frame
  rfl

theorem Opens.records {s u : State} (opens : Opens s u) : u.records = s.records := by
  cases opens with
  | free => rfl
  | push b => exact s.records_push b

theorem Opens.records_begun {s u : State} (opens : Opens s u) {i : Fin 64} {d : Descriptor} {p : Progress}
    (slot : s.slot i = .live .current d p) : (u.begun i d p).records = s.records := by
  obtain ⟨st, slot'⟩ := opens.slot slot
  exact (State.records_begun slot').trans opens.records

theorem Moves.records {s w : State} (moves : Moves s w) : w.records = s.records := by
  obtain ⟨lanes, mem, access, mover, rfl⟩ := moves.frame
  rfl

theorem Stops.records {s w : State} (stops : Stops s w) : w.records = s.records := by
  obtain ⟨lanes, mem, access, mover, lowered, rfl⟩ := stops.frame
  rfl

/-- The acts that put a record into a slot or take one out: DEFINE, REARM, RELEASE and the resets. -/
inductive Rewrites (s : State) : State → Prop where
  | define {i r d} : (s.slot i).definable = true → s.waitingMark i = false → readRecord r = some d →
      d.transfer.aligned = true → d.inside s.memorySize = true → Rewrites s (s.load i d)
  | rearm {i d} : (s.slot i).atRest? = some d → s.waitingMark i = false → Rewrites s (s.load i d)
  | release {i d} : (s.slot i).atRest? = some d → s.waitingMark i = false → Rewrites s (s.setSlot i .free)
  | reset (u : State) (reason : ResetReason) : Rewrites s (u.resetBlocks reason)

/-- Every other act leaves the records as they were. -/
theorem Act.records {a b : Point} (act : Act a b) :
    b.state.records = a.state.records ∨ Rewrites a.state b.state := by
  cases act with
  | define definable unmarked read aligned inside => exact .inr (.define definable unmarked read aligned inside)
  | rearm rest unmarked => exact .inr (.rearm rest unmarked)
  | release rest unmarked => exact .inr (.release rest unmarked)
  | releases => exact .inr (.reset _ _)
  | resetsByOrder => exact .inr (.reset _ _)
  | start opens slot _ _ _ hands => exact .inl <| hands.records.trans (opens.records_begun slot)
  | startFaulted opens slot => exact .inl <| (State.records_faultProcessing _ _ _).trans (opens.records_begun slot)
  | startLink opens _ _ _ _ hands => exact .inl <| hands.records.trans opens.records
  | cut => exact .inl <| State.records_unowned _ _ _
  | resume _ _ _ hands => exact .inl <| hands.records.trans (State.records_resumed _ _ _)
  | @tallyEnds m s _ _ _ _ _ _ slot =>
    exact .inl <| (State.records_endProcessing _ _).trans (State.records_commitProgress (s := s.goes .moving) slot _)
  | @tallyGoesOn m s _ _ _ _ _ _ slot =>
    exact .inl <| (State.records_endCurrent _ _).trans (State.records_commitProgress (s := s.goes .moving) slot _)
  | fallsShort => exact .inl <| State.records_endCurrent _ _
  | commits moves _ _ slot => exact .inl <| (State.records_commitProgress slot _).trans moves.records
  | finishes moves _ _ slot =>
    exact .inl <| (State.records_answerEnded _ _ _).trans
      ((State.records_endProcessing _ _).trans ((State.records_commitProgress slot _).trans moves.records))
  | cancels moves _ _ slot =>
    exact .inl <| (State.records_produceAnswer _ _).trans
      ((State.records_takeOut _ _).trans ((State.records_commitProgress slot _).trans moves.records))
  | fails high unit failed =>
    exact .inl <| (State.records_cancelFaulted _ _).trans
      ((State.records_faultProcessing _ _ _).trans (Stops.records (.failed _ _ high unit failed)))
  | linkMoves moves => exact .inl <| moves.records
  | linkEnds stops => exact .inl <| (State.records_produceAnswer _ _).trans stops.records
  | timesOut => exact .inl <| State.records_faultProcessing _ _ _
  | stopsIdle stops => exact .inl <| stops.records
  | stopsOwnerless stops => exact .inl <| stops.records
  | endsCurrent => exact .inl <| State.records_endCurrent _ _
  | asksAgain => left; unfold State.ask; split <;> rfl
  | freezes => exact .inl <| State.records_produceAnswer _ _
  | losesGrant =>
    left
    unfold State.grantGone State.ask
    repeat' split
    all_goals rfl
  | event => exact .inl <| State.records_eventAt _ _
  | bind => exact .inl <| State.records_setState _ _ _
  | unbind => exact .inl <| State.records_takeOut _ _
  | cancelPreempted => exact .inl <| State.records_takeOut _ _
  | cancelActive => exact .inl <| (State.records_takeOut _ _).trans (State.records_dropBurst _)
  | retry slot => exact .inl <| State.records_setSlot (State.records_live slot).symm
  | skip => exact .inl <| State.records_removeHead _ _ _
  | freezeCut => exact .inl <| State.records_endCurrent _ _
  | answers => exact .inl <| State.records_produceAnswer _ _
  | drains => exact .inl <| State.records_drainPlace _ _ _
  | refuses => left; obtain ⟨link, e⟩ := State.queueRefusal_frame _ _; rw [e]; rfl
  | replays => left; obtain ⟨link, e⟩ := State.replay_frame _ _ _ _; rw [e]; rfl
  | enters => left; obtain ⟨link, hand, e⟩ := State.enterOrder_frame _ _; rw [e]; rfl
  | sendsAnswer => left; obtain ⟨link, hand, e⟩ := State.sendAnswer_frame _ _ _; rw [e]; rfl
  | @takesLow s =>
    left
    obtain ⟨mover, mem, count, e⟩ := s.abandonUnit_frame
    simp only [State.takeLow, e]
    rfl
  | _ => exact .inl rfl

end Sys2Proof.Machine
end

