-- ==== Sys2Proof/Proofs/Counts.lean ====
section
/-! Every act keeps pending counts in 0 to 3 and miss counts in 0 to 255 (R24, R25). -/

namespace Sys2Proof.Machine

/-! ## What leaves the trigger unit alone -/

section
variable (s : State)

@[simp] theorem State.promoteHead_trig (q : Fin 28) : (s.promoteHead q).trig = s.trig := by
  unfold State.promoteHead; split
  · rfl
  · split <;> rfl

@[simp] theorem State.removeHead_trig (q : Fin 28) (st : LiveState) : (s.removeHead q st).trig = s.trig := by
  unfold State.removeHead; split <;> simp

@[simp] theorem State.moveHeadToTail_trig (q : Fin 28) : (s.moveHeadToTail q).trig = s.trig := by
  unfold State.moveHeadToTail; split <;> simp

@[simp] theorem State.takeOut_trig (i : Fin 64) : (s.takeOut i).trig = s.trig := by
  unfold State.takeOut; split
  · rfl
  · split
    · simp
    · rfl

@[simp] theorem State.recirculate_trig (i : Fin 64) : (s.recirculate i).trig = s.trig := by
  unfold State.recirculate; split <;> rfl

@[simp] theorem State.requeue_trig (r : EndRecord) : (s.requeue r).trig = s.trig := by
  unfold State.requeue; split <;> simp

@[simp] theorem State.push_trig (b : Burst) : (s.push b).trig = s.trig := by
  unfold State.push; dsimp only; split <;> rfl

@[simp] theorem State.resumed_trig (e : StackEntry) (rest : List StackEntry) : (s.resumed e rest).trig = s.trig := by
  obtain ⟨owner, level, moved⟩ := e
  cases owner <;> rfl

@[simp] theorem State.dropBurst_trig : s.dropBurst.trig = s.trig := by
  unfold State.dropBurst; split <;> rfl

@[simp] theorem State.drainPlace_trig (r : Record) (rest : List Record) : (s.drainPlace r rest).trig = s.trig := by
  cases r <;> simp [State.drainPlace]

@[simp] theorem State.answerEnded_trig (i : Fin 64) (k : Nat) : (s.answerEnded i k).trig = s.trig := by
  unfold State.answerEnded; split <;> simp

@[simp] theorem State.cancelFaulted_trig (i : Fin 64) : (s.cancelFaulted i).trig = s.trig := by
  unfold State.cancelFaulted; split <;> simp

@[simp] theorem State.ask_trig : s.ask.trig = s.trig := by
  unfold State.ask; split <;> rfl

end

theorem Hands.trig {s t : State} {b : Burst} {st : Stage} (hands : Hands s b st t) : t.trig = s.trig := by
  obtain ⟨mover, lowered, rfl⟩ := hands.frame
  rfl

theorem Opens.trig {s u : State} (opens : Opens s u) : u.trig = s.trig := by
  cases opens with
  | free => rfl
  | push b => exact s.push_trig b

theorem Moves.trig {s w : State} (moves : Moves s w) : w.trig = s.trig := by
  obtain ⟨lanes, mem, access, mover, rfl⟩ := moves.frame
  rfl

theorem Stops.trig {s w : State} (stops : Stops s w) : w.trig = s.trig := by
  obtain ⟨lanes, mem, access, mover, lowered, rfl⟩ := stops.frame
  rfl

/-! ## What changes the counts -/

theorem State.countsBounded_congr {s t : State} (counts : t.trig.counts = s.trig.counts)
    (misses : t.trig.misses = s.trig.misses) (h : s.countsBounded) : t.countsBounded := by
  intro q
  simp only [State.count, State.miss, counts, misses]
  exact h q

theorem State.countsBounded_trig {s t : State} (trig : t.trig = s.trig) (h : s.countsBounded) : t.countsBounded :=
  State.countsBounded_congr (congrArg _ trig) (congrArg _ trig) h

theorem State.setCount_countsBounded {s : State} (q : Fin 28) {c : Nat} (small : c ≤ 3) (h : s.countsBounded) :
    (s.setCount q c).countsBounded := by
  intro r
  refine ⟨?_, (h r).2⟩
  rw [State.count_setCount]
  split
  · exact small
  · exact (h r).1

theorem State.setMiss_countsBounded {s : State} (q : Fin 28) {c : Nat} (small : c ≤ 255) (h : s.countsBounded) :
    (s.setMiss q c).countsBounded := by
  intro r
  refine ⟨(h r).1, ?_⟩
  rw [State.miss_setMiss]
  split
  · exact small
  · exact (h r).2

theorem State.clearMiss_countsBounded {s : State} (q : Fin 28) (h : s.countsBounded) : (s.clearMiss q).countsBounded :=
  State.setMiss_countsBounded q (Nat.zero_le _) h

theorem State.eventAt_countsBounded {s : State} (q : Fin 28) (h : s.countsBounded) : (s.eventAt q).countsBounded := by
  unfold State.eventAt
  split
  next room => exact State.setCount_countsBounded q room h
  next => exact State.setMiss_countsBounded q (Nat.min_le_left _ _) h

theorem State.consume_countsBounded {s : State} (q : Fin 28) (h : s.countsBounded) : (s.consume q).countsBounded := by
  unfold State.consume
  split
  · exact State.setCount_countsBounded q ((Nat.sub_le _ _).trans (h q).1) h
  · exact h

theorem State.fireEndAction_countsBounded {s : State} (i : Fin 64) (h : s.countsBounded) :
    (s.fireEndAction i).countsBounded := by
  unfold State.fireEndAction
  split
  · split
    · exact State.eventAt_countsBounded _ h
    · exact h
  · exact h

theorem State.placed_countsBounded {s : State} (r : Record) (h : s.countsBounded) : (s.placed r).countsBounded := by
  cases r with
  | ended r => exact State.fireEndAction_countsBounded _ (State.countsBounded_trig (s.requeue_trig r) h)
  | faulted r => exact h

theorem State.endProcessing_countsBounded {s : State} (i : Fin 64) (h : s.countsBounded) :
    (s.endProcessing i).countsBounded := by
  unfold State.endProcessing
  split
  · exact h
  next =>
    have cleared : (s.clearBurst.clearMiss (s.sourceOf i)).countsBounded :=
      State.clearMiss_countsBounded (s := s.clearBurst) _ h
    dsimp only
    split
    · exact State.placed_countsBounded _ cleared
    · exact cleared

theorem State.faultProcessing_countsBounded {s : State} (i : Fin 64) (f : FaultKind) (h : s.countsBounded) :
    (s.faultProcessing i f).countsBounded := by
  unfold State.faultProcessing
  split
  · exact h
  next st d p slot =>
    have cleared :
        ((s.clearBurst.setSlot i (.live .faulted d { p with lastFault := some f })).clearMiss (s.sourceOf i)).countsBounded :=
      State.clearMiss_countsBounded (s := s.clearBurst.setSlot i (.live .faulted d { p with lastFault := some f })) _ h
    dsimp only
    split
    · exact cleared
    · exact cleared

theorem State.commitProgress_countsBounded {s : State} (i : Fin 64) (d : Descriptor) (p : Progress) (b : Burst)
    (h : s.countsBounded) : (s.commitProgress i d p b).countsBounded := by
  have moved : ((s.setSlot i (.live .active d (d.commit p))).setBurst (some { b with moved := b.moved + 1 })).countsBounded := h
  unfold State.commitProgress
  dsimp only
  split
  · exact State.consume_countsBounded _ moved
  · exact moved

theorem State.resetBlocks_countsBounded (s : State) (reason : ResetReason) : (s.resetBlocks reason).countsBounded := by
  intro q
  simp [State.resetBlocks, TriggerUnit.atReset, State.count, State.miss]

theorem Act.keeps_countsBounded {a b : Point} (act : Act a b) (h : a.state.countsBounded) : b.state.countsBounded := by
  have same : ∀ {s t : State}, t.trig = s.trig → s.countsBounded → t.countsBounded := State.countsBounded_trig
  cases act with
  | start opens _ _ _ _ hands => exact same (hands.trig.trans opens.trig) h
  | @startFaulted m s u i d p f o opens =>
    have begun : (u.begun i d p).lowerRequest.countsBounded := same (s := s) opens.trig h
    exact State.faultProcessing_countsBounded _ _ begun
  | startLink opens _ _ _ _ hands => exact same (hands.trig.trans opens.trig) h
  | @cut m s a e rest =>
    obtain ⟨owner, level, moved⟩ := e
    cases owner <;> exact h
  | resume _ _ _ hands => exact same (hands.trig.trans (State.resumed_trig _ _ _)) h
  | @tallyEnds m s b i d p =>
    exact State.endProcessing_countsBounded _ (State.commitProgress_countsBounded (s := s.goes .moving) i d p b h)
  | @tallyGoesOn m s b i d p => exact State.commitProgress_countsBounded (s := s.goes .moving) i d p b h
  | commits moves => exact State.commitProgress_countsBounded _ _ _ _ (same moves.trig h)
  | finishes moves =>
    exact same (State.answerEnded_trig _ _ _)
      (State.endProcessing_countsBounded _ (State.commitProgress_countsBounded _ _ _ _ (same moves.trig h)))
  | @cancels s w b i d p payload moves =>
    have committed := State.commitProgress_countsBounded i d p b (same moves.trig h)
    refine same (State.produceAnswer_trig _ _) (same (State.takeOut_trig _ _) ?_)
    exact committed
  | fails high unit failed =>
    exact same (State.cancelFaulted_trig _ _)
      (State.faultProcessing_countsBounded _ _ (same (Stops.trig (.failed _ _ high unit failed)) h))
  | linkMoves moves => exact same moves.trig h
  | linkEnds stops => exact same (State.produceAnswer_trig _ _) (same stops.trig h)
  | @timesOut s => exact State.faultProcessing_countsBounded (s := s.lowerRequest) _ _ h
  | stopsIdle stops => exact same stops.trig h
  | stopsOwnerless stops => exact same stops.trig h
  | asksAgain => exact same (State.ask_trig _) h
  | freezes => exact same (State.produceAnswer_trig _ _) h
  | losesGrant =>
    unfold State.grantGone
    repeat' split
    all_goals exact h
  | event => exact State.eventAt_countsBounded _ h
  | counted small => exact State.setCount_countsBounded _ small h
  | clearsMiss => exact State.clearMiss_countsBounded _ h
  | unbind => exact same (State.takeOut_trig _ _) h
  | cancelPreempted => exact same (State.takeOut_trig _ _) h
  | cancelActive => exact same ((State.takeOut_trig _ _).trans (State.dropBurst_trig _)) h
  | skip => exact same (State.removeHead_trig _ _ _) h
  | answers => exact same (State.produceAnswer_trig _ _) h
  | drains => exact same (State.drainPlace_trig _ _ _) h
  | refuses => obtain ⟨link, e⟩ := State.queueRefusal_frame _ _; rw [e]; exact h
  | replays => obtain ⟨link, e⟩ := State.replay_frame _ _ _ _; rw [e]; exact h
  | enters => obtain ⟨link, hand, e⟩ := State.enterOrder_frame _ _; rw [e]; exact h
  | sendsAnswer => obtain ⟨link, hand, e⟩ := State.sendAnswer_frame _ _ _; rw [e]; exact h
  | @takesLow s =>
    obtain ⟨mover, mem, count, e⟩ := s.abandonUnit_frame
    simp only [State.takeLow, e]
    exact h
  | releases => exact State.resetBlocks_countsBounded _ _
  | resetsByOrder => exact State.resetBlocks_countsBounded _ _
  | _ => exact h

end Sys2Proof.Machine
end

