-- ==== Sys2Proof/Proofs/Levels.lean ====
section
/-! What each act does to the burst in hand and the stack (`Act.turn`) and to the link access (`Act.access`): with it the
stack's levels rise strictly and every level stays in 1 to 6 (R57, R75). -/

namespace Sys2Proof.Machine

/-! ## The burst in hand and the stack -/

/-- A burst that differs from another at most in the units moved. -/
def Burst.alike (b c : Burst) : Prop := b.owner = c.owner ∧ b.level = c.level ∧ b.block = c.block

theorem Burst.alike_self (b : Burst) : b.alike b := ⟨rfl, rfl, rfl⟩

/-- Where the level of a burst that starts comes from: the CURRENT descriptor or the link access (R66, R68). -/
inductive Burst.Starts (s : State) (b : Burst) : Prop where
  | slot {i d p} : s.slot i = .live .current d p → s.laneFault d.transfer = none → b.owner = .slot i → b.level = d.level →
      Starts s b
  | link {a} : s.sched.access = some a → b.owner = .link → b.level = a.level → Starts s b

/-- What happens to the burst in hand and the stack in one act. -/
inductive Turn (s t : State) : Prop where
  | keeps : (∀ c, t.sched.burst = some c → ∃ b, s.sched.burst = some b ∧ c.alike b) →
      t.sched.stack.Sublist s.sched.stack → Turn s t
  | opens {u} : Opens s u → t.sched.burst = none → t.sched.stack = u.sched.stack → Turn s t
  | starts {u b} : Opens s u → t.sched.burst = some b → t.sched.stack = u.sched.stack → u.outranked b.level →
      b.Starts s → t.lanes = s.lanes → Turn s t
  | resumes {e rest b} : s.sched.stack = e :: rest → t.sched.burst = some b → b.owner = e.owner → b.level = e.level →
      t.sched.stack = rest → Turn s t

theorem Turn.same {s t : State} (burst : t.sched.burst = s.sched.burst) (stack : t.sched.stack = s.sched.stack) :
    Turn s t :=
  .keeps (fun c hc => ⟨c, burst ▸ hc, c.alike_self⟩) (stack ▸ .refl _)

theorem Turn.moved {s t : State} {b : Burst} (burst : s.sched.burst = some b)
    (next : t.sched.burst = some { b with moved := b.moved + 1 }) (stack : t.sched.stack = s.sched.stack) : Turn s t :=
  .keeps (fun c hc => ⟨b, burst, by rw [next] at hc; cases hc; exact ⟨rfl, rfl, rfl⟩⟩) (stack ▸ .refl _)

theorem Turn.drops {s t : State} (burst : t.sched.burst = none) (stack : t.sched.stack.Sublist s.sched.stack) : Turn s t :=
  .keeps (fun c hc => by rw [burst] at hc; cases hc) stack

theorem Turn.dropsAt {s t : State} (burst : t.sched.burst = none) (stack : t.sched.stack = s.sched.stack) : Turn s t :=
  .drops burst (stack ▸ .refl _)

/-! ### Frames of the acts' pieces -/

theorem Hands.sched {s t : State} {b : Burst} {st : Stage} (hands : Hands s b st t) : t.sched = s.sched := by
  obtain ⟨mover, lowered, rfl⟩ := hands.frame
  rfl

theorem Hands.burst {s t : State} {b : Burst} {st : Stage} (hands : Hands s b st t) : t.sched.burst = s.sched.burst :=
  congrArg _ hands.sched

theorem Hands.stack {s t : State} {b : Burst} {st : Stage} (hands : Hands s b st t) : t.sched.stack = s.sched.stack :=
  congrArg _ hands.sched

theorem Hands.access {s t : State} {b : Burst} {st : Stage} (hands : Hands s b st t) :
    t.sched.access = s.sched.access :=
  congrArg _ hands.sched

section
variable (s : State)

theorem State.endProcessing_stack (i : Fin 64) : (s.endProcessing i).sched.stack = s.sched.stack :=
  State.aloof.stack (s.aloof_endProcessing i)

theorem State.endProcessing_access (i : Fin 64) : (s.endProcessing i).sched.access = s.sched.access :=
  State.aloof.access (s.aloof_endProcessing i)

theorem State.faultProcessing_stack (i : Fin 64) (f : FaultKind) : (s.faultProcessing i f).sched.stack = s.sched.stack :=
  State.aloof.stack (s.aloof_faultProcessing i f)

theorem State.faultProcessing_access (i : Fin 64) (f : FaultKind) :
    (s.faultProcessing i f).sched.access = s.sched.access :=
  State.aloof.access (s.aloof_faultProcessing i f)

theorem State.commitProgress_stack (i : Fin 64) (d : Descriptor) (p : Progress) (b : Burst) :
    (s.commitProgress i d p b).sched.stack = s.sched.stack :=
  State.aloof.stack (s.aloof_commitProgress i d p b)

theorem State.commitProgress_access (i : Fin 64) (d : Descriptor) (p : Progress) (b : Burst) :
    (s.commitProgress i d p b).sched.access = s.sched.access :=
  State.aloof.access (s.aloof_commitProgress i d p b)

theorem State.drainPlace_apart (r : Record) (rest : List Record) :
    (s.drainPlace r rest).sched.burst = s.sched.burst ∧ (s.drainPlace r rest).sched.stack = s.sched.stack ∧
      (s.drainPlace r rest).sched.access = s.sched.access := by
  let t := (s.setNotes { s.notes with waiting := rest }).place (.report r)
  have kept : (s.drainPlace r rest).apart = t.apart := by
    cases r with
    | ended r => exact t.apart_requeue r
    | faulted r => rfl
  exact ⟨(State.apart.burst kept :), (State.apart.stack kept :), (State.apart.access kept :)⟩

end

/-- A unit's end leaves the burst, the stack, the freeze state and the queues alone. -/
theorem Moves.sched {s w : State} (moves : Moves s w) : ∃ access, w.sched = { s.sched with access := access } := by
  obtain ⟨lanes, mem, access, mover, rfl⟩ := moves.frame
  exact ⟨access, rfl⟩

theorem Stops.sched {s w : State} (stops : Stops s w) : ∃ access, w.sched = { s.sched with access := access } := by
  obtain ⟨lanes, mem, access, mover, lowered, rfl⟩ := stops.frame
  exact ⟨access, rfl⟩

theorem Moves.burst {s w : State} (moves : Moves s w) : w.sched.burst = s.sched.burst := by
  obtain ⟨access, e⟩ := moves.sched
  rw [e]

theorem Moves.stack {s w : State} (moves : Moves s w) : w.sched.stack = s.sched.stack := by
  obtain ⟨access, e⟩ := moves.sched
  rw [e]

theorem Stops.burst {s w : State} (stops : Stops s w) : w.sched.burst = s.sched.burst := by
  obtain ⟨access, e⟩ := stops.sched
  rw [e]

theorem Stops.stack {s w : State} (stops : Stops s w) : w.sched.stack = s.sched.stack := by
  obtain ⟨access, e⟩ := stops.sched
  rw [e]

@[simp] theorem State.ask_sched (s : State) : s.ask.sched = s.sched := by
  unfold State.ask; split <;> rfl

@[simp] theorem State.unitOver_sched (s : State) : s.unitOver.sched = s.sched := by
  obtain ⟨m, e⟩ := s.unitOver_frame
  rw [e]
  rfl

theorem State.unowned_sched (s : State) (st : LiveState) (o : Owner) : (s.unowned st o).sched = s.sched := by
  cases o <;> rfl

theorem State.unowned_access (s : State) (st : LiveState) (o : Owner) :
    (s.unowned st o).sched.access = s.sched.access :=
  congrArg _ (s.unowned_sched st o)

theorem State.answerEnded_apart (s : State) (i : Fin 64) (k : Nat) :
    (s.answerEnded i k).apart = s.apart := by
  unfold State.answerEnded
  split
  · simp [State.apart]
  · rfl

theorem State.cancelFaulted_apart (s : State) (i : Fin 64) : (s.cancelFaulted i).apart = s.apart := by
  unfold State.cancelFaulted
  split
  · have answered : ((s.takeOut i).produceAnswer (cancelDone i 4 (s.slot i))).apart = (s.takeOut i).apart := by
      simp [State.apart]
    exact answered.trans (s.apart_takeOut i)
  · rfl

theorem State.grantGone_sched (s : State) : s.grantGone.sched = s.sched := by
  unfold State.grantGone
  split
  · split_ifs
    · rfl
    · exact s.lowerRequest.ask_sched
    · rfl
  · split_ifs
    · rfl
    · exact s.ask_sched
  · rfl
  · rfl

@[simp] theorem State.dropBurst_sched (s : State) : s.dropBurst.sched = { s.sched with burst := none } := by
  unfold State.dropBurst
  split <;> rfl

theorem State.takeOut_stack (s : State) (i : Fin 64) : (s.takeOut i).sched.stack = s.sched.stack :=
  State.apart.stack (s.apart_takeOut i)

/-! ### The turn of every act -/

theorem Act.turn {a b : Point} (act : Act a b) : Turn a.state b.state := by
  cases act with
  | @start m s u i d p b st t o opens slot fit outranked burst hands =>
    cases burst
    refine .starts opens hands.burst hands.stack outranked (.slot slot fit rfl rfl)
      (State.still.lanes (hands.still.trans opens.still))
  | startFaulted opens =>
    exact .opens opens (State.faultProcessing_burst _ _ _) (State.faultProcessing_stack _ _ _)
  | @startLink m s u a b st t o opens access _ outranked burst hands =>
    cases burst
    exact .starts opens hands.burst hands.stack outranked (.link access rfl rfl)
      (State.still.lanes (hands.still.trans opens.still))
  | @cut m s a e rest burst _ _ stack =>
    refine .drops ?_ ?_
    · simpa [State.unowned_sched] using burst
    · rw [State.setStack_sched_stack, stack]
      exact List.sublist_cons_self e rest
  | @resume m s e rest b st t _ stack burst hands =>
    cases burst
    exact .resumes stack hands.burst rfl rfl hands.stack
  | @tallyEnds m s b i d p =>
    refine .dropsAt (State.endProcessing_burst _ _) ?_
    exact (State.endProcessing_stack _ _).trans
      (State.commitProgress_stack (s.goes .moving) i d p b)
  | @tallyGoesOn m s b i d p =>
    refine .dropsAt rfl ?_
    exact State.commitProgress_stack (s.goes .moving) i d p b
  | fallsShort => exact .dropsAt rfl rfl
  | beginNothing => exact .dropsAt rfl rfl
  | commits moves burst =>
    exact .moved (moves.burst ▸ burst) (State.commitProgress_burst _ _ _ _ _)
      ((State.commitProgress_stack _ _ _ _ _).trans moves.stack)
  | finishes moves =>
    refine .dropsAt ((State.apart.burst (State.answerEnded_apart _ _ _)).trans (State.endProcessing_burst _ _)) ?_
    exact (State.apart.stack (State.answerEnded_apart _ _ _)).trans
      ((State.endProcessing_stack _ _).trans
        ((State.commitProgress_stack _ _ _ _ _).trans moves.stack))
  | @cancels s w b i d p payload moves =>
    have sched := State.produceAnswer_sched ((w.commitProgress i d p b).clearBurst.takeOut i) payload
    refine .dropsAt ?_ ?_
    · exact (congrArg _ sched).trans (State.takeOut_burst _ _)
    · exact (congrArg _ sched).trans ((State.takeOut_stack _ _).trans
        ((State.commitProgress_stack _ _ _ _ _).trans moves.stack))
  | @fails s =>
    refine .dropsAt ((State.apart.burst (State.cancelFaulted_apart _ _)).trans (State.faultProcessing_burst _ _ _)) ?_
    exact (State.apart.stack (State.cancelFaulted_apart _ _)).trans
      ((State.faultProcessing_stack _ _ _).trans (congrArg _ s.unitOver_sched))
  | linkMoves moves burst => exact .moved (moves.burst ▸ burst) rfl moves.stack
  | linkEnds stops =>
    refine .dropsAt (congrArg _ (State.produceAnswer_sched _ _)) ?_
    exact (congrArg _ (State.produceAnswer_sched _ _)).trans stops.stack
  | timesOut =>
    exact .dropsAt (State.faultProcessing_burst _ _ _) (State.faultProcessing_stack _ _ _)
  | stopsIdle stops => exact .same stops.burst stops.stack
  | stopsOwnerless stops => exact .dropsAt rfl stops.stack
  | endsCurrent => exact .dropsAt rfl rfl
  | asksAgain => exact .same (congrArg _ (State.ask_sched _)) (congrArg _ (State.ask_sched _))
  | losesOwner => exact .dropsAt rfl rfl
  | @freezes s payload =>
    have burst := congrArg Scheduler.burst (State.produceAnswer_sched (s.setFreeze .frozen) payload)
    have stack := congrArg Scheduler.stack (State.produceAnswer_sched (s.setFreeze .frozen) payload)
    exact .same burst stack
  | losesGrant => exact .same (congrArg _ (State.grantGone_sched _)) (congrArg _ (State.grantGone_sched _))
  | event => exact .same (State.apart.burst (State.apart_eventAt _ _)) (State.apart.stack (State.apart_eventAt _ _))
  | unbind => exact .same (State.takeOut_burst _ _) (State.takeOut_stack _ _)
  | @cancelPreempted m s i =>
    refine .keeps (fun c hc => ⟨c, (State.takeOut_burst (s.unstack i) i) ▸ hc, c.alike_self⟩) ?_
    rw [State.takeOut_stack]
    exact List.filter_sublist
  | @cancelActive m s i =>
    refine .dropsAt ((State.takeOut_burst _ _).trans ?_) ((State.takeOut_stack _ _).trans ?_)
    · rw [State.dropBurst_sched]
    · rw [State.dropBurst_sched]
  | skip => exact .same (State.apart.burst (State.apart_removeHead _ _ _)) (State.apart.stack (State.apart_removeHead _ _ _))
  | freezeCut => exact .dropsAt rfl rfl
  | answers => exact .same (congrArg _ (State.produceAnswer_sched _ _)) (congrArg _ (State.produceAnswer_sched _ _))
  | @drains s r rest =>
    obtain ⟨burst, stack, -⟩ := s.drainPlace_apart r rest
    exact .same burst stack
  | refuses => obtain ⟨link, e⟩ := State.queueRefusal_frame _ _; rw [e]; exact .same rfl rfl
  | replays => obtain ⟨link, e⟩ := State.replay_frame _ _ _ _; rw [e]; exact .same rfl rfl
  | enters => obtain ⟨link, hand, e⟩ := State.enterOrder_frame _ _; rw [e]; exact .same rfl rfl
  | sendsAnswer => obtain ⟨link, hand, e⟩ := State.sendAnswer_frame _ _ _; rw [e]; exact .same rfl rfl
  | @takesLow s =>
    obtain ⟨mover, mem, count, e⟩ := s.abandonUnit_frame
    simp only [State.takeLow, e]
    exact .same rfl rfl
  | releases => exact .drops rfl (List.nil_sublist _)
  | resetsByOrder => exact .drops rfl (List.nil_sublist _)
  | _ => exact .same rfl rfl

/-! ## The link access -/

/-- The link access after bytes of a PEEK have joined its result. -/
def LinkAccess.gather (bytes : List Byte) (a : LinkAccess) : LinkAccess :=
  match a.kind with
  | .peek n result => { a with kind := .peek n (result ++ bytes) }
  | .poke _ => a

@[simp] theorem LinkAccess.gather_level (bytes : List Byte) (a : LinkAccess) : (a.gather bytes).level = a.level := by
  unfold LinkAccess.gather; split <;> rfl

@[simp] theorem LinkAccess.gather_start (bytes : List Byte) (a : LinkAccess) : (a.gather bytes).start = a.start := by
  unfold LinkAccess.gather; split <;> rfl

@[simp] theorem LinkAccess.gather_candidate (bytes : List Byte) (a : LinkAccess) :
    (a.gather bytes).candidate = a.candidate := by
  unfold LinkAccess.gather; split <;> rfl

@[simp] theorem LinkAccess.gather_length (bytes : List Byte) (a : LinkAccess) :
    (a.gather bytes).kind.length = a.kind.length := by
  unfold LinkAccess.gather
  split
  next kind => rw [kind]; rfl
  · rfl

theorem LinkAccess.gather_nil (a : LinkAccess) : a.gather [] = a := by
  unfold LinkAccess.gather
  split
  next n result kind => rw [List.append_nil, ← kind]
  · rfl

/-- What happens to the link access in one act: it stays but for its candidacy and the bytes gathered, it is gone, or it
is new with the level CONFIGURE sets (R60, R104, R105). -/
inductive AccessTurn (s t : State) : Prop where
  | keeps : (∀ c, t.sched.access = some c → ∃ a, s.sched.access = some a ∧ c.level = a.level) → AccessTurn s t
  | opens {c} : t.sched.access = some c → c.level = s.cfg.linkLevel → AccessTurn s t

theorem AccessTurn.same {s t : State} (access : t.sched.access = s.sched.access) : AccessTurn s t :=
  .keeps fun c hc => ⟨c, access ▸ hc, rfl⟩

theorem AccessTurn.gone {s t : State} (access : t.sched.access = none) : AccessTurn s t :=
  .keeps fun c hc => by rw [access] at hc; cases hc

/-- A unit's end leaves the link access but for the bytes of a PEEK. -/
theorem State.performUnit_access {s v : State} {u : UnitInProgress} (moved : s.performUnit u = .moved v) :
    ∃ bytes, v.sched.access = s.sched.access.map (·.gather bytes) := by
  have unchanged : v.sched.access = s.sched.access → ∃ bytes, v.sched.access = s.sched.access.map (·.gather bytes) := by
    intro e
    refine ⟨[], e.trans ?_⟩
    cases s.sched.access with
    | none => rfl
    | some a => exact congrArg some a.gather_nil.symm
  have read : ∀ {a n} {move : List Byte → State}, s.readUnit a n move = .moved v → ∃ bytes, v = move bytes := by
    intro a n move h
    unfold State.readUnit at h
    split_ifs at h
    dsimp only at h
    split at h <;> cases h
    exact ⟨_, rfl⟩
  have write : ∀ {a bytes w}, s.writeUnit a bytes = .moved w → ∃ m, w = s.setMem m := by
    intro a bytes w h
    unfold State.writeUnit at h
    split_ifs at h
    cases h
    exact ⟨_, rfl⟩
  unfold State.performUnit at moved
  split at moved
  · split at moved
    next w wrote =>
      cases moved
      obtain ⟨m, rfl⟩ := write wrote
      exact unchanged rfl
    next other => exact absurd moved (other v)
  · obtain ⟨bytes, rfl⟩ := read moved
    exact unchanged rfl
  · split_ifs at moved
    obtain ⟨bytes, rfl⟩ := read moved
    exact unchanged rfl
  · cases moved
    exact unchanged rfl
  · obtain ⟨bytes, rfl⟩ := read moved
    refine ⟨bytes, ?_⟩
    unfold State.peekResult LinkAccess.gather
    split
    next a access =>
      rw [access]
      split
      next n result kind => simp [kind]
      next data kind => simp [access, kind]
    next access => simp [access]
  · obtain ⟨m, rfl⟩ := write moved
    exact unchanged rfl

theorem Moves.access {s w : State} (moves : Moves s w) : ∃ bytes, w.sched.access = s.sched.access.map (·.gather bytes) := by
  cases moves with
  | intro u v _ _ moved =>
    rw [State.unitOver_sched]
    exact State.performUnit_access moved

theorem AccessTurn.gathered {s t : State} {bytes : List Byte}
    (access : t.sched.access = s.sched.access.map (·.gather bytes)) : AccessTurn s t := by
  refine .keeps fun c hc => ?_
  rw [access] at hc
  obtain ⟨a, ha, rfl⟩ := Option.map_eq_some_iff.mp hc
  exact ⟨a, ha, a.gather_level bytes⟩

theorem Stops.accessTurn {s w t : State} (stops : Stops s w) (access : t.sched.access = w.sched.access) :
    AccessTurn s t := by
  cases stops with
  | moved moves =>
    obtain ⟨bytes, gathered⟩ := moves.access
    exact .gathered (access.trans gathered)
  | failed => exact .same (access.trans (congrArg _ (State.unitOver_sched _)))
  | timeout => exact .same access

theorem Act.access {a b : Point} (act : Act a b) : AccessTurn a.state b.state := by
  cases act with
  | start opens _ _ _ _ hands => exact .same (hands.access.trans opens.access)
  | startFaulted opens => exact .same ((State.faultProcessing_access _ _ _).trans opens.access)
  | @startLink m s u a b st t o opens access _ _ _ hands =>
    refine .keeps fun c hc => ⟨a, access, ?_⟩
    rw [hands.sched] at hc
    cases hc
    rfl
  | cut => exact .same (State.unowned_access _ _ _)
  | @resume m s e rest b st t _ _ _ hands =>
    have resumed : (s.resumed e rest).sched.access = s.sched.access := s.unowned_access .active e.owner
    exact .same (hands.access.trans resumed)
  | @tallyEnds m s b i d p =>
    exact .same ((State.endProcessing_access _ _).trans
      (State.commitProgress_access (s.goes .moving) i d p b))
  | @tallyGoesOn m s b i d p => exact .same (State.commitProgress_access (s.goes .moving) i d p b)
  | commits moves =>
    obtain ⟨bytes, gathered⟩ := moves.access
    exact .gathered ((State.commitProgress_access _ _ _ _ _).trans gathered)
  | finishes moves =>
    obtain ⟨bytes, gathered⟩ := moves.access
    exact .gathered ((State.apart.access (State.answerEnded_apart _ _ _)).trans
      ((State.endProcessing_access _ _).trans
        ((State.commitProgress_access _ _ _ _ _).trans gathered)))
  | cancels moves =>
    obtain ⟨bytes, gathered⟩ := moves.access
    exact .gathered ((congrArg _ (State.produceAnswer_sched _ _)).trans
      ((State.apart.access (State.apart_takeOut _ _)).trans
        ((State.commitProgress_access _ _ _ _ _).trans gathered)))
  | @fails s =>
    exact .same ((State.apart.access (State.cancelFaulted_apart _ _)).trans
      ((State.faultProcessing_access _ _ _).trans (congrArg _ s.unitOver_sched)))
  | linkMoves moves =>
    obtain ⟨bytes, gathered⟩ := moves.access
    exact .gathered gathered
  | linkEnds => exact .gone (congrArg _ (State.produceAnswer_sched _ _))
  | timesOut => exact .same (State.faultProcessing_access _ _ _)
  | stopsIdle stops => exact stops.accessTurn rfl
  | stopsOwnerless stops => exact stops.accessTurn rfl
  | asksAgain => exact .same (congrArg _ (State.ask_sched _))
  | @freezes s payload =>
    have access := congrArg Scheduler.access (State.produceAnswer_sched (s.setFreeze .frozen) payload)
    exact .same access
  | losesGrant => exact .same (congrArg _ (State.grantGone_sched _))
  | event => exact .same (State.apart.access (State.apart_eventAt _ _))
  | unbind => exact .same (State.apart.access (State.apart_takeOut _ _))
  | @cancelPreempted m s i => exact .same (State.apart.access ((s.unstack i).apart_takeOut i) :)
  | cancelActive =>
    exact .same ((State.apart.access (State.apart_takeOut _ _)).trans (by rw [State.dropBurst_sched]))
  | skip => exact .same (State.apart.access (State.apart_removeHead _ _ _))
  | answers => exact .same (congrArg _ (State.produceAnswer_sched _ _))
  | opensAccess => exact .opens rfl rfl
  | @drains s r rest =>
    obtain ⟨-, -, access⟩ := s.drainPlace_apart r rest
    exact .same access
  | refuses => obtain ⟨link, e⟩ := State.queueRefusal_frame _ _; rw [e]; exact .same rfl
  | replays => obtain ⟨link, e⟩ := State.replay_frame _ _ _ _; rw [e]; exact .same rfl
  | enters => obtain ⟨link, hand, e⟩ := State.enterOrder_frame _ _; rw [e]; exact .same rfl
  | sendsAnswer => obtain ⟨link, hand, e⟩ := State.sendAnswer_frame _ _ _; rw [e]; exact .same rfl
  | @takesLow s =>
    obtain ⟨mover, mem, count, e⟩ := s.abandonUnit_frame
    simp only [State.takeLow, e]
    exact .same rfl
  | releases => exact .gone rfl
  | resetsByOrder => exact .gone rfl
  | _ => exact .same rfl

end Sys2Proof.Machine
end

