-- ==== Sys2Proof/Proofs/LevelsAndStack.lean ====
section
/-! Levels stay in 1 to 6 and the stack's levels rise strictly, so it holds at most five entries (R60, R75, R180). -/

namespace Sys2Proof.Machine

/-! ## The settings -/

theorem Moves.cfg {s w : State} (moves : Moves s w) : w.cfg = s.cfg := by
  obtain ⟨lanes, mem, access, mover, rfl⟩ := moves.frame
  rfl

theorem Stops.cfg {s w : State} (stops : Stops s w) : w.cfg = s.cfg := by
  obtain ⟨lanes, mem, access, mover, lowered, rfl⟩ := stops.frame
  rfl

theorem State.answerEnded_cfg (s : State) (i : Fin 64) (k : Nat) : (s.answerEnded i k).cfg = s.cfg := by
  unfold State.answerEnded
  split <;> simp

theorem State.cancelFaulted_cfg (s : State) (i : Fin 64) : (s.cancelFaulted i).cfg = s.cfg := by
  unfold State.cancelFaulted
  split
  · exact (State.produceAnswer_cfg _ _).trans (State.still.cfg (s.still_takeOut i))
  · rfl

theorem State.grantGone_cfg (s : State) : s.grantGone.cfg = s.cfg := by
  unfold State.grantGone
  split
  · split_ifs
    · rfl
    · exact State.still.cfg (s.lowerRequest.still_ask)
    · rfl
  · split_ifs
    · rfl
    · exact State.still.cfg s.still_ask
  · rfl
  · rfl

/-- A step changes the settings by CONFIGURE and by the resets alone. -/
theorem Act.settings {a b : Point} (act : Act a b) :
    b.state.cfg = a.state.cfg ∨
      levelLegal b.state.cfg.linkLevel ∧
        (b.state.cfg.msize = a.state.cfg.msize ∨ ∃ u reason, b.state = State.resetBlocks u reason) := by
  have still : ∀ {s t : State}, t.still = s.still → t.cfg = s.cfg := State.still.cfg
  have resets : levelLegal 1 := ⟨le_refl 1, by decide⟩
  cases act with
  | start opens _ _ _ _ hands => exact .inl (still (hands.still.trans opens.still))
  | startFaulted opens => exact .inl (still ((State.still_faultProcessing _ _ _).trans opens.still))
  | startLink opens _ _ _ _ hands => exact .inl (still (hands.still.trans opens.still))
  | cut => exact .inl (still (State.still_unowned _ _ _))
  | resume _ _ _ hands => exact .inl (still (hands.still.trans (State.still_resumed _ _ _)))
  | tallyEnds => exact .inl (still ((State.still_endProcessing _ _).trans (State.still_commitProgress _ _ _ _ _)))
  | tallyGoesOn => exact .inl (still ((State.still_endCurrent _ _).trans (State.still_commitProgress _ _ _ _ _)))
  | commits moves => exact .inl ((still (State.still_commitProgress _ _ _ _ _)).trans moves.cfg)
  | finishes moves =>
    exact .inl ((State.answerEnded_cfg _ _ _).trans
      ((still ((State.still_endProcessing _ _).trans (State.still_commitProgress _ _ _ _ _))).trans moves.cfg))
  | @cancels s w b i d p payload moves =>
    have taken := still (State.still_takeOut (w.commitProgress i d p b).clearBurst i)
    have committed := still (State.still_commitProgress w i d p b)
    exact .inl ((State.produceAnswer_cfg _ _).trans (taken.trans (committed.trans moves.cfg)))
  | fails high unit failed =>
    exact .inl ((State.cancelFaulted_cfg _ _).trans
      ((still (State.still_faultProcessing _ _ _)).trans (Stops.cfg (.failed _ _ high unit failed))))
  | linkMoves moves => exact .inl moves.cfg
  | linkEnds stops => exact .inl ((State.produceAnswer_cfg _ _).trans stops.cfg)
  | timesOut => exact .inl (still (State.still_faultProcessing _ _ _))
  | stopsIdle stops => exact .inl stops.cfg
  | stopsOwnerless stops => exact .inl stops.cfg
  | asksAgain => exact .inl (still (State.still_ask _))
  | freezes => exact .inl (State.produceAnswer_cfg _ _)
  | losesGrant => exact .inl (State.grantGone_cfg _)
  | event => exact .inl (still (State.still_eventAt _ _))
  | unbind => exact .inl (still (State.still_takeOut _ _))
  | cancelPreempted => exact .inl (still (State.still_takeOut _ _))
  | cancelActive => exact .inl (still ((State.still_takeOut _ _).trans (State.still_dropBurst _)))
  | skip => exact .inl (still (State.still_removeHead _ _ _))
  | configure low high => exact .inr ⟨⟨low, high⟩, .inl rfl⟩
  | answers => exact .inl (State.produceAnswer_cfg _ _)
  | drains => exact .inl (still (State.still_drainPlace _ _ _))
  | refuses => obtain ⟨link, e⟩ := State.queueRefusal_frame _ _; rw [e]; exact .inl rfl
  | replays => obtain ⟨link, e⟩ := State.replay_frame _ _ _ _; rw [e]; exact .inl rfl
  | enters => obtain ⟨link, hand, e⟩ := State.enterOrder_frame _ _; rw [e]; exact .inl rfl
  | sendsAnswer => obtain ⟨link, hand, e⟩ := State.sendAnswer_frame _ _ _; rw [e]; exact .inl rfl
  | @takesLow s =>
    obtain ⟨mover, mem, count, e⟩ := s.abandonUnit_frame
    left
    simp only [State.takeLow, e]
  | releases => exact .inr ⟨resets, .inr ⟨_, _, rfl⟩⟩
  | resetsByOrder => exact .inr ⟨resets, .inr ⟨_, _, rfl⟩⟩
  | _ => exact .inl rfl

/-! ## The stack's order -/

theorem stackBelow_iff {bound : Nat} {l : List StackEntry} :
    stackBelow bound l ↔ l.Pairwise (fun x y => y.level < x.level) ∧ ∀ e ∈ l, e.level < bound := by
  induction l generalizing bound with
  | nil => simp [stackBelow]
  | cons e rest ih =>
    simp only [stackBelow, ih, List.pairwise_cons, List.mem_cons, forall_eq_or_imp]
    constructor
    · rintro ⟨below, rises, bounded⟩
      exact ⟨⟨bounded, rises⟩, below, fun x hx => (bounded x hx).trans below⟩
    · rintro ⟨⟨bounded, rises⟩, below, -⟩
      exact ⟨below, rises, bounded⟩

theorem State.stackOrdered_iff {s : State} :
    s.stackOrdered ↔
      s.sched.stack.Pairwise (fun x y => y.level < x.level) ∧
        ∀ b, s.sched.burst = some b → ∀ e ∈ s.sched.stack, e.level < b.level := by
  unfold State.stackOrdered
  split
  next b burst =>
    rw [stackBelow_iff]
    simp [burst]
  next burst =>
    simp only [burst, reduceCtorEq, false_implies, implies_true, and_true]
    split
    next stack => simp [stack]
    next e rest stack => rw [stack, stackBelow_iff, List.pairwise_cons, and_comm]

theorem Opens.stackOrdered {s u : State} (opens : Opens s u) (h : s.stackOrdered) :
    u.sched.stack.Pairwise (fun x y => y.level < x.level) := by
  obtain ⟨rises, below⟩ := State.stackOrdered_iff.mp h
  cases opens with
  | free => exact rises
  | push b burst =>
    rw [State.push_stack, List.pairwise_cons]
    exact ⟨below b burst, rises⟩

/-- What lies below the top of a rising stack lies below what outranks the top. -/
theorem State.outranked.all {s : State} {level : Nat} (outranked : s.outranked level)
    (rises : s.sched.stack.Pairwise (fun x y => y.level < x.level)) : ∀ e ∈ s.sched.stack, e.level < level := by
  unfold State.outranked at outranked
  cases stack : s.sched.stack with
  | nil => simp
  | cons top rest =>
    rw [stack] at outranked rises
    have top : top.level < level := outranked _ rfl
    intro e he
    rcases List.mem_cons.mp he with rfl | he
    · exact top
    · exact ((List.pairwise_cons.mp rises).1 e he).trans top

theorem Turn.stackOrdered {s t : State} (turn : Turn s t) (h : s.stackOrdered) : t.stackOrdered := by
  obtain ⟨rises, below⟩ := State.stackOrdered_iff.mp h
  rw [State.stackOrdered_iff]
  cases turn with
  | keeps burst stack =>
    refine ⟨rises.sublist stack, fun c hc e he => ?_⟩
    obtain ⟨b, hb, -, level, -⟩ := burst c hc
    rw [level]
    exact below b hb e (stack.subset he)
  | opens opens burst stack =>
    rw [stack, burst]
    exact ⟨opens.stackOrdered h, nofun⟩
  | starts opens burst stack outranked =>
    rw [stack, burst]
    refine ⟨opens.stackOrdered h, fun c hc => ?_⟩
    cases hc
    exact outranked.all (opens.stackOrdered h)
  | resumes stack burst _ level stack' =>
    rw [stack] at rises
    obtain ⟨under, rises⟩ := List.pairwise_cons.mp rises
    rw [stack', burst]
    refine ⟨rises, fun c hc => ?_⟩
    cases hc
    rw [level]
    exact under

/-! ## Levels -/

/-- Every record of a slot has a level 1 to 6. -/
def State.recordLevels (s : State) : Prop := ∀ i d, s.records i = some d → levelLegal d.level

theorem State.recordLevels_iff {s : State} :
    s.recordLevels ↔ ∀ i st d p, s.slot i = .live st d p → levelLegal d.level := by
  unfold State.recordLevels
  constructor
  · intro h i st d p slot
    exact h i d (State.records_live slot)
  · intro h i d record
    obtain ⟨st, p, slot⟩ := Slot.record?_eq_some.mp record
    exact h i st d p slot

theorem readLevel_legal {n level : Nat} (read : readLevel n = some level) : levelLegal level := by
  unfold readLevel at read
  split_ifs at read with legal
  cases read
  exact legal

theorem readRecord_level {r : List Byte} {d : Descriptor} (read : readRecord r = some d) : levelLegal d.level := by
  unfold readRecord at read
  split at read
  next level _ _ _ legal _ _ =>
    cases read
    exact readLevel_legal legal
  next => cases read

theorem Slot.atRest?_live {v : Slot} {d : Descriptor} (rest : v.atRest? = some d) :
    ∃ st p, v = .live st d p ∧ (st = .loaded ∨ st = .spent) := by
  unfold Slot.atRest? at rest
  split at rest
  · cases rest; exact ⟨.loaded, _, rfl, .inl rfl⟩
  · cases rest; exact ⟨.spent, _, rfl, .inr rfl⟩
  · cases rest

theorem State.records_setSlot_at (s : State) (i : Fin 64) (v : Slot) (j : Fin 64) :
    (s.setSlot i v).records j = if i = j then v.record? else s.records j := by
  simp only [State.records, State.slot_setSlot]
  split_ifs <;> rfl

theorem State.resetBlocks_slot (u : State) (reason : ResetReason) (i : Fin 64) : (u.resetBlocks reason).slot i = .free := by
  simp [State.resetBlocks, State.slot]

theorem State.resetBlocks_records (u : State) (reason : ResetReason) (i : Fin 64) :
    (u.resetBlocks reason).records i = none := by
  simp [State.records, State.resetBlocks_slot, Slot.record?]

/-- What a rewriting of records keeps of them: a property of a record that DEFINE checks. -/
theorem Rewrites.keeps {s t : State} {P : Descriptor → Prop} (rewrites : Rewrites s t)
    (h : ∀ i d, s.records i = some d → P d)
    (read : ∀ r d, readRecord r = some d → d.transfer.aligned = true → d.inside s.memorySize = true → P d) :
    ∀ i d, t.records i = some d → P d := by
  intro j d record
  cases rewrites with
  | @define i r d' _ _ reads aligned inside =>
    rw [State.load, State.records_setSlot_at] at record
    split_ifs at record
    · cases record
      exact read r d reads aligned inside
    · exact h j d record
  | @rearm i d' rest =>
    rw [State.load, State.records_setSlot_at] at record
    split_ifs at record
    · cases record
      obtain ⟨st, p, slot, -⟩ := Slot.atRest?_live rest
      exact h i d (State.records_live slot)
    · exact h j d record
  | release =>
    rw [State.records_setSlot_at] at record
    split_ifs at record
    · cases record
    · exact h j d record
  | reset u reason =>
    rw [State.resetBlocks_records] at record
    cases record

theorem Act.keeps_recordLevels {a b : Point} (act : Act a b) (h : a.state.recordLevels) : b.state.recordLevels := by
  rcases act.records with same | rewrites
  · unfold State.recordLevels
    rw [same]
    exact h
  · exact rewrites.keeps h fun r d read _ _ => readRecord_level read

theorem Opens.stackLevels {s u : State} (opens : Opens s u) (h : s.levelsLegal) :
    ∀ e ∈ u.sched.stack, levelLegal e.level := by
  obtain ⟨-, -, -, bursts, entries⟩ := h
  cases opens with
  | free => exact entries
  | push b burst =>
    rw [State.push_stack]
    simp only [List.mem_cons, forall_eq_or_imp]
    exact ⟨bursts b burst, entries⟩

/-- The levels of the burst in hand and the stack come from records, the link access, the burst and the stack. -/
theorem Turn.levels {s t : State} (turn : Turn s t) (h : s.levelsLegal) :
    (∀ b, t.sched.burst = some b → levelLegal b.level) ∧ ∀ e ∈ t.sched.stack, levelLegal e.level := by
  have legal := h
  obtain ⟨-, records, accesses, bursts, entries⟩ := h
  cases turn with
  | keeps burst stack =>
    refine ⟨fun c hc => ?_, fun e he => entries e (stack.subset he)⟩
    obtain ⟨b, hb, -, level, -⟩ := burst c hc
    rw [level]
    exact bursts b hb
  | opens opens burst stack =>
    rw [stack, burst]
    exact ⟨nofun, opens.stackLevels legal⟩
  | starts opens burst stack _ starts =>
    rw [stack, burst]
    refine ⟨fun c hc => ?_, opens.stackLevels legal⟩
    cases hc
    cases starts with
    | slot slot _ _ level => rw [level]; exact records _ _ _ _ slot
    | link access _ level => rw [level]; exact accesses _ access
  | resumes stack burst _ level stack' =>
    rw [stack] at entries
    rw [stack', burst]
    refine ⟨fun c hc => ?_, fun e he => entries e (List.mem_cons_of_mem _ he)⟩
    cases hc
    rw [level]
    exact entries _ (List.mem_cons_self ..)

theorem AccessTurn.levels {s t : State} (turn : AccessTurn s t) (h : s.levelsLegal) :
    ∀ a, t.sched.access = some a → levelLegal a.level := by
  obtain ⟨linkLevel, -, accesses, -, -⟩ := h
  cases turn with
  | keeps keeps =>
    intro c hc
    obtain ⟨a, ha, level⟩ := keeps c hc
    rw [level]
    exact accesses a ha
  | opens access level =>
    intro c hc
    rw [access] at hc
    cases hc
    rw [level]
    exact linkLevel

theorem Act.keeps_levelsLegal {a b : Point} (act : Act a b) (h : a.state.levelsLegal) : b.state.levelsLegal := by
  have legal := h
  obtain ⟨linkLevel, records, -, -, -⟩ := h
  obtain ⟨bursts, entries⟩ := act.turn.levels legal
  refine ⟨?_, State.recordLevels_iff.mp (act.keeps_recordLevels (State.recordLevels_iff.mpr records)),
    act.access.levels legal, bursts, entries⟩
  rcases act.settings with same | ⟨legal, -⟩
  · rw [same]; exact linkLevel
  · exact legal

/-- Levels of 1 or more that fall strictly from below a bound are fewer than it. -/
theorem stackBelow_length {bound : Nat} {l : List StackEntry} (below : stackBelow bound l) (positive : ∀ e ∈ l, 1 ≤ e.level)
    (bounded : 1 ≤ bound) : l.length + 1 ≤ bound := by
  induction l generalizing bound with
  | nil => exact bounded
  | cons e rest ih =>
    obtain ⟨lower, below⟩ := below
    have shorter := ih below (fun x hx => positive x (List.mem_cons_of_mem _ hx)) (positive e (List.mem_cons_self ..))
    rw [List.length_cons]
    omega

/-- Settles O57: every act keeps the counts, the levels and the stack's order. -/
theorem levelsCountsAndStackKeepTheirLaws : Obligations.LevelsCountsAndStackKeepTheirLaws := by
  refine ⟨fun _ _ h next => step_keeps (I := fun p => p.state.countsBounded) Act.keeps_countsBounded next h,
    fun _ _ h next => step_keeps (I := fun p => p.state.levelsLegal) Act.keeps_levelsLegal next h,
    fun _ _ h next => step_keeps (I := fun p => p.state.stackOrdered) (fun act => act.turn.stackOrdered) next h, ?_⟩
  intro s b levels ordered burst
  obtain ⟨-, -, -, bursts, entries⟩ := levels
  obtain ⟨low, high⟩ := bursts b burst
  have below : stackBelow b.level s.sched.stack := by
    unfold State.stackOrdered at ordered
    rw [burst] at ordered
    exact ordered
  have short := stackBelow_length below (fun e he => (entries e he).1) low
  omega

end Sys2Proof.Machine
end

