-- ==== Sys2Proof/Proofs/MoverTable.lean ====
section
/-! While RESET# is high the mover stands as the table of R85 says (`Act.keeps_moverAt`): between the acts of one step it
may still hold the state of a burst that has just gone (R85, R94, R97, R182). -/

namespace Sys2Proof.Machine

/-- The mover where no burst is in hand and the scheduler is yet to choose: no unit is in progress, and a request stands
only with its timer or for a burst just moved. -/
def State.moverLoose (s : State) : Prop :=
  s.mover.unit = none ∧
    match s.mover.state with
    | .idle => s.mover.request = false ∧ s.mover.timer = none
    | .asking =>
      (s.mover.request = true ∧ s.mover.timer ≠ none ∧ s.grant = false) ∨ (s.mover.request = false ∧ s.mover.timer = none)
    | .moving => s.mover.timer = none
    | .yielding => s.mover.timer = none ∧ s.mover.request = false

/-- The mover that is to begin the next unit of the burst in hand. -/
def State.moverBegins (s : State) : Prop :=
  s.sched.burst ≠ none ∧ s.mover.state = .moving ∧ s.mover.timer = none ∧ s.mover.unit = none

/-- The mover right after a commit: the memory is held, or was withdrawn and its request is lowered. -/
def State.moverCommitted (s : State) : Prop :=
  s.sched.burst ≠ none ∧ s.mover.unit = none ∧ s.mover.timer = none ∧
    (s.mover.state = .moving ∨ s.mover.state = .yielding ∧ s.mover.request = false)

/-- The mover at each stage of a step. -/
def State.moverAt (s : State) : Stage → Prop
  | .rest => s.moverLegal
  | .choosing => (s.sched.burst = none → s.moverLoose) ∧ (s.sched.burst ≠ none → s.moverLegal)
  | .beginning => s.moverBegins
  | .committed => s.moverCommitted

/-! ## What the table depends on -/

/-- The grant matters to the table while ASKING alone. -/
theorem State.moverLegal_grant {s t : State} (mover : t.mover = s.mover)
    (grant : s.mover.state = .asking → s.grant = false → t.grant = false) (burst : t.sched.burst = none ↔ s.sched.burst = none)
    (h : s.moverLegal) : t.moverLegal := by
  unfold State.moverLegal at h ⊢
  rw [mover]
  simp only [ne_eq, burst]
  cases state : s.mover.state <;> rw [state] at h <;> dsimp only at h ⊢
  case asking => exact ⟨h.1, h.2.1, h.2.2.1, h.2.2.2.1, grant state h.2.2.2.2⟩
  all_goals exact h

theorem State.moverLegal_congr {s t : State} (mover : t.mover = s.mover) (grant : t.grant = s.grant)
    (burst : t.sched.burst = none ↔ s.sched.burst = none) (h : s.moverLegal) : t.moverLegal :=
  State.moverLegal_grant mover (fun _ low => grant.trans low) burst h

theorem State.moverLoose_congr {s t : State} (mover : t.mover = s.mover) (grant : t.grant = s.grant) (h : s.moverLoose) :
    t.moverLoose := by
  unfold State.moverLoose at h ⊢
  simp only [mover, grant]
  exact h

theorem State.moverLegal.loose {s : State} (h : s.moverLegal) (unit : s.mover.unit = none) : s.moverLoose := by
  unfold State.moverLegal at h
  unfold State.moverLoose
  refine ⟨unit, ?_⟩
  cases state : s.mover.state <;> rw [state] at h <;> dsimp only at h ⊢
  case idle => exact ⟨h.2.1, h.2.2.1⟩
  case asking => exact .inl ⟨h.2.1, h.2.2.1, h.2.2.2.2⟩
  case moving => exact h.2
  case yielding => exact ⟨h.2.1, h.2.2 unit⟩

/-- With no burst in hand a legal mover is IDLE. -/
theorem State.moverLegal.idle {s : State} (h : s.moverLegal) (burst : s.sched.burst = none) :
    s.mover = Mover.atReset := by
  unfold State.moverLegal at h
  cases state : s.mover.state <;> rw [state] at h <;> dsimp only at h
  case idle =>
    obtain ⟨-, request, timer, unit⟩ := h
    cases mover : s.mover
    simp_all [Mover.atReset]
  all_goals exact absurd burst h.1

theorem State.moverLegal.asking {s : State} (h : s.moverLegal) (state : s.mover.state = .asking) :
    s.sched.burst ≠ none ∧ s.mover.request = true ∧ s.mover.timer ≠ none ∧ s.mover.unit = none ∧ s.grant = false := by
  unfold State.moverLegal at h
  rw [state] at h
  exact h

theorem State.moverLegal_idle {s : State} (mover : s.mover = Mover.atReset) (burst : s.sched.burst = none) :
    s.moverLegal := by
  unfold State.moverLegal
  rw [mover]
  exact ⟨burst, rfl, rfl, rfl⟩

/-- With a unit in progress the mover is MOVING, or YIELDING, with its timer stopped and a burst in hand. -/
theorem State.moverLegal.busy {s : State} (h : s.moverLegal) (unit : s.mover.unit ≠ none) :
    s.sched.burst ≠ none ∧ s.mover.timer = none ∧ (s.mover.state = .moving ∨ s.mover.state = .yielding) := by
  unfold State.moverLegal at h
  cases state : s.mover.state <;> rw [state] at h <;> dsimp only at h
  case idle => exact absurd h.2.2.2 unit
  case asking => exact absurd h.2.2.2.1 unit
  case moving => exact ⟨h.1, h.2, .inl rfl⟩
  case yielding => exact ⟨h.1, h.2.1, .inr rfl⟩

theorem State.moverCommitted.legal {s : State} (h : s.moverCommitted) : s.moverLegal := by
  obtain ⟨burst, unit, timer, state⟩ := h
  unfold State.moverLegal
  rcases state with state | ⟨state, request⟩
  · rw [state]; exact ⟨burst, timer⟩
  · rw [state]; exact ⟨burst, timer, fun _ => request⟩

theorem State.moverCommitted.loose {s : State} (h : s.moverCommitted) : s.moverLoose := h.legal.loose h.2.1

theorem State.moverBegins.loose {s : State} (h : s.moverBegins) : s.moverLoose := by
  obtain ⟨-, state, timer, unit⟩ := h
  unfold State.moverLoose
  rw [state]
  exact ⟨unit, timer⟩

/-! ## What the pieces of the acts do to the mover -/

/-- A request that is lowered is raised again with its timer, or waits for the grant to go (R93, R94). -/
theorem State.ask_moverLegal {s : State} (burst : s.sched.burst ≠ none) (unit : s.mover.unit = none)
    (request : s.mover.request = false) (timer : s.mover.timer = none) : s.ask.moverLegal := by
  unfold State.ask
  split
  next => exact ⟨burst, timer, fun _ => request⟩
  next free => exact ⟨burst, rfl, by simp, unit, by simpa using free⟩

theorem Hands.moverAt {s t : State} {b : Burst} {st : Stage} (hands : Hands s b st t) (burst : s.sched.burst = some b)
    (h : s.moverLoose) : t.moverAt st := by
  obtain ⟨unit, h⟩ := h
  have holds : s.sched.burst ≠ none := by rw [burst]; nofun
  cases hands with
  | waits _ request state =>
    rw [state] at h
    rcases h with ⟨-, -, grant⟩ | ⟨lowered, -⟩
    · refine ⟨fun none => absurd none holds, fun _ => ?_⟩
      unfold State.moverLegal
      simp only [State.setMover_mover, state]
      exact ⟨holds, request, by simp, unit, grant⟩
    · rw [request] at lowered; cases lowered
  | holdsGrant _ request state =>
    cases moving : s.mover.state <;> rw [moving] at h <;> dsimp only at h
    case idle => rw [request] at h; cases h.1
    case asking => exact absurd moving state
    case moving => exact ⟨holds, moving, h, unit⟩
    case yielding => rw [request] at h; cases h.2
  | asks _ request =>
    have timer : s.mover.timer = none := by
      cases state : s.mover.state <;> rw [state] at h <;> dsimp only at h
      case idle => exact h.2
      case asking =>
        rcases h with ⟨raised, -⟩ | ⟨-, timer⟩
        · rw [request] at raised; cases raised
        · exact timer
      case moving => exact h
      case yielding => exact h.1
    refine ⟨fun none => ?_, fun _ => State.ask_moverLegal holds unit request timer⟩
    rw [State.ask_sched] at none
    exact absurd none holds
  | goes => exact ⟨holds, rfl, rfl, unit⟩

theorem Opens.mover {s u : State} (opens : Opens s u) : u.mover = s.mover := by
  cases opens with
  | free => rfl
  | push b => unfold State.push; dsimp only; split <;> rfl

theorem Opens.moverLoose {s u : State} {o : Stage} (opens : Opens s u) (chooses : o.Chooses) (h : s.moverAt o) :
    u.moverLoose := by
  refine State.moverLoose_congr (s := s) opens.mover (State.still.grant opens.still) ?_
  cases chooses with
  | choosing =>
    obtain ⟨none, some⟩ := h
    cases opens with
    | free burst => exact none burst
    | push b burst unit => exact (some (by rw [burst]; nofun)).loose unit
  | committed => exact (h : s.moverCommitted).loose

/-- The mover after a unit's end. -/
theorem State.unitOver_moverCommitted {s : State} (burst : s.sched.burst ≠ none) (timer : s.mover.timer = none)
    (state : s.mover.state = .moving ∨ s.mover.state = .yielding) : s.unitOver.moverCommitted := by
  rcases state with state | state
  · have ended : s.unitOver = s.setMover { s.mover with unit := none } := by
      rcases s.unitOver_eq with e | ⟨yielding, -⟩
      · exact e
      · rw [state] at yielding; cases yielding
    rw [ended]
    exact ⟨burst, rfl, timer, .inl state⟩
  · have ended : s.unitOver = s.setMover { s.mover with unit := none, request := false, timer := none } := by
      unfold State.unitOver
      dsimp only
      rw [State.setMover_mover, if_pos state]
      simp [State.lowerRequest, State.setMover, state]
    rw [ended]
    exact ⟨burst, rfl, rfl, .inr ⟨state, rfl⟩⟩

theorem Moves.moverCommitted {s w : State} (moves : Moves s w) (h : s.moverLegal) : w.moverCommitted := by
  cases moves with
  | intro u v _ unit moved =>
    obtain ⟨burst, timer, state⟩ := h.busy (by rw [unit]; nofun)
    obtain ⟨lanes, mem, access, rfl⟩ := State.performUnit_frame moved
    exact State.unitOver_moverCommitted burst timer state

/-- The mover after a unit's end, or after the end of the wait for the grant. -/
theorem Stops.moverLoose {s w : State} (stops : Stops s w) (h : s.moverLegal) : w.moverLoose := by
  cases stops with
  | moved moves => exact (moves.moverCommitted h).loose
  | failed u a _ unit =>
    obtain ⟨burst, timer, state⟩ := h.busy (by rw [unit]; nofun)
    exact (State.unitOver_moverCommitted burst timer state).loose
  | timeout _ asking =>
    obtain ⟨-, -, -, unit, -⟩ := h.asking asking
    unfold State.moverLoose State.lowerRequest
    dsimp only
    rw [asking]
    exact ⟨unit, .inr ⟨rfl, rfl⟩⟩

/-! ## The table at every stage -/

theorem State.moverAt_congr {s t : State} {st : Stage} (mover : t.mover = s.mover) (grant : t.grant = s.grant)
    (burst : t.sched.burst = none ↔ s.sched.burst = none) (h : s.moverAt st) : t.moverAt st := by
  cases st with
  | rest => exact State.moverLegal_congr mover grant burst h
  | choosing =>
    obtain ⟨none, some⟩ := h
    exact ⟨fun e => State.moverLoose_congr mover grant (none (burst.mp e)),
      fun e => State.moverLegal_congr mover grant burst (some fun e' => e (burst.mpr e'))⟩
  | beginning =>
    unfold State.moverAt State.moverBegins at h ⊢
    rw [mover, ne_eq, burst]
    exact h
  | committed =>
    unfold State.moverAt State.moverCommitted at h ⊢
    rw [mover, ne_eq, burst]
    exact h

/-- A burst has just gone. -/
theorem State.moverAt_choosing {s t : State} (mover : t.mover = s.mover) (grant : t.grant = s.grant)
    (burst : t.sched.burst = none) (h : s.moverLoose) : t.moverAt .choosing :=
  ⟨fun _ => State.moverLoose_congr mover grant h, fun some => absurd burst some⟩

theorem State.moverAt_rest {s : State} (mover : s.mover = Mover.atReset) (burst : s.sched.burst = none) :
    s.moverAt .rest :=
  State.moverLegal_idle mover burst

/-- With no burst in hand, the request of a loose mover lowered leaves it loose. -/
theorem State.moverLoose.lowered {s : State} (h : s.moverLoose) : s.lowerRequest.moverLoose := by
  obtain ⟨unit, h⟩ := h
  unfold State.moverLoose State.lowerRequest
  dsimp only
  refine ⟨unit, ?_⟩
  cases state : s.mover.state
  · exact ⟨rfl, rfl⟩
  · exact .inr ⟨rfl, rfl⟩
  · rfl
  · exact ⟨rfl, rfl⟩

theorem State.dropBurst_moverAt {s : State} (h : s.moverLegal) (unit : s.mover.unit = none) :
    s.dropBurst.moverAt .choosing := by
  unfold State.dropBurst
  split
  · exact State.moverAt_choosing (s := s.lowerRequest) rfl rfl rfl (h.loose unit).lowered
  · exact State.moverAt_choosing (s := s) rfl rfl rfl (h.loose unit)

/-- The grant is seen deasserted: it was withdrawn, and is asked for again where no unit has to end first (R96, R97). -/
theorem State.grantGone_moverLegal {s : State} (h : s.moverLegal) : s.grantGone.moverLegal := by
  have legal := h
  unfold State.moverLegal at h
  unfold State.grantGone
  cases state : s.mover.state <;> rw [state] at h <;> dsimp only at h ⊢
  case idle => exact legal
  case asking => exact legal
  case moving =>
    split_ifs with request unit
    · exact ⟨h.1, h.2, fun none => by rw [State.goes, State.setMover_mover] at none; rw [none] at unit; cases unit⟩
    · exact State.ask_moverLegal (s := s.lowerRequest) h.1 (by simpa using unit : s.mover.unit = none) rfl rfl
    · exact legal
  case yielding =>
    split_ifs with unit
    · exact legal
    · have none : s.mover.unit = none := by simpa using unit
      exact State.ask_moverLegal h.1 none (h.2.2 none) h.2.1

theorem State.commitProgress_mover (s : State) (i : Fin 64) (d : Descriptor) (p : Progress) (b : Burst) :
    (s.commitProgress i d p b).mover = s.mover :=
  State.aloof.mover (s.aloof_commitProgress i d p b)

theorem State.endProcessing_mover (s : State) (i : Fin 64) : (s.endProcessing i).mover = s.mover :=
  State.aloof.mover (s.aloof_endProcessing i)

theorem State.faultProcessing_mover (s : State) (i : Fin 64) (f : FaultKind) : (s.faultProcessing i f).mover = s.mover :=
  State.aloof.mover (s.aloof_faultProcessing i f)

/-- The invariant: while RESET# is high the mover stands as its stage asks. -/
def Point.moverStands (p : Point) : Prop := p.state.resetLow = false → p.state.moverAt p.stage

/-- The mover and the grant as another state has them, with a burst in hand where that one has one. -/
theorem Point.moverStands_same {m m' : Mode} {st : Stage} {s t : State} (still : t.still = s.still) (mover : t.mover = s.mover)
    (burst : t.sched.burst = s.sched.burst) (h : Point.moverStands ⟨m, st, s⟩) : Point.moverStands ⟨m', st, t⟩ :=
  fun low => State.moverAt_congr mover (State.still.grant still) (by rw [burst]) (h ((State.still.resetLow still).symm.trans low))

/-- The burst in hand has just gone. -/
theorem Point.moverStands_gone {m : Mode} {s t : State} (still : t.still = s.still) (mover : t.mover = s.mover)
    (burst : t.sched.burst = none) (h : s.resetLow = false → s.moverLoose) : Point.moverStands ⟨m, .choosing, t⟩ :=
  fun low =>
    State.moverAt_choosing mover (State.still.grant still) burst (h ((State.still.resetLow still).symm.trans low))

theorem Moves.resetLow {s w : State} (moves : Moves s w) : w.resetLow = s.resetLow := by
  obtain ⟨lanes, mem, access, mover, rfl⟩ := moves.frame
  rfl

theorem Stops.resetLow {s w : State} (stops : Stops s w) : w.resetLow = s.resetLow := by
  obtain ⟨lanes, mem, access, mover, lowered, rfl⟩ := stops.frame
  rfl

theorem Moves.grant {s w : State} (moves : Moves s w) : w.grant = s.grant := by
  obtain ⟨lanes, mem, access, mover, rfl⟩ := moves.frame
  rfl

theorem State.produceAnswer_parts (s : State) (payload : List Byte) :
    (s.produceAnswer payload).mover = s.mover ∧ (s.produceAnswer payload).grant = s.grant ∧
      (s.produceAnswer payload).sched.burst = s.sched.burst ∧ (s.produceAnswer payload).resetLow = s.resetLow :=
  ⟨s.produceAnswer_mover payload, s.produceAnswer_grant payload, congrArg _ (s.produceAnswer_sched payload),
    s.produceAnswer_resetLow payload⟩

/-- An answer that is produced leaves the mover where it stands. -/
theorem Point.moverStands_answer {m m' : Mode} {st : Stage} {s : State} (payload : List Byte)
    (h : Point.moverStands ⟨m, st, s⟩) : Point.moverStands ⟨m', st, s.produceAnswer payload⟩ := by
  obtain ⟨mover, grant, burst, low⟩ := s.produceAnswer_parts payload
  exact fun high => State.moverAt_congr mover grant (by rw [burst]) (h (low.symm.trans high))

theorem Act.keeps_moverStands {a b : Point} (act : Act a b) (h : a.moverStands) : b.moverStands := by
  cases act with
  | stay burst => exact fun low => (h low).2 burst
  | idle burst => exact fun _ => State.moverAt_rest rfl burst
  | wake =>
    refine fun low => ⟨fun none => ?_, fun _ => h low⟩
    have legal : State.moverLegal _ := h low
    exact legal.loose (by rw [legal.idle none]; rfl)
  | @start m s u i d p b st t o opens _ _ _ burst hands chooses =>
    intro low
    have high : s.resetLow = false :=
      (State.still.resetLow (hands.still.trans ((u.still_begun i d p).trans opens.still))).symm.trans low
    exact hands.moverAt burst (State.moverLoose_congr (s := u) rfl rfl (opens.moverLoose chooses (h high)))
  | @startFaulted m s u i d p f o opens _ _ _ chooses =>
    have still : (u.begun i d p).lowerRequest.still = s.still := opens.still
    refine Point.moverStands_gone (s := (u.begun i d p).lowerRequest) (State.still_faultProcessing _ _ _)
      (State.faultProcessing_mover _ _ _) (State.faultProcessing_burst _ _ _) fun low => ?_
    have loose := opens.moverLoose chooses (h ((State.still.resetLow still).symm.trans low))
    exact State.moverLoose.lowered (s := u.begun i d p) (State.moverLoose_congr (s := u) rfl rfl loose)
  | @startLink m s u a b st t o opens _ _ _ burst hands chooses =>
    intro low
    have high : s.resetLow = false :=
      (State.still.resetLow (hands.still.trans ((u.still_begunLink a).trans opens.still))).symm.trans low
    exact hands.moverAt burst (State.moverLoose_congr (s := u) rfl rfl (opens.moverLoose chooses (h high)))
  | @cut m s a e rest burst =>
    refine Point.moverStands_gone (s := s) (State.still_unowned s _ _) ?_ ?_ fun low => (h low).1 burst
    · cases e.owner <;> rfl
    · exact (congrArg _ (s.unowned_sched .current e.owner)).trans burst
  | @resume m s e rest b st t burst _ burst' hands =>
    intro low
    have high : s.resetLow = false :=
      (State.still.resetLow (hands.still.trans (s.still_resumed e rest))).symm.trans low
    have mover : (s.resumed e rest).mover = s.mover := by
      unfold State.resumed
      cases e.owner <;> rfl
    exact hands.moverAt burst'
      (State.moverLoose_congr mover (State.still.grant (s.still_resumed e rest)) ((h high).1 burst))
  | beginSlot => exact fun low => ⟨fun none => absurd none (h low).1, fun _ => ⟨(h low).1, rfl⟩⟩
  | beginLink => exact fun low => ⟨fun none => absurd none (h low).1, fun _ => ⟨(h low).1, rfl⟩⟩
  | @tallyEnds m s b i d p =>
    refine Point.moverStands_gone (s := s.goes .moving)
      ((State.still_endProcessing _ _).trans (State.still_commitProgress _ _ _ _ _))
      ((State.endProcessing_mover _ _).trans (State.commitProgress_mover _ _ _ _ _)) (State.endProcessing_burst _ _) ?_
    exact fun low => ⟨(h low).2.2.2, (h low).2.2.1⟩
  | @tallyGoesOn m s b i d p =>
    refine Point.moverStands_gone (s := s.goes .moving)
      ((State.still_endCurrent _ _).trans (State.still_commitProgress _ _ _ _ _))
      (State.commitProgress_mover (s.goes .moving) i d p b) rfl ?_
    exact fun low => ⟨(h low).2.2.2, (h low).2.2.1⟩
  | @fallsShort m s b i =>
    exact Point.moverStands_gone (s := s.goes .moving) (State.still_endCurrent _ _) rfl rfl
      fun low => ⟨(h low).2.2.2, (h low).2.2.1⟩
  | beginNothing =>
    exact Point.moverStands_gone rfl rfl rfl fun low => (h low : State.moverBegins _).loose
  | beginsNone burst => exact fun low => absurd burst (h low).1
  | @commits s w b i d p moves burst =>
    intro low
    have still := State.still_commitProgress w i d p b
    have committed := moves.moverCommitted (h (moves.resetLow.symm.trans ((State.still.resetLow still).symm.trans low)))
    refine State.moverAt_congr (s := w) (st := .committed) (State.commitProgress_mover _ _ _ _ _) (State.still.grant still) ?_
      committed
    rw [State.commitProgress_burst, burst]
    simp
  | @finishes s w b i d p moves =>
    have ended : Point.moverStands ⟨.plain, .choosing, (w.commitProgress i d p b).endProcessing i⟩ :=
      Point.moverStands_gone (s := w) ((State.still_endProcessing _ _).trans (State.still_commitProgress _ _ _ _ _))
        ((State.endProcessing_mover _ _).trans (State.commitProgress_mover _ _ _ _ _)) (State.endProcessing_burst _ _)
        fun low => (moves.moverCommitted (h (moves.resetLow.symm.trans low))).loose
    unfold State.answerEnded
    split
    · exact Point.moverStands_answer _ ended
    · exact ended
  | @cancels s w b i d p payload moves =>
    refine Point.moverStands_answer payload (m := .plain) ?_
    refine Point.moverStands_gone (s := w) ?_ ?_ ?_
      fun low => (moves.moverCommitted (h (moves.resetLow.symm.trans low))).loose
    · exact (State.still_takeOut _ _).trans (State.still_commitProgress w i d p b)
    · exact (State.apart.mover (State.apart_takeOut _ _)).trans (State.commitProgress_mover w i d p b)
    · exact State.takeOut_burst _ _
  | @fails s u a b i high unit failed =>
    have stops := Stops.failed u a high unit failed
    have ended : Point.moverStands ⟨.plain, .choosing, s.unitOver.faultProcessing i (.parity a)⟩ :=
      Point.moverStands_gone (s := s.unitOver) (State.still_faultProcessing _ _ _) (State.faultProcessing_mover _ _ _)
        (State.faultProcessing_burst _ _ _) fun low => stops.moverLoose (h high)
    unfold State.cancelFaulted
    split
    · refine Point.moverStands_answer _ (m := .plain) ?_
      exact Point.moverStands_same (State.still_takeOut _ _) (State.apart.mover (State.apart_takeOut _ _))
        (State.takeOut_burst _ _) ended
    · exact ended
  | @linkMoves s w b a moves burst =>
    intro low
    have committed := moves.moverCommitted (h (moves.resetLow.symm.trans low))
    refine State.moverAt_congr (s := w) (st := .committed) rfl rfl ?_ committed
    rw [State.setBurst_sched_burst, burst]
    simp
  | @linkEnds s w b a payload stops =>
    refine Point.moverStands_answer payload (m := .plain) ?_
    exact Point.moverStands_gone (s := w) rfl rfl rfl
      fun low => stops.moverLoose (h (stops.resetLow.symm.trans low))
  | @timesOut s b i high asking =>
    exact Point.moverStands_gone (s := s.lowerRequest) (State.still_faultProcessing _ _ _)
      (State.faultProcessing_mover _ _ _) (State.faultProcessing_burst _ _ _)
      fun low => (Stops.timeout high asking).moverLoose (h high)
  | stopsIdle stops burst =>
    exact Point.moverStands_gone rfl rfl burst fun low => stops.moverLoose (h (stops.resetLow.symm.trans low))
  | @stopsOwnerless s w b stops =>
    exact Point.moverStands_gone (s := w) rfl rfl rfl fun low => stops.moverLoose (h (stops.resetLow.symm.trans low))
  | @endsCurrent s b i =>
    exact Point.moverStands_gone (s := s) (State.still_endCurrent _ _) rfl rfl
      fun low => (h low : State.moverCommitted _).loose
  | goesOn state =>
    intro low
    obtain ⟨burst, unit, timer, moving | ⟨yielding, -⟩⟩ := h low
    · exact ⟨burst, moving, timer, unit⟩
    · exact absurd yielding state
  | @asksAgain s state =>
    intro low
    obtain ⟨burst, unit, timer, moving | ⟨-, request⟩⟩ := h ((State.still.resetLow s.still_ask).symm.trans low)
    · rw [state] at moving; cases moving
    · refine ⟨fun none => ?_, fun _ => State.ask_moverLegal burst unit request timer⟩
      rw [State.ask_sched] at none
      exact absurd none burst
  | @losesOwner s b =>
    exact Point.moverStands_gone (s := s) rfl rfl rfl fun low => (h low : State.moverCommitted _).loose
  | @freezes s payload _ burst =>
    refine fun _ => State.moverAt_rest rfl ?_
    exact (congrArg _ (State.produceAnswer_sched (s.setFreeze .frozen) payload)).trans burst
  | @seesGrant s asking =>
    exact fun low => State.moverLegal_grant (s := s) rfl (fun state _ => absurd state (asking low)) Iff.rfl (h low)
  | servesGrant _ asking =>
    intro low
    obtain ⟨burst, -, -, unit, -⟩ := State.moverLegal.asking (h low) asking
    exact ⟨burst, rfl, rfl, unit⟩
  | awaitsGrantEnd asking =>
    intro low
    obtain ⟨burst, -, -, unit, -⟩ := State.moverLegal.asking (h low) asking
    exact ⟨burst, rfl, fun _ => rfl⟩
  | @losesGrantLow s reset =>
    intro low
    have low : s.resetLow = false := low
    rw [reset] at low
    cases low
  | @losesGrant s high =>
    exact fun _ => State.grantGone_moverLegal (State.moverLegal_grant (s := s) rfl (fun _ _ => rfl) Iff.rfl (h high))
  | @waitsOn s n k timer =>
    intro low
    have legal : s.moverLegal := h low
    unfold State.moverLegal at legal
    cases state : s.mover.state <;> rw [state, timer] at legal <;> dsimp only at legal
    case idle => cases legal.2.2.1
    case asking =>
      unfold State.moverAt State.moverLegal
      simp only [State.setMover_mover, state]
      exact ⟨legal.1, legal.2.1, by simp, legal.2.2.2.1, legal.2.2.2.2⟩
    case moving => cases legal.2
    case yielding => cases legal.2.1
  | event =>
    exact Point.moverStands_same (State.still_eventAt _ _) (State.apart.mover (State.apart_eventAt _ _))
      (State.apart.burst (State.apart_eventAt _ _)) h
  | unbind =>
    exact Point.moverStands_same (State.still_takeOut _ _) (State.apart.mover (State.apart_takeOut _ _))
      (State.takeOut_burst _ _) h
  | @cancelPreempted m s i =>
    exact Point.moverStands_same (m := m) (s := s.unstack i) (State.still_takeOut _ _) (State.apart.mover (State.apart_takeOut _ _))
      (State.takeOut_burst _ _) h
  | @cancelActive m s i d p _ _ unit =>
    intro low
    have still := (State.still_takeOut s.dropBurst i).trans s.still_dropBurst
    have dropped := State.dropBurst_moverAt (h ((State.still.resetLow still).symm.trans low)) unit
    exact State.moverAt_congr (State.apart.mover (State.apart_takeOut _ _)) (State.still.grant (State.still_takeOut _ _))
      (by rw [State.takeOut_burst]) dropped
  | skip =>
    exact Point.moverStands_same (State.still_removeHead _ _ _) (State.apart.mover (State.apart_removeHead _ _ _))
      (State.apart.burst (State.apart_removeHead _ _ _)) h
  | freezeCut => exact fun _ => State.moverAt_rest rfl rfl
  | answers => exact Point.moverStands_answer _ h
  | @drains s r rest =>
    obtain ⟨burst, -, -⟩ := s.drainPlace_apart r rest
    have mover : (s.drainPlace r rest).mover = s.mover := by
      cases r with
      | ended r => exact (State.apart.mover (State.apart_requeue _ r) :)
      | faulted r => rfl
    exact Point.moverStands_same (s.still_drainPlace r rest) mover burst h
  | refuses => obtain ⟨link, e⟩ := State.queueRefusal_frame _ _; rw [e]; exact h
  | replays => obtain ⟨link, e⟩ := State.replay_frame _ _ _ _; rw [e]; exact h
  | enters => obtain ⟨link, hand, e⟩ := State.enterOrder_frame _ _; rw [e]; exact h
  | sendsAnswer => obtain ⟨link, hand, e⟩ := State.sendAnswer_frame _ _ _; rw [e]; exact h
  | takesLow => exact nofun
  | releases => exact fun _ => State.moverAt_rest rfl rfl
  | resetsByOrder => exact fun _ => State.moverAt_rest rfl rfl
  | _ => exact h

end Sys2Proof.Machine
end

