-- ==== Sys2Proof/Proofs/SlotViews.lean ====
section
/-! The laws of the descriptor states as laws of each slot by itself (`State.lawsAt`) and of the queues
(`State.queueLaws`), so that what an act leaves alone at a slot carries the slot's laws over (R13, R41, R57, R75, R144). -/

namespace Sys2Proof.Machine

/-! ## What the laws see of a slot -/

/-- The state a slot is in, if it holds a descriptor. -/
def State.rank (s : State) (i : Fin 64) : Option LiveState := (s.slot i).state

/-- A state but for the difference between the head of a queue and the members behind it. -/
def LiveState.role : LiveState → LiveState
  | .bound => .current
  | st => st

def State.role (s : State) (i : Fin 64) : Option LiveState := (s.rank i).map LiveState.role

/-- Where a state puts its slot: at the head of a queue, behind a head, or in no queue (R41). -/
def LiveState.standing : LiveState → Option Bool
  | .bound => some false
  | .loaded | .spent => none
  | .current | .active | .preempted | .held | .faulted => some true

def State.standing (s : State) (i : Fin 64) : Option Bool := (s.rank i).bind LiveState.standing

/-- Record and progress of a slot. -/
def Slot.content : Slot → Option (Descriptor × Progress)
  | .free => none
  | .live _ d p => some (d, p)

def State.content (s : State) (i : Fin 64) : Option (Descriptor × Progress) := (s.slot i).content

/-- The slot owns the burst in hand. -/
def State.owns (s : State) (i : Fin 64) : Prop := ∃ b, s.sched.burst = some b ∧ b.owner = .slot i

/-- The stack entries of a slot. -/
def State.entries (s : State) (i : Fin 64) : Nat := s.sched.stack.countP fun e => e.owner = .slot i

/-- The records that wait for a slot's notice. -/
def State.waitsFor (s : State) (i : Fin 64) : List Record := s.notes.waiting.filter fun r => r.slot = i

theorem State.rank_live {s : State} {i : Fin 64} {st : LiveState} {d : Descriptor} {p : Progress}
    (slot : s.slot i = .live st d p) : s.rank i = some st := by
  simp [State.rank, slot, Slot.state]

theorem State.role_live {s : State} {i : Fin 64} {st : LiveState} {d : Descriptor} {p : Progress}
    (slot : s.slot i = .live st d p) : s.role i = some st.role := by
  simp [State.role, State.rank_live slot]

theorem State.content_live {s : State} {i : Fin 64} {st : LiveState} {d : Descriptor} {p : Progress}
    (slot : s.slot i = .live st d p) : s.content i = some (d, p) := by
  simp [State.content, slot, Slot.content]

theorem State.slot_iff {s : State} {i : Fin 64} {st : LiveState} {d : Descriptor} {p : Progress} :
    s.slot i = .live st d p ↔ s.rank i = some st ∧ s.content i = some (d, p) := by
  unfold State.rank State.content
  cases s.slot i <;> simp [Slot.state, Slot.content]

theorem State.inState_rank {s : State} {i : Fin 64} {st : LiveState} : s.inState i st = true ↔ s.rank i = some st := by
  simp [State.inState, State.rank]

/-- A role but CURRENT's is a state. -/
theorem State.role_iff {s : State} {i : Fin 64} {st : LiveState} (bound : st ≠ .bound) (current : st ≠ .current) :
    s.role i = some st ↔ s.rank i = some st := by
  unfold State.role
  cases s.rank i with
  | none => simp
  | some r => cases r <;> cases st <;> simp_all [LiveState.role]

theorem LiveState.standing_queued (st : LiveState) : st.standing ≠ none ↔ st.queued = true := by
  cases st <;> simp [LiveState.standing, LiveState.queued]

/-! ## The laws of the queues -/

/-- A slot is in a queue exactly while its state says so, in one queue once, as its head or behind it (R41). -/
structure QueuesLawful (place : Fin 64 → Option Bool) (queue : Fin 28 → List (Fin 64)) : Prop where
  members : ∀ i, (∃ q, i ∈ queue q) ↔ place i ≠ none
  nodup : ∀ q, (queue q).Nodup
  once : ∀ q r, q ≠ r → ∀ i ∈ queue q, i ∉ queue r
  leads : ∀ q h rest, queue q = h :: rest → place h = some true ∧ ∀ i ∈ rest, place i = some false

abbrev State.queueLaws (s : State) : Prop := QueuesLawful s.standing s.queue

theorem State.standing_ne_none {s : State} {i : Fin 64} :
    s.standing i ≠ none ↔ ∃ st, (s.slot i).state = some st ∧ st.queued = true := by
  unfold State.standing State.rank
  cases (s.slot i).state with
  | none => simp
  | some st => simp [← LiveState.standing_queued]

theorem State.standing_false {s : State} {i : Fin 64} : s.standing i = some false ↔ s.rank i = some .bound := by
  unfold State.standing
  cases s.rank i with
  | none => simp
  | some st => cases st <;> simp [LiveState.standing]

theorem State.queueLaws_iff {s : State} : s.queueLaws ↔ s.membersMatch ∧ s.membersOnce ∧ s.headsLead := by
  have member : s.membersMatch ↔ ∀ i, (∃ q, i ∈ s.queue q) ↔ s.standing i ≠ none := by
    simp only [State.membersMatch, State.standing_ne_none]
  have leads (match_ : s.membersMatch) :
      s.headsLead ↔
        ∀ q h rest, s.queue q = h :: rest → s.standing h = some true ∧ ∀ i ∈ rest, s.standing i = some false := by
    simp only [State.headsLead, State.inState_rank, State.standing_false]
    refine forall_congr' fun q => forall_congr' fun h => forall_congr' fun rest => imp_congr_right fun queue =>
      and_congr_left fun _ => ?_
    have queued : s.standing h ≠ none := (member.mp match_ h).mp ⟨q, by rw [queue]; exact List.mem_cons_self ..⟩
    rw [← State.standing_false]
    cases place : s.standing h with
    | none => exact absurd place queued
    | some first => cases first <;> simp
  constructor
  · rintro ⟨members, nodup, once, led⟩
    exact ⟨member.mpr members, ⟨nodup, once⟩, (leads (member.mpr members)).mpr led⟩
  · rintro ⟨match_, ⟨nodup, once⟩, led⟩
    exact ⟨member.mp match_, nodup, once, (leads match_).mp led⟩

theorem QueuesLawful.unique {place : Fin 64 → Option Bool} {queue : Fin 28 → List (Fin 64)} (h : QueuesLawful place queue)
    {q r : Fin 28} {i : Fin 64} (hq : i ∈ queue q) (hr : i ∈ queue r) : q = r :=
  by_contra fun ne => h.once q r ne i hq hr

/-- A slot whose state makes it a head heads a queue. -/
theorem QueuesLawful.heads {place : Fin 64 → Option Bool} {queue : Fin 28 → List (Fin 64)} (h : QueuesLawful place queue)
    {q : Fin 28} {i : Fin 64} (mem : i ∈ queue q) (first : place i = some true) : ∃ rest, queue q = i :: rest := by
  cases list : queue q with
  | nil => rw [list] at mem; cases mem
  | cons head rest =>
    rw [list] at mem
    rcases List.mem_cons.mp mem with rfl | behind
    · exact ⟨rest, rfl⟩
    · have follows := (h.leads q head rest list).2 i behind
      rw [first] at follows
      cases follows

theorem head_mem {l : List (Fin 64)} {i : Fin 64} (head : l.head? = some i) : i ∈ l := List.mem_of_mem_head? head

/-- A head stays the head when another member leaves. -/
theorem head_erase {l : List (Fin 64)} {i j : Fin 64} (ne : j ≠ i) (head : l.head? = some j) :
    (l.erase i).head? = some j := by
  cases l with
  | nil => cases head
  | cons x rest =>
    cases head
    rw [List.erase_cons_tail (by simpa using ne)]
    rfl

/-- A member leaves its queue, and the one that then heads it leads it (R51, R52). -/
theorem QueuesLawful.remove {place place' : Fin 64 → Option Bool} {queue queue' : Fin 28 → List (Fin 64)}
    (h : QueuesLawful place queue) {q : Fin 28} {i : Fin 64} (mem : i ∈ queue q) (out : place' i = none)
    (others : ∀ j, j ≠ i → place' j = if ((queue q).erase i).head? = some j then some true else place j)
    (queues : ∀ r, queue' r = if q = r then (queue q).erase i else queue r) : QueuesLawful place' queue' := by
  have left : ∀ j r, j ∈ queue' r ↔ j ≠ i ∧ j ∈ queue r := by
    intro j r
    rw [queues]
    split_ifs with same
    · subst same; exact (h.nodup q).mem_erase_iff
    · exact ⟨fun hj => ⟨fun e => h.once q r same i mem (e ▸ hj), hj⟩, fun hj => hj.2⟩
  have elsewhere : ∀ r j, q ≠ r → j ∈ queue r → j ≠ i ∧ place' j = place j := by
    intro r j ne hj
    have off : j ≠ i := fun e => h.once q r ne i mem (e ▸ hj)
    refine ⟨off, ?_⟩
    rw [others j off, if_neg]
    exact fun head => h.once q r ne j (List.mem_of_mem_erase (head_mem head)) hj
  refine ⟨fun j => ?_, fun r => ?_, fun r t ne j hj hj' => ?_, fun r head rest list => ?_⟩
  · simp only [left]
    by_cases here : j = i
    · subst here; simp [out]
    · rw [others j here]
      have queued := h.members j
      split_ifs with head
      · exact ⟨fun _ => nofun, fun _ => ⟨q, here, List.mem_of_mem_erase (head_mem head)⟩⟩
      · simp [here, queued]
  · rw [queues]
    split_ifs
    · exact (h.nodup q).erase i
    · exact h.nodup r
  · exact h.once r t ne j ((left j r).mp hj).2 ((left j t).mp hj').2
  · by_cases same : q = r
    · subst same
      rw [queues, if_pos rfl] at list
      have distinct : (head :: rest).Nodup := list ▸ (h.nodup q).erase i
      have off : ∀ j ∈ head :: rest, j ≠ i := fun j hj =>
        ((left j q).mp (by rw [queues, if_pos rfl, list]; exact hj)).1
      refine ⟨by rw [others head (off head (List.mem_cons_self ..)), if_pos (by rw [list]; rfl)], fun j hj => ?_⟩
      have behind : j ≠ head := fun e => (List.nodup_cons.mp distinct).1 (e ▸ hj)
      rw [others j (off j (List.mem_cons_of_mem _ hj)), if_neg (by rw [list]; simpa using Ne.symm behind)]
      cases old : queue q with
      | nil => rw [old] at mem; cases mem
      | cons first tail =>
        have follows := (h.leads q first tail old).2
        rw [old] at list
        by_cases heads : first = i
        · subst heads
          rw [List.erase_cons_head] at list
          exact follows j (list ▸ List.mem_cons_of_mem _ hj)
        · rw [List.erase_cons_tail (by simpa using heads)] at list
          obtain ⟨-, rfl⟩ := List.cons.inj list
          exact follows j (List.mem_of_mem_erase hj)
    · rw [queues, if_neg same] at list
      obtain ⟨leads, follows⟩ := h.leads r head rest list
      refine ⟨?_, fun j hj => ?_⟩
      · rw [(elsewhere r head same (by rw [list]; exact List.mem_cons_self ..)).2]; exact leads
      · rw [(elsewhere r j same (by rw [list]; exact List.mem_cons_of_mem _ hj)).2]; exact follows j hj

/-- A slot that is in no queue joins one at its tail (R42, R53). -/
theorem QueuesLawful.append {place place' : Fin 64 → Option Bool} {queue queue' : Fin 28 → List (Fin 64)}
    (h : QueuesLawful place queue) {q : Fin 28} {i : Fin 64} (out : place i = none)
    (joined : place' i = some (queue q).isEmpty) (others : ∀ j, j ≠ i → place' j = place j)
    (queues : ∀ r, queue' r = if q = r then queue q ++ [i] else queue r) : QueuesLawful place' queue' := by
  have absent : ∀ r, i ∉ queue r := fun r hr => (h.members i).mp ⟨r, hr⟩ out
  have left : ∀ j r, j ∈ queue' r ↔ j ∈ queue r ∨ q = r ∧ j = i := by
    intro j r
    rw [queues]
    split_ifs with same
    · subst same; simp
    · simp [same]
  have kept : ∀ j r, j ∈ queue r → place' j = place j := fun j r hj => others j fun e => absent r (e ▸ hj)
  refine ⟨fun j => ?_, fun r => ?_, fun r t ne j hj hj' => ?_, fun r head rest list => ?_⟩
  · simp only [left]
    by_cases here : j = i
    · subst here; simp [joined]
    · rw [others j here]; simp [here, h.members j]
  · rw [queues]
    split_ifs
    · exact (h.nodup q).append (List.nodup_singleton i) (by simpa using absent q)
    · exact h.nodup r
  · rcases (left j r).mp hj with hr | ⟨here, last⟩ <;> rcases (left j t).mp hj' with ht | ⟨there, last'⟩
    · exact h.once r t ne j hr ht
    · exact absent r (last' ▸ hr)
    · exact absent t (last ▸ ht)
    · exact ne (here.symm.trans there)
  · by_cases same : q = r
    · subst same
      rw [queues, if_pos rfl] at list
      cases old : queue q with
      | nil =>
        rw [old] at list
        obtain ⟨rfl, rfl⟩ := List.cons.inj list
        exact ⟨by rw [joined, old]; rfl, nofun⟩
      | cons first tail =>
        obtain ⟨leads, follows⟩ := h.leads q first tail old
        rw [old, List.cons_append] at list
        obtain ⟨rfl, rfl⟩ := List.cons.inj list
        refine ⟨?_, fun j hj => ?_⟩
        · rw [kept first q (by rw [old]; exact List.mem_cons_self ..)]; exact leads
        · rcases List.mem_append.mp hj with behind | last
          · rw [kept j q (by rw [old]; exact List.mem_cons_of_mem _ behind)]; exact follows j behind
          · rw [List.mem_singleton.mp last, joined, old]; rfl
    · rw [queues, if_neg same] at list
      obtain ⟨leads, follows⟩ := h.leads r head rest list
      refine ⟨?_, fun j hj => ?_⟩
      · rw [kept head r (by rw [list]; exact List.mem_cons_self ..)]; exact leads
      · rw [kept j r (by rw [list]; exact List.mem_cons_of_mem _ hj)]; exact follows j hj

/-! ## The laws of a slot -/

/-- What the laws say of one slot. -/
structure State.lawsAt (s : State) (i : Fin 64) : Prop where
  owns : s.role i = some .active ↔ s.owns i
  stands : s.entries i = if s.role i = some .preempted then 1 else 0
  waitsOnce : (s.waitsFor i).length ≤ 1
  held : s.role i = some .held ↔ ∃ r, Record.ended r ∈ s.waitsFor i
  leads : ∀ r, Record.ended r ∈ s.waitsFor i → (s.queue r.source).head? = some i
  failed : ∀ r, Record.faulted r ∈ s.waitsFor i →
    s.role i = some .faulted ∨ s.role i = some .loaded ∨ s.role i = some .spent
  adds : ∀ d p, s.content i = some (d, p) →
    1 ≤ d.total ∧ p.committed + p.remaining = d.total ∧
      (s.role i ≠ some .held → s.role i ≠ some .spent → 1 ≤ p.remaining) ∧ (s.role i = some .held → p.remaining = 0)

theorem State.mem_waitsFor {s : State} {i : Fin 64} {r : Record} :
    r ∈ s.waitsFor i ↔ r ∈ s.notes.waiting ∧ r.slot = i := by
  simp [State.waitsFor]

theorem waits_nodup {l : List Record} :
    (l.map Record.slot).Nodup ↔ ∀ i : Fin 64, (l.filter fun r => r.slot = i).length ≤ 1 := by
  rw [List.nodup_iff_count_le_one]
  refine forall_congr' fun i => ?_
  rw [List.count, List.countP_map, List.countP_eq_length_filter]
  exact Eq.to_iff (congrArg (fun f => (l.filter f).length ≤ 1) (funext fun r => (Bool.beq_eq_decide_eq r.slot i)))

/-- The slot laws are the laws of the queues and of each slot. -/
theorem State.slotLaws_iff {s : State} : s.slotLaws ↔ s.queueLaws ∧ ∀ i, s.lawsAt i := by
  have faulted := fun i => s.role_iff (i := i) (st := .faulted) nofun nofun
  have loaded := fun i => s.role_iff (i := i) (st := .loaded) nofun nofun
  have spent := fun i => s.role_iff (i := i) (st := .spent) nofun nofun
  have held := fun i => s.role_iff (i := i) (st := .held) nofun nofun
  have active := fun i => s.role_iff (i := i) (st := .active) nofun nofun
  have preempted := fun i => s.role_iff (i := i) (st := .preempted) nofun nofun
  constructor
  · rintro ⟨members, once, lead, owns, stands, ⟨nodup, holds, leads, failed⟩, adds⟩
    refine ⟨State.queueLaws_iff.mpr ⟨members, once, lead⟩, fun i => ⟨?_, ?_, ?_, ?_, ?_, ?_, ?_⟩⟩
    · rw [active, ← State.inState_rank]; exact owns i
    · simp only [preempted, ← State.inState_rank]; exact stands i
    · exact waits_nodup.mp nodup i
    · rw [held, ← State.inState_rank, holds i]
      exact exists_congr fun r => State.mem_waitsFor.symm
    · intro r hr
      obtain ⟨waits, slot⟩ := State.mem_waitsFor.mp hr
      rw [← slot]
      exact leads r waits
    · intro r hr
      obtain ⟨waits, slot⟩ := State.mem_waitsFor.mp hr
      rw [faulted, loaded, spent, ← State.inState_rank, ← State.inState_rank, ← State.inState_rank, ← slot]
      exact failed r waits
    · intro d p content
      cases rank : s.rank i with
      | none =>
        unfold State.rank State.content at *
        cases slot : s.slot i <;> simp_all [Slot.state, Slot.content]
      | some st =>
        rw [ne_eq, ne_eq, held, spent, rank]
        have laws := adds i st d p (State.slot_iff.mpr ⟨rank, content⟩)
        simpa using laws
  · rintro ⟨queues, laws⟩
    obtain ⟨members, once, lead⟩ := State.queueLaws_iff.mp queues
    refine ⟨members, once, lead, fun i => ?_, fun i => ?_, ⟨?_, fun i => ?_, fun r waits => ?_, fun r waits => ?_⟩,
      fun i st d p slot => ?_⟩
    · rw [State.inState_rank, ← active]; exact (laws i).owns
    · simp only [State.inState_rank, ← preempted]; exact (laws i).stands
    · exact waits_nodup.mpr fun i => (laws i).waitsOnce
    · rw [State.inState_rank, ← held, (laws i).held]
      exact exists_congr fun r => State.mem_waitsFor
    · exact (laws r.slot).leads r (State.mem_waitsFor.mpr ⟨waits, rfl⟩)
    · rw [State.inState_rank, State.inState_rank, State.inState_rank, ← faulted, ← loaded, ← spent]
      exact (laws r.slot).failed r (State.mem_waitsFor.mpr ⟨waits, rfl⟩)
    · have adds := (laws i).adds d p (State.content_live slot)
      rw [ne_eq, ne_eq, held, spent, State.rank_live slot] at adds
      simpa using adds

end Sys2Proof.Machine
end

