-- ==== Sys2Proof/Proofs/SlotChanges.lean ====
section
/-! How the changes of slots and queues change what the slot laws see, and what then remains to be shown of the slot that
changed (R41, R51 to R53). -/

namespace Sys2Proof.Machine

/-! ## Slots by themselves -/

section
variable (s : State) (i j : Fin 64)

theorem State.rank_setSlot (v : Slot) : (s.setSlot i v).rank j = if i = j then v.state else s.rank j := by
  simp only [State.rank, State.slot_setSlot]
  split_ifs <;> rfl

theorem State.content_setSlot (v : Slot) : (s.setSlot i v).content j = if i = j then v.content else s.content j := by
  simp only [State.content, State.slot_setSlot]
  split_ifs <;> rfl

theorem State.rank_setState (st : LiveState) :
    (s.setState i st).rank j = if i = j then (s.rank i).map fun _ => st else s.rank j := by
  rw [State.setState, State.rank_setSlot]
  split_ifs
  · unfold State.rank
    cases s.slot i <;> rfl
  · rfl

@[simp] theorem State.content_setState (st : LiveState) : (s.setState i st).content j = s.content j := by
  rw [State.setState, State.content_setSlot]
  split_ifs with same
  · subst same
    unfold State.content
    cases s.slot i <;> rfl
  · rfl

end

/-- A slot in a role but CURRENT's holds a descriptor in that state. -/
theorem State.slot_of_role {s : State} {i : Fin 64} {st : LiveState} (role : s.role i = some st) (bound : st ≠ .bound)
    (current : st ≠ .current) : ∃ d p, s.slot i = .live st d p := by
  have rank := (State.role_iff bound current).mp role
  unfold State.rank at rank
  cases slot : s.slot i with
  | free => rw [slot] at rank; cases rank
  | live x d p => rw [slot] at rank; cases rank; exact ⟨d, p, rfl⟩

/-! ## One slot changes -/

/-- The two states differ at most at one slot, with its part of the burst in hand, the stack and the waiting records. -/
structure Alters (i : Fin 64) (s t : State) : Prop where
  queue : ∀ q, t.queue q = s.queue q
  slot : ∀ j, j ≠ i → t.slot j = s.slot j
  owns : ∀ j, j ≠ i → (t.owns j ↔ s.owns j)
  entries : ∀ j, j ≠ i → t.entries j = s.entries j
  waits : ∀ j, j ≠ i → t.waitsFor j = s.waitsFor j

/-- The laws of the queues and of every slot but one. -/
def State.lawsBut (s : State) (i : Fin 64) : Prop := s.queueLaws ∧ ∀ j, j ≠ i → s.lawsAt j

theorem State.lawsBut.with {s : State} {i : Fin 64} (h : s.lawsBut i) (here : s.lawsAt i) : s.slotLaws := by
  refine State.slotLaws_iff.mpr ⟨h.1, fun j => ?_⟩
  by_cases same : j = i
  · exact same ▸ here
  · exact h.2 j same

theorem State.slotLaws.but {s : State} (h : s.slotLaws) (i : Fin 64) : s.lawsBut i :=
  ⟨(State.slotLaws_iff.mp h).1, fun j _ => (State.slotLaws_iff.mp h).2 j⟩

theorem State.slotLaws.at {s : State} (h : s.slotLaws) (i : Fin 64) : s.lawsAt i := (State.slotLaws_iff.mp h).2 i

theorem State.slotLaws.queues {s : State} (h : s.slotLaws) : s.queueLaws := (State.slotLaws_iff.mp h).1

/-- The laws of a slot depend on its state, record, burst, stack entries and waiting records, and for a HELD one on the
queue it heads. -/
theorem State.lawsAt_congr {s t : State} {j : Fin 64} (role : t.role j = s.role j) (content : t.content j = s.content j)
    (owns : t.owns j ↔ s.owns j) (entries : t.entries j = s.entries j) (waits : t.waitsFor j = s.waitsFor j)
    (heads : s.role j = some .held → ∀ q, (s.queue q).head? = some j → (t.queue q).head? = some j) (h : s.lawsAt j) :
    t.lawsAt j := by
  refine ⟨?_, ?_, ?_, ?_, ?_, ?_, ?_⟩
  · rw [role, owns]; exact h.owns
  · rw [role, entries]; exact h.stands
  · rw [waits]; exact h.waitsOnce
  · rw [role, waits]; exact h.held
  · rw [waits]
    exact fun r hr => heads (h.held.mpr ⟨r, hr⟩) _ (h.leads r hr)
  · rw [role, waits]; exact h.failed
  · rw [role, content]; exact h.adds

theorem State.slot_views {s t : State} {j : Fin 64} (slot : t.slot j = s.slot j) :
    t.rank j = s.rank j ∧ t.role j = s.role j ∧ t.standing j = s.standing j ∧ t.content j = s.content j := by
  have rank : t.rank j = s.rank j := by rw [State.rank, State.rank, slot]
  refine ⟨rank, ?_, ?_, ?_⟩
  · rw [State.role, State.role, rank]
  · rw [State.standing, State.standing, rank]
  · rw [State.content, State.content, slot]

theorem State.queueLaws_congr {s t : State} (standing : ∀ j, t.standing j = s.standing j)
    (queue : ∀ q, t.queue q = s.queue q) (h : s.queueLaws) : t.queueLaws := by
  have standing : t.standing = s.standing := funext standing
  have queue : t.queue = s.queue := funext queue
  rw [State.queueLaws, standing, queue]
  exact h

/-- A change of one slot that leaves its place in the queues keeps the laws elsewhere. -/
theorem Alters.lawsBut {i : Fin 64} {s t : State} (alters : Alters i s t) (standing : t.standing i = s.standing i)
    (h : s.lawsBut i) : t.lawsBut i := by
  refine ⟨State.queueLaws_congr (fun j => ?_) alters.queue h.1, fun j off => ?_⟩
  · by_cases same : j = i
    · subst same; exact standing
    · exact (State.slot_views (alters.slot j same)).2.2.1
  · obtain ⟨-, role, -, content⟩ := State.slot_views (alters.slot j off)
    exact State.lawsAt_congr role content (alters.owns j off) (alters.entries j off) (alters.waits j off)
      (fun _ q => by rw [alters.queue]; exact id) (h.2 j off)

theorem Alters.trans {i : Fin 64} {s t u : State} (first : Alters i s t) (second : Alters i t u) : Alters i s u :=
  ⟨fun q => (second.queue q).trans (first.queue q), fun j off => (second.slot j off).trans (first.slot j off),
    fun j off => (second.owns j off).trans (first.owns j off),
    fun j off => (second.entries j off).trans (first.entries j off),
    fun j off => (second.waits j off).trans (first.waits j off)⟩

theorem Alters.setSlot (s : State) (i : Fin 64) (v : Slot) : Alters i s (s.setSlot i v) :=
  ⟨fun _ => rfl, fun _ off => s.slot_setSlot_ne (Ne.symm off) v, fun _ _ => Iff.rfl, fun _ _ => rfl, fun _ _ => rfl⟩

theorem Alters.setState (s : State) (i : Fin 64) (st : LiveState) : Alters i s (s.setState i st) := Alters.setSlot s i _

/-- The burst in hand changes from one that the slot owns, or none, to one that it owns, or none. -/
theorem Alters.setBurst {s : State} {i : Fin 64} {b : Option Burst} (old : ∀ j, j ≠ i → ¬ s.owns j)
    (new : ∀ c, b = some c → c.owner = .slot i) : Alters i s (s.setBurst b) := by
  refine ⟨fun _ => rfl, fun _ _ => rfl, fun j off => ?_, fun _ _ => rfl, fun _ _ => rfl⟩
  refine iff_of_false ?_ (old j off)
  rintro ⟨c, burst, owner⟩
  rw [new c burst] at owner
  cases owner
  exact off rfl

/-- An entry of the slot joins the stack or leaves it. -/
theorem Alters.setStack {s : State} {i : Fin 64} {l : List StackEntry}
    (others : ∀ j, j ≠ i → l.countP (fun e => e.owner = .slot j) = s.entries j) : Alters i s (s.setStack l) :=
  ⟨fun _ => rfl, fun _ _ => rfl, fun _ _ => Iff.rfl, others, fun _ _ => rfl⟩

/-- A record of the slot joins the waiting ones or leaves them. -/
theorem Alters.setNotes {s : State} {i : Fin 64} {l : NoticeList}
    (others : ∀ j, j ≠ i → (l.waiting.filter fun r => r.slot = j) = s.waitsFor j) : Alters i s (s.setNotes l) :=
  ⟨fun _ => rfl, fun _ _ => rfl, fun _ _ => Iff.rfl, fun _ _ => rfl, others⟩

/-- What the slot laws do not see has changed: the two states agree at every slot. -/
structure Agrees (s t : State) : Prop where
  queue : ∀ q, t.queue q = s.queue q
  slot : ∀ j, t.slot j = s.slot j
  owns : ∀ j, t.owns j ↔ s.owns j
  entries : ∀ j, t.entries j = s.entries j
  waits : ∀ j, t.waitsFor j = s.waitsFor j

theorem Agrees.of_parts {s t : State} (slots : t.slots = s.slots) (queues : t.sched.queues = s.sched.queues)
    (burst : t.sched.burst = s.sched.burst) (stack : t.sched.stack = s.sched.stack)
    (waiting : t.notes.waiting = s.notes.waiting) : Agrees s t := by
  refine ⟨fun _ => ?_, fun _ => ?_, fun _ => ?_, fun _ => ?_, fun _ => ?_⟩
  · simp only [State.queue, queues]
  · simp only [State.slot, slots]
  · simp only [State.owns, burst]
  · simp only [State.entries, stack]
  · simp only [State.waitsFor, waiting]

theorem Agrees.of_sched {s t : State} (slots : t.slots = s.slots) (sched : t.sched = s.sched)
    (notes : t.notes = s.notes) : Agrees s t :=
  Agrees.of_parts slots (congrArg _ sched) (congrArg _ sched) (congrArg _ sched) (congrArg _ notes)

theorem Agrees.trans {s t u : State} (first : Agrees s t) (second : Agrees t u) : Agrees s u :=
  ⟨fun q => (second.queue q).trans (first.queue q), fun j => (second.slot j).trans (first.slot j),
    fun j => (second.owns j).trans (first.owns j), fun j => (second.entries j).trans (first.entries j),
    fun j => (second.waits j).trans (first.waits j)⟩

theorem Agrees.alters {s t : State} (agrees : Agrees s t) (i : Fin 64) : Alters i s t :=
  ⟨agrees.queue, fun j _ => agrees.slot j, fun j _ => agrees.owns j, fun j _ => agrees.entries j,
    fun j _ => agrees.waits j⟩

theorem Agrees.lawsAt {s t : State} (agrees : Agrees s t) {i : Fin 64} (h : s.lawsAt i) : t.lawsAt i := by
  obtain ⟨-, role, -, content⟩ := State.slot_views (agrees.slot i)
  exact State.lawsAt_congr role content (agrees.owns i) (agrees.entries i) (agrees.waits i)
    (fun _ q => by rw [agrees.queue]; exact id) h

theorem Agrees.slotLaws {s t : State} (agrees : Agrees s t) (h : s.slotLaws) : t.slotLaws :=
  State.slotLaws_iff.mpr
    ⟨State.queueLaws_congr (fun j => (State.slot_views (agrees.slot j)).2.2.1) agrees.queue h.queues,
      fun i => agrees.lawsAt (h.at i)⟩

/-! ## The slot that changed -/

/-- A slot that is a candidate, or whose burst is in hand or on the stack. -/
theorem State.lawsAt_of_busy {s : State} {i : Fin 64} {x : LiveState} (role : s.role i = some x)
    (busy : x = .current ∨ x = .active ∨ x = .preempted) (owns : x = .active ↔ s.owns i)
    (entries : s.entries i = if x = .preempted then 1 else 0) (waits : s.waitsFor i = [])
    (adds : ∀ d p, s.content i = some (d, p) → 1 ≤ d.total ∧ p.committed + p.remaining = d.total ∧ 1 ≤ p.remaining) :
    s.lawsAt i := by
  refine ⟨?_, ?_, ?_, ?_, ?_, ?_, ?_⟩
  · rw [role, Option.some_inj]; exact owns
  · simp only [role, Option.some_inj]; exact entries
  · simp [waits]
  · rw [role, waits]
    rcases busy with rfl | rfl | rfl <;> simp
  · simp [waits]
  · simp [waits]
  · intro d p content
    obtain ⟨total, sum, left⟩ := adds d p content
    refine ⟨total, sum, fun _ _ => left, fun held => ?_⟩
    rw [role] at held
    rcases busy with rfl | rfl | rfl <;> cases held

/-- A slot that is FAULTED, or at rest with its descriptor. -/
theorem State.lawsAt_of_idle {s : State} {i : Fin 64} {x : LiveState} (role : s.role i = some x)
    (idle : x = .faulted ∨ x = .loaded ∨ x = .spent) (owns : ¬ s.owns i) (entries : s.entries i = 0)
    (once : (s.waitsFor i).length ≤ 1) (faults : ∀ r, Record.ended r ∉ s.waitsFor i)
    (adds : ∀ d p, s.content i = some (d, p) →
      1 ≤ d.total ∧ p.committed + p.remaining = d.total ∧ (x ≠ .spent → 1 ≤ p.remaining)) : s.lawsAt i := by
  refine ⟨?_, ?_, once, ?_, fun r hr => absurd hr (faults r), fun r _ => ?_, ?_⟩
  · rw [role, Option.some_inj]
    refine iff_of_false ?_ owns
    rintro rfl
    rcases idle with idle | idle | idle <;> cases idle
  · rw [role, entries]
    rcases idle with rfl | rfl | rfl <;> rfl
  · rw [role, Option.some_inj]
    refine iff_of_false ?_ fun ⟨r, hr⟩ => faults r hr
    rintro rfl
    rcases idle with idle | idle | idle <;> cases idle
  · rw [role]
    rcases idle with rfl | rfl | rfl <;> simp
  · intro d p content
    obtain ⟨total, sum, left⟩ := adds d p content
    refine ⟨total, sum, fun _ spent => left fun e => spent (e ▸ role), fun held => ?_⟩
    rw [role] at held
    rcases idle with rfl | rfl | rfl <;> cases held

/-- No record waits for a slot that is a candidate, or whose burst is in hand or on the stack. -/
theorem State.lawsAt.quiet {s : State} {i : Fin 64} (h : s.lawsAt i) {x : LiveState} (role : s.role i = some x)
    (busy : x = .current ∨ x = .active ∨ x = .preempted) : s.waitsFor i = [] := by
  refine List.eq_nil_iff_forall_not_mem.mpr fun r hr => ?_
  cases r with
  | ended r =>
    have held := h.held.mpr ⟨r, hr⟩
    rw [role] at held
    rcases busy with rfl | rfl | rfl <;> cases held
  | faulted r =>
    have failed := h.failed r hr
    rw [role] at failed
    rcases busy with rfl | rfl | rfl <;> simp at failed

theorem State.lawsAt.no_end {s : State} {i : Fin 64} (h : s.lawsAt i) (held : s.role i ≠ some .held) (r : EndRecord) :
    Record.ended r ∉ s.waitsFor i :=
  fun hr => held (h.held.mpr ⟨r, hr⟩)

theorem State.lawsAt.entries_zero {s : State} {i : Fin 64} (h : s.lawsAt i) (other : s.role i ≠ some .preempted) :
    s.entries i = 0 := by
  rw [h.stands, if_neg other]

/-- The sum of a slot's progress, with units left where its state is neither HELD nor SPENT. -/
theorem State.lawsAt.left {s : State} {i : Fin 64} (h : s.lawsAt i) {st : LiveState} {d : Descriptor} {p : Progress}
    (slot : s.slot i = .live st d p) (held : st ≠ .held) (spent : st ≠ .spent) :
    1 ≤ d.total ∧ p.committed + p.remaining = d.total ∧ 1 ≤ p.remaining := by
  obtain ⟨total, sum, left, -⟩ := h.adds d p (State.content_live slot)
  refine ⟨total, sum, left ?_ ?_⟩
  · rw [ne_eq, State.role_iff (st := .held) nofun nofun, State.rank_live slot]; simpa using held
  · rw [ne_eq, State.role_iff (st := .spent) nofun nofun, State.rank_live slot]; simpa using spent

/-! ## Changes of the queues -/

theorem State.queueOf_eq {s : State} (h : s.queueLaws) {q : Fin 28} {i : Fin 64} (mem : i ∈ s.queue q) :
    s.queueOf i = some q := by
  unfold State.queueOf
  cases found : (List.finRange 28).find? fun r => (s.queue r).contains i with
  | none =>
    have none := List.find?_eq_none.mp found q (List.mem_finRange q)
    simp [mem] at none
  | some r =>
    have here : i ∈ s.queue r := by simpa using List.find?_some found
    rw [h.unique here mem]

theorem State.sourceOf_eq {s : State} (h : s.queueLaws) {q : Fin 28} {i : Fin 64} (mem : i ∈ s.queue q) :
    s.sourceOf i = q := by
  rw [State.sourceOf, State.queueOf_eq h mem]
  rfl

/-- A slot whose state puts it at the head of a queue heads the queue of its source. -/
theorem State.heads_source {s : State} (h : s.queueLaws) {i : Fin 64} (first : s.standing i = some true) :
    ∃ rest, s.queue (s.sourceOf i) = i :: rest := by
  obtain ⟨q, mem⟩ := (h.members i).mpr (by rw [first]; nofun)
  rw [State.sourceOf_eq h mem]
  exact h.heads mem first

/-- What a promotion does: the head leads its queue. -/
theorem State.promoteHead_views (s : State) (q : Fin 28) :
    (∀ r, (s.promoteHead q).queue r = s.queue r) ∧
      (∀ j, (s.promoteHead q).standing j =
        if (s.queue q).head? = some j ∧ s.standing j = some false then some true else s.standing j) ∧
      (∀ j, (s.promoteHead q).role j = s.role j) ∧ ∀ j, (s.promoteHead q).content j = s.content j := by
  unfold State.promoteHead
  split
  next list => simp [list]
  next h rest list =>
    split_ifs with bound
    · rw [State.inState_rank] at bound
      refine ⟨fun _ => rfl, fun j => ?_, fun j => ?_, fun j => State.content_setState _ _ _ _⟩
      · rw [State.standing, State.rank_setState, list]
        by_cases same : h = j
        · subst same
          simp [State.standing, bound, LiveState.standing]
        · simp [same, State.standing]
      · rw [State.role, State.rank_setState]
        by_cases same : h = j
        · subst same
          simp [State.role, bound, LiveState.role]
        · simp [same, State.role]
    · refine ⟨fun _ => rfl, fun j => ?_, fun _ => rfl, fun _ => rfl⟩
      rw [if_neg]
      rintro ⟨head, standing⟩
      rw [list] at head
      cases head
      exact bound (State.inState_rank.mpr (State.standing_false.mp standing))

/-- A member leaves its queue in a state of its own, and the one that then heads the queue leads it. -/
structure Leaves (s t : State) (q : Fin 28) (i : Fin 64) (st : LiveState) : Prop where
  queue : ∀ r, t.queue r = if q = r then (s.queue q).erase i else s.queue r
  gone : t.standing i = st.standing
  standing : ∀ j, j ≠ i → t.standing j = if ((s.queue q).erase i).head? = some j then some true else s.standing j
  role : t.role i = some st.role
  roles : ∀ j, j ≠ i → t.role j = s.role j
  content : ∀ j, t.content j = s.content j

theorem Leaves.queueLaws {s t : State} {q : Fin 28} {i : Fin 64} {st : LiveState} (leaves : Leaves s t q i st)
    (h : s.queueLaws) (mem : i ∈ s.queue q) (out : st.standing = none) : t.queueLaws :=
  h.remove mem (leaves.gone.trans out) leaves.standing leaves.queue

/-- What leaves the burst in hand, the stack and the notice list alone. -/
theorem State.apart_views {s t : State} (apart : t.apart = s.apart) (j : Fin 64) :
    (t.owns j ↔ s.owns j) ∧ t.entries j = s.entries j ∧ t.waitsFor j = s.waitsFor j := by
  refine ⟨?_, ?_, ?_⟩
  · rw [State.owns, State.owns, State.apart.burst apart]
  · rw [State.entries, State.entries, State.apart.stack apart]
  · rw [State.waitsFor, State.waitsFor, State.apart.notes apart]

theorem Leaves.lawsBut {s t : State} {q : Fin 28} {i : Fin 64} {st : LiveState} (leaves : Leaves s t q i st)
    (apart : t.apart = s.apart) (h : s.lawsBut i) (mem : i ∈ s.queue q) (out : st.standing = none) : t.lawsBut i := by
  refine ⟨leaves.queueLaws h.1 mem out, fun j off => ?_⟩
  obtain ⟨owns, entries, waits⟩ := State.apart_views apart j
  refine State.lawsAt_congr (leaves.roles j off) (leaves.content j) owns entries waits (fun _ r head => ?_) (h.2 j off)
  rw [leaves.queue]
  split_ifs with same
  · subst same; exact head_erase off head
  · exact head

theorem State.removeHead_leaves {s : State} (h : s.queueLaws) {q : Fin 28} {i : Fin 64} {rest : List (Fin 64)}
    (list : s.queue q = i :: rest) {st : LiveState} (bound : st ≠ .bound) :
    Leaves s (s.removeHead q st) q i st := by
  have ranked : ∃ x, s.rank i = some x := by
    have queued := (h.members i).mp ⟨q, by rw [list]; exact List.mem_cons_self ..⟩
    unfold State.standing at queued
    cases rank : s.rank i with
    | none => rw [rank] at queued; exact absurd rfl queued
    | some x => exact ⟨x, rfl⟩
  obtain ⟨x, rank⟩ := ranked
  let t := (s.setQueue q rest).setState i st
  have removed : s.removeHead q st = t.promoteHead q := by
    unfold State.removeHead
    rw [list]
  have ranks : ∀ j, t.rank j = if i = j then some st else s.rank j := by
    intro j
    change ((s.setQueue q rest).setState i st).rank j = _
    rw [State.rank_setState]
    change (if i = j then (s.rank i).map _ else s.rank j) = _
    rw [rank]
    rfl
  have here : t.standing i = st.standing := by rw [State.standing, ranks, if_pos rfl]; rfl
  have there : ∀ j, j ≠ i → t.standing j = s.standing j := fun j off => by
    rw [State.standing, ranks, if_neg (Ne.symm off), State.standing]
  have queue : t.queue q = rest := State.queue_setQueue_self s q rest
  obtain ⟨queues, standings, roles, contents⟩ := t.promoteHead_views q
  obtain ⟨distinct, -⟩ := List.nodup_cons.mp (list ▸ h.nodup q)
  rw [removed]
  refine ⟨fun r => ?_, ?_, fun j off => ?_, ?_, fun j off => ?_, fun j => ?_⟩
  · rw [queues, list, List.erase_cons_head]
    exact State.queue_setQueue s q r rest
  · rw [standings, here, if_neg]
    rintro ⟨-, standing⟩
    cases st <;> simp_all [LiveState.standing]
  · rw [standings, queue, there j off, list, List.erase_cons_head]
    by_cases head : rest.head? = some j
    · have follows := (h.leads q i rest list).2 j (head_mem head)
      simp [head, follows]
    · simp [head]
  · rw [roles, State.role, ranks, if_pos rfl]; rfl
  · rw [roles, State.role, ranks, if_neg (Ne.symm off), State.role]
  · rw [contents]
    exact State.content_setState _ _ _ _

theorem State.removeMember_leaves {s : State} (h : s.queueLaws) {q : Fin 28} {i : Fin 64} (mem : i ∈ s.queue q)
    (behind : (s.queue q).head? ≠ some i) : Leaves s (s.removeMember q i) q i .loaded := by
  have ranked : s.rank i = some .bound := by
    cases list : s.queue q with
    | nil => rw [list] at mem; cases mem
    | cons head rest =>
      rw [list] at mem behind
      have follows : i ∈ rest := (List.mem_cons.mp mem).resolve_left fun e => behind (by rw [e]; rfl)
      exact State.standing_false.mp ((h.leads q head rest list).2 i follows)
  have ranks : ∀ j, (s.removeMember q i).rank j = if i = j then some .loaded else s.rank j := by
    intro j
    rw [State.removeMember, State.rank_setState]
    change (if i = j then (s.rank i).map _ else s.rank j) = _
    rw [ranked]
    rfl
  refine ⟨fun r => State.queue_setQueue s q r _, ?_, fun j off => ?_, ?_, fun j off => ?_, fun j => ?_⟩
  · rw [State.standing, ranks, if_pos rfl]; rfl
  · rw [State.standing, ranks, if_neg (Ne.symm off)]
    change s.standing j = _
    split_ifs with head
    · cases list : s.queue q with
      | nil => rw [list] at mem; cases mem
      | cons first rest =>
        rw [list] at behind head
        have ne : first ≠ i := fun e => behind (by rw [e]; rfl)
        rw [List.erase_cons_tail (by simpa using ne)] at head
        cases head
        exact (h.leads q _ rest list).1
    · rfl
  · rw [State.role, ranks, if_pos rfl]; rfl
  · rw [State.role, ranks, if_neg (Ne.symm off), State.role]
  · exact State.content_setState _ _ _ _

theorem State.takeOut_leaves {s : State} (h : s.queueLaws) {q : Fin 28} {i : Fin 64} (mem : i ∈ s.queue q) :
    Leaves s (s.takeOut i) q i .loaded := by
  have taken : s.takeOut i = if (s.queue q).head? = some i then s.removeHead q .loaded else s.removeMember q i := by
    rw [State.takeOut, State.queueOf_eq h mem]
  rw [taken]
  split_ifs with head
  · obtain ⟨rest, list⟩ := List.head?_eq_some_iff.mp head
    exact State.removeHead_leaves h list nofun
  · exact State.removeMember_leaves h mem head

end Sys2Proof.Machine
end

