-- ==== Sys2Proof/Proofs/BurstLaws.lean ====
section
/-! Bursts that start, are set aside, are resumed and end keep the slot laws (R57, R66, R72, R74, R76). -/

namespace Sys2Proof.Machine

/-! ## What the slot laws do not see -/

section
variable (s : State)

theorem State.agrees_setCount (q : Fin 28) (c : Nat) : Agrees s (s.setCount q c) := .of_sched rfl rfl rfl
theorem State.agrees_setMiss (q : Fin 28) (c : Nat) : Agrees s (s.setMiss q c) := .of_sched rfl rfl rfl
theorem State.agrees_clearMiss (q : Fin 28) : Agrees s (s.clearMiss q) := s.agrees_setMiss q 0
theorem State.agrees_place (body : NoticeBody) : Agrees s (s.place body) := .of_parts rfl rfl rfl rfl rfl
theorem State.agrees_setMover (m : Mover) : Agrees s (s.setMover m) := .of_sched rfl rfl rfl
theorem State.agrees_lowerRequest : Agrees s s.lowerRequest := .of_sched rfl rfl rfl
theorem State.agrees_setAccess (a : Option LinkAccess) : Agrees s (s.setAccess a) := .of_parts rfl rfl rfl rfl rfl
theorem State.agrees_setFreeze (f : Freeze) : Agrees s (s.setFreeze f) := .of_parts rfl rfl rfl rfl rfl

theorem State.agrees_eventAt (q : Fin 28) : Agrees s (s.eventAt q) := by
  unfold State.eventAt
  split
  · exact s.agrees_setCount _ _
  · exact s.agrees_setMiss _ _

theorem State.agrees_consume (q : Fin 28) : Agrees s (s.consume q) := by
  unfold State.consume
  split
  · exact s.agrees_setCount _ _
  · exact .of_sched rfl rfl rfl

theorem State.agrees_fireEndAction (i : Fin 64) : Agrees s (s.fireEndAction i) := by
  unfold State.fireEndAction
  split
  · split
    · exact s.agrees_eventAt _
    · exact .of_sched rfl rfl rfl
  · exact .of_sched rfl rfl rfl

theorem State.agrees_produceAnswer (payload : List Byte) : Agrees s (s.produceAnswer payload) :=
  .of_sched (s.produceAnswer_slots payload) (s.produceAnswer_sched payload) (s.produceAnswer_notes payload)

theorem State.agrees_answerEnded (i : Fin 64) (k : Nat) : Agrees s (s.answerEnded i k) := by
  unfold State.answerEnded
  split
  · exact s.agrees_produceAnswer _
  · exact .of_sched rfl rfl rfl

theorem State.agrees_ask : Agrees s s.ask := by
  unfold State.ask
  split
  · exact s.agrees_setMover _
  · exact s.agrees_setMover _

end

theorem Hands.agrees {s t : State} {b : Burst} {st : Stage} (hands : Hands s b st t) : Agrees s t := by
  obtain ⟨mover, lowered, rfl⟩ := hands.frame
  exact .of_sched rfl rfl rfl

theorem Moves.agrees {s w : State} (moves : Moves s w) : Agrees s w := by
  obtain ⟨lanes, mem, access, mover, rfl⟩ := moves.frame
  exact .of_parts rfl rfl rfl rfl rfl

theorem Stops.agrees {s w : State} (stops : Stops s w) : Agrees s w := by
  obtain ⟨lanes, mem, access, mover, lowered, rfl⟩ := stops.frame
  exact .of_parts rfl rfl rfl rfl rfl

/-! ## The owner of the burst in hand -/

theorem State.owns_burst {s : State} {b : Burst} {i : Fin 64} (burst : s.sched.burst = some b) (owner : b.owner = .slot i)
    (j : Fin 64) : s.owns j ↔ j = i := by
  unfold State.owns
  rw [burst]
  constructor
  · rintro ⟨c, hc, owns⟩
    cases hc
    rw [owner] at owns
    exact (Owner.slot.inj owns).symm
  · rintro rfl
    exact ⟨b, rfl, owner⟩

theorem State.owns_link {s : State} {b : Burst} (burst : s.sched.burst = some b) (owner : b.owner = .link) (j : Fin 64) :
    ¬ s.owns j := by
  rintro ⟨c, hc, owns⟩
  rw [burst] at hc
  cases hc
  rw [owner] at owns
  cases owns

theorem State.owns_none {s : State} (burst : s.sched.burst = none) (j : Fin 64) : ¬ s.owns j := by
  rintro ⟨c, hc, -⟩
  rw [burst] at hc
  cases hc

/-- The owner of the burst in hand is ACTIVE (R57). -/
theorem State.slotLaws.owner_active {s : State} (h : s.slotLaws) {b : Burst} {i : Fin 64} (burst : s.sched.burst = some b)
    (owner : b.owner = .slot i) : ∃ d p, s.slot i = .live .active d p := by
  have active := (h.at i).owns.mpr ((State.owns_burst burst owner i).mpr rfl)
  exact State.slot_of_role active nofun nofun

/-- No run reaches a burst without its owner, unless it is the link access's. -/
theorem State.slotLaws.ownerless_link {s : State} (h : s.slotLaws) {b : Burst} (burst : s.sched.burst = some b)
    (ownerless : s.ownerless b) : b.owner = .link := by
  unfold State.ownerless at ownerless
  split at ownerless
  next owner => exact owner
  next i owner =>
    obtain ⟨d, p, slot⟩ := h.owner_active burst owner
    exact absurd slot (ownerless d p)

/-- The burst of the link access comes or goes. -/
theorem State.agrees_setBurst {s : State} {b : Option Burst} (old : ∀ j, ¬ s.owns j)
    (new : ∀ c, b = some c → c.owner = .link) : Agrees s (s.setBurst b) := by
  refine ⟨fun _ => rfl, fun _ => rfl, fun j => iff_of_false ?_ (old j), fun _ => rfl, fun _ => rfl⟩
  rintro ⟨c, burst, owns⟩
  rw [new c burst] at owns
  cases owns

theorem State.clearBurst_alters {s : State} {b : Burst} {i : Fin 64} (burst : s.sched.burst = some b)
    (owner : b.owner = .slot i) : Alters i s s.clearBurst :=
  Alters.setBurst (fun j off owns => off ((State.owns_burst burst owner j).mp owns)) nofun

/-! ## Changes among the states that head a queue -/

theorem State.standing_live {s : State} {i : Fin 64} {st : LiveState} {d : Descriptor} {p : Progress}
    (slot : s.slot i = .live st d p) : s.standing i = st.standing := by
  rw [State.standing, State.rank_live slot]
  rfl

/-- The laws after the change of one slot among the states that head a queue, into a candidate or a burst of its own. -/
theorem Alters.slotLaws {s t : State} {i : Fin 64} {st x : LiveState} {d e : Descriptor} {p p' : Progress}
    (alters : Alters i s t) (h : s.lawsBut i) (old : s.slot i = .live st d p) (new : t.slot i = .live x e p')
    (first : st.standing = some true) (busy : x = .current ∨ x = .active ∨ x = .preempted) (owns : x = .active ↔ t.owns i)
    (entries : t.entries i = if x = .preempted then 1 else 0) (waits : t.waitsFor i = [])
    (adds : 1 ≤ e.total ∧ p'.committed + p'.remaining = e.total ∧ 1 ≤ p'.remaining) : t.slotLaws := by
  have place : t.standing i = s.standing i := by
    rw [State.standing_live old, State.standing_live new, first]
    rcases busy with rfl | rfl | rfl <;> rfl
  refine (alters.lawsBut place h).with ?_
  have role : t.role i = some x := by
    rw [State.role_live new]
    rcases busy with rfl | rfl | rfl <;> rfl
  refine State.lawsAt_of_busy role busy owns entries waits fun d' q content => ?_
  rw [State.content_live new] at content
  cases content
  exact adds

/-- The burst in hand is set aside on the stack (R74). -/
theorem State.push_slotLaws {s : State} (h : s.slotLaws) {b : Burst} (burst : s.sched.burst = some b) :
    (s.push b).slotLaws := by
  cases owner : b.owner with
  | link =>
    have pushed : s.push b = (s.setBurst none).setStack ({ owner := .link, level := b.level, moved := b.moved } :: s.sched.stack) := by
      unfold State.push
      rw [owner]
    rw [pushed]
    have gone : Agrees s (s.setBurst none) := State.agrees_setBurst (State.owns_link burst owner) nofun
    refine Agrees.slotLaws (gone.trans ⟨fun _ => rfl, fun _ => rfl, fun _ => Iff.rfl, fun j => ?_, fun _ => rfl⟩) h
    simp [State.entries]
  | slot i =>
    obtain ⟨d, p, slot⟩ := h.owner_active burst owner
    have pushed : s.push b =
        ((s.setState i .preempted).setBurst none).setStack
          ({ owner := .slot i, level := b.level, moved := b.moved } :: s.sched.stack) := by
      unfold State.push
      rw [owner]
    have here := h.at i
    have role : s.role i = some .active := State.role_live slot
    have alters : Alters i s (s.push b) := by
      rw [pushed]
      have moved : Alters i s (s.setState i .preempted) := .setState s i _
      have gone : Alters i (s.setState i .preempted) ((s.setState i .preempted).setBurst none) :=
        Alters.setBurst (fun j off owns => off ((State.owns_burst burst owner j).mp owns)) nofun
      refine (moved.trans gone).trans (Alters.setStack fun j off => ?_)
      simp [State.entries, Ne.symm off]
    refine alters.slotLaws (st := .active) (x := .preempted) (e := d) (p' := p) (h.but i) slot ?_ rfl (by simp) ?_ ?_ ?_
      (here.left slot nofun nofun)
    · rw [pushed]
      change (s.setState i .preempted).slot i = _
      rw [State.setState, State.slot_setSlot_self, slot]
      rfl
    · rw [pushed]
      exact iff_of_false nofun (State.owns_none rfl i)
    · rw [pushed, if_pos rfl]
      have empty := here.entries_zero (by rw [role]; nofun)
      simpa [State.entries] using empty
    · rw [pushed]
      exact here.quiet role (by simp)

theorem Opens.slotLaws {s u : State} (opens : Opens s u) (h : s.slotLaws) : u.slotLaws := by
  cases opens with
  | free => exact h
  | push b burst => exact State.push_slotLaws h burst

/-- What is pushed is not the CURRENT slot that starts. -/
theorem Opens.current {s u : State} (opens : Opens s u) (h : s.slotLaws) {i : Fin 64} {d : Descriptor} {p : Progress}
    (slot : s.slot i = .live .current d p) : u.slot i = .live .current d p := by
  cases opens with
  | free => exact slot
  | push b burst =>
    unfold State.push
    dsimp only
    split
    next j owner =>
      obtain ⟨e, r, active⟩ := h.owner_active burst owner
      change (s.setState j .preempted).slot i = _
      rw [State.setState, State.slot_setSlot_ne]
      · exact slot
      · rintro rfl
        rw [slot] at active
        cases active
    next => exact slot

/-- A CURRENT descriptor starts with no burst in hand (R66). -/
theorem State.begun_slotLaws {s : State} (h : s.slotLaws) (burst : s.sched.burst = none) {i : Fin 64} {d : Descriptor}
    {p : Progress} (slot : s.slot i = .live .current d p) : (s.begun i d p).slotLaws := by
  have here := h.at i
  have role : s.role i = some .current := State.role_live slot
  have alters : Alters i s (s.begun i d p) := by
    refine (Alters.setSlot s i _).trans (Alters.setBurst (fun j _ => State.owns_none burst j) fun c hc => ?_)
    cases hc
    rfl
  refine alters.slotLaws (h.but i) slot (State.slot_setSlot_self s i _) rfl (by simp)
    (iff_of_true rfl ⟨_, rfl, rfl⟩) ?_ (here.quiet role (by simp)) (here.left slot nofun nofun)
  exact here.entries_zero (by rw [role]; nofun)

theorem State.begunLink_slotLaws {s : State} (h : s.slotLaws) (burst : s.sched.burst = none) (a : LinkAccess) :
    (s.begunLink a).slotLaws := by
  have access : Agrees s (s.setAccess (some { a with candidate := false })) := s.agrees_setAccess _
  refine (access.trans (State.agrees_setBurst (fun j => ?_) fun c hc => ?_)).slotLaws h
  · exact State.owns_none burst j
  · cases hc; rfl

/-- The top of the stack belongs to a PREEMPTED slot with no other entry, or to the link access. -/
theorem State.slotLaws.top_preempted {s : State} (h : s.slotLaws) {e : StackEntry} {rest : List StackEntry}
    (stack : s.sched.stack = e :: rest) {i : Fin 64} (owner : e.owner = .slot i) :
    (∃ d p, s.slot i = .live .preempted d p) ∧ rest.countP (fun e => e.owner = .slot i) = 0 := by
  have stands := (h.at i).stands
  have count : s.entries i = rest.countP (fun e => e.owner = .slot i) + 1 := by
    rw [State.entries, stack, List.countP_cons]
    simp [owner]
  rw [count] at stands
  split_ifs at stands with preempted
  exact ⟨State.slot_of_role preempted nofun nofun, by omega⟩

/-- The top of the stack leaves it, cut or resumed: its slot becomes CURRENT, or ACTIVE with the burst in hand
(R64, R76). -/
theorem State.unstacked_slotLaws {s : State} (h : s.slotLaws) (burst : s.sched.burst = none) {e : StackEntry}
    {rest : List StackEntry} (stack : s.sched.stack = e :: rest) {x : LiveState} {c : Option Burst}
    (state : x = .current ∧ c = none ∨ x = .active ∧ ∃ b, c = some b ∧ b.owner = e.owner) :
    (((s.unowned x e.owner).setStack rest).setBurst c).slotLaws := by
  cases owner : e.owner with
  | link =>
    have popped : Agrees s (s.setStack rest) := by
      refine ⟨fun _ => rfl, fun _ => rfl, fun _ => Iff.rfl, fun j => ?_, fun _ => rfl⟩
      simp [State.entries, stack, owner]
    refine (popped.trans (State.agrees_setBurst (fun j => State.owns_none burst j) fun b hb => ?_)).slotLaws h
    rcases state with ⟨-, none⟩ | ⟨-, b', some, owns⟩
    · rw [none] at hb; cases hb
    · rw [some] at hb; cases hb; exact owns.trans owner
  | slot i =>
    obtain ⟨⟨d, p, slot⟩, single⟩ := h.top_preempted stack owner
    have here := h.at i
    have role : s.role i = some .preempted := State.role_live slot
    have others : ∀ j, j ≠ i → rest.countP (fun e => e.owner = .slot j) = s.entries j := by
      intro j off
      simp [State.entries, stack, owner, Ne.symm off]
    have alters : Alters i s (((s.setState i x).setStack rest).setBurst c) := by
      have moved : Alters i s (s.setState i x) := .setState s i x
      have popped : Alters i (s.setState i x) ((s.setState i x).setStack rest) := Alters.setStack others
      refine (moved.trans popped).trans (Alters.setBurst (fun j _ => State.owns_none burst j) fun b hb => ?_)
      rcases state with ⟨-, none⟩ | ⟨-, b', some, owns⟩
      · rw [none] at hb; cases hb
      · rw [some] at hb; cases hb; exact owns.trans owner
    refine alters.slotLaws (x := x) (e := d) (p' := p) (h.but i) slot ?_ rfl (by rcases state with ⟨rfl, -⟩ | ⟨rfl, -⟩ <;> simp)
      ?_ ?_ (here.quiet role (by simp)) (here.left slot nofun nofun)
    · change (s.setState i x).slot i = _
      rw [State.setState, State.slot_setSlot_self, slot]
      rfl
    · rcases state with ⟨rfl, rfl⟩ | ⟨rfl, b, rfl, owns⟩
      · exact iff_of_false nofun (State.owns_none rfl i)
      · exact iff_of_true rfl ⟨b, rfl, owns.trans owner⟩
    · have ne : x ≠ .preempted := by rcases state with ⟨rfl, -⟩ | ⟨rfl, -⟩ <;> nofun
      rw [if_neg ne]
      exact single

/-- A burst ends with its descriptor CURRENT (R72). -/
theorem State.endCurrent_slotLaws {s : State} {b : Burst} {i : Fin 64} (h : s.slotLaws) (burst : s.sched.burst = some b)
    (owner : b.owner = .slot i) : (s.endCurrent i).slotLaws := by
  obtain ⟨d, p, slot⟩ := h.owner_active burst owner
  have here := h.at i
  have role : s.role i = some .active := State.role_live slot
  have alters : Alters i s (s.endCurrent i) :=
    (State.clearBurst_alters burst owner).trans (Alters.setState s.clearBurst i .current)
  refine alters.slotLaws (x := .current) (e := d) (p' := p) (h.but i) slot ?_ rfl (by simp)
    (iff_of_false nofun (State.owns_none rfl i)) (here.entries_zero (by rw [role]; nofun)) (here.quiet role (by simp))
    (here.left slot nofun nofun)
  rw [State.endCurrent, State.setState, State.slot_setSlot_self]
  change (s.slot i).to .current = _
  rw [slot]
  rfl

/-- A burst whose owner no run reaches ends. -/
theorem State.clearBurst_slotLaws {s : State} {b : Burst} (h : s.slotLaws) (burst : s.sched.burst = some b)
    (ownerless : s.ownerless b) : s.clearBurst.slotLaws :=
  (State.agrees_setBurst (b := none) (State.owns_link burst (h.ownerless_link burst ownerless)) (by simp)).slotLaws h

/-! ## Commits -/

/-- A commit changes the progress of its slot and the units moved. -/
theorem State.commitProgress_alters {s : State} {i : Fin 64} {b : Burst} (d : Descriptor) (p : Progress)
    (burst : s.sched.burst = some b) (owner : b.owner = .slot i) : Alters i s (s.commitProgress i d p b) := by
  have moved : Alters i s
      ((s.setSlot i (.live .active d (d.commit p))).setBurst (some { b with moved := b.moved + 1 })) := by
    refine (Alters.setSlot s i _).trans
      (Alters.setBurst (fun j off owns => off ((State.owns_burst burst owner j).mp owns)) fun c hc => ?_)
    cases hc
    exact owner
  unfold State.commitProgress
  dsimp only
  split
  · exact moved.trans ((State.agrees_consume _ _).alters i)
  · exact moved

theorem State.commitProgress_views {s : State} {i : Fin 64} (d : Descriptor) (p : Progress) (b : Burst) :
    (s.commitProgress i d p b).entries i = s.entries i ∧ (s.commitProgress i d p b).waitsFor i = s.waitsFor i := by
  have apart := s.commitProgress_apart i d p b
  constructor
  · exact congrArg _ (State.apart.stack apart)
  · exact congrArg (fun l : NoticeList => l.waiting.filter fun r => r.slot = i) (State.apart.notes apart)

theorem State.commitProgress_slotLaws {s : State} {i : Fin 64} {d : Descriptor} {p : Progress} {b : Burst} (h : s.slotLaws)
    (burst : s.sched.burst = some b) (owner : b.owner = .slot i) (slot : s.slot i = .live .active d p)
    (left : (d.commit p).remaining ≠ 0) : (s.commitProgress i d p b).slotLaws := by
  have here := h.at i
  have role : s.role i = some .active := State.role_live slot
  obtain ⟨entries, waits⟩ := State.commitProgress_views (s := s) (i := i) d p b
  obtain ⟨total, sum, rest⟩ := here.left slot nofun nofun
  refine (State.commitProgress_alters d p burst owner).slotLaws (h.but i) slot (s.commitProgress_slot i d p b) rfl (by simp)
    (iff_of_true rfl ⟨_, s.commitProgress_burst i d p b, owner⟩) ?_ (waits.trans (here.quiet role (by simp))) ?_
  · exact entries.trans (here.entries_zero (by rw [role]; nofun))
  · have fewer : (d.commit p).remaining = p.remaining - 1 := rfl
    have more : (d.commit p).committed = p.committed + 1 := rfl
    omega

end Sys2Proof.Machine
end

