-- ==== Sys2Proof/Proofs/RecordLaws.lean ====
section
/-! The making and placing of records, and the orders on slots and queues, keep the slot laws (R15, R46, R49, R51 to R53,
R123 to R134). -/

namespace Sys2Proof.Machine

/-! ## Leaving a queue -/

theorem State.slotLaws.mem_source {s : State} (h : s.queueLaws) {i : Fin 64} (queued : s.standing i ≠ none) :
    i ∈ s.queue (s.sourceOf i) := by
  obtain ⟨q, mem⟩ := (h.members i).mpr queued
  rw [State.sourceOf_eq h mem]
  exact mem

/-- A slot that is neither HELD nor the owner of a burst leaves its queue for LOADED or SPENT. -/
theorem Leaves.slotLaws {s t : State} {q : Fin 28} {i : Fin 64} {x : LiveState} (leaves : Leaves s t q i x)
    (apart : t.apart = s.apart) (h : s.lawsBut i) (mem : i ∈ s.queue q) (rest : x = .loaded ∨ x = .spent)
    (owns : ¬ s.owns i) (entries : s.entries i = 0) (once : (s.waitsFor i).length ≤ 1)
    (faults : ∀ r, Record.ended r ∉ s.waitsFor i)
    (adds : ∀ d p, s.content i = some (d, p) →
      1 ≤ d.total ∧ p.committed + p.remaining = d.total ∧ (x ≠ .spent → 1 ≤ p.remaining)) : t.slotLaws := by
  have out : x.standing = none := by rcases rest with rfl | rfl <;> rfl
  have role : t.role i = some x := by
    rw [leaves.role]
    rcases rest with rfl | rfl <;> rfl
  obtain ⟨owns', entries', waits'⟩ := State.apart_views apart i
  refine (leaves.lawsBut apart h mem out).with (State.lawsAt_of_idle role (.inr rest) (fun own => owns (owns'.mp own))
    (entries'.trans entries) (by rw [waits']; exact once) (fun r => by rw [waits']; exact faults r) fun d p content => ?_)
  exact adds d p ((leaves.content i).symm.trans content)

/-- A slot taken out of its queue is LOADED (R49, R136). -/
theorem State.takeOut_slotLaws {s : State} {i : Fin 64} (h : s.lawsBut i) (queued : s.standing i ≠ none)
    (owns : ¬ s.owns i) (entries : s.entries i = 0) (once : (s.waitsFor i).length ≤ 1)
    (faults : ∀ r, Record.ended r ∉ s.waitsFor i)
    (adds : ∀ d p, s.content i = some (d, p) → 1 ≤ d.total ∧ p.committed + p.remaining = d.total ∧ 1 ≤ p.remaining) :
    (s.takeOut i).slotLaws := by
  have mem := State.slotLaws.mem_source h.1 queued
  refine (State.takeOut_leaves h.1 mem).slotLaws (s.apart_takeOut i) h mem (.inl rfl) owns entries once faults
    fun d p content => ?_
  obtain ⟨total, sum, left⟩ := adds d p content
  exact ⟨total, sum, fun _ => left⟩

/-- UNBIND and a CANCEL without a burst take a BOUND, CURRENT or FAULTED slot out of its queue (R49, R136). -/
theorem State.slotLaws.takeOut {s : State} (h : s.slotLaws) {i : Fin 64} {st : LiveState} {d : Descriptor} {p : Progress}
    (slot : s.slot i = .live st d p) (state : st = .bound ∨ st = .current ∨ st = .faulted) :
    (s.takeOut i).slotLaws := by
  have here := h.at i
  have role : s.role i = some .current ∨ s.role i = some .faulted := by
    rw [State.role_live slot]
    rcases state with rfl | rfl | rfl <;> simp [LiveState.role]
  refine State.takeOut_slotLaws (h.but i) ?_ (fun owns => ?_) (here.entries_zero ?_) here.waitsOnce (here.no_end ?_)
    fun e r content => ?_
  · rw [State.standing_live slot]
    rcases state with rfl | rfl | rfl <;> nofun
  · have active := here.owns.mpr owns
    rcases role with role | role <;> rw [role] at active <;> cases active
  · rcases role with role | role <;> rw [role] <;> nofun
  · rcases role with role | role <;> rw [role] <;> nofun
  · rw [State.content_live slot] at content
    cases content
    exact here.left slot (by rintro rfl; simp at state) (by rintro rfl; simp at state)


/-- A slot whose burst has just left the hands or the stack is taken out of its queue (R136 to R138). -/
theorem State.takeOut_gone {s t : State} {i : Fin 64} {st : LiveState} {d : Descriptor} {p : Progress} (h : s.slotLaws)
    (slot : s.slot i = .live st d p) (busy : st = .active ∨ st = .preempted) (alters : Alters i s t)
    (same : t.slot i = s.slot i) (waits : t.waitsFor i = s.waitsFor i) (owns : ¬ t.owns i) (entries : t.entries i = 0) :
    (t.takeOut i).slotLaws := by
  have here := h.at i
  have role : s.role i = some st := by
    rw [State.role_live slot]
    rcases busy with rfl | rfl <;> rfl
  have quiet : t.waitsFor i = [] := waits.trans (here.quiet role (by rcases busy with rfl | rfl <;> simp))
  obtain ⟨-, -, standing, content⟩ := State.slot_views same
  refine State.takeOut_slotLaws (alters.lawsBut standing (h.but i)) ?_ owns entries (by simp [quiet]) (by simp [quiet])
    fun e r held => ?_
  · rw [standing, State.standing_live slot]
    rcases busy with rfl | rfl <;> nofun
  · rw [content, State.content_live slot] at held
    cases held
    exact here.left slot (by rcases busy with rfl | rfl <;> nofun) (by rcases busy with rfl | rfl <;> nofun)

theorem State.cancelPreempted_slotLaws {s : State} {i : Fin 64} {d : Descriptor} {p : Progress} (h : s.slotLaws)
    (slot : s.slot i = .live .preempted d p) : ((s.unstack i).takeOut i).slotLaws := by
  have role : s.role i = some .preempted := State.role_live slot
  refine State.takeOut_gone (t := s.unstack i) h slot (.inr rfl) (Alters.setStack fun j off => ?_) rfl rfl (fun owns => ?_) ?_
  · rw [State.entries, List.countP_filter]
    refine List.countP_congr fun e _ => ?_
    by_cases owner : e.owner = .slot j
    · simp [owner, off]
    · simp [owner]
  · have active := (h.at i).owns.mpr owns
    rw [role] at active
    cases active
  · rw [State.entries, State.unstack, State.setStack_sched_stack, List.countP_filter]
    exact List.countP_eq_zero.mpr fun e _ => by simp

/-- The slots and notices of a state whose burst in hand has been dropped. -/
theorem State.dropBurst_agrees (s : State) : Agrees s.clearBurst s.dropBurst := by
  unfold State.dropBurst
  split
  · exact .of_sched rfl rfl rfl
  · exact .of_sched rfl rfl rfl

theorem State.slotLaws.active_owner {s : State} (h : s.slotLaws) {i : Fin 64} {d : Descriptor} {p : Progress}
    (slot : s.slot i = .live .active d p) : ∃ b, s.sched.burst = some b ∧ b.owner = .slot i :=
  (h.at i).owns.mp (State.role_live slot)

/-- An ACTIVE slot leaves its queue with its burst (R137). -/
theorem State.takeOut_active {s t : State} {i : Fin 64} {d : Descriptor} {p : Progress} (h : s.slotLaws)
    (slot : s.slot i = .live .active d p) (dropped : Agrees s.clearBurst t) : (t.takeOut i).slotLaws := by
  obtain ⟨b, burst, owner⟩ := h.active_owner slot
  have role : s.role i = some .active := State.role_live slot
  refine State.takeOut_gone h slot (.inl rfl) ((State.clearBurst_alters burst owner).trans (dropped.alters i))
    (dropped.slot i) (dropped.waits i) (fun owns => ?_) ((dropped.entries i).trans ?_)
  · exact State.owns_none rfl i ((dropped.owns i).mp owns)
  · exact (h.at i).entries_zero (by rw [role]; nofun)

/-! ## The move of a head to the tail -/

/-- The head joins the tail of its queue, and the member behind it leads (R53). -/
theorem State.moveHeadToTail_lawsBut {s : State} {i : Fin 64} (h : s.lawsBut i) {q : Fin 28} {rest : List (Fin 64)}
    (list : s.queue q = i :: rest) :
    (s.moveHeadToTail q).lawsBut i ∧ (s.moveHeadToTail q).role i = some .current ∧
      (s.moveHeadToTail q).content i = s.content i := by
  let t := (s.setQueue q (rest ++ [i])).setState i .bound
  have moved : s.moveHeadToTail q = t.promoteHead q := by
    unfold State.moveHeadToTail
    rw [list]
  have led := (h.1.leads q i rest list)
  obtain ⟨distinct, -⟩ := List.nodup_cons.mp (list ▸ h.1.nodup q)
  have ranked : ∃ x, s.rank i = some x := by
    have first := led.1
    unfold State.standing at first
    cases rank : s.rank i with
    | none => rw [rank] at first; cases first
    | some x => exact ⟨x, rfl⟩
  obtain ⟨x, rank⟩ := ranked
  have ranks : ∀ j, t.rank j = if i = j then some .bound else s.rank j := by
    intro j
    change ((s.setQueue q (rest ++ [i])).setState i .bound).rank j = _
    rw [State.rank_setState]
    change (if i = j then (s.rank i).map _ else s.rank j) = _
    rw [rank]
    rfl
  have here : t.standing i = some false := by rw [State.standing, ranks, if_pos rfl]; rfl
  have there : ∀ j, j ≠ i → t.standing j = s.standing j := fun j off => by
    rw [State.standing, ranks, if_neg (Ne.symm off), State.standing]
  have queue : t.queue q = rest ++ [i] := State.queue_setQueue_self s q _
  obtain ⟨queues, standings, roles, contents⟩ := t.promoteHead_views q
  rw [moved]
  refine ⟨⟨?_, fun j off => ?_⟩, ?_, ?_⟩
  · let place : Fin 64 → Option Bool := fun j =>
      if j = i then none else if rest.head? = some j then some true else s.standing j
    have removed : QueuesLawful place fun r => if q = r then rest else s.queue r :=
      h.1.remove (q := q) (i := i) (by rw [list]; exact List.mem_cons_self ..) (if_pos rfl)
        (fun j off => by rw [list, List.erase_cons_head]; exact if_neg off)
        (fun r => by rw [list, List.erase_cons_head])
    refine removed.append (q := q) (i := i) (if_pos rfl) ?_ (fun j off => ?_) fun r => ?_
    · rw [standings, here, queue, if_pos rfl]
      cases rest with
      | nil => simp
      | cons first tail =>
        have ne : first ≠ i := fun e => distinct (e ▸ List.mem_cons_self ..)
        simp [ne]
    · have same : (rest ++ [i]).head? = some j ↔ rest.head? = some j := by
        cases rest with
        | nil => simp [Ne.symm off]
        | cons first tail => simp
      change _ = if j = i then none else if rest.head? = some j then some true else s.standing j
      rw [standings, there j off, queue, if_neg off]
      simp only [same]
      by_cases head : rest.head? = some j
      · simp [head, led.2 j (head_mem head)]
      · simp [head]
    · rw [queues, if_pos rfl]
      change (s.setQueue q (rest ++ [i])).queue r = _
      rw [State.queue_setQueue]
      split_ifs <;> rfl
  · have apart : (t.promoteHead q).apart = s.apart := t.apart_promoteHead q
    obtain ⟨owns, entries, waits⟩ := State.apart_views apart j
    refine State.lawsAt_congr ?_ ?_ owns entries waits (fun _ r head => ?_) (h.2 j off)
    · rw [roles, State.role, ranks, if_neg (Ne.symm off), State.role]
    · rw [contents]; exact State.content_setState _ _ _ _
    · rw [queues]
      change ((s.setQueue q (rest ++ [i])).queue r).head? = _
      rw [State.queue_setQueue]
      split_ifs with same
      · subst same
        rw [list] at head
        cases head
        exact absurd rfl off
      · exact head
  · rw [roles, State.role, ranks, if_pos rfl]; rfl
  · rw [contents]; exact State.content_setState _ _ _ _

/-! ## The placement of an END record -/

/-- The queue change at the placement of an END record, from a slot whose burst and record are gone (R126, R127). -/
theorem State.requeue_slotLaws {s : State} {e : EndRecord} {st : LiveState} {d : Descriptor} {p : Progress}
    (h : s.lawsBut e.slot) (slot : s.slot e.slot = .live st d p) (head : (s.queue e.source).head? = some e.slot)
    (owns : ¬ s.owns e.slot) (entries : s.entries e.slot = 0) (waits : s.waitsFor e.slot = [])
    (adds : 1 ≤ d.total ∧ p.committed + p.remaining = d.total) : (s.requeue e).slotLaws := by
  obtain ⟨rest, list⟩ := List.head?_eq_some_iff.mp head
  have mem : e.slot ∈ s.queue e.source := head_mem head
  unfold State.requeue
  split
  next =>
    have again : s.recirculate e.slot = s.setSlot e.slot (.live st d (d.freshProgress p.lastFault)) := by
      unfold State.recirculate
      rw [slot]
    have alters : Alters e.slot s (s.recirculate e.slot) := again ▸ Alters.setSlot s _ _
    have fresh : (s.recirculate e.slot).slot e.slot = .live st d (d.freshProgress p.lastFault) := by
      rw [again, State.slot_setSlot_self]
    have standing : (s.recirculate e.slot).standing e.slot = s.standing e.slot := by
      rw [State.standing_live fresh, State.standing_live slot]
    obtain ⟨laws, role, content⟩ :=
      State.moveHeadToTail_lawsBut (alters.lawsBut standing h) ((alters.queue e.source).trans list)
    have apart : ((s.recirculate e.slot).moveHeadToTail e.source).apart = s.apart :=
      (State.apart_moveHeadToTail _ _).trans (s.apart_recirculate _)
    obtain ⟨owns', entries', waits'⟩ := State.apart_views apart e.slot
    refine laws.with (State.lawsAt_of_busy role (.inl rfl) (iff_of_false nofun fun own => owns (owns'.mp own))
      (entries'.trans entries) (waits'.trans waits) fun d' p' held => ?_)
    rw [content, State.content_live fresh] at held
    cases held
    exact ⟨adds.1, by simp [Descriptor.freshProgress], by simpa [Descriptor.freshProgress] using adds.1⟩
  next =>
    refine (State.removeHead_leaves h.1 list (st := .spent) nofun).slotLaws (s.apart_removeHead _ _) h mem (.inr rfl) owns entries
      (by simp [waits]) (by simp [waits]) fun d' p' held => ?_
    rw [State.content_live slot] at held
    cases held
    exact ⟨adds.1, adds.2, fun spent => absurd rfl spent⟩

/-! ## End and fault processing -/

/-- End processing of an ACTIVE slot whose last unit has just committed (R123, R125). -/
theorem State.endProcessing_slotLaws {s : State} {i : Fin 64} {b : Burst} {d : Descriptor} {p : Progress} (h : s.lawsBut i)
    (burst : s.sched.burst = some b) (owner : b.owner = .slot i) (slot : s.slot i = .live .active d p)
    (entries : s.entries i = 0) (waits : s.waitsFor i = []) (total : 1 ≤ d.total)
    (sum : p.committed + p.remaining = d.total) (ended : p.remaining = 0) : (s.endProcessing i).slotLaws := by
  obtain ⟨rest, list⟩ := State.heads_source h.1 (State.standing_live slot)
  let r := s.endRecord i d p
  let t := s.clearBurst.clearMiss (s.sourceOf i)
  have cleared : Alters i s t :=
    (State.clearBurst_alters burst owner).trans ((State.agrees_clearMiss s.clearBurst (s.sourceOf i)).alters i)
  have processed : s.endProcessing i =
      if t.hasRoom then (t.place (.report (.ended r))).placed (.ended r) else (t.setState i .held).makeWait (.ended r) := by
    unfold State.endProcessing
    rw [slot]
  rw [processed]
  split_ifs
  · let u := t.place (.report (.ended r))
    have placed : Alters i s u := cleared.trans ((State.agrees_place t _).alters i)
    have requeued : (u.requeue r).slotLaws :=
      State.requeue_slotLaws (st := .active) (d := d) (p := p) (placed.lawsBut rfl h) slot (by
        change (s.queue (s.sourceOf i)).head? = some i
        rw [list]
        rfl) (State.owns_none rfl i) entries waits ⟨total, sum⟩
    exact (State.agrees_fireEndAction _ _).slotLaws requeued
  · have role : ((t.setState i .held).makeWait (.ended r)).role i = some .held := by
      change ((t.setState i .held).rank i).map LiveState.role = _
      rw [State.rank_setState, if_pos rfl]
      change (((s.rank i).map _).map LiveState.role) = _
      rw [State.rank_live slot]
      rfl
    have waits' : ((t.setState i .held).makeWait (.ended r)).waitsFor i = [.ended r] := by
      change (s.notes.waiting ++ [Record.ended r]).filter _ = _
      rw [List.filter_append]
      change s.waitsFor i ++ _ = _
      rw [waits]
      simp [r, Record.slot, State.endRecord]
    have alters : Alters i s ((t.setState i .held).makeWait (.ended r)) := by
      have held : Alters i t (t.setState i .held) := .setState t i .held
      refine (cleared.trans held).trans (Alters.setNotes fun j off => ?_)
      change (s.notes.waiting ++ [Record.ended r]).filter _ = s.waitsFor j
      rw [List.filter_append]
      simp [r, Record.slot, State.endRecord, Ne.symm off, State.waitsFor]
    have standing : ((t.setState i .held).makeWait (.ended r)).standing i = s.standing i := by
      rw [State.standing_live slot]
      change ((t.setState i .held).rank i).bind LiveState.standing = _
      rw [State.rank_setState, if_pos rfl]
      change (((s.rank i).map _).bind LiveState.standing) = _
      rw [State.rank_live slot]
      rfl
    refine (alters.lawsBut standing h).with ⟨?_, ?_, ?_, ?_, ?_, ?_, ?_⟩
    · rw [role]
      exact iff_of_false nofun (State.owns_none rfl i)
    · rw [role]
      exact entries
    · rw [waits']
      exact le_refl 1
    · rw [role, waits']
      simp
    · rw [waits']
      intro r' hr
      cases List.mem_singleton.mp hr
      change (s.queue (s.sourceOf i)).head? = some i
      rw [list]
      rfl
    · rw [waits']
      simp
    · intro d' p' held
      have content : ((t.setState i .held).makeWait (.ended r)).content i = some (d, p) := by
        change (t.setState i .held).content i = _
        rw [State.content_setState]
        exact State.content_live (s := s) slot
      rw [content] at held
      cases held
      exact ⟨total, sum, fun off => absurd role off, fun _ => ended⟩

/-- The commit that ends an arming, with its end processing (R69, R123). -/
theorem State.committed_slotLaws {s : State} {i : Fin 64} {d : Descriptor} {p : Progress} {b : Burst} (h : s.slotLaws)
    (burst : s.sched.burst = some b) (owner : b.owner = .slot i) (slot : s.slot i = .live .active d p)
    (ended : (d.commit p).remaining = 0) : ((s.commitProgress i d p b).endProcessing i).slotLaws := by
  have here := h.at i
  have role : s.role i = some .active := State.role_live slot
  obtain ⟨entries, waits⟩ := State.commitProgress_views (s := s) (i := i) d p b
  obtain ⟨total, sum, left⟩ := here.left slot nofun nofun
  have committed := s.commitProgress_slot i d p b
  have standing : (s.commitProgress i d p b).standing i = s.standing i := by
    rw [State.standing_live committed, State.standing_live slot]
  refine State.endProcessing_slotLaws (b := { b with moved := b.moved + 1 })
    ((State.commitProgress_alters d p burst owner).lawsBut standing (h.but i)) (s.commitProgress_burst i d p b) owner
    committed ?_ (waits.trans (here.quiet role (by simp))) total ?_ ended
  · exact entries.trans (here.entries_zero (by rw [role]; nofun))
  · have fewer : (d.commit p).remaining = p.remaining - 1 := rfl
    have more : (d.commit p).committed = p.committed + 1 := rfl
    omega

/-- Fault processing of the slot that owns the burst in hand (R131). -/
theorem State.faultProcessing_slotLaws {s : State} {i : Fin 64} {b : Burst} {d : Descriptor} {p : Progress}
    (h : s.slotLaws) (burst : s.sched.burst = some b) (owner : b.owner = .slot i) (slot : s.slot i = .live .active d p)
    (f : FaultKind) :
    (s.faultProcessing i f).slotLaws ∧
      (s.faultProcessing i f).slot i = .live .faulted d { p with lastFault := some f } := by
  let r := s.faultRecord i d p f
  let v : Slot := .live .faulted d { p with lastFault := some f }
  let t := (s.clearBurst.setSlot i v).clearMiss (s.sourceOf i)
  have processed : s.faultProcessing i f = if t.hasRoom then t.place (.report (.faulted r)) else t.makeWait (.faulted r) := by
    unfold State.faultProcessing
    rw [slot]
  have here := h.at i
  have role : s.role i = some .active := State.role_live slot
  have entries : s.entries i = 0 := here.entries_zero (by rw [role]; nofun)
  have waits : s.waitsFor i = [] := here.quiet role (by simp)
  have faulted : t.slot i = v := State.slot_setSlot_self s.clearBurst i v
  have cleared : Alters i s t := by
    have set : Alters i s.clearBurst (s.clearBurst.setSlot i v) := .setSlot _ i v
    exact ((State.clearBurst_alters burst owner).trans set).trans
      ((State.agrees_clearMiss (s.clearBurst.setSlot i v) _).alters i)
  have laws : ∀ {u : State}, Alters i s u → u.slot i = v → ¬ u.owns i → u.entries i = 0 →
      (u.waitsFor i = [] ∨ u.waitsFor i = [.faulted r]) → u.slotLaws := by
    intro u alters now owns none waits
    have standing : u.standing i = s.standing i := by
      rw [State.standing_live now, State.standing_live slot]
      rfl
    refine (alters.lawsBut standing (h.but i)).with (State.lawsAt_of_idle (x := .faulted) (State.role_live now) (.inl rfl) owns
      none ?_ ?_ fun d' p' content => ?_)
    · rcases waits with waits | waits <;> rw [waits] <;> simp
    · rcases waits with waits | waits <;> rw [waits] <;> simp
    · rw [State.content_live now] at content
      cases content
      obtain ⟨total, sum, left⟩ := here.left slot nofun nofun
      exact ⟨total, sum, fun _ => left⟩
  rw [processed]
  split_ifs
  · exact ⟨laws (cleared.trans ((State.agrees_place t _).alters i)) faulted (State.owns_none rfl i) entries (.inl waits),
      faulted⟩
  · have waiting : ∀ j, (t.makeWait (.faulted r)).waitsFor j = s.waitsFor j ++ if i = j then [.faulted r] else [] := by
      intro j
      change (s.notes.waiting ++ [Record.faulted r]).filter _ = _
      rw [List.filter_append]
      change s.waitsFor j ++ _ = _
      simp only [List.filter_singleton, r, Record.slot, State.faultRecord]
      split_ifs <;> simp_all
    refine ⟨laws (cleared.trans (Alters.setNotes fun j off => ?_)) faulted (State.owns_none rfl i) entries (.inr ?_), faulted⟩
    · have none := waiting j
      rw [if_neg (Ne.symm off), List.append_nil] at none
      exact none
    · rw [waiting, waits, if_pos rfl]
      rfl

end Sys2Proof.Machine
end

