-- ==== Sys2Proof/Proofs/SlotLaws.lean ====
section
/-! Every act keeps the slot laws (R13, R41, R57, R75, R144). -/

namespace Sys2Proof.Machine

/-! ## Orders on slots and queues -/

theorem State.waits_unmarked {s : State} {i : Fin 64} (unmarked : s.waitingMark i = false) : s.waitsFor i = [] := by
  unfold State.waitingMark at unmarked
  rw [List.any_eq_false] at unmarked
  refine List.filter_eq_nil_iff.mpr fun r hr => ?_
  simpa using unmarked r hr

/-- A slot that holds no descriptor. -/
theorem State.lawsAt_of_free {s : State} {i : Fin 64} (free : s.slot i = .free) (owns : ¬ s.owns i)
    (entries : s.entries i = 0) (waits : s.waitsFor i = []) : s.lawsAt i := by
  have role : s.role i = none := by simp [State.role, State.rank, free, Slot.state]
  have content : s.content i = none := by simp [State.content, free, Slot.content]
  refine ⟨?_, ?_, ?_, ?_, ?_, ?_, ?_⟩
  · rw [role]; exact iff_of_false nofun owns
  · rw [role]; exact entries
  · simp [waits]
  · rw [role, waits]; simp
  · simp [waits]
  · simp [waits]
  · rw [content]; nofun

/-- A slot that is FREE, or at rest with its descriptor, is in no queue and has no burst. -/
structure State.AtRest (s : State) (i : Fin 64) : Prop where
  standing : s.standing i = none
  owns : ¬ s.owns i
  entries : s.entries i = 0

theorem State.slotLaws.atRest {s : State} (h : s.slotLaws) {i : Fin 64}
    (rest : s.slot i = .free ∨ ∃ st d p, s.slot i = .live st d p ∧ (st = .loaded ∨ st = .spent)) : s.AtRest i := by
  have here := h.at i
  have role : s.role i = none ∨ s.role i = some .loaded ∨ s.role i = some .spent := by
    rcases rest with free | ⟨st, d, p, slot, rfl | rfl⟩
    · left; simp [State.role, State.rank, free, Slot.state]
    · exact .inr (.inl (State.role_live slot))
    · exact .inr (.inr (State.role_live slot))
  refine ⟨?_, fun owns => ?_, here.entries_zero ?_⟩
  · rcases rest with free | ⟨st, d, p, slot, rfl | rfl⟩
    · simp [State.standing, State.rank, free, Slot.state]
    · exact State.standing_live slot
    · exact State.standing_live slot
  · have active := here.owns.mpr owns
    rcases role with role | role | role <;> rw [role] at active <;> cases active
  · rcases role with role | role | role <;> rw [role] <;> nofun

/-- A slot at rest takes another content of its own, or none (R16, R22, R23). -/
theorem State.setSlot_slotLaws {s : State} (h : s.slotLaws) {i : Fin 64} (rest : s.AtRest i)
    (unmarked : s.waitingMark i = false) {v : Slot}
    (new : v = .free ∨ ∃ d, 1 ≤ d.total ∧ v = .live .loaded d (d.freshProgress none)) : (s.setSlot i v).slotLaws := by
  have waits := State.waits_unmarked unmarked
  have slot := State.slot_setSlot_self s i v
  have standing : (s.setSlot i v).standing i = s.standing i := by
    rw [rest.standing]
    rcases new with rfl | ⟨d, -, rfl⟩
    · simp [State.standing, State.rank, Slot.state]
    · exact State.standing_live slot
  refine ((Alters.setSlot s i v).lawsBut standing (h.but i)).with ?_
  rcases new with rfl | ⟨d, total, rfl⟩
  · exact State.lawsAt_of_free slot rest.owns rest.entries waits
  · refine State.lawsAt_of_idle (x := .loaded) (State.role_live slot) (.inr (.inl rfl)) rest.owns rest.entries ?_ ?_
      fun e p content => ?_
    · change (s.waitsFor i).length ≤ 1
      simp [waits]
    · change ∀ r, Record.ended r ∉ s.waitsFor i
      simp [waits]
    · rw [State.content_live slot] at content
      cases content
      exact ⟨total, by simp [Descriptor.freshProgress], fun _ => total⟩

theorem readTotal_pos (n : Nat) : 1 ≤ readTotal n := by
  unfold readTotal
  split <;> omega

theorem readRecord_total {r : List Byte} {d : Descriptor} (read : readRecord r = some d) : 1 ≤ d.total := by
  unfold readRecord at read
  split at read
  next => cases read; exact readTotal_pos _
  next => cases read

theorem Slot.definable_cases {v : Slot} (definable : v.definable = true) :
    v = .free ∨ ∃ st d p, v = .live st d p ∧ (st = .loaded ∨ st = .spent) := by
  cases v with
  | free => exact .inl rfl
  | live st d p =>
    change ((Slot.live st d p).atRest?).isSome = true at definable
    obtain ⟨e, rest⟩ := Option.isSome_iff_exists.mp definable
    obtain ⟨st', p', slot, state⟩ := Slot.atRest?_live rest
    cases slot
    exact .inr ⟨st, d, p, rfl, state⟩

theorem Rewrites.slotLaws {s t : State} (rewrites : Rewrites s t) (h : s.slotLaws) (reset : ∀ u reason, (State.resetBlocks u reason).slotLaws) :
    t.slotLaws := by
  have resting : ∀ {i d}, (s.slot i).atRest? = some d → s.AtRest i ∧ 1 ≤ d.total := by
    intro i d rest
    obtain ⟨st, p, slot, state⟩ := Slot.atRest?_live rest
    obtain ⟨total, -⟩ := (h.at i).adds d p (State.content_live slot)
    exact ⟨h.atRest (.inr ⟨st, d, p, slot, state⟩), total⟩
  cases rewrites with
  | define definable unmarked read =>
    exact State.setSlot_slotLaws h (h.atRest (Slot.definable_cases definable)) unmarked (.inr ⟨_, readRecord_total read, rfl⟩)
  | rearm rest unmarked =>
    obtain ⟨atRest, total⟩ := resting rest
    exact State.setSlot_slotLaws h atRest unmarked (.inr ⟨_, total, rfl⟩)
  | release rest unmarked => exact State.setSlot_slotLaws h (resting rest).1 unmarked (.inl rfl)
  | reset u reason => exact reset u reason

/-- After a reset every slot is FREE and every queue empty. -/
theorem State.resetBlocks_slotLaws (s : State) (reason : ResetReason) : (s.resetBlocks reason).slotLaws := by
  have free := s.resetBlocks_slot reason
  have queue : ∀ q, (s.resetBlocks reason).queue q = [] := fun q => by
    simp [State.queue, State.resetBlocks, Scheduler.atReset]
  refine State.slotLaws_iff.mpr ⟨⟨fun i => ?_, fun q => ?_, fun q r _ i hi => ?_, fun q h rest list => ?_⟩, fun i => ?_⟩
  · simp [queue, State.standing, State.rank, free, Slot.state]
  · rw [queue]; exact List.nodup_nil
  · rw [queue] at hi; cases hi
  · rw [queue] at list; cases list
  · exact State.lawsAt_of_free (free i) (State.owns_none rfl i) rfl rfl

/-- A LOADED slot joins a queue (R46). -/
theorem State.bindSlot_slotLaws {s : State} (h : s.slotLaws) {i : Fin 64} {d : Descriptor} {p : Progress}
    (slot : s.slot i = .live .loaded d p) (unmarked : s.waitingMark i = false) (q : Fin 28) : (s.bindSlot i q).slotLaws := by
  have here := h.at i
  have rest := h.atRest (.inr ⟨_, d, p, slot, .inl rfl⟩)
  have waits := State.waits_unmarked unmarked
  let x : LiveState := if (s.queue q).isEmpty then .current else .bound
  have ranks : ∀ j, (s.bindSlot i q).rank j = if i = j then some x else s.rank j := by
    intro j
    unfold State.bindSlot
    rw [State.rank_setState]
    change (if i = j then (s.rank i).map _ else s.rank j) = _
    rw [State.rank_live slot]
    rfl
  have role : (s.bindSlot i q).role i = some .current := by
    rw [State.role, ranks, if_pos rfl]
    change some x.role = _
    simp only [x]
    split_ifs <;> rfl
  have queues : ∀ r, (s.bindSlot i q).queue r = if q = r then s.queue q ++ [i] else s.queue r :=
    fun r => State.queue_setQueue s q r _
  refine State.lawsBut.with (i := i) ⟨?_, fun j off => ?_⟩ ?_
  · refine h.queues.append rest.standing ?_ (fun j off => ?_) queues
    · rw [State.standing, ranks, if_pos rfl]
      change x.standing = _
      simp only [x]
      split_ifs with empty
      · rw [empty]; rfl
      · rw [Bool.not_eq_true] at empty; rw [empty]; rfl
    · rw [State.standing, ranks, if_neg (Ne.symm off), State.standing]
  · refine State.lawsAt_congr (s := s) ?_ (State.content_setState _ _ _ _) Iff.rfl rfl rfl (fun _ r head => ?_) (h.at j)
    · rw [State.role, ranks, if_neg (Ne.symm off), State.role]
    · rw [queues]
      split_ifs with same
      · subst same
        rw [List.head?_append, head]
        rfl
      · exact head
  · refine State.lawsAt_of_busy role (.inl rfl) (iff_of_false nofun rest.owns) rest.entries waits fun e r content => ?_
    have kept : (s.bindSlot i q).content i = s.content i := State.content_setState _ _ _ _
    rw [kept, State.content_live slot] at content
    cases content
    exact here.left slot nofun nofun

/-- A FAULTED slot is a candidate again (R134). -/
theorem State.retry_slotLaws {s : State} (h : s.slotLaws) {i : Fin 64} {d : Descriptor} {p : Progress}
    (slot : s.slot i = .live .faulted d p) (unmarked : s.waitingMark i = false) :
    (s.setSlot i (.live .current d { p with lastFault := none })).slotLaws := by
  have here := h.at i
  have role : s.role i = some .faulted := State.role_live slot
  have left := here.left slot nofun nofun
  refine (Alters.setSlot s i _).slotLaws (h.but i) slot (State.slot_setSlot_self s i _) rfl (by simp)
    (iff_of_false nofun fun owns => ?_) (here.entries_zero (by rw [role]; nofun)) (State.waits_unmarked unmarked) left
  have active := here.owns.mpr owns
  rw [role] at active
  cases active

/-- A FAULTED head leaves its queue for SPENT (R135). -/
theorem State.skip_slotLaws {s : State} (h : s.slotLaws) {i : Fin 64} {d : Descriptor} {p : Progress}
    (slot : s.slot i = .live .faulted d p) : (s.removeHead (s.sourceOf i) .spent).slotLaws := by
  have here := h.at i
  have role : s.role i = some .faulted := State.role_live slot
  obtain ⟨rest, list⟩ := State.heads_source h.queues (State.standing_live slot)
  have mem : i ∈ s.queue (s.sourceOf i) := by rw [list]; exact List.mem_cons_self ..
  refine (State.removeHead_leaves h.queues list (st := .spent) nofun).slotLaws (s.apart_removeHead _ _) (h.but i) mem
    (.inr rfl) (fun owns => ?_) (here.entries_zero (by rw [role]; nofun)) here.waitsOnce
    (here.no_end (by rw [role]; nofun)) fun e r content => ?_
  · have active := here.owns.mpr owns
    rw [role] at active
    cases active
  · obtain ⟨total, sum, -⟩ := here.adds e r content
    exact ⟨total, sum, fun spent => absurd rfl spent⟩

/-- The oldest waiting record is placed, with its queue change (R145). -/
theorem State.drainPlace_slotLaws {s : State} (h : s.slotLaws) {r : Record} {rest : List Record}
    (waiting : s.notes.waiting = r :: rest) : (s.drainPlace r rest).slotLaws := by
  let t := (s.setNotes { s.notes with waiting := rest }).place (.report r)
  have waits : ∀ j, s.waitsFor j = (if r.slot = j then [r] else []) ++ t.waitsFor j := by
    intro j
    rw [State.waitsFor, waiting, List.filter_cons]
    simp only [decide_eq_true_eq]
    split_ifs <;> rfl
  have here := h.at r.slot
  have gone : t.waitsFor r.slot = [] := by
    have once := here.waitsOnce
    rw [waits, if_pos rfl, List.length_append] at once
    exact List.length_eq_zero_iff.mp (by simpa using once)
  have alters : Alters r.slot s t := by
    refine ⟨fun _ => rfl, fun _ _ => rfl, fun _ _ => Iff.rfl, fun _ _ => rfl, fun j off => ?_⟩
    rw [waits j, if_neg (Ne.symm off), List.nil_append]
  have laws := alters.lawsBut rfl (h.but r.slot)
  have mem : r ∈ s.waitsFor r.slot := by rw [waits, if_pos rfl]; exact List.mem_cons_self ..
  cases r with
  | ended e =>
    have role : s.role e.slot = some .held := here.held.mpr ⟨e, mem⟩
    obtain ⟨d, p, slot⟩ := State.slot_of_role role nofun nofun
    obtain ⟨total, sum, -, -⟩ := here.adds d p (State.content_live slot)
    have head := here.leads e mem
    refine State.requeue_slotLaws (s := t) laws (st := .held) (d := d) (p := p) slot head (fun owns => ?_) ?_ gone
      ⟨total, sum⟩
    · have active := here.owns.mpr owns
      change s.role e.slot = _ at active
      rw [role] at active
      cases active
    · exact here.entries_zero (by change s.role e.slot ≠ _; rw [role]; nofun)
  | faulted f =>
    refine laws.with ?_
    have idle := here.failed f mem
    change s.role f.slot = _ ∨ s.role f.slot = _ ∨ s.role f.slot = _ at idle
    obtain ⟨x, role, state⟩ : ∃ x, s.role f.slot = some x ∧ (x = .faulted ∨ x = .loaded ∨ x = .spent) := by
      rcases idle with role | role | role
      · exact ⟨_, role, .inl rfl⟩
      · exact ⟨_, role, .inr (.inl rfl)⟩
      · exact ⟨_, role, .inr (.inr rfl)⟩
    refine State.lawsAt_of_idle (x := x) role state (fun owns => ?_) (here.entries_zero ?_) (by simp [gone]) (by simp [gone])
      fun d p content => ?_
    · have active := here.owns.mpr owns
      change s.role f.slot = _ at active
      rw [role] at active
      rcases state with rfl | rfl | rfl <;> cases active
    · change s.role f.slot ≠ _
      rw [role]
      rcases state with rfl | rfl | rfl <;> nofun
    · obtain ⟨total, sum, left, -⟩ := here.adds d p content
      change s.role f.slot ≠ _ → s.role f.slot ≠ _ → _ at left
      rw [role] at left
      refine ⟨total, sum, fun spent => left ?_ (by simpa using spent)⟩
      rcases state with rfl | rfl | rfl <;> nofun

/-! ## Boundaries -/

theorem State.cancelFaulted_slotLaws {s : State} (h : s.slotLaws) {i : Fin 64} {d : Descriptor} {p : Progress}
    (slot : s.slot i = .live .faulted d p) : (s.cancelFaulted i).slotLaws := by
  unfold State.cancelFaulted
  split
  · exact (State.agrees_produceAnswer _ _).slotLaws (h.takeOut slot (.inr (.inr rfl)))
  · exact h

theorem State.agrees_grantGone (s : State) : Agrees s s.grantGone := by
  unfold State.grantGone
  split
  · split_ifs
    · exact s.agrees_setMover _
    · exact s.agrees_lowerRequest.trans s.lowerRequest.agrees_ask
    · exact .of_sched rfl rfl rfl
  · split_ifs
    · exact .of_sched rfl rfl rfl
    · exact s.agrees_ask
  · exact .of_sched rfl rfl rfl
  · exact .of_sched rfl rfl rfl

theorem Moves.slotLaws {s w : State} (moves : Moves s w) (h : s.slotLaws) : w.slotLaws := moves.agrees.slotLaws h

theorem Stops.slotLaws {s w : State} (stops : Stops s w) (h : s.slotLaws) : w.slotLaws := stops.agrees.slotLaws h

theorem Act.keeps_slotLaws {a b : Point} (act : Act a b) (h : a.state.slotLaws) : b.state.slotLaws := by
  have moving : ∀ {s : State}, s.slotLaws → (s.goes .moving).slotLaws := fun {s} h => (s.agrees_setMover _).slotLaws h
  cases act with
  | idle => exact (State.agrees_setMover _ _).slotLaws h
  | start opens slot _ _ _ hands =>
    exact hands.agrees.slotLaws (State.begun_slotLaws (opens.slotLaws h) opens.burst (opens.current h slot))
  | @startFaulted m s u i d p f o opens slot =>
    have begun := State.begun_slotLaws (opens.slotLaws h) opens.burst (opens.current h slot)
    have lowered := (u.begun i d p).agrees_lowerRequest.slotLaws begun
    exact (State.faultProcessing_slotLaws lowered rfl rfl (State.slot_setSlot_self u i _) f).1
  | startLink opens _ _ _ _ hands =>
    exact hands.agrees.slotLaws (State.begunLink_slotLaws (opens.slotLaws h) opens.burst _)
  | @cut m s a e rest burst _ _ stack =>
    have cut := State.unstacked_slotLaws h burst stack (.inl ⟨rfl, rfl⟩)
    refine Agrees.slotLaws (s := ((s.unowned .current e.owner).setStack rest).setBurst none)
      ⟨fun _ => rfl, fun _ => rfl, fun j => ?_, fun _ => rfl, fun _ => rfl⟩ cut
    refine iff_of_false (State.owns_none ?_ j) (State.owns_none rfl j)
    rw [State.setStack_sched_burst, State.unowned_sched]
    exact burst
  | @resume m s e rest b st t burst stack _ hands =>
    exact hands.agrees.slotLaws (State.unstacked_slotLaws h burst stack (.inr ⟨rfl, _, rfl, rfl⟩))
  | beginSlot => exact (State.agrees_setMover _ _).slotLaws h
  | beginLink => exact (State.agrees_setMover _ _).slotLaws h
  | @tallyEnds m s b i d p burst owner slot ended =>
    exact State.committed_slotLaws (s := s.goes .moving) (moving h) burst owner slot ended
  | @tallyGoesOn m s b i d p burst owner slot left =>
    have committed := State.commitProgress_slotLaws (s := s.goes .moving) (moving h) burst owner slot left
    exact State.endCurrent_slotLaws committed (State.commitProgress_burst _ _ _ _ _) owner
  | @fallsShort m s b i d p burst owner => exact State.endCurrent_slotLaws (s := s.goes .moving) (moving h) burst owner
  | beginNothing burst ownerless => exact State.clearBurst_slotLaws h burst ownerless
  | commits moves burst owner slot left => exact State.commitProgress_slotLaws (moves.slotLaws h) burst owner slot left
  | finishes moves burst owner slot ended =>
    exact (State.agrees_answerEnded _ _ _).slotLaws (State.committed_slotLaws (moves.slotLaws h) burst owner slot ended)
  | @cancels s w b i d p payload moves burst owner slot left =>
    have committed := State.commitProgress_slotLaws (moves.slotLaws h) burst owner slot left
    exact (State.agrees_produceAnswer _ _).slotLaws
      (State.takeOut_active committed (State.commitProgress_slot _ _ _ _ _) (.of_sched rfl rfl rfl))
  | @fails s u a b i high unit failed burst owner =>
    have stops := Stops.failed u a high unit failed
    have laws := stops.slotLaws h
    obtain ⟨d, p, slot⟩ := laws.owner_active (stops.burst.trans burst) owner
    obtain ⟨faulted, now⟩ := State.faultProcessing_slotLaws laws (stops.burst.trans burst) owner slot (.parity a)
    exact State.cancelFaulted_slotLaws faulted now
  | @linkMoves s w b a moves burst owner =>
    have laws := moves.slotLaws h
    exact (State.agrees_setBurst (State.owns_link burst owner) fun c hc => by cases hc; exact owner).slotLaws laws
  | @linkEnds s w b a payload stops burst owner =>
    have gone := (w.agrees_setAccess none).slotLaws (stops.slotLaws h)
    have free : Agrees (w.setAccess none) ((w.setAccess none).setBurst none) :=
      State.agrees_setBurst (State.owns_link (s := w.setAccess none) burst owner) (by simp)
    exact (State.agrees_produceAnswer _ _).slotLaws (free.slotLaws gone)
  | @timesOut s b i high asking burst owner =>
    have laws := s.agrees_lowerRequest.slotLaws h
    obtain ⟨d, p, slot⟩ := laws.owner_active burst owner
    exact (State.faultProcessing_slotLaws laws burst owner slot .grantTimeout).1
  | stopsIdle stops => exact stops.slotLaws h
  | stopsOwnerless stops burst ownerless => exact State.clearBurst_slotLaws (stops.slotLaws h) burst ownerless
  | endsCurrent burst owner => exact State.endCurrent_slotLaws h burst owner
  | asksAgain => exact (State.agrees_ask _).slotLaws h
  | losesOwner burst ownerless => exact State.clearBurst_slotLaws h burst ownerless
  | @freezes s payload =>
    have frozen := (s.agrees_setFreeze .frozen).slotLaws h
    have answered := ((s.setFreeze .frozen).agrees_produceAnswer payload).slotLaws frozen
    exact (State.agrees_setMover _ _).slotLaws answered
  | event => exact (State.agrees_eventAt _ _).slotLaws h
  | define definable unmarked read aligned inside =>
    exact (Rewrites.define definable unmarked read aligned inside).slotLaws h State.resetBlocks_slotLaws
  | rearm rest unmarked => exact (Rewrites.rearm rest unmarked).slotLaws h State.resetBlocks_slotLaws
  | release rest unmarked => exact (Rewrites.release rest unmarked).slotLaws h State.resetBlocks_slotLaws
  | bind slot unmarked => exact State.bindSlot_slotLaws h slot unmarked _
  | unbind slot state => exact h.takeOut slot state
  | cancelPreempted slot => exact State.cancelPreempted_slotLaws h slot
  | cancelActive _ slot => exact State.takeOut_active h slot (State.dropBurst_agrees _)
  | retry slot unmarked => exact State.retry_slotLaws h slot unmarked
  | skip slot => exact State.skip_slotLaws h slot
  | freezeCut _ burst owner =>
    exact Agrees.slotLaws (.of_parts rfl rfl rfl rfl rfl) (State.endCurrent_slotLaws h burst owner)
  | answers => exact (State.agrees_produceAnswer _ _).slotLaws h
  | resends => exact Agrees.slotLaws (.of_parts rfl rfl rfl rfl rfl) h
  | acknowledges => exact Agrees.slotLaws (.of_parts rfl rfl rfl rfl rfl) h
  | drains _ waiting => exact State.drainPlace_slotLaws h waiting
  | refuses => obtain ⟨link, e⟩ := State.queueRefusal_frame _ _; rw [e]; exact h
  | replays => obtain ⟨link, e⟩ := State.replay_frame _ _ _ _; rw [e]; exact h
  | enters => obtain ⟨link, hand, e⟩ := State.enterOrder_frame _ _; rw [e]; exact h
  | sendsAnswer => obtain ⟨link, hand, e⟩ := State.sendAnswer_frame _ _ _; rw [e]; exact h
  | sendsNotice => exact Agrees.slotLaws (.of_parts rfl rfl rfl rfl rfl) h
  | @losesGrant s =>
    have seen : Agrees s (s.seeGrant false).settleRequest := .of_sched rfl rfl rfl
    exact (seen.trans (State.agrees_grantGone _)).slotLaws h
  | @takesLow s =>
    obtain ⟨mover, mem, count, e⟩ := s.abandonUnit_frame
    simp only [State.takeLow, e]
    exact h
  | releases => exact State.resetBlocks_slotLaws _ _
  | resetsByOrder => exact State.resetBlocks_slotLaws _ _
  | _ => exact h

/-- Settles O59: every act keeps the laws of the queues and of every slot. -/
theorem slotLawsAreKept : Obligations.SlotLawsAreKept :=
  fun _ _ laws next => step_keeps (I := fun p => p.state.slotLaws) Act.keeps_slotLaws next laws

end Sys2Proof.Machine
end

