-- ==== Sys2Proof/Proofs/MoverServes.lean ====
section
/-! While RESET# is high the request stands as the table of R85 asks for the burst in hand (R85, R86, R93 to R97). -/

namespace Sys2Proof.Machine

/-- What the request says of the burst in hand at each stage of a step. -/
def State.servesAt (s : State) : Stage → Prop
  | .rest => s.moverServes
  | .choosing => s.sched.burst ≠ none → s.moverServes
  | .beginning => ∀ b, s.sched.burst = some b → s.mover.request = s.burstNeedsMemory b
  | .committed => ∀ b, s.sched.burst = some b →
      (s.mover.state = .moving → s.mover.request = s.burstNeedsMemory b) ∧
        (s.mover.state = .yielding → s.burstNeedsMemory b = true)

/-- The burst in hand of a state is one of another state, and needs memory in both or in neither. -/
def Needs (s t : State) : Prop :=
  ∀ c, t.sched.burst = some c → ∃ b, s.sched.burst = some b ∧ t.burstNeedsMemory c = s.burstNeedsMemory b

theorem State.burstNeedsMemory_congr {s t : State} {b c : Burst} (owner : c.owner = b.owner)
    (records : ∀ i, b.owner = .slot i → t.records i = s.records i) : t.burstNeedsMemory c = s.burstNeedsMemory b := by
  have byRecord : ∀ (u : State) (i : Fin 64), (match u.slot i with
      | .live _ d _ => d.transfer.needsMemory
      | .free => false) = ((u.records i).map fun d => d.transfer.needsMemory).getD false := by
    intro u i
    unfold State.records
    cases u.slot i <;> rfl
  unfold State.burstNeedsMemory
  rw [owner]
  cases hb : b.owner with
  | link => rfl
  | slot i =>
    refine (byRecord t i).trans (Eq.trans ?_ (byRecord s i).symm)
    rw [records i hb]

theorem Needs.of_records {s t : State} (burst : t.sched.burst = s.sched.burst) (records : t.records = s.records) :
    Needs s t :=
  fun c hc => ⟨c, burst ▸ hc, State.burstNeedsMemory_congr rfl fun i _ => by rw [records]⟩

theorem Needs.of_slots {s t : State} (burst : t.sched.burst = s.sched.burst) (slots : t.slots = s.slots) : Needs s t :=
  .of_records burst (State.records_congr slots)

/-- A unit of the burst has moved. -/
theorem Needs.moved {s t : State} {b : Burst} (burst : s.sched.burst = some b)
    (next : t.sched.burst = some { b with moved := b.moved + 1 }) (records : t.records = s.records) : Needs s t := by
  intro c hc
  rw [next] at hc
  cases hc
  exact ⟨b, burst, State.burstNeedsMemory_congr rfl fun i _ => by rw [records]⟩

theorem Needs.trans {s t u : State} (first : Needs s t) (second : Needs t u) : Needs s u := by
  intro c hc
  obtain ⟨b, hb, same⟩ := second c hc
  obtain ⟨a, ha, same'⟩ := first b hb
  exact ⟨a, ha, same.trans same'⟩

/-- DEFINE, REARM and RELEASE take a slot that owns no burst. -/
theorem Needs.setSlot {s : State} {i : Fin 64} (rest : s.AtRest i) (v : Slot) : Needs s (s.setSlot i v) := by
  refine fun c hc => ⟨c, hc, State.burstNeedsMemory_congr rfl fun j owner => ?_⟩
  rw [State.records_setSlot_at, if_neg]
  rintro rfl
  exact rest.owns ⟨c, hc, owner⟩

theorem Needs.burst_ne {s t : State} (needs : Needs s t) (burst : t.sched.burst ≠ none) : s.sched.burst ≠ none := by
  obtain ⟨c, hc⟩ := Option.ne_none_iff_exists'.mp burst
  obtain ⟨b, hb, -⟩ := needs c hc
  rw [hb]
  nofun

theorem State.servesAt_congr {s t : State} {st : Stage} (mover : t.mover = s.mover) (grant : t.grant = s.grant)
    (needs : Needs s t) (h : s.servesAt st) : t.servesAt st := by
  have serves : s.moverServes → t.moverServes := by
    intro h
    unfold State.moverServes at h ⊢
    rw [mover, grant]
    cases state : s.mover.state <;> rw [state] at h <;> dsimp only at h ⊢
    case asking =>
      intro c hc
      obtain ⟨b, hb, same⟩ := needs c hc
      rw [same]
      exact h b hb
    case moving =>
      intro c hc
      obtain ⟨b, hb, same⟩ := needs c hc
      rw [same]
      exact h b hb
    case yielding =>
      refine ⟨fun c hc => ?_, h.2⟩
      obtain ⟨b, hb, same⟩ := needs c hc
      rw [same]
      exact h.1 b hb
  cases st with
  | rest => exact serves h
  | choosing => exact fun burst => serves (h (needs.burst_ne burst))
  | beginning =>
    intro c hc
    obtain ⟨b, hb, same⟩ := needs c hc
    rw [mover, same]
    exact h b hb
  | committed =>
    intro c hc
    obtain ⟨b, hb, same⟩ := needs c hc
    rw [mover, same]
    exact h b hb

/-! ## What the pieces of the acts do to the request -/

/-- The mover that asks for memory does so for a burst that needs it. -/
theorem State.ask_moverServes {s : State} (unit : s.mover.unit = none)
    (needs : ∀ b, s.sched.burst = some b → s.burstNeedsMemory b = true) : s.ask.moverServes := by
  unfold State.ask
  split
  next grant => exact ⟨needs, fun some => absurd unit some, fun _ => grant⟩
  next => exact needs

theorem Hands.servesAt {s t : State} {b : Burst} {st : Stage} (hands : Hands s b st t) (burst : s.sched.burst = some b)
    (unit : s.mover.unit = none) : t.servesAt st := by
  have only : ∀ c, s.sched.burst = some c → c = b := fun c hc => by rw [burst] at hc; exact (Option.some.inj hc).symm
  cases hands with
  | waits needs _ state =>
    intro _
    unfold State.moverServes
    simp only [State.setMover_mover, state]
    intro c hc
    rw [only c hc]
    exact needs
  | holdsGrant needs request =>
    intro c hc
    rw [only c hc, request, needs]
  | asks needs =>
    intro _
    refine State.ask_moverServes unit fun c hc => ?_
    rw [only c hc]
    exact needs
  | goes needs =>
    intro c hc
    rw [only c hc]
    exact needs.symm

/-- A commit leaves the request of a burst that moves, and a burst that needed memory still does. -/
theorem Moves.servesAt {s w : State} (moves : Moves s w) (legal : s.moverLegal) (h : s.moverServes) :
    w.servesAt .committed := by
  have needs : Needs s w := .of_records moves.burst moves.records
  cases moves with
  | intro u v _ unit moved =>
    obtain ⟨-, -, state⟩ := legal.busy (by rw [unit]; nofun)
    obtain ⟨lanes, mem, access, rfl⟩ := State.performUnit_frame moved
    intro c hc
    obtain ⟨b, hb, same⟩ := needs c hc
    rw [same]
    unfold State.moverServes at h
    rcases State.unitOver_eq { s with lanes := lanes, mem := mem, sched := { s.sched with access := access } } with e |
      ⟨yielding, e⟩
    · rw [e, State.setMover_mover]
      refine ⟨fun moving => ?_, fun yielding => ?_⟩
      · have moving : s.mover.state = .moving := moving
        rw [moving] at h
        exact h b hb
      · have yielding : s.mover.state = .yielding := yielding
        rw [yielding] at h
        exact h.1 b hb
    · have yielding : s.mover.state = .yielding := yielding
      rw [yielding] at h
      rw [e, State.setMover_mover]
      refine ⟨fun moving => ?_, fun _ => h.1 b hb⟩
      have moving : s.mover.state = .moving := moving
      rw [yielding] at moving
      cases moving

/-- The grant is seen deasserted: a burst in hand that held the memory asks for it again, or yields it at its unit's end
(R96, R97). -/
theorem State.grantGone_moverServes {s : State} {grant : Bool} (h : (s.seeGrant grant).moverServes) :
    s.grantGone.moverServes := by
  unfold State.moverServes at h
  unfold State.grantGone
  have keeps : ∀ {m}, s.mover.state = m → m ≠ .yielding ∨ s.mover.unit ≠ none → s.moverServes := by
    intro m state holds
    unfold State.moverServes
    change match s.mover.state with | .idle => _ | .asking => _ | .moving => _ | .yielding => _ at h
    cases m <;> rw [state] at h ⊢
    case idle => trivial
    case asking => exact h
    case moving => exact h
    case yielding =>
      rcases holds with holds | unit
      · exact absurd rfl holds
      · exact ⟨h.1, h.2.1, fun none => absurd none unit⟩
  change match s.mover.state with | .idle => _ | .asking => _ | .moving => _ | .yielding => _ at h
  cases state : s.mover.state <;> rw [state] at h <;> dsimp only at h ⊢
  case idle => exact keeps state (.inl nofun)
  case asking => exact keeps state (.inl nofun)
  case moving =>
    split_ifs with request unit
    · refine ⟨fun b hb => (h b hb).symm.trans request, fun _ => request, fun none => ?_⟩
      have gone : s.mover.unit = Option.none := none
      rw [gone] at unit
      cases unit
    · exact State.ask_moverServes (s := s.lowerRequest) (by simpa using unit : s.mover.unit = none)
        fun b hb => (h b hb).symm.trans request
    · exact keeps state (.inl nofun)
  case yielding =>
    split_ifs with unit
    · exact keeps state (.inr (by simpa [Option.isSome_iff_ne_none] using unit))
    · exact State.ask_moverServes (by simpa using unit) h.1

/-! ## The invariant -/

/-- While RESET# is high the request stands as its stage asks. -/
def Point.serves (p : Point) : Prop := p.state.resetLow = false → p.state.servesAt p.stage

/-- A burst that has just gone asks nothing of the mover. -/
theorem State.servesAt_gone {s : State} (burst : s.sched.burst = none) : s.servesAt .choosing := fun some => absurd burst some

theorem State.servesAt_idle {s : State} (mover : s.mover = Mover.atReset) : s.servesAt .rest := by
  change s.moverServes
  unfold State.moverServes
  rw [mover]
  trivial

theorem Point.serves_same {m m' : Mode} {st : Stage} {s t : State} (still : t.still = s.still) (mover : t.mover = s.mover)
    (needs : Needs s t) (h : Point.serves ⟨m, st, s⟩) : Point.serves ⟨m', st, t⟩ :=
  fun low => State.servesAt_congr mover (State.still.grant still) needs (h ((State.still.resetLow still).symm.trans low))

theorem Act.keeps_serves {a b : Point} (act : Act a b) (laws : a.state.slotLaws) (stands : a.moverStands) (h : a.serves) :
    b.serves := by
  cases act with
  | wake => exact fun low _ => h low
  | stay burst => exact fun low => h low burst
  | idle burst => exact fun _ => State.servesAt_idle rfl
  | @start m s u i d p b st t o opens _ _ _ burst hands chooses =>
    intro low
    have high : s.resetLow = false :=
      (State.still.resetLow (hands.still.trans ((u.still_begun i d p).trans opens.still))).symm.trans low
    exact hands.servesAt burst (opens.moverLoose chooses (stands high)).1
  | startFaulted => exact fun _ => State.servesAt_gone (State.faultProcessing_burst _ _ _)
  | @startLink m s u a b st t o opens _ _ _ burst hands chooses =>
    intro low
    have high : s.resetLow = false :=
      (State.still.resetLow (hands.still.trans ((u.still_begunLink a).trans opens.still))).symm.trans low
    exact hands.servesAt burst (opens.moverLoose chooses (stands high)).1
  | @cut m s a e rest burst =>
    exact fun _ => State.servesAt_gone ((congrArg _ (s.unowned_sched .current e.owner)).trans burst)
  | @resume m s e rest b st t burst _ burst' hands =>
    intro low
    have high : s.resetLow = false :=
      (State.still.resetLow (hands.still.trans (s.still_resumed e rest))).symm.trans low
    have mover : (s.resumed e rest).mover = s.mover := by
      unfold State.resumed
      cases e.owner <;> rfl
    exact hands.servesAt burst' ((congrArg _ mover).trans ((stands high).1 burst).1)
  | beginSlot => exact fun low _ => h low
  | beginLink => exact fun low _ => h low
  | tallyEnds => exact fun _ => State.servesAt_gone (State.endProcessing_burst _ _)
  | tallyGoesOn => exact fun _ => State.servesAt_gone rfl
  | fallsShort => exact fun _ => State.servesAt_gone rfl
  | beginNothing => exact fun _ => State.servesAt_gone rfl
  | beginsNone burst => exact fun _ => State.servesAt_gone burst
  | @commits s w b i d p moves burst owner slot =>
    intro low
    have still := State.still_commitProgress w i d p b
    have high := moves.resetLow.symm.trans ((State.still.resetLow still).symm.trans low)
    exact State.servesAt_congr (State.commitProgress_mover _ _ _ _ _) (State.still.grant still)
      (.moved burst (State.commitProgress_burst _ _ _ _ _) (State.records_commitProgress slot b))
      (moves.servesAt (stands high) (h high))
  | finishes =>
    exact fun _ => State.servesAt_gone
      ((State.apart.burst (State.answerEnded_apart _ _ _)).trans (State.endProcessing_burst _ _))
  | @cancels s w b i d p payload =>
    exact fun _ => State.servesAt_gone
      ((congrArg _ (State.produceAnswer_sched _ _)).trans (State.takeOut_burst (w.commitProgress i d p b).clearBurst i))
  | fails =>
    exact fun _ => State.servesAt_gone
      ((State.apart.burst (State.cancelFaulted_apart _ _)).trans (State.faultProcessing_burst _ _ _))
  | @linkMoves s w b a moves burst =>
    intro low
    have high := moves.resetLow.symm.trans low
    exact State.servesAt_congr (s := w) rfl rfl (.moved burst rfl rfl) (moves.servesAt (stands high) (h high))
  | linkEnds => exact fun _ => State.servesAt_gone (congrArg _ (State.produceAnswer_sched _ _))
  | timesOut => exact fun _ => State.servesAt_gone (State.faultProcessing_burst _ _ _)
  | stopsIdle _ burst => exact fun _ => State.servesAt_gone burst
  | stopsOwnerless => exact fun _ => State.servesAt_gone rfl
  | endsCurrent => exact fun _ => State.servesAt_gone rfl
  | @goesOn s state =>
    intro low b burst
    obtain ⟨-, -, -, moving | ⟨yielding, -⟩⟩ := stands low
    · exact (h low b burst).1 moving
    · exact absurd yielding state
  | @asksAgain s state =>
    intro low _
    have high := (State.still.resetLow s.still_ask).symm.trans low
    exact State.ask_moverServes (stands high).2.1 fun b burst => (h high b burst).2 state
  | losesOwner => exact fun _ => State.servesAt_gone rfl
  | freezes => exact fun _ => State.servesAt_idle rfl
  | @seesGrant s asking =>
    intro low
    have serves : s.moverServes := h low
    change (s.seeGrant true).moverServes
    unfold State.moverServes at serves ⊢
    cases state : s.mover.state <;> simp only [State.seeGrant, state] at serves ⊢
    case asking => exact serves
    case moving => exact serves
    case yielding => exact ⟨serves.1, serves.2.1, fun _ => trivial⟩
  | @servesGrant s lowered count _ asking =>
    intro low b burst
    obtain ⟨-, request, -⟩ := State.moverLegal.asking (stands low) asking
    have serves : s.moverServes := h low
    unfold State.moverServes at serves
    rw [asking] at serves
    exact request.trans (serves b burst).symm
  | @awaitsGrantEnd s count asking =>
    intro low
    obtain ⟨-, -, -, unit, -⟩ := State.moverLegal.asking (stands low) asking
    have serves : s.moverServes := h low
    unfold State.moverServes at serves
    rw [asking] at serves
    exact ⟨serves, fun some => absurd unit some, fun _ => rfl⟩
  | @losesGrantLow s reset =>
    intro low
    have low : s.resetLow = false := low
    rw [reset] at low
    cases low
  | @losesGrant s high =>
    intro _
    exact State.grantGone_moverServes (grant := s.grant) (h high)
  | @waitsOn s n k timer =>
    intro low
    have serves : s.moverServes := h low
    change State.moverServes _
    unfold State.moverServes at serves ⊢
    exact serves
  | @define m s i r d definable =>
    exact Point.serves_same (s := s) rfl rfl (Needs.setSlot (laws.atRest (Slot.definable_cases definable)) _) h
  | @rearm m s i d rest =>
    obtain ⟨st, p, slot, state⟩ := Slot.atRest?_live rest
    exact Point.serves_same (s := s) rfl rfl (Needs.setSlot (laws.atRest (.inr ⟨st, d, p, slot, state⟩)) _) h
  | @release m s i d rest =>
    obtain ⟨st, p, slot, state⟩ := Slot.atRest?_live rest
    exact Point.serves_same (s := s) rfl rfl (Needs.setSlot (laws.atRest (.inr ⟨st, d, p, slot, state⟩)) _) h
  | event =>
    exact Point.serves_same (State.still_eventAt _ _) (State.apart.mover (State.apart_eventAt _ _))
      (.of_records (State.apart.burst (State.apart_eventAt _ _)) (State.records_eventAt _ _)) h
  | @bind m s i q => exact Point.serves_same (s := s) rfl rfl (.of_records rfl (State.records_setState _ i _)) h
  | unbind =>
    exact Point.serves_same (State.still_takeOut _ _) (State.apart.mover (State.apart_takeOut _ _))
      (.of_records (State.takeOut_burst _ _) (State.records_takeOut _ _)) h
  | @cancelPreempted m s i =>
    exact Point.serves_same (m := m) (s := s.unstack i) (State.still_takeOut _ _) (State.apart.mover (State.apart_takeOut _ _))
      (.of_records (State.takeOut_burst _ _) (State.records_takeOut _ _)) h
  | cancelActive =>
    refine fun _ => State.servesAt_gone ((State.takeOut_burst _ _).trans ?_)
    rw [State.dropBurst_sched]
  | @retry m s i d p slot =>
    exact Point.serves_same (s := s) rfl rfl (.of_records rfl (State.records_setSlot (State.records_live slot).symm)) h
  | skip =>
    exact Point.serves_same (State.still_removeHead _ _ _) (State.apart.mover (State.apart_removeHead _ _ _))
      (.of_records (State.apart.burst (State.apart_removeHead _ _ _)) (State.records_removeHead _ _ _)) h
  | freezeCut => exact fun _ => State.servesAt_idle rfl
  | @answers s payload =>
    obtain ⟨mover, grant, burst, low⟩ := s.produceAnswer_parts payload
    exact fun high => State.servesAt_congr mover grant (.of_slots burst (s.produceAnswer_slots payload)) (h (low.symm.trans high))
  | @drains s r rest =>
    obtain ⟨burst, -, -⟩ := s.drainPlace_apart r rest
    have mover : (s.drainPlace r rest).mover = s.mover := by
      cases r with
      | ended r => exact (State.apart.mover (State.apart_requeue _ r) :)
      | faulted r => rfl
    exact Point.serves_same (s.still_drainPlace r rest) mover (.of_records burst (s.records_drainPlace r rest)) h
  | refuses => obtain ⟨link, e⟩ := State.queueRefusal_frame _ _; rw [e]; exact h
  | replays => obtain ⟨link, e⟩ := State.replay_frame _ _ _ _; rw [e]; exact h
  | enters => obtain ⟨link, hand, e⟩ := State.enterOrder_frame _ _; rw [e]; exact h
  | sendsAnswer => obtain ⟨link, hand, e⟩ := State.sendAnswer_frame _ _ _; rw [e]; exact h
  | takesLow => exact nofun
  | releases => exact fun _ => State.servesAt_idle rfl
  | resetsByOrder => exact fun _ => State.servesAt_idle rfl
  | _ => exact h

/-- Settles O58: every act keeps the mover as its table says and, with the slot laws, its request. -/
theorem moverKeepsItsTable : Obligations.MoverKeepsItsTable := by
  refine ⟨fun s t legal next => step_keeps Act.keeps_moverStands next legal, fun s t laws legal next high => ?_⟩
  let holds (p : Point) : Prop := p.state.slotLaws ∧ p.moverStands ∧ p.serves
  have kept : ∀ {a b : Point}, Act a b → holds a → holds b := fun act ⟨laws, stands, serves⟩ =>
    ⟨act.keeps_slotLaws laws, act.keeps_moverStands stands, act.keeps_serves laws stands serves⟩
  have first : holds ⟨.plain, .rest, s⟩ := ⟨laws, fun low => (legal low).1, fun low => (legal low).2⟩
  obtain ⟨-, -, serves⟩ := step_keeps (I := holds) kept next first
  exact serves high

end Sys2Proof.Machine
end

