-- ==== Sys2Proof/Proofs/LaneTurns.lean ====
section
/-! What each act does to the lanes, and which slots' bursts march: are in hand or on the stack (R67, R76, R109 to R118). -/

namespace Sys2Proof.Machine

/-! ## The exchange of a lane -/

/-- The exchange leaves the settings of a lane, keeps its bytes in their places, and takes none from an OUT lane's
peripheral. -/
structure Lane.Follows (l k : Lane) : Prop where
  enabled : k.enabled = l.enabled
  direction : k.direction = l.direction
  threshold : k.threshold = l.threshold
  fill : l.fill ≤ fifoSize → k.fill ≤ fifoSize
  outgoing : l.direction = .outgoing → k.fill ≤ l.fill

theorem Lane.Follows.refl (l : Lane) : l.Follows l := ⟨rfl, rfl, rfl, id, fun _ => le_rfl⟩

theorem Lane.Follows.trans {l k m : Lane} (first : l.Follows k) (second : k.Follows m) : l.Follows m :=
  ⟨second.enabled.trans first.enabled, second.direction.trans first.direction, second.threshold.trans first.threshold,
    fun h => second.fill (first.fill h),
    fun out => (second.outgoing (first.direction.trans out)).trans (first.outgoing out)⟩

theorem Lane.exchange_follows (l : Lane) : l.Follows l.exchange := by
  unfold Lane.exchange
  split
  next direction phase =>
    split
    · split_ifs with takes
      · simp only [Bool.and_eq_true, decide_eq_true_eq] at takes
        refine ⟨rfl, rfl, rfl, fun _ => ?_, fun out => by rw [direction] at out; cases out⟩
        simpa [Lane.fill] using takes.2
      · exact .refl l
    · exact .refl l
  next => split_ifs <;> exact ⟨rfl, rfl, rfl, id, fun _ => le_rfl⟩
  next => split_ifs <;> exact ⟨rfl, rfl, rfl, id, fun _ => le_rfl⟩
  next =>
    split_ifs
    · have fewer : (l.fifo.drop 1).length ≤ l.fifo.length := by simp
      exact ⟨rfl, rfl, rfl, fun h => fewer.trans h, fun _ => fewer⟩
    · exact .refl l
  next => split_ifs <;> exact ⟨rfl, rfl, rfl, id, fun _ => le_rfl⟩
  all_goals exact .refl l

theorem Lane.settle_follows (l : Lane) : l.Follows l.settle := l.exchange_follows.trans l.exchange.exchange_follows

/-! ## What an act does to the lanes -/

/-- The lanes after an act: as they were, after a unit's end, with a pin that changed, with an exchange gone on, set up by
LANE SETUP, or reset. -/
inductive LaneTurn (s t : State) : Prop where
  | same : t.lanes = s.lanes → LaneTurn s t
  | moves {w} : Moves s w → t.lanes = w.lanes → t.mover.unit = none → LaneTurn s t
  | follows : (∀ n, (s.lane n).Follows (t.lane n)) → LaneTurn s t
  | setup {n enabled direction threshold flush} : s.laneInUse n = false → 1 ≤ threshold → threshold ≤ 32 →
      t.lanes = (s.setLane n ((s.lane n).setup enabled direction threshold flush)).lanes → LaneTurn s t
  | reset {u reason} : t = State.resetBlocks u reason → LaneTurn s t

theorem LaneTurn.still {s t : State} (still : t.still = s.still) : LaneTurn s t := .same (State.still.lanes still)

theorem State.setLane_follows (s : State) (n : Fin 12) {l : Lane} (follows : (s.lane n).Follows l) (k : Fin 12) :
    (s.lane k).Follows ((s.setLane n l).lane k) := by
  rw [State.lane_setLane]
  split_ifs with same
  · subst same; exact follows
  · exact .refl _

theorem State.answerEnded_lanes (s : State) (i : Fin 64) (k : Nat) : (s.answerEnded i k).lanes = s.lanes := by
  unfold State.answerEnded
  split <;> simp

theorem State.cancelFaulted_lanes (s : State) (i : Fin 64) : (s.cancelFaulted i).lanes = s.lanes := by
  unfold State.cancelFaulted
  split
  · exact (State.produceAnswer_lanes _ _).trans (State.still.lanes (s.still_takeOut i))
  · rfl

theorem State.unitOver_unit (s : State) : s.unitOver.mover.unit = none := by
  rcases s.unitOver_eq with e | ⟨-, e⟩ <;> rw [e] <;> rfl

theorem State.unitOver_lanes (s : State) : s.unitOver.lanes = s.lanes := by
  obtain ⟨m, e⟩ := s.unitOver_frame
  rw [e]
  rfl

theorem Stops.laneTurn {s w t : State} (stops : Stops s w) (lanes : t.lanes = w.lanes) (unit : t.mover.unit = w.mover.unit) :
    LaneTurn s t := by
  cases stops with
  | moved moves => exact .moves moves lanes (unit.trans moves.unit)
  | failed => exact .same (lanes.trans s.unitOver_lanes)
  | timeout => exact .same lanes

theorem State.grantGone_lanes (s : State) : s.grantGone.lanes = s.lanes := by
  unfold State.grantGone
  split
  · split_ifs
    · rfl
    · exact State.still.lanes s.lowerRequest.still_ask
    · rfl
  · split_ifs
    · rfl
    · exact State.still.lanes s.still_ask
  · rfl
  · rfl

theorem Act.laneTurn {a b : Point} (act : Act a b) : LaneTurn a.state b.state := by
  cases act with
  | start opens _ _ _ _ hands => exact .still (hands.still.trans opens.still)
  | startFaulted opens => exact .still ((State.still_faultProcessing _ _ _).trans opens.still)
  | startLink opens _ _ _ _ hands => exact .still (hands.still.trans opens.still)
  | cut => exact .still (State.still_unowned _ _ _)
  | resume _ _ _ hands => exact .still (hands.still.trans (State.still_resumed _ _ _))
  | tallyEnds => exact .still ((State.still_endProcessing _ _).trans (State.still_commitProgress _ _ _ _ _))
  | tallyGoesOn => exact .still ((State.still_endCurrent _ _).trans (State.still_commitProgress _ _ _ _ _))
  | @commits s w b i d p moves =>
    exact .moves moves (State.still.lanes (State.still_commitProgress _ _ _ _ _))
      ((congrArg _ (State.commitProgress_mover w i d p b)).trans moves.unit)
  | @finishes s w b i d p moves =>
    have still := (State.still_endProcessing (w.commitProgress i d p b) i).trans (State.still_commitProgress w i d p b)
    refine .moves moves ((State.answerEnded_lanes _ _ _).trans (State.still.lanes still)) ?_
    have mover := (State.apart.mover (State.answerEnded_apart _ i (d.commit p).committed)).trans
      ((State.endProcessing_mover _ i).trans (State.commitProgress_mover w i d p b))
    exact (congrArg Mover.unit mover).trans moves.unit
  | @cancels s w b i d p payload moves =>
    have still := (State.still_takeOut (w.commitProgress i d p b).clearBurst i).trans (State.still_commitProgress w i d p b)
    refine .moves moves ((State.produceAnswer_lanes _ _).trans (State.still.lanes still)) ?_
    have mover := (State.produceAnswer_mover _ payload).trans
      ((State.apart.mover (State.apart_takeOut (w.commitProgress i d p b).clearBurst i)).trans
        (State.commitProgress_mover w i d p b))
    exact (congrArg Mover.unit mover).trans moves.unit
  | @fails s =>
    exact .same ((State.cancelFaulted_lanes _ _).trans
      ((State.still.lanes (State.still_faultProcessing _ _ _)).trans s.unitOver_lanes))
  | linkMoves moves => exact .moves moves rfl moves.unit
  | linkEnds stops =>
    exact stops.laneTurn (State.produceAnswer_lanes _ _) (congrArg Mover.unit (State.produceAnswer_mover _ _))
  | timesOut => exact .still (State.still_faultProcessing _ _ _)
  | stopsIdle stops => exact stops.laneTurn rfl rfl
  | stopsOwnerless stops => exact stops.laneTurn rfl rfl
  | asksAgain => exact .still (State.still_ask _)
  | freezes => exact .same (State.produceAnswer_lanes _ _)
  | losesGrant => exact .same (State.grantGone_lanes _)
  | event => exact .still (State.still_eventAt _ _)
  | pins => exact .follows (State.setLane_follows _ _ ⟨rfl, rfl, rfl, id, fun _ => le_rfl⟩)
  | exchange => exact .follows (State.setLane_follows _ _ (Lane.settle_follows _))
  | laneSetup free low high => exact .setup free low high rfl
  | unbind => exact .still (State.still_takeOut _ _)
  | cancelPreempted => exact .still (State.still_takeOut _ _)
  | cancelActive => exact .still ((State.still_takeOut _ _).trans (State.still_dropBurst _))
  | skip => exact .still (State.still_removeHead _ _ _)
  | answers => exact .same (State.produceAnswer_lanes _ _)
  | drains => exact .still (State.still_drainPlace _ _ _)
  | refuses => obtain ⟨link, e⟩ := State.queueRefusal_frame _ _; rw [e]; exact .same rfl
  | replays => obtain ⟨link, e⟩ := State.replay_frame _ _ _ _; rw [e]; exact .same rfl
  | enters => obtain ⟨link, hand, e⟩ := State.enterOrder_frame _ _; rw [e]; exact .same rfl
  | sendsAnswer => obtain ⟨link, hand, e⟩ := State.sendAnswer_frame _ _ _; rw [e]; exact .same rfl
  | @takesLow s =>
    obtain ⟨mover, mem, count, e⟩ := s.abandonUnit_frame
    simp only [State.takeLow, e]
    exact .same rfl
  | releases => exact .reset rfl
  | resetsByOrder => exact .reset rfl
  | _ => exact .same rfl

/-! ## The slots whose bursts march -/

/-- The slot's burst is in hand or on the stack. -/
def State.marches (s : State) (i : Fin 64) : Prop := s.owns i ∨ 0 < s.entries i

/-- The bursts in hand and on the stack are those of the ACTIVE and the PREEMPTED slots (R57, R75). -/
theorem State.slotLaws.marches_iff {s : State} (h : s.slotLaws) (i : Fin 64) :
    s.marches i ↔ s.rank i = some .active ∨ s.rank i = some .preempted := by
  have here := h.at i
  unfold State.marches
  rw [← here.owns, here.stands, State.role_iff (st := .active) nofun nofun,
    ← State.role_iff (st := .preempted) nofun nofun]
  refine or_congr_right ?_
  split_ifs with preempted
  · exact iff_of_true Nat.one_pos preempted
  · exact iff_of_false (lt_irrefl 0) preempted

/-- A burst that marches did so before, or has just started with its lanes fit (R67). -/
theorem Turn.marches {s t : State} (turn : Turn s t) {i : Fin 64} (marches : t.marches i) :
    s.marches i ∨ (∃ d p, s.slot i = .live .current d p ∧ s.laneFault d.transfer = none) ∧ t.lanes = s.lanes := by
  have opened : ∀ {u : State}, Opens s u → t.sched.stack = u.sched.stack → 0 < t.entries i → s.marches i := by
    intro u opens stack entries
    unfold State.entries at entries
    rw [stack] at entries
    cases opens with
    | free => exact .inr entries
    | push b burst =>
      rw [State.push_stack, List.countP_cons] at entries
      by_cases owner : b.owner = .slot i
      · exact .inl ⟨b, burst, owner⟩
      · rw [if_neg (by simpa using owner)] at entries
        exact .inr entries
  cases turn with
  | keeps burst stack =>
    rcases marches with ⟨c, hc, owner⟩ | entries
    · obtain ⟨b, hb, same, -⟩ := burst c hc
      exact .inl (.inl ⟨b, hb, same ▸ owner⟩)
    · exact .inl (.inr (entries.trans_le (stack.countP_le)))
  | opens opens burst stack =>
    rcases marches with ⟨c, hc, -⟩ | entries
    · rw [burst] at hc; cases hc
    · exact .inl (opened opens stack entries)
  | starts opens burst stack _ starts lanes =>
    rcases marches with ⟨c, hc, owner⟩ | entries
    · rw [burst] at hc
      cases hc
      cases starts with
      | slot slot fit owns =>
        rw [owns] at owner
        cases owner
        exact .inr ⟨⟨_, _, slot, fit⟩, lanes⟩
      | link _ owns => rw [owns] at owner; cases owner
    · exact .inl (opened opens stack entries)
  | @resumes e rest b stack burst owns _ stack' =>
    left
    right
    unfold State.entries
    rw [stack, List.countP_cons]
    rcases marches with ⟨c, hc, owner⟩ | entries
    · rw [burst] at hc
      cases hc
      rw [← owns, if_pos (by simpa using owner)]
      omega
    · unfold State.entries at entries
      rw [stack'] at entries
      omega

/-- The record of a slot that is not at rest stays (R15). -/
theorem Act.record_stays {a b : Point} (act : Act a b) (laws : a.state.slotLaws) {i : Fin 64} (busy : ¬ a.state.AtRest i) :
    b.state.records i = a.state.records i ∨ ∃ u reason, b.state = State.resetBlocks u reason := by
  have apart : ∀ j, a.state.AtRest j → j ≠ i := by
    rintro j rest rfl
    exact busy rest
  have resting : ∀ {j d}, (a.state.slot j).atRest? = some d → j ≠ i := by
    intro j d rest
    obtain ⟨st, p, slot, state⟩ := Slot.atRest?_live rest
    exact apart j (laws.atRest (.inr ⟨st, d, p, slot, state⟩))
  rcases act.records with same | rewrites
  · exact .inl (congrFun same i)
  · generalize b.state = t at rewrites ⊢
    cases rewrites with
    | define definable =>
      left
      rw [State.load, State.records_setSlot_at, if_neg (apart _ (laws.atRest (Slot.definable_cases definable)))]
    | rearm rest => left; rw [State.load, State.records_setSlot_at, if_neg (resting rest)]
    | release rest => left; rw [State.records_setSlot_at, if_neg (resting rest)]
    | reset u reason => exact .inr ⟨u, reason, rfl⟩

theorem State.marches.busy {s : State} {i : Fin 64} (marches : s.marches i) : ¬ s.AtRest i := by
  intro rest
  rcases marches with owns | entries
  · exact rest.owns owns
  · rw [rest.entries] at entries; exact absurd entries (lt_irrefl 0)

end Sys2Proof.Machine
end

