-- ==== Sys2Proof/Proofs/LanesLawful.lean ====
section
/-! No lane overflows: a unit that puts bytes into a lane belongs to the burst in hand, whose descriptor names the lane, and
the lane keeps the room it had when the unit was begun (R59, R67, R110, R116, R118). -/

namespace Sys2Proof.Machine

/-! ## While RESET# is low a step does not leave its rest -/

theorem State.answerEnded_resetLow (s : State) (i : Fin 64) (k : Nat) : (s.answerEnded i k).resetLow = s.resetLow := by
  unfold State.answerEnded
  split <;> simp

theorem State.cancelFaulted_resetLow (s : State) (i : Fin 64) : (s.cancelFaulted i).resetLow = s.resetLow := by
  unfold State.cancelFaulted
  split
  · exact (State.produceAnswer_resetLow _ _).trans (State.still.resetLow (s.still_takeOut i))
  · rfl

/-- While RESET# is low nothing is chosen or begun (R185). -/
def Point.settled (p : Point) : Prop := p.state.resetLow = true → p.stage = .rest

theorem Moves.high {s w : State} (moves : Moves s w) : s.resetLow = false := by
  cases moves with
  | intro u v high => exact high

theorem Stops.high {s w : State} (stops : Stops s w) : s.resetLow = false := by
  cases stops with
  | moved moves => exact moves.high
  | failed u a high => exact high
  | timeout high => exact high

theorem Stage.Chooses.ne_rest {o : Stage} (chooses : o.Chooses) : o ≠ .rest := by
  cases chooses <;> nofun

theorem Act.keeps_settled {a b : Point} (act : Act a b) (h : a.settled) : b.settled := by
  have starts : ∀ {m : Mode} {s t : State} {st : Stage}, t.resetLow = s.resetLow → s.resetLow = false →
      Point.settled ⟨m, st, t⟩ := by
    intro m s t _ same high low
    have low : t.resetLow = true := low
    rw [same, high] at low
    cases low
  have onward : ∀ {m m' : Mode} {s t : State} {st st' : Stage}, Point.settled ⟨m, st, s⟩ → st ≠ .rest →
      t.resetLow = s.resetLow → Point.settled ⟨m', st', t⟩ := by
    intro m m' s t st st' settled moving same low
    exact absurd (settled (same.symm.trans low)) moving
  have still : ∀ {s t : State}, t.still = s.still → t.resetLow = s.resetLow := State.still.resetLow
  cases act with
  | wake high => exact starts rfl high
  | start opens _ _ _ _ hands chooses => exact onward h chooses.ne_rest (still (hands.still.trans opens.still))
  | startFaulted opens _ _ _ chooses =>
    exact onward h chooses.ne_rest (still ((State.still_faultProcessing _ _ _).trans opens.still))
  | startLink opens _ _ _ _ hands chooses => exact onward h chooses.ne_rest (still (hands.still.trans opens.still))
  | cut => exact onward h nofun (still (State.still_unowned _ _ _))
  | resume _ _ _ hands => exact onward h nofun (still (hands.still.trans (State.still_resumed _ _ _)))
  | beginSlot => exact onward h nofun rfl
  | beginLink => exact onward h nofun rfl
  | tallyEnds =>
    exact onward h nofun (still ((State.still_endProcessing _ _).trans (State.still_commitProgress _ _ _ _ _)))
  | tallyGoesOn =>
    exact onward h nofun (still ((State.still_endCurrent _ _).trans (State.still_commitProgress _ _ _ _ _)))
  | fallsShort => exact onward h nofun (still (State.still_endCurrent _ _))
  | beginNothing => exact onward h nofun rfl
  | beginsNone => exact onward h nofun rfl
  | commits moves =>
    exact starts ((still (State.still_commitProgress _ _ _ _ _)).trans moves.resetLow) moves.high
  | @finishes s w b i d p moves =>
    have ended := still ((State.still_endProcessing (w.commitProgress i d p b) i).trans (State.still_commitProgress w i d p b))
    exact starts ((State.answerEnded_resetLow _ _ _).trans (ended.trans moves.resetLow)) moves.high
  | @cancels s w b i d p payload moves =>
    have taken := still ((State.still_takeOut (w.commitProgress i d p b).clearBurst i).trans
      (State.still_commitProgress w i d p b))
    exact starts ((State.produceAnswer_resetLow _ _).trans (taken.trans moves.resetLow)) moves.high
  | @fails s u a b i high unit failed =>
    have stopped := (Stops.failed u a high unit failed).resetLow
    have faulted := still (s.unitOver.still_faultProcessing i (.parity a))
    exact starts ((State.cancelFaulted_resetLow _ _).trans (faulted.trans stopped)) high
  | linkMoves moves => exact starts moves.resetLow moves.high
  | linkEnds stops => exact starts ((State.produceAnswer_resetLow _ _).trans stops.resetLow) stops.high
  | timesOut high => exact starts (still (State.still_faultProcessing _ _ _)) high
  | stopsIdle stops => exact starts stops.resetLow stops.high
  | stopsOwnerless stops => exact starts stops.resetLow stops.high
  | endsCurrent => exact onward h nofun (still (State.still_endCurrent _ _))
  | goesOn => exact onward h nofun rfl
  | asksAgain => exact onward h nofun (still (State.still_ask _))
  | losesOwner => exact onward h nofun rfl
  | servesGrant high => exact starts rfl high
  | cancelActive high => exact starts (still ((State.still_takeOut _ _).trans (State.still_dropBurst _))) high
  | _ => exact fun _ => rfl

/-! ## Bounds -/

theorem State.laneFault_none {s : State} {t : Transfer} :
    s.laneFault t = none ↔ ∀ p ∈ t.lanes, (s.lane p.1).enabled = true ∧ (s.lane p.1).direction = p.2 := by
  unfold State.laneFault
  rw [List.findSome?_eq_none_iff]
  refine forall_congr' fun p => imp_congr_right fun _ => ?_
  unfold Lane.unfit
  cases (s.lane p.1).enabled <;> cases (s.lane p.1).direction <;> cases p.2 <;> simp

/-- The lanes of every descriptor whose burst marches are enabled and of the direction it needs. -/
theorem State.lanesFit_iff {s : State} (h : s.slotLaws) :
    s.lanesFit ↔ ∀ i d, s.marches i → s.records i = some d → s.laneFault d.transfer = none := by
  unfold State.lanesFit
  constructor
  · intro fit i d marches record
    obtain ⟨st, p, slot⟩ := Slot.record?_eq_some.mp record
    refine fit i st d p slot ?_
    have rank := (h.marches_iff i).mp marches
    rw [State.rank_live slot] at rank
    simpa using rank
  · intro fit i st d p slot state
    refine fit i d ((h.marches_iff i).mpr ?_) (State.records_live slot)
    rw [State.rank_live slot]
    simpa using state

theorem State.lane_congr {s t : State} (lanes : t.lanes = s.lanes) (n : Fin 12) : t.lane n = s.lane n := by
  simp only [State.lane, lanes]

/-- A lane that a marching descriptor names is in use (R118). -/
theorem State.inUse_of_marches {s : State} (h : s.slotLaws) {i : Fin 64} {d : Descriptor} (marches : s.marches i)
    (record : s.records i = some d) {n : Fin 12} {direction : Direction} (named : (n, direction) ∈ d.transfer.lanes) :
    s.laneInUse n = true := by
  obtain ⟨st, p, slot⟩ := Slot.record?_eq_some.mp record
  have rank := (h.marches_iff i).mp marches
  rw [State.rank_live slot] at rank
  unfold State.laneInUse
  refine List.any_eq_true.mpr ⟨i, List.mem_finRange i, ?_⟩
  have names : d.transfer.names n = true := List.any_eq_true.mpr ⟨_, named, by simp⟩
  rcases rank with rank | rank <;> cases rank <;> rw [State.slot] at slot <;> simpa [State.slot, slot] using names

/-! ## A unit's end -/

/-- A lane with the settings of another and no more bytes than it has places for. -/
structure Lane.Serves (l k : Lane) : Prop where
  enabled : k.enabled = l.enabled
  direction : k.direction = l.direction
  threshold : k.threshold = l.threshold
  fill : k.fill ≤ fifoSize

theorem Lane.Follows.serves {l k : Lane} (follows : l.Follows k) (bounded : l.fill ≤ fifoSize) : l.Serves k :=
  ⟨follows.enabled, follows.direction, follows.threshold, follows.fill bounded⟩

theorem Lane.Serves.settle {l k : Lane} (serves : l.Serves k) : l.Serves k.settle := by
  have follows := k.settle_follows
  exact ⟨follows.enabled.trans serves.enabled, follows.direction.trans serves.direction,
    follows.threshold.trans serves.threshold, follows.fill serves.fill⟩

theorem State.lane_settleLane (s : State) (n k : Fin 12) (l : Lane) :
    (s.settleLane n l).lane k = if n = k then l.settle else s.lane k := State.lane_setLane s n k l.settle

/-- The mover's take at a commit (R115). -/
theorem State.laneTake_follows (s : State) (n : Fin 12) (count : Nat) (k : Fin 12) :
    (s.lane k).Follows ((s.laneTake n count).lane k) := by
  unfold State.laneTake
  rw [State.lane_settleLane]
  split_ifs with same
  · subst same
    have fewer : ((s.lane n).fifo.drop count).length ≤ (s.lane n).fifo.length := by simp
    have taken : (s.lane n).Follows { s.lane n with fifo := (s.lane n).fifo.drop count } :=
      ⟨rfl, rfl, rfl, fun h => fewer.trans h, fun _ => fewer⟩
    exact taken.trans (Lane.settle_follows _)
  · exact .refl _

/-- The mover's put at a commit, where there is room (R116). -/
theorem State.lanePut_serves {s : State} (bounded : ∀ k, (s.lane k).fill ≤ fifoSize) (n : Fin 12) {bytes : List Byte}
    (room : (s.lane n).fill + bytes.length ≤ fifoSize) (k : Fin 12) : (s.lane k).Serves ((s.lanePut n bytes).lane k) := by
  unfold State.lanePut
  rw [State.lane_settleLane]
  split_ifs with same
  · subst same
    exact Lane.Serves.settle ⟨rfl, rfl, rfl, by simpa [Lane.fill] using room⟩
  · exact ⟨rfl, rfl, rfl, bounded k⟩

theorem readBytes_length (m : Memory) (a n : Nat) : (m.readBytes a n).length = n := by
  induction n generalizing a with
  | zero => rfl
  | succ n ih => simp [Memory.readBytes, ih]

/-- A unit's end leaves the settings of every lane and overflows none. -/
theorem State.performUnit_serves {s v : State} {u : UnitInProgress} (bounded : ∀ k, (s.lane k).fill ≤ fifoSize)
    (puts : ∀ n count, u.op.puts = some (n, count) →
      count ≤ (s.lane n).room ∧ (∀ m size, u.op = .relay m n size → u.buffer.length = count) ∧
        (s.lane n).direction = .outgoing)
    (moved : s.performUnit u = .moved v) (k : Fin 12) : (s.lane k).Serves (v.lane k) := by
  have same : ∀ {t : State}, t.lanes = s.lanes → (s.lane k).Serves (t.lane k) := fun lanes => by
    rw [State.lane_congr lanes]
    exact ⟨rfl, rfl, rfl, bounded k⟩
  have roomy : ∀ {n count}, count ≤ (s.lane n).room → (s.lane n).fill + count ≤ fifoSize := by
    intro n count room
    have full := bounded n
    unfold Lane.room at room
    omega
  have write : ∀ {a bytes w}, s.writeUnit a bytes = .moved w → w.lanes = s.lanes := by
    intro a bytes w h
    unfold State.writeUnit at h
    split_ifs at h
    cases h
    rfl
  have read : ∀ {a n} {move : List Byte → State}, s.readUnit a n move = .moved v →
      ∃ bytes : List Byte, bytes.length = n ∧ v = move bytes := by
    intro a n move h
    unfold State.readUnit at h
    split_ifs at h
    dsimp only at h
    split at h <;> cases h
    exact ⟨_, by rw [List.length_map, readBytes_length], rfl⟩
  unfold State.performUnit at moved
  split at moved
  next n a size op =>
    split at moved
    next w wrote =>
      cases moved
      have taken := State.laneTake_follows w n size.bytes k
      rw [State.lane_congr (write wrote)] at taken
      exact taken.serves (bounded k)
    next other => exact absurd moved (other v)
  next n a size op =>
    obtain ⟨bytes, length, rfl⟩ := read moved
    obtain ⟨room, -, -⟩ := puts n size.bytes (by rw [op]; rfl)
    exact State.lanePut_serves bounded n (by rw [length]; exact roomy room) k
  next =>
    split_ifs at moved
    obtain ⟨bytes, -, rfl⟩ := read moved
    exact same rfl
  next n m size op =>
    cases moved
    obtain ⟨room, length, direction⟩ := puts m size.bytes (by rw [op]; rfl)
    have taken := State.laneTake_follows s n size.bytes
    have fewer := (taken m).outgoing direction
    have filled : ((s.laneTake n size.bytes).lane m).fill + u.buffer.length ≤ fifoSize := by
      rw [length n size op]
      exact (Nat.add_le_add_right fewer _).trans (roomy room)
    have put := State.lanePut_serves (fun j => (taken j).fill (bounded j)) m filled k
    have follows := taken k
    exact ⟨put.enabled.trans follows.enabled, put.direction.trans follows.direction,
      put.threshold.trans follows.threshold, put.fill⟩
  next =>
    obtain ⟨bytes, -, rfl⟩ := read moved
    refine same ?_
    unfold State.peekResult
    split
    · split <;> rfl
    · rfl
  next => exact same (write moved)

/-! ## The laws of the lanes -/

/-- The lane a unit puts its bytes into is an OUT lane in use. -/
theorem State.putFits.named {s : State} (puts : s.putFits) (laws : s.slotLaws) (fit : s.lanesFit) {u : UnitInProgress}
    (unit : s.mover.unit = some u) {n : Fin 12} {count : Nat} (op : u.op.puts = some (n, count)) :
    (s.lane n).direction = .outgoing ∧ s.laneInUse n = true := by
  obtain ⟨-, -, b, i, d, p, burst, owner, slot, named⟩ := puts u n count unit op
  have marches : s.marches i := .inl ⟨b, burst, owner⟩
  refine ⟨?_, State.inUse_of_marches laws marches (State.records_live slot) named⟩
  exact (State.laneFault_none.mp (fit i _ d p slot (.inl rfl)) _ named).2

theorem Moves.serves {s w : State} (moves : Moves s w) (laws : s.slotLaws) (h : s.lanesLawful) (k : Fin 12) :
    (s.lane k).Serves (w.lane k) := by
  obtain ⟨bounded, fit, puts⟩ := h
  cases moves with
  | intro u v _ unit moved =>
    rw [State.lane_congr (State.unitOver_lanes v)]
    refine State.performUnit_serves (fun j => (bounded j).1) (fun n count op => ?_) moved k
    obtain ⟨room, length, -⟩ := puts u n count unit op
    exact ⟨room, length, (puts.named laws fit unit op).1⟩

theorem State.resetBlocks_lane (u : State) (reason : ResetReason) (n : Fin 12) :
    (u.resetBlocks reason).lane n = Lane.atReset (u.lane n).strobe (u.lane n).ack := by
  simp [State.lane, State.resetBlocks]

/-- The fill and the threshold of every lane stay in their bounds (R109, R110). -/
theorem LaneTurn.bounded {s t : State} (turn : LaneTurn s t) (laws : s.slotLaws) (h : s.lanesLawful) : t.lanesBounded := by
  intro n
  obtain ⟨fill, low, high⟩ := h.1 n
  cases turn with
  | same lanes => rw [State.lane_congr lanes]; exact ⟨fill, low, high⟩
  | moves moves lanes =>
    have serves := moves.serves laws h n
    rw [State.lane_congr lanes, serves.threshold]
    exact ⟨serves.fill, low, high⟩
  | follows follows =>
    have serves := (follows n).serves fill
    rw [serves.threshold]
    exact ⟨serves.fill, low, high⟩
  | @setup k enabled direction threshold flush _ low' high' lanes =>
    rw [State.lane_congr lanes, State.lane_setLane]
    split_ifs with same
    · subst same
      refine ⟨?_, low', high'⟩
      unfold Lane.setup Lane.fill
      dsimp only
      split_ifs
      · exact Nat.zero_le _
      · exact fill
    · exact ⟨fill, low, high⟩
  | reset reset =>
    rw [reset, State.resetBlocks_lane]
    exact ⟨Nat.zero_le _, le_rfl, show 1 ≤ 32 by decide⟩

/-- A lane in use keeps its settings in every act but a reset. -/
theorem LaneTurn.settings {s t : State} (turn : LaneTurn s t) (laws : s.slotLaws) (h : s.lanesLawful) {n : Fin 12}
    (used : s.laneInUse n = true) :
    (t.lane n).enabled = (s.lane n).enabled ∧ (t.lane n).direction = (s.lane n).direction ∨
      ∃ u reason, t = State.resetBlocks u reason := by
  cases turn with
  | same lanes => rw [State.lane_congr lanes]; exact .inl ⟨rfl, rfl⟩
  | moves moves lanes =>
    have serves := moves.serves laws h n
    rw [State.lane_congr lanes]
    exact .inl ⟨serves.enabled, serves.direction⟩
  | follows follows => exact .inl ⟨(follows n).enabled, (follows n).direction⟩
  | @setup k _ _ _ _ free _ _ lanes =>
    left
    rw [State.lane_congr lanes, State.lane_setLane, if_neg]
    · exact ⟨rfl, rfl⟩
    · rintro rfl
      rw [used] at free
      cases free
  | @reset u reason reset => exact .inr ⟨u, reason, reset⟩

theorem State.resetBlocks_marches (u : State) (reason : ResetReason) (i : Fin 64) : ¬ (u.resetBlocks reason).marches i := by
  rintro (owns | entries)
  · exact State.owns_none rfl i owns
  · exact absurd entries (lt_irrefl 0)

theorem Act.keeps_lanesFit {a b : Point} (act : Act a b) (laws : a.state.slotLaws) (h : a.state.lanesLawful) :
    b.state.lanesFit := by
  have laws' := act.keeps_slotLaws laws
  refine (State.lanesFit_iff laws').mpr fun i d marches record => ?_
  have notReset : ¬ ∃ u reason, b.state = State.resetBlocks u reason := by
    rintro ⟨u, reason, reset⟩
    rw [reset] at marches
    exact State.resetBlocks_marches u reason i marches
  rcases act.turn.marches marches with before | ⟨⟨e, p, slot, fit⟩, lanes⟩
  · have same := (act.record_stays laws before.busy).resolve_right notReset
    have record' : a.state.records i = some d := same ▸ record
    have fit := (State.lanesFit_iff laws).mp h.2.1 i d before record'
    rw [State.laneFault_none] at fit ⊢
    intro p named
    obtain ⟨enabled, direction⟩ :=
      (act.laneTurn.settings laws h (State.inUse_of_marches laws before record' named)).resolve_right notReset
    rw [enabled, direction]
    exact fit p named
  · have busy : ¬ a.state.AtRest i := fun rest => by
      have out := rest.standing
      rw [State.standing_live slot] at out
      cases out
    have same := (act.record_stays laws busy).resolve_right notReset
    rw [same, State.records_live slot] at record
    cases record
    rw [State.laneFault_lanes lanes]
    exact fit

/-! ## The unit in progress -/

/-- What an act does to the unit in progress: there is none after it; it is the one before, of the same burst; with no
burst in hand it is as before; or it has just been begun. -/
inductive UnitTurn (s t : State) : Prop where
  | none : t.mover.unit = none → UnitTurn s t
  | same : t.mover.unit = s.mover.unit → t.sched.burst = s.sched.burst → UnitTurn s t
  | free : s.sched.burst = none → t.mover.unit = s.mover.unit → UnitTurn s t
  | slot {b i d p op buffer} : s.sched.burst = some b → b.owner = .slot i → s.slot i = .live .active d p →
      s.lanesCanMove d.transfer = true → s.nextUnit d.transfer p = some (op, buffer) → t = s.beginUnit op buffer →
      UnitTurn s t
  | link {b a} : s.sched.burst = some b → b.owner = .link → s.sched.access = some a →
      t = s.beginUnit (a.unit b.moved).1 (a.unit b.moved).2 → UnitTurn s t

theorem State.ask_unit (s : State) : s.ask.mover.unit = s.mover.unit := by
  unfold State.ask
  split <;> rfl

theorem Hands.unit {s t : State} {b : Burst} {st : Stage} (hands : Hands s b st t) : t.mover.unit = s.mover.unit := by
  cases hands with
  | waits => rfl
  | holdsGrant => rfl
  | asks => exact s.ask_unit
  | goes => rfl

theorem UnitTurn.apart {s t : State} (apart : t.apart = s.apart) : UnitTurn s t :=
  .same (congrArg Mover.unit (State.apart.mover apart)) (State.apart.burst apart)

theorem UnitTurn.gone {s t : State} (mover : t.mover = s.mover) (unit : s.mover.unit = Option.none) : UnitTurn s t :=
  .none (by rw [mover]; exact unit)

theorem UnitTurn.opened {s u t : State} (opens : Opens s u) (unit : t.mover.unit = u.mover.unit) : UnitTurn s t := by
  have kept : t.mover.unit = s.mover.unit := by rw [unit, opens.mover]
  cases opens with
  | free burst => exact .free burst kept
  | push b _ none => exact .none (kept.trans none)

theorem State.resumed_mover (s : State) (e : StackEntry) (rest : List StackEntry) : (s.resumed e rest).mover = s.mover := by
  unfold State.resumed
  cases e.owner <;> rfl

theorem State.grantGone_unit (s : State) : s.grantGone.mover.unit = s.mover.unit := by
  unfold State.grantGone
  split
  · split_ifs
    · rfl
    · exact s.lowerRequest.ask_unit
    · rfl
  · split_ifs
    · rfl
    · exact s.ask_unit
  · rfl
  · rfl

theorem Stops.unit {s w : State} (stops : Stops s w) (legal : s.moverLegal) : w.mover.unit = none := (stops.moverLoose legal).1

theorem State.faultProcessing_unit (s : State) (i : Fin 64) (f : FaultKind) :
    (s.faultProcessing i f).mover.unit = s.mover.unit :=
  congrArg _ (s.faultProcessing_mover i f)

theorem State.endProcessing_unit (s : State) (i : Fin 64) : (s.endProcessing i).mover.unit = s.mover.unit :=
  congrArg _ (s.endProcessing_mover i)

theorem State.commitProgress_unit (s : State) (i : Fin 64) (d : Descriptor) (p : Progress) (b : Burst) :
    (s.commitProgress i d p b).mover.unit = s.mover.unit :=
  congrArg _ (s.commitProgress_mover i d p b)

theorem State.answerEnded_unit (s : State) (i : Fin 64) (k : Nat) : (s.answerEnded i k).mover.unit = s.mover.unit :=
  congrArg Mover.unit (State.apart.mover (s.answerEnded_apart i k))

theorem State.cancelFaulted_unit (s : State) (i : Fin 64) : (s.cancelFaulted i).mover.unit = s.mover.unit :=
  congrArg Mover.unit (State.apart.mover (s.cancelFaulted_apart i))

theorem State.takeOut_unit (s : State) (i : Fin 64) : (s.takeOut i).mover.unit = s.mover.unit :=
  congrArg Mover.unit (State.apart.mover (s.apart_takeOut i))

theorem State.produceAnswer_unit (s : State) (payload : List Byte) :
    (s.produceAnswer payload).mover.unit = s.mover.unit :=
  congrArg _ (s.produceAnswer_mover payload)

theorem State.dropBurst_unit (s : State) : s.dropBurst.mover.unit = s.mover.unit := by
  unfold State.dropBurst
  split <;> rfl

/-- At a stage but rest the mover stands, since RESET# is high. -/
theorem Point.settled.stands {m : Mode} {st : Stage} {s : State} (settled : Point.settled ⟨m, st, s⟩)
    (stands : Point.moverStands ⟨m, st, s⟩) (moving : st ≠ .rest) : s.moverAt st := by
  refine stands ?_
  rw [← Bool.not_eq_true]
  exact fun low => moving (settled low)

theorem Act.unitTurn {a b : Point} (act : Act a b) (settled : a.settled) (stands : a.moverStands) :
    UnitTurn a.state b.state := by
  cases act with
  | idle => exact .none rfl
  | start opens _ _ _ _ hands => exact .opened opens hands.unit
  | startFaulted opens => exact .opened opens (State.faultProcessing_unit _ _ _)
  | startLink opens _ _ _ _ hands => exact .opened opens hands.unit
  | @cut m s a e rest burst =>
    refine .free burst ?_
    cases e.owner <;> rfl
  | @resume m s e rest b st t burst _ _ hands => exact .free burst (hands.unit.trans (congrArg _ (s.resumed_mover e rest)))
  | beginSlot burst owner slot can unit => exact .slot burst owner slot can unit rfl
  | beginLink burst owner access => exact .link burst owner access rfl
  | tallyEnds =>
    obtain ⟨-, -, -, unit⟩ := settled.stands stands nofun
    exact .none ((State.endProcessing_unit _ _).trans ((State.commitProgress_unit _ _ _ _ _).trans unit))
  | tallyGoesOn =>
    obtain ⟨-, -, -, unit⟩ := settled.stands stands nofun
    exact .none ((State.commitProgress_unit _ _ _ _ _).trans unit)
  | fallsShort =>
    obtain ⟨-, -, -, unit⟩ := settled.stands stands nofun
    exact .none unit
  | beginNothing =>
    obtain ⟨-, -, -, unit⟩ := settled.stands stands nofun
    exact .none unit
  | commits moves => exact .none ((State.commitProgress_unit _ _ _ _ _).trans moves.unit)
  | finishes moves =>
    exact .none ((State.answerEnded_unit _ _ _).trans
      ((State.endProcessing_unit _ _).trans ((State.commitProgress_unit _ _ _ _ _).trans moves.unit)))
  | cancels moves =>
    exact .none ((State.produceAnswer_unit _ _).trans
      ((State.takeOut_unit _ _).trans ((State.commitProgress_unit _ _ _ _ _).trans moves.unit)))
  | @fails s =>
    exact .none ((State.cancelFaulted_unit _ _).trans ((State.faultProcessing_unit _ _ _).trans s.unitOver_unit))
  | linkMoves moves => exact .none moves.unit
  | linkEnds stops => exact .none ((State.produceAnswer_unit _ _).trans (stops.unit (stands stops.high)))
  | timesOut high asking =>
    obtain ⟨-, -, -, unit, -⟩ := State.moverLegal.asking (stands high) asking
    exact .none ((State.faultProcessing_unit _ _ _).trans unit)
  | stopsIdle stops => exact .none (stops.unit (stands stops.high))
  | stopsOwnerless stops => exact .none (stops.unit (stands stops.high))
  | endsCurrent =>
    obtain ⟨-, unit, -⟩ := settled.stands stands nofun
    exact .none unit
  | asksAgain =>
    obtain ⟨-, unit, -⟩ := settled.stands stands nofun
    exact .none ((State.ask_unit _).trans unit)
  | losesOwner =>
    obtain ⟨-, unit, -⟩ := settled.stands stands nofun
    exact .none unit
  | freezes => exact .none rfl
  | losesGrant => exact .same (State.grantGone_unit _) (congrArg _ (State.grantGone_sched _))
  | event => exact .apart (State.apart_eventAt _ _)
  | unbind => exact .apart (State.apart_takeOut _ _)
  | cancelPreempted => exact .same (State.takeOut_unit _ _) (State.takeOut_burst _ _)
  | cancelActive _ _ unit => exact .none ((State.takeOut_unit _ _).trans ((State.dropBurst_unit _).trans unit))
  | skip => exact .apart (State.apart_removeHead _ _ _)
  | freezeCut => exact .none rfl
  | answers => exact .same (State.produceAnswer_unit _ _) (congrArg _ (State.produceAnswer_sched _ _))
  | @drains s r rest =>
    obtain ⟨burst, -, -⟩ := s.drainPlace_apart r rest
    refine .same ?_ burst
    cases r with
    | ended r => exact (congrArg Mover.unit (State.apart.mover (State.apart_requeue _ r)) :)
    | faulted r => rfl
  | refuses => obtain ⟨link, e⟩ := State.queueRefusal_frame _ _; rw [e]; exact .same rfl rfl
  | replays => obtain ⟨link, e⟩ := State.replay_frame _ _ _ _; rw [e]; exact .same rfl rfl
  | enters => obtain ⟨link, hand, e⟩ := State.enterOrder_frame _ _; rw [e]; exact .same rfl rfl
  | sendsAnswer => obtain ⟨link, hand, e⟩ := State.sendAnswer_frame _ _ _; rw [e]; exact .same rfl rfl
  | takesLow => exact .none rfl
  | releases => exact .none rfl
  | resetsByOrder => exact .none rfl
  | _ => exact .same rfl rfl

/-! ## The room a unit needs -/

theorem State.lane_setup_ne {s t : State} {n k : Fin 12} {l : Lane} (lanes : t.lanes = (s.setLane n l).lanes) (ne : n ≠ k) :
    t.lane k = s.lane k := by
  rw [State.lane_congr lanes, State.lane_setLane, if_neg ne]

/-- A lane in use that the mover puts into keeps its room but at the boundary of its unit. -/
theorem LaneTurn.room {s t : State} (turn : LaneTurn s t) (unit : t.mover.unit ≠ none) {n : Fin 12}
    (direction : (s.lane n).direction = .outgoing) (used : s.laneInUse n = true) : (s.lane n).room ≤ (t.lane n).room := by
  have fewer : ∀ {l k : Lane}, k.fill ≤ l.fill → l.room ≤ k.room := by
    intro l k fill
    unfold Lane.room
    omega
  cases turn with
  | same lanes => rw [State.lane_congr lanes]
  | moves _ _ none => exact absurd none unit
  | follows follows => exact fewer ((follows n).outgoing direction)
  | setup free _ _ lanes =>
    rw [State.lane_setup_ne lanes]
    rintro rfl
    rw [used] at free
    cases free
  | reset reset => rw [reset] at unit; exact absurd rfl unit

/-- The unit that a descriptor's burst begins puts its bytes into its to-lane. -/
theorem State.nextUnit_puts {s : State} {t : Transfer} {p : Progress} {op : UnitOp} {buffer : List Byte}
    (next : s.nextUnit t p = some (op, buffer)) (can : s.lanesCanMove t = true) {n : Fin 12} {count : Nat}
    (puts : op.puts = some (n, count)) :
    count ≤ (s.lane n).room ∧ (∀ m size, op = .relay m n size → buffer.length = count) ∧
      (n, Direction.outgoing) ∈ t.lanes := by
  have movable := List.all_eq_true.mp can
  unfold State.nextUnit at next
  split at next <;> cases next
  case h_1 => cases puts
  case h_2 u _ k a =>
    cases puts
    have room := of_decide_eq_true (movable (n, .outgoing) (by simp [Transfer.lanes]))
    exact ⟨by simpa [Transfer.unitBytes, Transfer.unit?] using room, nofun, by simp [Transfer.lanes]⟩
  case h_3 => cases puts
  case h_4 u _ k m =>
    cases puts
    have room := of_decide_eq_true (movable (n, .outgoing) (by simp [Transfer.lanes]))
    have full := of_decide_eq_true (movable (k, .incoming) (by simp [Transfer.lanes]))
    refine ⟨by simpa [Transfer.unitBytes, Transfer.unit?] using room, fun m size same => ?_,
      by simp [Transfer.lanes]⟩
    have enough : u.bytes ≤ (s.lane k).fill := by simpa [Transfer.unitBytes, Transfer.unit?] using full
    rw [List.length_take]
    exact min_eq_left enough

theorem Act.keeps_putFits {a b : Point} (act : Act a b) (laws : a.state.slotLaws) (settled : a.settled)
    (stands : a.moverStands) (h : a.state.lanesLawful) : b.state.putFits := by
  obtain ⟨-, fit, puts⟩ := h
  have laws' := act.keeps_slotLaws laws
  intro u n count unit op
  cases act.unitTurn settled stands with
  | none gone => rw [gone] at unit; cases unit
  | same kept burst =>
    have before : a.state.mover.unit = some u := kept ▸ unit
    obtain ⟨room, length, c, i, d, p, hand, owner, slot, named⟩ := puts u n count before op
    obtain ⟨direction, used⟩ := puts.named laws fit before op
    have wider := act.laneTurn.room (by rw [unit]; nofun) direction used
    refine ⟨room.trans wider, length, c, i, ?_⟩
    have hand' : b.state.sched.burst = some c := burst.trans hand
    obtain ⟨d', p', slot'⟩ := laws'.owner_active hand' owner
    have marches : a.state.marches i := .inl ⟨c, hand, owner⟩
    rcases act.record_stays laws marches.busy with same | ⟨v, reason, reset⟩
    · rw [State.records_live slot', State.records_live slot] at same
      cases same
      exact ⟨d, p', hand', owner, slot', named⟩
    · rw [reset] at hand'
      cases hand'
  | free none kept =>
    obtain ⟨-, -, c, -, -, -, hand, -⟩ := puts u n count (kept ▸ unit) op
    rw [none] at hand
    cases hand
  | @slot c i d p op' buffer hand owner slot can next begun =>
    rw [begun] at unit ⊢
    cases unit
    obtain ⟨room, length, named⟩ := State.nextUnit_puts next can op
    exact ⟨room, length, c, i, d, p, hand, owner, slot, named⟩
  | @link c access hand owner some begun =>
    rw [begun] at unit
    cases unit
    unfold LinkAccess.unit at op
    split at op <;> cases op

/-- Settles O60: with the slot laws and the mover's table, every act keeps the lanes lawful. -/
theorem lanesNeverOverflow : Obligations.LanesNeverOverflow := by
  intro s t laws legal lanes next
  let holds (p : Point) : Prop := p.state.slotLaws ∧ p.settled ∧ p.moverStands ∧ p.state.lanesLawful
  have kept : ∀ {a b : Point}, Act a b → holds a → holds b := fun act ⟨laws, settled, stands, lanes⟩ =>
    ⟨act.keeps_slotLaws laws, act.keeps_settled settled, act.keeps_moverStands stands,
      act.laneTurn.bounded laws lanes, act.keeps_lanesFit laws lanes, act.keeps_putFits laws settled stands lanes⟩
  have first : holds ⟨.plain, .rest, s⟩ := ⟨laws, fun _ => rfl, legal, lanes⟩
  obtain ⟨-, -, -, lawful⟩ := step_keeps (I := holds) kept next first
  exact lawful

end Sys2Proof.Machine
end

