-- ==== Sys2Proof/Proofs/WalkAddresses.lean ====
section
/-! The addresses of a walk: unit k of a walk that lies inside the memory is where its start, unit size and direction put
it, and the progress record holds the address of the unit after the committed ones (R7, R9, R10, R19). -/

namespace Sys2Proof.Machine

/-! ## One side -/

/-- The address of unit k, as a number (R7). -/
def Side.unitPlace (sd : Side) (unit k : Nat) : Nat :=
  match sd.walk with
  | .ascend => sd.start.toNat + k * unit
  | .descend => sd.start.toNat - k * unit
  | .hold => sd.start.toNat

/-- The unit of a walk inside the memory lies inside it, at the place its number gives, and as aligned as the start. -/
theorem Side.unitAddress_inside {sd : Side} {total unit size k : Nat} (inside : sd.inside total unit size = true)
    (small : size ≤ 2 ^ 20) (within : k < total) :
    (sd.unitAddress unit k).toNat = sd.unitPlace unit k ∧ sd.unitPlace unit k + unit ≤ size ∧
      (sd.unitPlace unit k) % unit = sd.start.toNat % unit := by
  have width := sd.start.isLt
  unfold Side.inside at inside
  unfold Side.unitAddress Side.unitPlace
  cases walk : sd.walk with
  | ascend =>
    simp only [walk, decide_eq_true_eq] at inside ⊢
    have reach : k * unit + unit ≤ total * unit := by
      rw [← Nat.succ_mul]
      exact Nat.mul_le_mul_right unit within
    refine ⟨?_, by omega, Nat.add_mul_mod_self_right ..⟩
    rw [BitVec.toNat_add, BitVec.toNat_ofNat]
    omega
  | descend =>
    simp only [walk, Bool.and_eq_true, decide_eq_true_eq] at inside ⊢
    obtain ⟨low, high⟩ := inside
    have reach : k * unit ≤ sd.start.toNat := le_trans (Nat.mul_le_mul_right unit (by omega)) low
    refine ⟨?_, by omega, ?_⟩
    · rw [BitVec.toNat_sub, BitVec.toNat_ofNat]
      omega
    · rw [Nat.mul_comm] at reach ⊢
      exact Nat.sub_mul_mod reach
  | hold =>
    simp only [walk, decide_eq_true_eq] at inside
    exact ⟨rfl, inside, rfl⟩

@[simp] theorem Side.unitAddress_zero (sd : Side) (unit : Nat) : sd.unitAddress unit 0 = sd.start := by
  unfold Side.unitAddress
  split <;> simp

/-- The step of a commit goes from one unit to the next (R10). -/
theorem Side.step_unitAddress (sd : Side) (unit k : Nat) :
    sd.walk.step unit (sd.unitAddress unit k) = sd.unitAddress unit (k + 1) := by
  have next : BitVec.ofNat 24 ((k + 1) * unit) = BitVec.ofNat 24 (k * unit) + BitVec.ofNat 24 unit := by
    rw [Nat.succ_mul, BitVec.ofNat_add]
  unfold Side.unitAddress Walk.step
  cases sd.walk with
  | ascend => rw [next, BitVec.add_assoc]
  | descend =>
    rw [next]
    bv_omega
  | hold => rfl

/-- The next address of a side after some commits: absent where the side is (R9, R10). -/
theorem stepSide_unitAddress (side : Option Side) (unit k : Nat) :
    stepSide side unit (side.map fun sd => sd.unitAddress unit k) = side.map fun sd => sd.unitAddress unit (k + 1) := by
  cases side with
  | none => rfl
  | some sd => exact congrArg some (sd.step_unitAddress unit k)

/-! ## A record and its progress -/

/-- The next addresses are those of the unit after the committed ones. -/
structure Descriptor.Reaches (d : Descriptor) (p : Progress) : Prop where
  nextA : p.nextA = d.transfer.sideA?.map fun sd => sd.unitAddress d.transfer.unitBytes p.committed
  nextB : p.nextB = d.transfer.sideB?.map fun sd => sd.unitAddress d.transfer.unitBytes p.committed

theorem Descriptor.reaches_fresh (d : Descriptor) (f : Option FaultKind) : d.Reaches (d.freshProgress f) := by
  constructor <;> simp only [Descriptor.freshProgress, Side.unitAddress_zero]

theorem Descriptor.Reaches.commit {d : Descriptor} {p : Progress} (h : d.Reaches p) : d.Reaches (d.commit p) := by
  constructor
  · simp only [Descriptor.commit, h.nextA, stepSide_unitAddress]
  · simp only [Descriptor.commit, h.nextB, stepSide_unitAddress]

/-- The progress after k commits of an arming (R10). -/
theorem Descriptor.commit_iterate (d : Descriptor) (f : Option FaultKind) (k : Nat) :
    ((d.commit)^[k] (d.freshProgress f)).remaining = d.total - k ∧
      ((d.commit)^[k] (d.freshProgress f)).committed = k ∧ d.Reaches ((d.commit)^[k] (d.freshProgress f)) := by
  induction k with
  | zero => exact ⟨rfl, rfl, d.reaches_fresh f⟩
  | succ k ih =>
    obtain ⟨remaining, committed, reaches⟩ := ih
    rw [Function.iterate_succ_apply']
    refine ⟨?_, congrArg Nat.succ committed, reaches.commit⟩
    simp only [Descriptor.commit, remaining]
    omega

/-- A side of a record's transfer, with its part of the progress. -/
inductive Descriptor.Has (d : Descriptor) (p : Progress) (sd : Side) : Option Addr → Prop where
  | sideA : d.transfer.sideA? = some sd → Has d p sd p.nextA
  | sideB : d.transfer.sideB? = some sd → Has d p sd p.nextB

theorem Descriptor.Has.inside {d : Descriptor} {p : Progress} {sd : Side} {next : Option Addr} (has : d.Has p sd next)
    {size : Nat} (inside : d.inside size = true) : sd.inside d.total d.transfer.unitBytes size = true := by
  unfold Descriptor.inside at inside
  rw [Bool.and_eq_true] at inside
  obtain ⟨insideA, insideB⟩ := inside
  cases has with
  | sideA side => rw [side] at insideA; exact insideA
  | sideB side => rw [side] at insideB; exact insideB

theorem Descriptor.Has.aligned {d : Descriptor} {p : Progress} {sd : Side} {next : Option Addr} (has : d.Has p sd next)
    (aligned : d.transfer.aligned = true) : sd.start.toNat % d.transfer.unitBytes = 0 := by
  unfold Transfer.aligned at aligned
  rw [Bool.and_eq_true] at aligned
  obtain ⟨alignedA, alignedB⟩ := aligned
  cases has with
  | sideA side => rw [side] at alignedA; simpa using alignedA
  | sideB side => rw [side] at alignedB; simpa using alignedB

theorem Descriptor.Has.next {d : Descriptor} {p : Progress} {sd : Side} {next : Option Addr} (has : d.Has p sd next)
    (reaches : d.Reaches p) : next = some (sd.unitAddress d.transfer.unitBytes p.committed) := by
  cases has with
  | sideA side => rw [reaches.nextA, side]; rfl
  | sideB side => rw [reaches.nextB, side]; rfl

/-- While units remain, the next unit of each side lies aligned inside the memory (R7, R18, R19). -/
theorem Descriptor.Has.unit {d : Descriptor} {p : Progress} {sd : Side} {next : Option Addr} (has : d.Has p sd next)
    (reaches : d.Reaches p) {size : Nat} (inside : d.inside size = true) (aligned : d.transfer.aligned = true)
    (small : size ≤ 2 ^ 20) (left : p.committed < d.total) :
    ∃ a : Addr, next = some a ∧ a.toNat = sd.unitPlace d.transfer.unitBytes p.committed ∧
      a.toNat % d.transfer.unitBytes = 0 ∧ a.toNat + d.transfer.unitBytes ≤ size := by
  obtain ⟨place, within, start⟩ := Side.unitAddress_inside (has.inside inside) small left
  refine ⟨_, has.next reaches, place, ?_, place ▸ within⟩
  rw [place, start]
  exact has.aligned aligned

/-- What the place of a unit says of its address, as the data book gives it (R7). -/
theorem Side.unitPlace_walk {sd : Side} {unit k : Nat} {a : Addr} (place : a.toNat = sd.unitPlace unit k) :
    match sd.walk with
    | .ascend => a.toNat = sd.start.toNat + k * unit
    | .descend => a.toNat = sd.start.toNat - k * unit
    | .hold => a = sd.start := by
  unfold Side.unitPlace at place
  split <;> rename_i walk <;> rw [walk] at place
  · exact place
  · exact place
  · exact BitVec.eq_of_toNat_eq place

end Sys2Proof.Machine
end

