-- ==== Sys2Proof/Proofs/WalksPlaced.lean ====
section
/-! Every act leaves the walks of the records inside the memory, and the next addresses of every slot where its committed
units put them (R9, R10, R19). -/

namespace Sys2Proof.Machine

/-! ## The records' walks -/

/-- The walks of every record lie aligned inside the memory (R18, R19). -/
def State.walksInside (s : State) : Prop :=
  ∀ i d, s.records i = some d → d.inside s.memorySize = true ∧ d.transfer.aligned = true

theorem Act.keeps_walksInside {a b : Point} (act : Act a b) (h : a.state.walksInside) : b.state.walksInside := by
  have kept : ∀ i d, b.state.records i = some d → d.inside a.state.memorySize = true ∧ d.transfer.aligned = true := by
    rcases act.records with same | rewrites
    · rw [same]; exact h
    · exact rewrites.keeps h fun r d _ aligned inside => ⟨inside, aligned⟩
  rcases act.settings with same | ⟨-, same | ⟨u, reason, reset⟩⟩
  · rw [State.walksInside, State.memorySize, same]; exact kept
  · rw [State.walksInside, State.memorySize, same]; exact kept
  · intro i d record
    rw [reset, State.resetBlocks_records] at record
    cases record

/-! ## The next addresses -/

/-- The next addresses of every slot are those of the unit after its committed ones (R10). -/
def State.reaches (s : State) : Prop := ∀ i d p, s.content i = some (d, p) → d.Reaches p

theorem State.walksPlaced_iff {s : State} : s.walksPlaced ↔ s.walksInside ∧ s.reaches := by
  constructor
  · intro h
    refine ⟨fun i d record => ?_, fun i d p content => ?_⟩
    · obtain ⟨st, p, slot⟩ := Slot.record?_eq_some.mp record
      obtain ⟨inside, aligned, -⟩ := h i st d p slot
      exact ⟨inside, aligned⟩
    · cases slot : s.slot i with
      | free => simp [State.content, slot, Slot.content] at content
      | live st e q =>
        rw [State.content_live slot] at content
        cases content
        obtain ⟨-, -, nextA, nextB⟩ := h i st d p slot
        exact ⟨nextA, nextB⟩
  · intro ⟨inside, reaches⟩ i st d p slot
    obtain ⟨within, aligned⟩ := inside i d (State.records_live slot)
    obtain ⟨nextA, nextB⟩ := reaches i d p (State.content_live slot)
    exact ⟨within, aligned, nextA, nextB⟩

section
variable {s t : State}

theorem State.reaches_congr (content : ∀ i, t.content i = s.content i) (h : s.reaches) : t.reaches :=
  fun i d p held => h i d p (content i ▸ held)

theorem Agrees.reaches (agrees : Agrees s t) (h : s.reaches) : t.reaches :=
  State.reaches_congr (fun i => (State.slot_views (agrees.slot i)).2.2.2) h

variable (h : s.reaches)
include h

theorem State.reaches.of_slot {i : Fin 64} {st : LiveState} {d : Descriptor} {p : Progress} (slot : s.slot i = .live st d p) :
    d.Reaches p := h i d p (State.content_live slot)

theorem State.reaches.setSlot {i : Fin 64} {v : Slot} (new : ∀ d p, v.content = some (d, p) → d.Reaches p) :
    (s.setSlot i v).reaches := by
  intro j d p held
  rw [State.content_setSlot] at held
  split_ifs at held
  · exact new d p held
  · exact h j d p held

theorem State.reaches.setLive {i : Fin 64} {st : LiveState} {d : Descriptor} {p : Progress} (reaches : d.Reaches p) :
    (s.setSlot i (.live st d p)).reaches :=
  h.setSlot fun e q held => by cases held; exact reaches

theorem State.reaches.setState (i : Fin 64) (st : LiveState) : (s.setState i st).reaches :=
  State.reaches_congr (s.content_setState i · st) h

theorem State.reaches.promoteHead (q : Fin 28) : (s.promoteHead q).reaches := by
  obtain ⟨-, -, -, content⟩ := s.promoteHead_views q
  exact State.reaches_congr content h

theorem State.reaches.removeHead (q : Fin 28) (st : LiveState) : (s.removeHead q st).reaches := by
  unfold State.removeHead
  split
  · exact h
  · exact State.reaches.promoteHead (State.reaches.setState (s := s.setQueue q _) h _ _) q

theorem State.reaches.moveHeadToTail (q : Fin 28) : (s.moveHeadToTail q).reaches := by
  unfold State.moveHeadToTail
  split
  · exact h
  · exact State.reaches.promoteHead (State.reaches.setState (s := s.setQueue q _) h _ _) q

theorem State.reaches.takeOut (i : Fin 64) : (s.takeOut i).reaches := by
  unfold State.takeOut
  split
  · exact h
  · split_ifs
    · exact h.removeHead _ _
    · exact State.reaches.setState (s := s.setQueue _ _) h _ _

theorem State.reaches.recirculate (i : Fin 64) : (s.recirculate i).reaches := by
  unfold State.recirculate
  split
  · exact h.setLive (Descriptor.reaches_fresh _ _)
  · exact h

theorem State.reaches.requeue (e : EndRecord) : (s.requeue e).reaches := by
  unfold State.requeue
  split_ifs
  · exact (h.recirculate _).moveHeadToTail _
  · exact h.removeHead _ _

theorem State.reaches.placed (r : Record) : (s.placed r).reaches := by
  cases r with
  | ended e => exact (State.agrees_fireEndAction _ _).reaches (h.requeue e)
  | faulted => exact h

theorem State.reaches.endProcessing (i : Fin 64) : (s.endProcessing i).reaches := by
  unfold State.endProcessing
  split
  · exact h
  next st d p slot =>
    have cleared : ((s.clearBurst).clearMiss (s.sourceOf i)).reaches := h
    dsimp only
    split_ifs
    · exact State.reaches.placed (s := (s.clearBurst.clearMiss _).place _) cleared _
    · exact cleared.setState i .held

theorem State.reaches.faultProcessing (i : Fin 64) (f : FaultKind) : (s.faultProcessing i f).reaches := by
  unfold State.faultProcessing
  split
  · exact h
  next st d p slot =>
    have reaches : d.Reaches { p with lastFault := some f } := ⟨(h.of_slot slot).nextA, (h.of_slot slot).nextB⟩
    have faulted : ((s.clearBurst).setSlot i (.live .faulted d { p with lastFault := some f })).reaches :=
      State.reaches.setLive (s := s.clearBurst) h reaches
    dsimp only
    split_ifs <;> exact faulted

theorem State.reaches.commitProgress {i : Fin 64} {st : LiveState} {d : Descriptor} {p : Progress}
    (slot : s.slot i = .live st d p) (b : Burst) : (s.commitProgress i d p b).reaches := by
  have committed : (s.setSlot i (.live .active d (d.commit p))).reaches := h.setLive (h.of_slot slot).commit
  unfold State.commitProgress
  dsimp only
  split_ifs
  · exact (State.agrees_consume _ _).reaches committed
  · exact committed

theorem State.reaches.cancelFaulted (i : Fin 64) : (s.cancelFaulted i).reaches := by
  unfold State.cancelFaulted
  split_ifs
  · exact (State.agrees_produceAnswer _ _).reaches (h.takeOut i)
  · exact h

theorem State.reaches.unowned (st : LiveState) (o : Owner) : (s.unowned st o).reaches := by
  cases o with
  | slot i => exact h.setState i st
  | link => exact h

theorem State.reaches.drainPlace (r : Record) (rest : List Record) : (s.drainPlace r rest).reaches := by
  have noted : ((s.setNotes { s.notes with waiting := rest }).place (.report r)).reaches := h
  cases r with
  | ended e => exact noted.requeue e
  | faulted => exact noted

theorem Opens.reaches (opens : Opens s t) : t.reaches := by
  cases opens with
  | free => exact h
  | push b =>
    unfold State.push
    cases b.owner with
    | slot i => exact h.setState i .preempted
    | link => exact h

theorem Opens.reaches_begun {i : Fin 64} {d : Descriptor} {p : Progress} (opens : Opens s t)
    (slot : s.slot i = .live .current d p) : (t.begun i d p).reaches :=
  State.reaches.setLive (s := t) (opens.reaches h) (h.of_slot slot)

end

theorem State.resetBlocks_reaches (u : State) (reason : ResetReason) : (u.resetBlocks reason).reaches := by
  intro i d p content
  simp [State.content, State.resetBlocks_slot, Slot.content] at content

theorem Act.keeps_reaches {a b : Point} (act : Act a b) (h : a.state.reaches) : b.state.reaches := by
  cases act with
  | start opens slot _ _ _ hands => exact hands.agrees.reaches (opens.reaches_begun h slot)
  | startFaulted opens slot =>
    exact State.reaches.faultProcessing (s := State.lowerRequest _) (opens.reaches_begun h slot) _ _
  | startLink opens _ _ _ _ hands =>
    have opened := opens.reaches h
    exact hands.agrees.reaches opened
  | cut => exact h.unowned _ _
  | resume _ _ _ hands => exact hands.agrees.reaches (h.unowned _ _)
  | @tallyEnds m s b i d p _ _ slot => exact (State.reaches.commitProgress (s := s.goes .moving) h slot b).endProcessing i
  | @tallyGoesOn m s b i d p _ _ slot =>
    exact State.reaches.setState (s := State.clearBurst _) (State.reaches.commitProgress (s := s.goes .moving) h slot b) i _
  | @fallsShort m s => exact State.reaches.setState (s := (s.goes .moving).clearBurst) h _ _
  | commits moves _ _ slot => exact (moves.agrees.reaches h).commitProgress slot _
  | finishes moves _ _ slot =>
    exact (State.agrees_answerEnded _ _ _).reaches (((moves.agrees.reaches h).commitProgress slot _).endProcessing _)
  | cancels moves _ _ slot =>
    exact (State.agrees_produceAnswer _ _).reaches
      (State.reaches.takeOut (s := State.clearBurst _) ((moves.agrees.reaches h).commitProgress slot _) _)
  | fails high unit failed =>
    exact (((Stops.failed _ _ high unit failed).agrees.reaches h).faultProcessing _ _).cancelFaulted _
  | linkMoves moves => exact moves.agrees.reaches h
  | @linkEnds s w b a payload stops =>
    exact (State.agrees_produceAnswer _ _).reaches (s := (w.setAccess none).setBurst none) (stops.agrees.reaches h)
  | @timesOut s => exact State.reaches.faultProcessing (s := s.lowerRequest) h _ _
  | stopsIdle stops => exact stops.agrees.reaches h
  | stopsOwnerless stops => exact stops.agrees.reaches h
  | @endsCurrent s => exact State.reaches.setState (s := s.clearBurst) h _ _
  | asksAgain => exact (State.agrees_ask _).reaches h
  | @freezes s => exact (State.agrees_produceAnswer _ _).reaches (s := s.setFreeze .frozen) h
  | @losesGrant s => exact (State.agrees_grantGone _).reaches (s := (s.seeGrant false).settleRequest) h
  | event => exact (State.agrees_eventAt _ _).reaches h
  | define => exact h.setLive (Descriptor.reaches_fresh _ _)
  | rearm => exact h.setLive (Descriptor.reaches_fresh _ _)
  | release => exact h.setSlot nofun
  | @bind m s i q => exact State.reaches.setState (s := s.setQueue q _) h _ _
  | unbind => exact h.takeOut _
  | @cancelPreempted m s i => exact State.reaches.takeOut (s := s.unstack i) h _
  | cancelActive => exact ((State.dropBurst_agrees _).reaches (s := State.clearBurst _) h).takeOut _
  | retry slot => exact h.setLive ⟨(h.of_slot slot).nextA, (h.of_slot slot).nextB⟩
  | skip => exact h.removeHead _ _
  | @freezeCut m s => exact State.reaches.setState (s := s.clearBurst) h _ _
  | answers => exact (State.agrees_produceAnswer _ _).reaches h
  | drains => exact h.drainPlace _ _
  | refuses => obtain ⟨link, e⟩ := State.queueRefusal_frame _ _; rw [e]; exact h
  | replays => obtain ⟨link, e⟩ := State.replay_frame _ _ _ _; rw [e]; exact h
  | enters => obtain ⟨link, hand, e⟩ := State.enterOrder_frame _ _; rw [e]; exact h
  | sendsAnswer => obtain ⟨link, hand, e⟩ := State.sendAnswer_frame _ _ _; rw [e]; exact h
  | @takesLow s =>
    obtain ⟨mover, mem, count, e⟩ := s.abandonUnit_frame
    simp only [State.takeLow, e]
    exact h
  | releases => exact State.resetBlocks_reaches _ _
  | resetsByOrder => exact State.resetBlocks_reaches _ _
  | _ => exact h

theorem Act.keeps_walksPlaced {a b : Point} (act : Act a b) (h : a.state.walksPlaced) : b.state.walksPlaced := by
  obtain ⟨inside, reaches⟩ := State.walksPlaced_iff.mp h
  exact State.walksPlaced_iff.mpr ⟨act.keeps_walksInside inside, act.keeps_reaches reaches⟩

end Sys2Proof.Machine
end

