-- ==== Sys2Proof/Proofs/LinkPlaces.lean ====
section
/-! The link access stands in one place, as a candidate, with its burst in hand or with its entry on the stack (R60,
R68). -/

namespace Sys2Proof.Machine

/-- The places of a link access, and what its burst and its stack entry have left to move. -/
structure LinkPlaced (size : Nat) (burst : Option Burst) (stack : List StackEntry) (access : Option LinkAccess) : Prop where
  places : (if access.any LinkAccess.candidate then 1 else 0) + (if burst.any (fun b => b.owner = .link) then 1 else 0) +
    stack.countP (fun e => e.owner = .link) = if access.isSome then 1 else 0
  within : ∀ a, access = some a → 1 ≤ a.kind.length ∧ a.start.toNat + a.kind.length ≤ size
  hand : ∀ b, burst = some b → b.owner = .link → ∃ a, access = some a ∧ b.block = a.kind.length ∧ b.moved < a.kind.length
  below : ∀ e ∈ stack, e.owner = .link → ∃ a, access = some a ∧ e.moved < a.kind.length

abbrev State.linkPlaced (s : State) (size : Nat) : Prop := LinkPlaced size s.sched.burst s.sched.stack s.sched.access

theorem State.accessPlaced_iff {s : State} : s.accessPlaced ↔ s.linkPlaced s.memorySize :=
  ⟨fun ⟨places, within, hand, below⟩ => ⟨places, within, hand, below⟩,
    fun ⟨places, within, hand, below⟩ => ⟨places, within, hand, below⟩⟩

/-! ## Changes of burst, stack and access -/

section
variable {size : Nat} {burst : Option Burst} {stack : List StackEntry} {access : Option LinkAccess}

theorem LinkPlaced.empty : LinkPlaced size none [] none := ⟨rfl, nofun, nofun, nofun⟩

/-- A burst in hand that is no link access's. -/
def Burst.ofSlot (burst : Option Burst) : Prop := ∀ b ∈ burst, b.owner ≠ .link

theorem Burst.ofSlot_none : Burst.ofSlot none := nofun

theorem Burst.ofSlot_owner {b : Burst} {i : Fin 64} (owner : b.owner = .slot i) : Burst.ofSlot (some b) := by
  intro c hc link
  cases hc
  rw [owner] at link
  cases link

theorem Burst.ofSlot.any (h : Burst.ofSlot burst) : burst.any (fun b => b.owner = .link) = false := by
  cases burst with
  | none => rfl
  | some b => simpa using h b rfl

variable (h : LinkPlaced size burst stack access)
include h

theorem LinkPlaced.slot {next : Option Burst} (old : Burst.ofSlot burst) (new : Burst.ofSlot next) :
    LinkPlaced size next stack access := by
  refine ⟨?_, h.within, fun b hb link => absurd link (new b hb), h.below⟩
  rw [new.any, ← h.places, old.any]

/-- The bytes a PEEK gathers leave its place and its length. -/
theorem LinkPlaced.gather (bytes : List Byte) : LinkPlaced size burst stack (access.map (·.gather bytes)) := by
  cases access with
  | none => exact h
  | some a =>
    refine ⟨?_, ?_, ?_, ?_⟩
    · have places := h.places
      simp only [Option.any_some, Option.isSome_some, Option.map_some, LinkAccess.gather_candidate] at places ⊢
      exact places
    · rintro c ⟨⟩
      rw [LinkAccess.gather_length, LinkAccess.gather_start]
      exact h.within a rfl
    · intro b hb link
      obtain ⟨c, ⟨⟩, block, moved⟩ := h.hand b hb link
      exact ⟨_, rfl, by rw [LinkAccess.gather_length]; exact block, by rw [LinkAccess.gather_length]; exact moved⟩
    · intro e he link
      obtain ⟨c, ⟨⟩, moved⟩ := h.below e he link
      exact ⟨_, rfl, by rw [LinkAccess.gather_length]; exact moved⟩

/-- The burst in hand is set aside on the stack (R74). -/
theorem LinkPlaced.push {b : Burst} (hand : burst = some b) :
    LinkPlaced size none ({ owner := b.owner, level := b.level, moved := b.moved } :: stack) access := by
  subst hand
  refine ⟨?_, h.within, nofun, ?_⟩
  · have places := h.places
    simp only [List.countP_cons, Option.any_some, Option.any_none] at places ⊢
    simp only [Bool.false_eq_true, if_false]
    omega
  · intro e he link
    rcases List.mem_cons.mp he with rfl | he
    · obtain ⟨a, some, -, moved⟩ := h.hand b rfl link
      exact ⟨a, some, moved⟩
    · exact h.below e he link

/-- An entry of a descriptor leaves the stack (R64, R76). -/
theorem LinkPlaced.drops {rest : List StackEntry} (sub : rest.Sublist stack)
    (count : rest.countP (fun e => e.owner = .link) = stack.countP fun e => e.owner = .link) :
    LinkPlaced size burst rest access :=
  ⟨count ▸ h.places, h.within, h.hand, fun e he => h.below e (sub.subset he)⟩

/-- A link access that is a candidate stands nowhere else. -/
theorem LinkPlaced.candidate {a : LinkAccess} (held : access = some a) (candidate : a.candidate = true) :
    burst.any (fun b => b.owner = .link) = false ∧ stack.countP (fun e => e.owner = .link) = 0 := by
  subst held
  have places := h.places
  simp only [Option.any_some, candidate, Option.isSome_some, if_true] at places
  refine ⟨?_, by omega⟩
  by_contra hand
  rw [if_pos (by simpa using hand)] at places
  omega

/-- A link access whose burst is in hand stands nowhere else. -/
theorem LinkPlaced.inHand {b : Burst} (hand : burst = some b) (owner : b.owner = .link) :
    access.any LinkAccess.candidate = false ∧ stack.countP (fun e => e.owner = .link) = 0 := by
  obtain ⟨a, rfl, -⟩ := h.hand b hand owner
  subst hand
  have places := h.places
  simp only [Option.any_some, Option.isSome_some, owner, decide_true, if_true] at places
  refine ⟨?_, by omega⟩
  by_contra candidate
  rw [if_pos (by simpa using candidate)] at places
  omega

/-- The link access starts: its burst is in hand (R68). -/
theorem LinkPlaced.starts {a : LinkAccess} (held : access = some a) (candidate : a.candidate = true) :
    LinkPlaced size (some { owner := .link, level := a.level, moved := 0, block := a.kind.length }) stack
      (some { a with candidate := false }) := by
  obtain ⟨-, none⟩ := h.candidate held candidate
  subst held
  refine ⟨by simp [none], ?_, ?_, ?_⟩
  · rintro c ⟨⟩
    exact h.within a rfl
  · rintro b ⟨⟩ -
    exact ⟨_, rfl, rfl, (h.within a rfl).1⟩
  · intro e he link
    obtain ⟨c, ⟨⟩, moved⟩ := h.below e he link
    exact ⟨_, rfl, moved⟩

/-- The link access ends: it stands nowhere (R106). -/
theorem LinkPlaced.ends {b : Burst} (hand : burst = some b) (owner : b.owner = .link) : LinkPlaced size none stack none := by
  obtain ⟨-, none⟩ := h.inHand hand owner
  refine ⟨by simp [none], nofun, nofun, fun e he link => ?_⟩
  have absent := List.countP_eq_zero.mp none e he
  exact absurd link (by simpa using absent)

/-- A link access is opened, a candidate, while there is none (R60, R104, R105). -/
theorem LinkPlaced.opens {a : LinkAccess} (none : access = none) (candidate : a.candidate = true)
    (length : 1 ≤ a.kind.length) (within : a.start.toNat + a.kind.length ≤ size) :
    LinkPlaced size burst stack (some a) := by
  subst none
  have places := h.places
  simp only [Option.any_none, Option.isSome_none] at places
  refine ⟨?_, ?_, ?_, ?_⟩
  · simp only [Option.any_some, candidate, Option.isSome_some]
    simp only [Bool.false_eq_true, if_false, Nat.zero_add] at places
    omega
  · rintro c ⟨⟩
    exact ⟨length, within⟩
  · intro b hb link
    obtain ⟨c, ⟨⟩, -⟩ := h.hand b hb link
  · intro e he link
    obtain ⟨c, ⟨⟩, -⟩ := h.below e he link

/-- The burst of the link access moves a byte that is not its last (R104, R105). -/
theorem LinkPlaced.moves {b : Burst} (hand : burst = some b) (left : b.moved + 1 < b.block) :
    LinkPlaced size (some { b with moved := b.moved + 1 }) stack access := by
  subst hand
  refine ⟨h.places, h.within, ?_, h.below⟩
  rintro c ⟨⟩ link
  obtain ⟨a, some, block, -⟩ := h.hand b rfl link
  exact ⟨a, some, block, block ▸ left⟩

/-- The top of the stack is resumed (R76). -/
theorem LinkPlaced.resumes {e : StackEntry} {rest : List StackEntry} {b : Burst} (free : burst = none)
    (top : stack = e :: rest) (owner : b.owner = e.owner) (moved : b.moved = e.moved)
    (block : ∀ a, access = some a → e.owner = .link → b.block = a.kind.length) :
    LinkPlaced size (some b) rest access := by
  subst free top
  refine ⟨?_, h.within, ?_, fun f hf => h.below f (List.mem_cons_of_mem _ hf)⟩
  · have places := h.places
    simp only [List.countP_cons, Option.any_some, Option.any_none, owner] at places ⊢
    simp only [Bool.false_eq_true, if_false] at places
    omega
  · rintro c ⟨⟩ link
    obtain ⟨a, some, left⟩ := h.below e (List.mem_cons_self ..) (owner ▸ link)
    exact ⟨a, some, block a some (owner ▸ link), moved ▸ left⟩

end

/-! ## Pieces of the acts -/

section
variable {s t : State} {size : Nat} (h : s.linkPlaced size)
include h

theorem State.linkPlaced.same (burst : t.sched.burst = s.sched.burst) (stack : t.sched.stack = s.sched.stack)
    (access : t.sched.access = s.sched.access) : t.linkPlaced size := by
  unfold State.linkPlaced
  rw [burst, stack, access]
  exact h

theorem State.linkPlaced.apart (apart : t.apart = s.apart) : t.linkPlaced size :=
  h.same (State.apart.burst apart) (State.apart.stack apart) (State.apart.access apart)

theorem State.linkPlaced.sched (sched : t.sched = s.sched) : t.linkPlaced size :=
  h.same (congrArg _ sched) (congrArg _ sched) (congrArg _ sched)

theorem Moves.linkPlaced (moves : Moves s t) : t.linkPlaced size := by
  obtain ⟨bytes, access⟩ := moves.access
  unfold State.linkPlaced
  rw [moves.burst, moves.stack, access]
  exact LinkPlaced.gather h bytes

theorem Stops.linkPlaced (stops : Stops s t) : t.linkPlaced size := by
  cases stops with
  | moved moves => exact moves.linkPlaced h
  | failed => exact h.sched (State.unitOver_sched _)
  | timeout => exact h

theorem Opens.linkPlaced (opens : Opens s t) : t.linkPlaced size := by
  cases opens with
  | free => exact h
  | push b burst =>
    have pushed := LinkPlaced.push h burst
    unfold State.push
    dsimp only
    split <;> exact pushed

/-- The burst of a descriptor is gone from the hand. -/
theorem State.linkPlaced.drops {b : Burst} {i : Fin 64} (burst : s.sched.burst = some b) (owner : b.owner = .slot i)
    (gone : t.sched.burst = none) (stack : t.sched.stack = s.sched.stack) (access : t.sched.access = s.sched.access) :
    t.linkPlaced size := by
  unfold State.linkPlaced
  rw [gone, stack, access]
  exact LinkPlaced.slot h (by rw [burst]; exact Burst.ofSlot_owner owner) Burst.ofSlot_none

/-- The burst that begins nothing is a descriptor's: a link access in hand is there. -/
theorem State.linkPlaced.ownerless {b : Burst} (burst : s.sched.burst = some b) (ownerless : s.ownerless b) :
    ∃ i, b.owner = .slot i := by
  unfold State.ownerless at ownerless
  cases owner : b.owner with
  | slot i => exact ⟨i, rfl⟩
  | link =>
    rw [owner] at ownerless
    obtain ⟨a, some, -⟩ := h.hand b burst owner
    rw [some] at ownerless
    cases ownerless

theorem State.linkPlaced.loses {b : Burst} (burst : s.sched.burst = some b) (ownerless : s.ownerless b) :
    s.clearBurst.linkPlaced size := by
  obtain ⟨i, owner⟩ := State.linkPlaced.ownerless h burst ownerless
  exact h.drops burst owner rfl rfl rfl

/-- A commit leaves the burst its descriptor's (R88). -/
theorem State.linkPlaced.commits {b : Burst} {i : Fin 64} (burst : s.sched.burst = some b) (owner : b.owner = .slot i)
    (d : Descriptor) (p : Progress) : (s.commitProgress i d p b).linkPlaced size := by
  unfold State.linkPlaced
  rw [State.commitProgress_burst, State.commitProgress_stack, State.commitProgress_access]
  exact LinkPlaced.slot h (by rw [burst]; exact Burst.ofSlot_owner owner) (Burst.ofSlot_owner (i := i) owner)

end

/-- The unstacking of a slot leaves the entries of the link access. -/
theorem State.unstack_links (s : State) (i : Fin 64) :
    (s.unstack i).sched.stack.countP (fun e => e.owner = .link) = s.sched.stack.countP fun e => e.owner = .link := by
  unfold State.unstack
  simp only [State.setStack_sched_stack, List.countP_filter]
  refine List.countP_congr fun e _ => ?_
  cases owner : e.owner <;> simp

theorem State.resumed_sched (s : State) (e : StackEntry) (rest : List StackEntry) :
    (s.resumed e rest).sched.stack = rest ∧ (s.resumed e rest).sched.access = s.sched.access ∧
      (s.resumed e rest).sched.burst =
        some { owner := e.owner, level := e.level, moved := e.moved, block := s.blockOf e.owner } :=
  ⟨rfl, s.unowned_access .active e.owner, rfl⟩

theorem Act.keeps_linkPlaced {a b : Point} (act : Act a b) (laws : a.state.slotLaws)
    (quiet : a.mode ≠ .plain → a.state.sched.access = none) (h : a.state.linkPlaced a.state.memorySize) :
    b.state.linkPlaced a.state.memorySize := by
  cases act with
  | @start m s u i d p b st t o opens _ _ _ _ hands =>
    refine State.linkPlaced.sched (s := u.begun i d p) ?_ hands.sched
    refine LinkPlaced.slot (opens.linkPlaced h) ?_ (Burst.ofSlot_owner (i := i) rfl)
    rw [opens.burst]
    exact Burst.ofSlot_none
  | @startFaulted m s u i d p f o opens =>
    have opened := opens.linkPlaced h
    have gone := opened.same (t := u) rfl rfl rfl
    refine State.linkPlaced.same gone ?_ ?_ ?_
    · exact (State.faultProcessing_burst _ _ _).trans opens.burst.symm
    · exact State.faultProcessing_stack _ _ _
    · exact State.faultProcessing_access _ _ _
  | @startLink m s u a b st t o opens access candidate _ _ hands =>
    exact State.linkPlaced.sched (s := u.begunLink a)
      (LinkPlaced.starts (opens.linkPlaced h) (opens.access.trans access) candidate) hands.sched
  | @cut m s a e rest burst access candidate stack =>
    obtain ⟨-, none⟩ := LinkPlaced.candidate h access candidate
    have sub : rest.Sublist s.sched.stack := stack ▸ List.sublist_cons_self e rest
    have rest' : rest.countP (fun e => e.owner = .link) = 0 := Nat.le_zero.mp (none ▸ sub.countP_le)
    have dropped : State.linkPlaced (s.setStack rest) s.memorySize := LinkPlaced.drops h sub (rest'.trans none.symm)
    have sched := s.unowned_sched .current e.owner
    exact dropped.same (congrArg Scheduler.burst sched :) rfl (congrArg Scheduler.access sched :)
  | @resume m s e rest b st t burst stack _ hands =>
    obtain ⟨stack', access', burst'⟩ := s.resumed_sched e rest
    refine State.linkPlaced.sched (s := s.resumed e rest) ?_ hands.sched
    unfold State.linkPlaced
    rw [stack', access', burst']
    refine LinkPlaced.resumes h burst stack rfl rfl fun a access link => ?_
    have held : s.sched.access = some a := access
    simp only [State.blockOf, link, held, Option.map_some, Option.getD_some]
  | @tallyEnds m s b i d p burst owner slot =>
    have committed := State.linkPlaced.commits (s := s.goes .moving) h burst owner d p
    exact committed.drops (State.commitProgress_burst _ _ _ _ _) owner (State.endProcessing_burst _ _)
      (State.endProcessing_stack _ _) (State.endProcessing_access _ _)
  | @tallyGoesOn m s b i d p burst owner slot =>
    have committed := State.linkPlaced.commits (s := s.goes .moving) h burst owner d p
    exact committed.drops (State.commitProgress_burst _ _ _ _ _) owner rfl rfl rfl
  | fallsShort burst owner => exact h.drops burst owner rfl rfl rfl
  | beginNothing burst ownerless => exact h.loses burst ownerless
  | commits moves burst owner => exact (moves.linkPlaced h).commits burst owner _ _
  | @finishes s w b i d p moves burst owner =>
    have ended := ((moves.linkPlaced h).commits burst owner d p).drops (State.commitProgress_burst _ _ _ _ _) owner
      (State.endProcessing_burst _ i) (State.endProcessing_stack _ _) (State.endProcessing_access _ _)
    exact ended.apart (State.answerEnded_apart _ _ _)
  | @cancels s w b i d p payload moves burst owner =>
    have dropped := ((moves.linkPlaced h).commits burst owner d p).drops (t := State.clearBurst _)
      (State.commitProgress_burst _ _ _ _ _) owner rfl rfl rfl
    exact (dropped.apart (State.apart_takeOut _ _)).sched (State.produceAnswer_sched _ _)
  | @fails s u a b i high unit failed burst owner =>
    have stopped := (Stops.failed u a high unit failed).linkPlaced h
    have faulted := stopped.drops ((congrArg _ s.unitOver_sched).trans burst) owner
      (State.faultProcessing_burst _ i (.parity a)) (State.faultProcessing_stack _ _ _) (State.faultProcessing_access _ _ _)
    exact faulted.apart (State.cancelFaulted_apart _ _)
  | linkMoves moves burst _ _ left => exact LinkPlaced.moves (moves.linkPlaced h) burst left
  | @linkEnds s w b a payload stops burst owner =>
    have ended := LinkPlaced.ends (stops.linkPlaced h) burst owner
    exact State.linkPlaced.sched (s := (w.setAccess none).setBurst none) ended (State.produceAnswer_sched _ _)
  | @timesOut s b i _ _ burst owner =>
    exact State.linkPlaced.drops (s := s.lowerRequest) h burst owner (State.faultProcessing_burst _ _ _)
      (State.faultProcessing_stack _ _ _) (State.faultProcessing_access _ _ _)
  | stopsIdle stops => exact stops.linkPlaced h
  | stopsOwnerless stops burst ownerless => exact (stops.linkPlaced h).loses burst ownerless
  | endsCurrent burst owner => exact h.drops burst owner rfl rfl rfl
  | asksAgain => exact h.sched (State.ask_sched _)
  | losesOwner burst ownerless => exact h.loses burst ownerless
  | @freezes s payload =>
    exact State.linkPlaced.sched (s := s.setFreeze .frozen) h (State.produceAnswer_sched (s.setFreeze .frozen) payload)
  | losesGrant => exact h.sched (State.grantGone_sched _)
  | event => exact h.apart (State.apart_eventAt _ _)
  | unbind => exact h.apart (State.apart_takeOut _ _)
  | @cancelPreempted m s i =>
    have unstacked : (s.unstack i).linkPlaced s.memorySize := LinkPlaced.drops h List.filter_sublist (s.unstack_links i)
    exact unstacked.apart (State.apart_takeOut _ _)
  | @cancelActive m s i d p _ slot =>
    obtain ⟨b, burst, owner⟩ := laws.active_owner slot
    have dropped := h.drops (t := s.dropBurst) burst owner (by simp) (by simp) (by simp)
    exact dropped.apart (State.apart_takeOut _ _)
  | skip => exact h.apart (State.apart_removeHead _ _ _)
  | freezeCut _ burst owner => exact h.drops burst owner rfl rfl rfl
  | @opensAccess s start kind length within =>
    refine LinkPlaced.opens h (quiet nofun) rfl length ?_
    rw [BitVec.toNat_ofNat]
    exact le_trans (Nat.add_le_add_right (Nat.mod_le start _) _) within
  | answers => exact h.sched (State.produceAnswer_sched _ _)
  | @drains s r rest =>
    obtain ⟨burst, stack, access⟩ := s.drainPlace_apart r rest
    exact h.same burst stack access
  | refuses => obtain ⟨link, e⟩ := State.queueRefusal_frame _ _; rw [e]; exact h
  | replays => obtain ⟨link, e⟩ := State.replay_frame _ _ _ _; rw [e]; exact h
  | enters => obtain ⟨link, hand, e⟩ := State.enterOrder_frame _ _; rw [e]; exact h
  | sendsAnswer => obtain ⟨link, hand, e⟩ := State.sendAnswer_frame _ _ _; rw [e]; exact h
  | @takesLow s =>
    obtain ⟨mover, mem, count, e⟩ := s.abandonUnit_frame
    simp only [State.takeLow, e]
    exact h
  | releases => exact LinkPlaced.empty
  | resetsByOrder => exact LinkPlaced.empty
  | _ => exact h

theorem Act.keeps_accessPlaced {a b : Point} (act : Act a b) (laws : a.state.slotLaws)
    (quiet : a.mode ≠ .plain → a.state.sched.access = none) (h : a.state.accessPlaced) : b.state.accessPlaced := by
  have kept := act.keeps_linkPlaced laws quiet (State.accessPlaced_iff.mp h)
  refine State.accessPlaced_iff.mpr ?_
  rcases act.settings with same | ⟨-, same | ⟨u, reason, reset⟩⟩
  · rw [State.memorySize, same]; exact kept
  · rw [State.memorySize, same]; exact kept
  · rw [reset]; exact LinkPlaced.empty

end Sys2Proof.Machine
end

