-- ==== Sys2Proof/Proofs/HeldOrders.lean ====
section
/-! What holds the order in hand is what the part is doing for it, at every point between acts (R68, R79, R138, R178). -/

namespace Sys2Proof.Machine

/-! ## The order in hand -/

/-- What holds the order in hand, but for a CANCEL, is what the part is doing for it. -/
def State.handFits (s : State) : Prop :=
  match s.inHand with
  | none => s.sched.access = none ∧ s.sched.freeze ≠ .freezing
  | some h =>
    (s.sched.access ≠ none ↔ h.task = .linkAccess) ∧ (s.sched.freeze = .freezing ↔ h.task = .freeze) ∧
      (h.waiting ≠ none → h.task = .carriedOut ∨ h.task = .resetPart) ∧ (h.task = .carriedOut → h.waiting ≠ none)

/-- No CANCEL waits but one whose slot owns the burst in hand, with its unit in progress (R138). -/
def State.cancelStands (s : State) : Prop := ∀ i, s.cancelWaits i = true → s.owns i ∧ s.mover.unit ≠ none

def State.uncancelled (s : State) : Prop := ∀ i, s.cancelWaits i = false

/-- No link access is there and no FREEZE waits. -/
def State.unheld (s : State) : Prop := s.sched.access = none ∧ s.sched.freeze ≠ .freezing

/-- An order is being carried out, so nothing holds it and nothing is being done for one before it. -/
def State.carries (s : State) : Prop :=
  s.unheld ∧ ∃ h, s.inHand = some h ∧ (h.task = .carriedOut ∨ h.task = .resetPart) ∧ h.waiting = none

def State.handFitsIn (s : State) : Mode → Prop
  | .plain => s.handFits
  | .order | .drain => s.carries

abbrev Point.handFits (p : Point) : Prop := p.state.handFitsIn p.mode

theorem State.cancelWaits_iff {s : State} {i : Fin 64} :
    s.cancelWaits i = true ↔ ∃ h, s.inHand = some h ∧ h.task = .cancel i := by
  unfold State.cancelWaits
  cases s.inHand <;> simp

theorem State.holdsMatch_iff {s : State} (laws : s.slotLaws) : s.holdsMatch ↔ s.handFits ∧ s.cancelStands := by
  have active : ∀ i, s.inState i .active = true ↔ s.owns i := by
    obtain ⟨-, -, -, active, -⟩ := laws
    exact active
  unfold State.holdsMatch State.handFits State.cancelStands
  simp only [State.cancelWaits_iff, active]
  cases s.inHand with
  | none => simp
  | some h =>
    simp only [Option.some_inj, exists_eq_left']
    constructor
    · rintro ⟨access, freeze, waiting, carried, cancel⟩
      exact ⟨⟨access, freeze, waiting, carried⟩, cancel⟩
    · rintro ⟨⟨access, freeze, waiting, carried⟩, cancel⟩
      exact ⟨access, freeze, waiting, carried, cancel⟩

theorem State.handFits_hand {s : State} {h : OrderInHand} (hand : s.inHand = some h)
    (access : s.sched.access ≠ none ↔ h.task = .linkAccess) (freeze : s.sched.freeze = .freezing ↔ h.task = .freeze)
    (task : h.task ≠ .carriedOut) (waiting : h.waiting = none) : s.handFits := by
  unfold State.handFits
  rw [hand]
  exact ⟨access, freeze, (absurd waiting ·), (absurd · task)⟩

/-- A CANCEL or an answer that waits leaves no link access and no FREEZE. -/
theorem State.handFits.unheld {s : State} (fits : s.handFits) {h : OrderInHand} (hand : s.inHand = some h)
    (access : h.task ≠ .linkAccess) (freeze : h.task ≠ .freeze) : s.unheld := by
  unfold State.handFits at fits
  rw [hand] at fits
  obtain ⟨accesses, freezes, -⟩ := fits
  exact ⟨by_contra fun some => access (accesses.mp some), fun freezing => freeze (freezes.mp freezing)⟩

theorem State.handFits.unheld_cancel {s : State} (fits : s.handFits) {i : Fin 64} (waits : s.cancelWaits i = true) :
    s.unheld := by
  obtain ⟨h, hand, task⟩ := State.cancelWaits_iff.mp waits
  exact fits.unheld hand (by rw [task]; nofun) (by rw [task]; nofun)

/-- A link access leaves no FREEZE. -/
theorem State.handFits.thawed {s : State} (fits : s.handFits) (access : s.sched.access ≠ none) :
    s.sched.freeze ≠ .freezing := by
  unfold State.handFits at fits
  split at fits
  · exact absurd fits.1 access
  · obtain ⟨accesses, freezes, -⟩ := fits
    intro freezing
    have task := accesses.mp access
    rw [freezes.mp freezing] at task
    cases task

/-! ## Taking, answering and holding -/

theorem State.takeNext_handFits {s : State} (fits : s.handFits) : s.takeNext.handFits := by
  unfold State.takeNext
  split
  next n order none _ =>
    unfold State.handFits at fits
    rw [none] at fits
    obtain ⟨access, freeze⟩ := fits
    exact ⟨iff_of_false (absurd access ·) nofun, iff_of_false freeze nofun, (absurd rfl ·), nofun⟩
  · exact fits

theorem State.placeAnswer_handFits {s : State} (unheld : s.unheld) (h : OrderInHand) (payload : List Byte) :
    (s.placeAnswer h payload).handFits := by
  obtain ⟨access, freeze⟩ := unheld
  refine State.takeNext_handFits ?_
  unfold State.handFits
  by_cases reset : h.task = .resetPart
  · simp [reset, access, freeze]
  · simp [reset, access, freeze]

theorem Task.produced_waits (t : Task) : t.produced = .carriedOut ∨ t.produced = .resetPart := by
  cases t <;> simp [Task.produced]

theorem State.produceAnswer_handFits {s : State} (unheld : s.unheld) (payload : List Byte) :
    (s.produceAnswer payload).handFits := by
  unfold State.produceAnswer
  split
  next none =>
    unfold State.handFits
    rw [none]
    exact unheld
  next h hand =>
    split_ifs
    · exact State.placeAnswer_handFits unheld h payload
    · obtain ⟨access, freeze⟩ := unheld
      have produced := h.task.produced_waits
      refine ⟨iff_of_false (absurd access ·) ?_, iff_of_false freeze ?_, fun _ => produced, nofun⟩
      all_goals
        intro task
        dsimp only at task
        rw [task] at produced
        rcases produced with e | e <;> cases e

theorem State.uncancelled_congr {s t : State} (hand : t.inHand = s.inHand) (h : s.uncancelled) : t.uncancelled := by
  intro i
  rw [State.cancelWaits, hand]
  exact h i

theorem State.uncancelled_of_task {s : State} {h : OrderInHand} (hand : s.inHand = some h)
    (task : ∀ i, h.task ≠ .cancel i) : s.uncancelled := by
  intro i
  rw [State.cancelWaits, hand]
  simpa using task i

theorem State.uncancelled_of_none {s : State} (hand : s.inHand = none) : s.uncancelled := by
  intro i
  rw [State.cancelWaits, hand]

theorem State.takeNext_uncancelled {s : State} (h : s.uncancelled) : s.takeNext.uncancelled := by
  unfold State.takeNext
  split
  · exact State.uncancelled_of_task rfl nofun
  · exact h

theorem State.placeAnswer_uncancelled (s : State) (h : OrderInHand) (payload : List Byte) :
    (s.placeAnswer h payload).uncancelled := by
  refine State.takeNext_uncancelled ?_
  by_cases reset : h.task = .resetPart
  · exact State.uncancelled_of_task (if_pos reset) (by simp [reset])
  · exact State.uncancelled_of_none (if_neg reset)

theorem State.produceAnswer_uncancelled (s : State) (payload : List Byte) : (s.produceAnswer payload).uncancelled := by
  unfold State.produceAnswer
  split
  next none => exact State.uncancelled_of_none none
  next h _ =>
    split_ifs
    · exact s.placeAnswer_uncancelled h payload
    · refine State.uncancelled_of_task rfl fun i task => ?_
      dsimp only at task
      have produced := h.task.produced_waits
      rw [task] at produced
      rcases produced with e | e <;> cases e

theorem State.uncancelled.stands {s : State} (h : s.uncancelled) : s.cancelStands := by
  intro i waits
  rw [h i] at waits
  cases waits

theorem State.cancelStands.uncancelled {s : State} (h : s.cancelStands) (gone : s.mover.unit = none ∨ s.sched.burst = none) :
    s.uncancelled := by
  intro i
  by_contra waits
  obtain ⟨⟨b, burst, -⟩, unit⟩ := h i (by simpa using waits)
  rcases gone with none | none
  · exact unit none
  · rw [none] at burst
    cases burst

theorem State.cancelStands_congr {s t : State} (hand : t.inHand = s.inHand) (burst : t.sched.burst = s.sched.burst)
    (unit : t.mover.unit = s.mover.unit) (h : s.cancelStands) : t.cancelStands := by
  intro i waits
  rw [State.cancelWaits, hand] at waits
  rw [State.owns, burst, unit]
  exact h i waits

theorem State.carries.uncancelled {s : State} (h : s.carries) : s.uncancelled := by
  obtain ⟨-, o, hand, task, -⟩ := h
  refine State.uncancelled_of_task hand fun i e => ?_
  rw [e] at task
  rcases task with task | task <;> cases task

/-- The order being carried out is held for a task. -/
theorem State.carries.hold {s : State} (h : s.carries) (task : Task) :
    ∃ o, (s.hold task).inHand = some o ∧ o.task = task ∧ o.waiting = none := by
  obtain ⟨-, o, hand, -, waiting⟩ := h
  exact ⟨{ o with task := task }, by rw [State.hold, hand]; rfl, rfl, waiting⟩

/-! ## What the law sees -/

/-- The order in hand, whether there is a link access, and whether a FREEZE waits. -/
def State.holding (s : State) := (s.inHand, s.sched.access.isSome, decide (s.sched.freeze = .freezing))

theorem State.holding_of {s t : State} (hand : t.inHand = s.inHand) (access : t.sched.access.isSome = s.sched.access.isSome)
    (freeze : t.sched.freeze = .freezing ↔ s.sched.freeze = .freezing) : t.holding = s.holding := by
  simp only [State.holding, hand, access, freeze]

theorem State.holding_still {s t : State} (still : t.still = s.still) (sched : t.sched.access = s.sched.access)
    (freeze : t.sched.freeze = s.sched.freeze) : t.holding = s.holding :=
  State.holding_of (State.still.inHand still) (by rw [sched]) (by rw [freeze])

theorem State.holding_aloof {s t : State} (still : t.still = s.still) (aloof : t.aloof = s.aloof) : t.holding = s.holding :=
  State.holding_still still (State.aloof.access aloof) (State.aloof.freeze aloof)

theorem State.holding_apart {s t : State} (still : t.still = s.still) (apart : t.apart = s.apart) : t.holding = s.holding :=
  State.holding_aloof still (State.apart.aloof apart)

section
variable {s t : State} (h : t.holding = s.holding)
include h

theorem State.holding.inHand : t.inHand = s.inHand := congrArg Prod.fst h

theorem State.holding.access : t.sched.access = none ↔ s.sched.access = none := by
  have same : t.sched.access.isSome = s.sched.access.isSome := congrArg (·.2.1) h
  rw [← Option.not_isSome_iff_eq_none, ← Option.not_isSome_iff_eq_none, same]

theorem State.holding.freeze : t.sched.freeze = .freezing ↔ s.sched.freeze = .freezing := by
  have same : decide (t.sched.freeze = .freezing) = decide (s.sched.freeze = .freezing) := congrArg (·.2.2) h
  exact decide_eq_decide.mp same

theorem State.holding.handFits (fits : s.handFits) : t.handFits := by
  unfold State.handFits at fits ⊢
  simp only [State.holding.inHand h, ne_eq, State.holding.access h, State.holding.freeze h]
  exact fits

theorem State.holding.unheld (unheld : s.unheld) : t.unheld := by
  unfold State.unheld at unheld ⊢
  rw [State.holding.access h, ne_eq, State.holding.freeze h]
  exact unheld

theorem State.holding.carries (carries : s.carries) : t.carries :=
  ⟨State.holding.unheld h carries.1, by rw [State.holding.inHand h]; exact carries.2⟩

theorem State.holding.point {m : Mode} (fits : s.handFitsIn m) : t.handFitsIn m := by
  cases m with
  | plain => exact State.holding.handFits h fits
  | order => exact State.holding.carries h fits
  | drain => exact State.holding.carries h fits

end

/-! ## What the pieces of the acts hold -/

theorem Opens.holding {s u : State} (opens : Opens s u) : u.holding = s.holding := by
  refine State.holding_still opens.still opens.access ?_
  cases opens with
  | free => rfl
  | push b => unfold State.push; dsimp only; split <;> rfl

theorem Hands.holding {s t : State} {b : Burst} {st : Stage} (hands : Hands s b st t) : t.holding = s.holding :=
  State.holding_still hands.still hands.access (congrArg _ hands.sched)

theorem Moves.holding {s w : State} (moves : Moves s w) : w.holding = s.holding := by
  refine State.holding_of ?_ ?_ ?_
  · obtain ⟨lanes, mem, access, mover, rfl⟩ := moves.frame
    rfl
  · obtain ⟨bytes, access⟩ := moves.access
    rw [access, Option.isSome_map]
  · obtain ⟨access, sched⟩ := moves.sched
    rw [sched]

theorem Stops.holding {s w : State} (stops : Stops s w) : w.holding = s.holding := by
  cases stops with
  | moved moves => exact moves.holding
  | failed =>
    have sched := s.unitOver_sched
    obtain ⟨m, e⟩ := s.unitOver_frame
    exact State.holding_of (by rw [e]; rfl) (by rw [sched]) (by rw [sched])
  | timeout => rfl

theorem State.commitProgress_holding (s : State) (i : Fin 64) (d : Descriptor) (p : Progress) (b : Burst) :
    (s.commitProgress i d p b).holding = s.holding :=
  State.holding_aloof (State.still_commitProgress _ _ _ _ _) (State.aloof_commitProgress _ _ _ _ _)

theorem State.endProcessing_holding (s : State) (i : Fin 64) : (s.endProcessing i).holding = s.holding :=
  State.holding_aloof (State.still_endProcessing _ _) (State.aloof_endProcessing _ _)

theorem State.faultProcessing_holding (s : State) (i : Fin 64) (f : FaultKind) :
    (s.faultProcessing i f).holding = s.holding :=
  State.holding_aloof (State.still_faultProcessing _ _ _) (State.aloof_faultProcessing _ _ _)

theorem State.takeOut_holding (s : State) (i : Fin 64) : (s.takeOut i).holding = s.holding :=
  State.holding_apart (State.still_takeOut _ _) (State.apart_takeOut _ _)

theorem State.dropBurst_holding (s : State) : s.dropBurst.holding = s.holding :=
  State.holding_still s.still_dropBurst (by simp) (by simp)

theorem State.grantGone_holding (s : State) : s.grantGone.holding = s.holding := by
  have sched := s.grantGone_sched
  refine State.holding_of ?_ (by rw [sched]) (by rw [sched])
  have asks : ∀ t : State, t.ask.inHand = t.inHand := fun t => State.still.inHand t.still_ask
  unfold State.grantGone
  split
  · split_ifs
    · rfl
    · exact asks _
    · rfl
  · split_ifs
    · rfl
    · exact asks _
  · rfl
  · rfl

theorem State.drainPlace_holding (s : State) (r : Record) (rest : List Record) :
    (s.drainPlace r rest).holding = s.holding := by
  refine State.holding_still (s.still_drainPlace r rest) (s.drainPlace_apart r rest).2.2 ?_
  cases r with
  | ended e => exact (State.apart.freeze (State.apart_requeue _ e) :)
  | faulted => rfl

theorem State.setFreeze_holding {s : State} {f : Freeze} (old : s.sched.freeze ≠ .freezing) (new : f ≠ .freezing) :
    (s.setFreeze f).holding = s.holding :=
  State.holding_of rfl rfl (iff_of_false new old)

theorem State.answerEnded_handFits {s : State} (fits : s.handFits) (i : Fin 64) (k : Nat) : (s.answerEnded i k).handFits := by
  unfold State.answerEnded
  split_ifs with waits
  · exact State.produceAnswer_handFits (fits.unheld_cancel waits) _
  · exact fits

theorem State.cancelFaulted_handFits {s : State} (fits : s.handFits) (i : Fin 64) : (s.cancelFaulted i).handFits := by
  unfold State.cancelFaulted
  split_ifs with waits
  · exact State.produceAnswer_handFits (State.holding.unheld (s.takeOut_holding i) (fits.unheld_cancel waits)) _
  · exact fits

theorem State.sendAnswer_handFits {s : State} (fits : s.handFits) (a : Answer) (rest : List Answer) :
    (s.sendAnswer a rest).handFits := by
  have cleared : (State.clearQueuedMark { s with link := { s.link with answers := rest, tx := some a.frame } }
      a.number).holding = s.holding := by
    unfold State.clearQueuedMark
    split <;> rfl
  have fits' := State.holding.handFits cleared fits
  unfold State.sendAnswer State.placeWaiting
  split
  next h hand =>
    split
    next payload waiting =>
      have waits : h.task = .carriedOut ∨ h.task = .resetPart := by
        unfold State.handFits at fits'
        rw [hand] at fits'
        obtain ⟨-, -, waits, -⟩ := fits'
        exact waits (by rw [waiting]; nofun)
      refine State.placeAnswer_handFits (fits'.unheld hand ?_ ?_) h payload
      all_goals
        intro task
        rw [task] at waits
        rcases waits with e | e <;> cases e
    · exact fits'
  · exact fits'

/-! ## Every act -/

theorem Act.keeps_handFits {a b : Point} (act : Act a b) (high : b.state.resetLow = false) (h : a.handFits) :
    b.handFits := by
  cases act with
  | @start m s u i d p b st t o opens _ _ _ _ hands =>
    exact State.holding.point (hands.holding.trans opens.holding :) h
  | @startFaulted m s u i d p f o opens =>
    exact State.holding.point ((State.faultProcessing_holding (u.begun i d p).lowerRequest i f).trans opens.holding :) h
  | @startLink m s u a b st t o opens access _ _ _ hands =>
    refine State.holding.point ?_ h
    have begun : (u.begunLink a).holding = s.holding := by
      refine State.holding_of (State.still.inHand opens.still) ?_ (State.holding.freeze opens.holding :)
      rw [access]
      rfl
    exact hands.holding.trans begun
  | @cut m s a e rest =>
    have sched := s.unowned_sched .current e.owner
    have cut : (s.unowned .current e.owner).holding = s.holding :=
      State.holding_still (State.still_unowned _ _ _) (congrArg _ sched) (congrArg _ sched)
    exact State.holding.point (t := (s.unowned .current e.owner).setStack rest) cut h
  | @resume m s e rest b st t _ _ _ hands =>
    have sched := s.unowned_sched .active e.owner
    exact State.holding.point (hands.holding.trans (State.holding_still (State.still_resumed _ _ _)
      (congrArg Scheduler.access sched :) (congrArg Scheduler.freeze sched :))) h
  | @tallyEnds m s b i d p =>
    exact State.holding.point
      ((State.endProcessing_holding _ i).trans (State.commitProgress_holding (s.goes .moving) i d p b) :) h
  | @tallyGoesOn m s b i d p =>
    exact State.holding.point (State.commitProgress_holding (s.goes .moving) i d p b :) h
  | commits moves => exact State.holding.point ((State.commitProgress_holding _ _ _ _ _).trans moves.holding) h
  | finishes moves =>
    refine State.answerEnded_handFits (State.holding.handFits (s := _) ?_ h) _ _
    exact (State.endProcessing_holding _ _).trans ((State.commitProgress_holding _ _ _ _ _).trans moves.holding)
  | @cancels s w b i d p payload moves _ _ _ _ waits =>
    have fits := State.holding.handFits moves.holding h
    refine State.produceAnswer_handFits (State.holding.unheld ?_ (fits.unheld_cancel waits)) payload
    exact (State.takeOut_holding _ _).trans (State.commitProgress_holding w i d p b)
  | @fails s u a b i running unit failed =>
    refine State.cancelFaulted_handFits (State.holding.handFits ?_ h) i
    exact (State.faultProcessing_holding _ _ _).trans (Stops.failed u a running unit failed).holding
  | linkMoves moves => exact State.holding.handFits (moves.holding :) h
  | @linkEnds s w b a payload stops _ _ access =>
    have fits := State.holding.handFits stops.holding h
    exact State.produceAnswer_handFits (s := (w.setAccess none).setBurst none)
      ⟨rfl, fits.thawed (by rw [access]; nofun)⟩ payload
  | timesOut => exact State.holding.handFits (State.faultProcessing_holding _ _ _) h
  | stopsIdle stops => exact State.holding.handFits stops.holding h
  | @stopsOwnerless s w b stops => exact State.holding.handFits (stops.holding :) h
  | asksAgain =>
    exact State.holding.handFits
      (State.holding_still (State.still_ask _) (congrArg _ (State.ask_sched _)) (congrArg _ (State.ask_sched _))) h
  | @freezes s payload freezing =>
    have fits : s.handFits := h
    have none : s.sched.access = none := by_contra fun some => fits.thawed some freezing
    have frozen : (s.setFreeze .frozen).unheld := ⟨none, nofun⟩
    exact State.holding.handFits (s := (s.setFreeze .frozen).produceAnswer payload) rfl
      (State.produceAnswer_handFits frozen payload)
  | losesGrant => exact State.holding.handFits (State.grantGone_holding _) h
  | event => exact State.holding.point (State.holding_apart (State.still_eventAt _ _) (State.apart_eventAt _ _)) h
  | unbind => exact State.holding.point (State.takeOut_holding _ _) h
  | @cancelPreempted m s i => exact State.holding.point (State.takeOut_holding (s.unstack i) i :) h
  | cancelActive => exact State.holding.point ((State.takeOut_holding _ _).trans (State.dropBurst_holding _)) h
  | skip => exact State.holding.point (State.holding_apart (State.still_removeHead _ _ _) (State.apart_removeHead _ _ _)) h
  | @freezeNow m s running =>
    have thawed : s.sched.freeze ≠ .freezing := by rw [running]; nofun
    exact State.holding.point (State.setFreeze_holding (f := .frozen) thawed nofun) h
  | @freezeCut m s b i running =>
    have thawed : s.sched.freeze ≠ .freezing := by rw [running]; nofun
    have same : (s.endCurrent i).lowerRequest.rest.holding = s.holding := rfl
    exact State.holding.point ((State.setFreeze_holding (s := (s.endCurrent i).lowerRequest.rest) (f := .frozen) thawed nofun).trans same) h
  | @thaw m s frozen =>
    have thawed : s.sched.freeze ≠ .freezing := by rw [frozen]; nofun
    exact State.holding.point (State.setFreeze_holding (f := .running) thawed nofun) h
  | @holdsFreeze s =>
    have carries : s.carries := h
    obtain ⟨o, hand, task, waiting⟩ := State.carries.hold carries .freeze
    obtain ⟨⟨access, -⟩, -⟩ := carries
    exact State.handFits_hand (s := (s.setFreeze .freezing).hold .freeze) hand
      (iff_of_false (absurd access ·) (by rw [task]; nofun)) (iff_of_true rfl task) (by rw [task]; nofun) waiting
  | @keepsFreeze s freezing =>
    have carries : s.carries := h
    obtain ⟨⟨-, thawed⟩, -⟩ := carries
    exact absurd freezing thawed
  | @holdsCancel s i =>
    have carries : s.carries := h
    obtain ⟨o, hand, task, waiting⟩ := State.carries.hold carries (.cancel i)
    obtain ⟨⟨access, thawed⟩, -⟩ := carries
    exact State.handFits_hand hand (iff_of_false (absurd access ·) (by rw [task]; nofun))
      (iff_of_false thawed (by rw [task]; nofun)) (by rw [task]; nofun) waiting
  | @holdsReset s =>
    have carries : s.carries := h
    obtain ⟨o, hand, task, waiting⟩ := State.carries.hold carries .resetPart
    exact ⟨carries.1, o, hand, .inr task, waiting⟩
  | @opensAccess s start kind =>
    have carries : s.carries := h
    obtain ⟨o, hand, task, waiting⟩ := State.carries.hold carries .linkAccess
    obtain ⟨⟨-, thawed⟩, -⟩ := carries
    exact State.handFits_hand (s := (s.hold .linkAccess).setAccess _) hand (iff_of_true nofun task)
      (iff_of_false thawed (by rw [task]; nofun)) (by rw [task]; nofun) waiting
  | @takes s n order turn =>
    have fits : s.handFits := h
    obtain ⟨-, waiting, hand⟩ := (State.orderInTurn_iff _ _ _).mp turn
    exact ⟨fits.unheld hand nofun nofun, _, rfl, .inl rfl, rfl⟩
  | answers =>
    have carries : State.carries _ := h
    exact State.produceAnswer_handFits carries.1 _
  | drains => exact State.holding.point (State.drainPlace_holding _ _ _) h
  | drained => exact h
  | refuses => obtain ⟨link, e⟩ := State.queueRefusal_frame _ _; rw [e]; exact h
  | replays => obtain ⟨link, e⟩ := State.replay_frame _ _ _ _; rw [e]; exact h
  | enters => exact State.takeNext_handFits h
  | sendsAnswer => exact State.sendAnswer_handFits h _ _
  | takesLow => cases high
  | releases => exact ⟨rfl, nofun⟩
  | resetsByOrder => exact ⟨rfl, nofun⟩
  | _ => exact h

end Sys2Proof.Machine
end

