-- ==== Sys2Proof/Proofs/HeldCancels.lean ====
section
/-! A CANCEL waits for the boundary of its own slot's unit, so it has an answer once that unit is over (R138, R178). -/

namespace Sys2Proof.Machine

/-! ## RESET# between acts -/

theorem Point.settled.high {p : Point} (settled : p.settled) (moving : p.stage ≠ .rest) : p.state.resetLow = false := by
  rw [← Bool.not_eq_true]
  exact fun low => moving (settled low)

/-- After an act RESET# is high only if it was before, or if the act is a reset. -/
theorem Act.high {a b : Point} (act : Act a b) (settled : a.settled) (high : b.state.resetLow = false) :
    a.state.resetLow = false ∨ ∃ u reason, b = ⟨.plain, .rest, State.resetBlocks u reason⟩ := by
  have still : ∀ {s t : State} {P : Prop}, t.still = s.still → t.resetLow = false → s.resetLow = false ∨ P :=
    fun same high => .inl ((State.still.resetLow same).symm.trans high)
  cases act with
  | wake running => exact .inl running
  | start _ _ _ _ _ _ chooses => exact .inl (settled.high chooses.ne_rest)
  | startFaulted _ _ _ _ chooses => exact .inl (settled.high chooses.ne_rest)
  | startLink _ _ _ _ _ _ chooses => exact .inl (settled.high chooses.ne_rest)
  | stay | idle | cut | resume | beginSlot | beginLink | tallyEnds | tallyGoesOn | fallsShort | beginNothing | beginsNone |
      endsCurrent | goesOn | asksAgain | losesOwner | freezes => exact .inl (settled.high nofun)
  | commits moves => exact .inl moves.high
  | finishes moves => exact .inl moves.high
  | cancels moves => exact .inl moves.high
  | fails running => exact .inl running
  | linkMoves moves => exact .inl moves.high
  | linkEnds stops => exact .inl stops.high
  | timesOut running => exact .inl running
  | stopsIdle stops => exact .inl stops.high
  | stopsOwnerless stops => exact .inl stops.high
  | servesGrant running => exact .inl running
  | losesGrant running => exact .inl running
  | event => exact still (State.still_eventAt _ _) high
  | unbind => exact still (State.still_takeOut _ _) high
  | @cancelPreempted m s i => exact still (s := s) (State.still_takeOut (s.unstack i) i :) high
  | cancelActive running => exact .inl running
  | skip => exact still (State.still_removeHead _ _ _) high
  | answers => exact .inl ((State.produceAnswer_resetLow _ _).symm.trans high)
  | drains => exact still (State.still_drainPlace _ _ _) high
  | refuses => obtain ⟨link, e⟩ := State.queueRefusal_frame _ _; rw [e] at high; exact .inl high
  | replays => obtain ⟨link, e⟩ := State.replay_frame _ _ _ _; rw [e] at high; exact .inl high
  | enters => obtain ⟨link, hand, e⟩ := State.enterOrder_frame _ _; rw [e] at high; exact .inl high
  | sendsAnswer => obtain ⟨link, hand, e⟩ := State.sendAnswer_frame _ _ _; rw [e] at high; exact .inl high
  | takesLow => cases high
  | releases => exact .inr ⟨_, _, rfl⟩
  | resetsByOrder => exact .inr ⟨_, _, rfl⟩
  | _ => exact .inl high

/-! ## The CANCEL that waits -/

/-- A slot that owns the burst in hand is the owner the burst names. -/
theorem State.owns.owner {s : State} {i j : Fin 64} {b : Burst} (owns : s.owns j) (burst : s.sched.burst = some b)
    (owner : b.owner = .slot i) : j = i := by
  obtain ⟨c, hand, named⟩ := owns
  rw [burst] at hand
  cases hand
  rw [owner] at named
  cases named
  rfl

/-- The burst of a link access in hand leaves no CANCEL. -/
theorem State.cancelStands.uncancelled_link {s : State} (h : s.cancelStands) {b : Burst} (burst : s.sched.burst = some b)
    (owner : b.owner = .link) : s.uncancelled := by
  intro i
  by_contra waits
  obtain ⟨⟨c, hand, named⟩, -⟩ := h i (by simpa using waits)
  rw [burst] at hand
  cases hand
  rw [owner] at named
  cases named

/-- A burst whose slot waits for no CANCEL leaves none. -/
theorem State.cancelStands.uncancelled_slot {s : State} (h : s.cancelStands) {b : Burst} {i : Fin 64}
    (burst : s.sched.burst = some b) (owner : b.owner = .slot i) (waits : s.cancelWaits i = false) : s.uncancelled := by
  intro j
  by_contra waiting
  have waiting : s.cancelWaits j = true := by simpa using waiting
  obtain rfl := (h j waiting).1.owner burst owner
  rw [waits] at waiting
  cases waiting

theorem Moves.inHand {s w : State} (moves : Moves s w) : w.inHand = s.inHand := State.holding.inHand moves.holding

theorem Stops.inHand {s w : State} (stops : Stops s w) : w.inHand = s.inHand := State.holding.inHand stops.holding

theorem State.cancelWaits_congr {s t : State} (hand : t.inHand = s.inHand) (i : Fin 64) :
    t.cancelWaits i = s.cancelWaits i := by
  simp only [State.cancelWaits, hand]

/-- A boundary answers the CANCEL of its own slot, and there is no other (R138). -/
theorem State.answerEnded_uncancelled {s t : State} (h : s.cancelStands) (hand : t.inHand = s.inHand) {b : Burst}
    {i : Fin 64} (burst : s.sched.burst = some b) (owner : b.owner = .slot i) (k : Nat) :
    (t.answerEnded i k).uncancelled := by
  unfold State.answerEnded
  split_ifs with waits
  · exact t.produceAnswer_uncancelled _
  · rw [State.cancelWaits_congr hand] at waits
    exact State.uncancelled_congr hand (h.uncancelled_slot burst owner (by simpa using waits))

theorem State.cancelFaulted_uncancelled {s t : State} (h : s.cancelStands) (hand : t.inHand = s.inHand) {b : Burst}
    {i : Fin 64} (burst : s.sched.burst = some b) (owner : b.owner = .slot i) : (t.cancelFaulted i).uncancelled := by
  unfold State.cancelFaulted
  split_ifs with waits
  · exact State.produceAnswer_uncancelled _ _
  · rw [State.cancelWaits_congr hand] at waits
    exact State.uncancelled_congr hand (h.uncancelled_slot burst owner (by simpa using waits))

theorem Opens.uncancelled {s u : State} (opens : Opens s u) (h : s.cancelStands) : s.uncancelled := by
  cases opens with
  | free none => exact h.uncancelled (.inr none)
  | push b _ none => exact h.uncancelled (.inl none)

theorem State.sendAnswer_cancelStands {s : State} (h : s.cancelStands) (a : Answer) (rest : List Answer) :
    (s.sendAnswer a rest).cancelStands := by
  have cleared : (State.clearQueuedMark { s with link := { s.link with answers := rest, tx := some a.frame } }
      a.number).cancelStands := by
    unfold State.clearQueuedMark
    split <;> exact h
  unfold State.sendAnswer State.placeWaiting
  split
  · split
    · exact (State.placeAnswer_uncancelled _ _ _).stands
    · exact cleared
  · exact cleared

theorem State.takeNext_cancelStands {s : State} (h : s.cancelStands) : s.takeNext.cancelStands := by
  unfold State.takeNext
  split
  · exact State.uncancelled.stands (State.uncancelled_of_task rfl nofun)
  · exact h

theorem State.hold_uncancelled {s : State} (carries : s.carries) {task : Task} (other : ∀ i, task ≠ .cancel i) :
    (s.hold task).uncancelled := by
  obtain ⟨o, hand, rfl, -⟩ := carries.hold task
  exact State.uncancelled_of_task hand other

theorem Act.keeps_cancelStands {a b : Point} (act : Act a b) (high : b.state.resetLow = false) (laws : a.state.slotLaws)
    (settled : a.settled) (stands : a.moverStands) (fits : a.handFits) (h : a.state.cancelStands) :
    b.state.cancelStands := by
  have gone : ∀ {s t : State}, s.cancelStands → t.inHand = s.inHand → s.mover.unit = none ∨ s.sched.burst = none →
      t.cancelStands := fun h hand none => (State.uncancelled_congr hand (h.uncancelled none)).stands
  have still : ∀ {s t : State}, t.still = s.still → t.inHand = s.inHand := State.still.inHand
  cases act with
  | idle none => exact gone h rfl (.inr none)
  | start opens _ _ _ _ hands =>
    exact (State.uncancelled_congr (still (hands.still.trans opens.still) :) (opens.uncancelled h)).stands
  | @startFaulted m s u i d p f o opens =>
    exact (State.uncancelled_congr
      (still ((State.still_faultProcessing (u.begun i d p).lowerRequest i f).trans opens.still) :) (opens.uncancelled h)).stands
  | startLink opens _ _ _ _ hands =>
    exact (State.uncancelled_congr (still (hands.still.trans opens.still) :) (opens.uncancelled h)).stands
  | cut none => exact gone h (still (State.still_unowned _ _ _) :) (.inr none)
  | resume none _ _ hands => exact gone h (still (hands.still.trans (State.still_resumed _ _ _))) (.inr none)
  | beginSlot =>
    obtain ⟨-, -, -, unit⟩ := settled.stands stands nofun
    exact gone h rfl (.inl unit)
  | beginLink =>
    obtain ⟨-, -, -, unit⟩ := settled.stands stands nofun
    exact gone h rfl (.inl unit)
  | @tallyEnds m s b i d p =>
    obtain ⟨-, -, -, unit⟩ := settled.stands stands nofun
    exact gone h (still ((State.still_endProcessing _ i).trans (State.still_commitProgress (s.goes .moving) i d p b)) :)
      (.inl unit)
  | @tallyGoesOn m s b i d p =>
    obtain ⟨-, -, -, unit⟩ := settled.stands stands nofun
    exact gone h (still (State.still_commitProgress (s.goes .moving) i d p b) :) (.inl unit)
  | fallsShort =>
    obtain ⟨-, -, -, unit⟩ := settled.stands stands nofun
    exact gone h rfl (.inl unit)
  | beginNothing =>
    obtain ⟨-, -, -, unit⟩ := settled.stands stands nofun
    exact gone h rfl (.inl unit)
  | @commits s w b i d p moves burst owner _ _ waits =>
    have none := h.uncancelled_slot (moves.burst ▸ burst) owner ((State.cancelWaits_congr moves.inHand i).symm.trans waits)
    exact (State.uncancelled_congr ((still (State.still_commitProgress w i d p b)).trans moves.inHand) none).stands
  | @finishes s w b i d p moves burst owner =>
    have hand := still ((State.still_endProcessing (w.commitProgress i d p b) i).trans (State.still_commitProgress w i d p b))
    exact (State.answerEnded_uncancelled h (hand.trans moves.inHand) (moves.burst ▸ burst) owner _).stands
  | cancels => exact (State.produceAnswer_uncancelled _ _).stands
  | @fails s u a b i running unit failed burst owner =>
    have hand := still (State.still_faultProcessing s.unitOver i (.parity a))
    have stopped := (Stops.failed u a running unit failed).inHand
    exact (State.cancelFaulted_uncancelled h (hand.trans stopped) burst owner).stands
  | @linkMoves s w b a moves burst owner =>
    have none := h.uncancelled_link (moves.burst ▸ burst) owner
    exact (State.uncancelled_congr (t := State.setBurst _ (some { b with moved := b.moved + 1 })) moves.inHand none).stands
  | linkEnds => exact (State.produceAnswer_uncancelled _ _).stands
  | @timesOut s b i running asking =>
    obtain ⟨-, -, -, unit, -⟩ := State.moverLegal.asking (stands running) asking
    exact gone h (still (State.still_faultProcessing s.lowerRequest i .grantTimeout) :) (.inl unit)
  | stopsIdle stops none => exact gone h stops.inHand (.inr (stops.burst.symm.trans none))
  | @stopsOwnerless s w b stops burst ownerless =>
    have none := State.cancelStands.uncancelled_link h (stops.burst ▸ burst)
      ((stops.agrees.slotLaws laws).ownerless_link burst ownerless)
    exact (State.uncancelled_congr (t := w.clearBurst) stops.inHand none).stands
  | endsCurrent =>
    obtain ⟨-, unit, -⟩ := settled.stands stands nofun
    exact gone h rfl (.inl unit)
  | asksAgain =>
    obtain ⟨-, unit, -⟩ := settled.stands stands nofun
    exact gone h (still (State.still_ask _)) (.inl unit)
  | losesOwner =>
    obtain ⟨-, unit, -⟩ := settled.stands stands nofun
    exact gone h rfl (.inl unit)
  | @freezes s payload =>
    exact State.uncancelled.stands (State.produceAnswer_uncancelled (s.setFreeze .frozen) payload :)
  | @losesGrant s =>
    exact State.cancelStands_congr (State.holding.inHand (State.grantGone_holding _) :)
      (congrArg Scheduler.burst (State.grantGone_sched _) :) (State.grantGone_unit _ :) h
  | @event m s q =>
    have apart := s.apart_eventAt q
    exact State.cancelStands_congr (still (State.still_eventAt _ _)) (State.apart.burst apart)
      (congrArg _ (State.apart.mover apart)) h
  | unbind =>
    exact State.cancelStands_congr (still (State.still_takeOut _ _)) (State.takeOut_burst _ _) (State.takeOut_unit _ _) h
  | @cancelPreempted m s i =>
    exact State.cancelStands_congr (still (State.still_takeOut (s.unstack i) i) :) (State.takeOut_burst (s.unstack i) i :)
      (State.takeOut_unit (s.unstack i) i :) h
  | cancelActive _ _ unit =>
    exact gone h (still ((State.still_takeOut _ _).trans (State.still_dropBurst _))) (.inl unit)
  | @skip m s i =>
    have apart := s.apart_removeHead (s.sourceOf i) .spent
    exact State.cancelStands_congr (still (State.still_removeHead _ _ _)) (State.apart.burst apart)
      (congrArg _ (State.apart.mover apart)) h
  | freezeCut _ _ _ unit => exact gone h rfl (.inl unit)
  | @holdsFreeze s => exact State.uncancelled.stands (State.hold_uncancelled (s := s) fits (task := .freeze) nofun :)
  | keepsFreeze => exact State.uncancelled.stands (State.hold_uncancelled fits nofun)
  | @holdsCancel s i d p slot unit =>
    have carries : s.carries := fits
    obtain ⟨o, hand, task, -⟩ := State.carries.hold carries (.cancel i)
    intro j waits
    obtain ⟨o', hand', task'⟩ := State.cancelWaits_iff.mp waits
    rw [hand] at hand'
    cases hand'
    rw [task] at task'
    cases task'
    exact ⟨laws.active_owner slot, unit⟩
  | holdsReset => exact State.uncancelled.stands (State.hold_uncancelled fits nofun)
  | @opensAccess s => exact State.uncancelled.stands (State.hold_uncancelled (s := s) fits (task := .linkAccess) nofun :)
  | takes => exact State.uncancelled.stands (State.uncancelled_of_task rfl nofun)
  | answers => exact (State.produceAnswer_uncancelled _ _).stands
  | drains => exact (State.uncancelled_congr (State.holding.inHand (State.drainPlace_holding _ _ _))
      (State.carries.uncancelled fits)).stands
  | refuses => obtain ⟨link, e⟩ := State.queueRefusal_frame _ _; rw [e]; exact h
  | replays => obtain ⟨link, e⟩ := State.replay_frame _ _ _ _; rw [e]; exact h
  | enters => exact State.takeNext_cancelStands h
  | sendsAnswer => exact State.sendAnswer_cancelStands h _ _
  | takesLow => cases high
  | releases => exact State.uncancelled.stands (State.uncancelled_of_none rfl)
  | resetsByOrder => exact State.uncancelled.stands (State.uncancelled_of_none rfl)
  | _ => exact h

end Sys2Proof.Machine
end

