-- ==== Sys2Proof/Proofs/UnitsInside.lean ====
section
/-! Every unit in progress lies inside the memory, so no step stops on an address (R7, R19, R92). -/

namespace Sys2Proof.Machine

theorem State.memorySize_small (s : State) : s.memorySize ≤ 2 ^ 20 := by
  have code : s.cfg.msize.toNat ≤ 3 := by omega
  have power : 2 ^ s.cfg.msize.toNat ≤ 2 ^ 3 := Nat.pow_le_pow_right (by decide) code
  unfold State.memorySize memorySizeOf
  omega

/-! ## The units that are begun -/

/-- The memory bytes of a descriptor's next unit lie inside the memory (R87). -/
theorem State.nextUnit_inside {s : State} {d : Descriptor} {p : Progress} {op : UnitOp} {buffer : List Byte} {size : Nat}
    (next : s.nextUnit d.transfer p = some (op, buffer)) (can : s.lanesCanMove d.transfer = true)
    (inside : d.inside size = true) (aligned : d.transfer.aligned = true) (reaches : d.Reaches p) (small : size ≤ 2 ^ 20)
    (left : p.committed < d.total) : UnitInProgress.inside { op := op, buffer := buffer } size := by
  have movable := List.all_eq_true.mp can
  have sideA : ∀ {sd}, d.transfer.sideA? = some sd → (p.nextA.getD sd.start).toNat + d.transfer.unitBytes ≤ size := by
    intro sd side
    obtain ⟨a, some, -, -, within⟩ := (Descriptor.Has.sideA side).unit reaches inside aligned small left
    rw [some]
    exact within
  have sideB : ∀ {sd}, d.transfer.sideB? = some sd → (p.nextB.getD sd.start).toNat + d.transfer.unitBytes ≤ size := by
    intro sd side
    obtain ⟨a, some, -, -, within⟩ := (Descriptor.Has.sideB side).unit reaches inside aligned small left
    rw [some]
    exact within
  unfold State.nextUnit at next
  split at next <;> rename_i transfer <;> rw [transfer] at sideA sideB movable <;> cases next
  case h_1 u _ n a =>
    have full := of_decide_eq_true (movable (n, .incoming) (by simp [Transfer.lanes]))
    refine ⟨sideA rfl, ?_⟩
    rw [List.length_take]
    exact min_eq_left full
  case h_2 => exact sideA rfl
  case h_3 => exact ⟨sideA rfl, sideB rfl⟩
  case h_4 => exact trivial

/-- Byte k of a link access lies inside the memory (R104, R105). -/
theorem LinkAccess.unit_inside {a : LinkAccess} {k size : Nat} (within : a.start.toNat + a.kind.length ≤ size)
    (small : size ≤ 2 ^ 20) (left : k < a.kind.length) :
    UnitInProgress.inside { op := (a.unit k).1, buffer := (a.unit k).2 } size := by
  have address : (a.address k).toNat = a.start.toNat + k := by
    rw [LinkAccess.address, BitVec.toNat_add, BitVec.toNat_ofNat]
    omega
  unfold LinkAccess.unit
  cases kind : a.kind with
  | peek n result =>
    change (a.address k).toNat + 1 ≤ size
    omega
  | poke data =>
    rw [kind] at within left
    have bytes : k < data.length := left
    have length : a.start.toNat + data.length ≤ size := within
    refine ⟨?_, ?_⟩
    · omega
    · simp only [List.length_take, List.length_drop]
      omega

/-! ## Every act -/

/-- The unit in progress lies inside the memory (R92). -/
def State.unitInside (s : State) (size : Nat) : Prop := ∀ u, s.mover.unit = some u → u.inside size

theorem Act.keeps_unitInside {a b : Point} (act : Act a b) (laws : a.state.slotLaws) (settled : a.settled)
    (stands : a.moverStands) (walks : a.state.walksPlaced) (access : a.state.accessPlaced)
    (h : a.state.unitInside a.state.memorySize) : b.state.unitInside b.state.memorySize := by
  have kept : b.state.unitInside a.state.memorySize := by
    intro u unit
    cases act.unitTurn settled stands with
    | none none => rw [none] at unit; cases unit
    | same same => exact h u (same ▸ unit)
    | free _ same => exact h u (same ▸ unit)
    | @slot c i d p op buffer hand owner slot can next begun =>
      rw [begun] at unit
      cases unit
      obtain ⟨inside, aligned, nextA, nextB⟩ := walks i _ d p slot
      obtain ⟨-, sum, left⟩ := (laws.at i).left slot nofun nofun
      exact State.nextUnit_inside next can inside aligned ⟨nextA, nextB⟩ a.state.memorySize_small (by omega)
    | @link c x hand owner some begun =>
      rw [begun] at unit
      cases unit
      obtain ⟨-, within, bursts, -⟩ := access
      obtain ⟨y, held, -, moved⟩ := bursts c hand owner
      rw [some] at held
      cases held
      exact LinkAccess.unit_inside (within x some).2 a.state.memorySize_small moved
  rcases act.settings with same | ⟨-, same | ⟨u, reason, reset⟩⟩
  · rw [State.memorySize, same]; exact kept
  · rw [State.memorySize, same]; exact kept
  · intro v unit
    rw [reset] at unit
    cases unit

/-! ## No step stops -/

theorem State.readUnit_inside {s : State} {a : Addr} {n : Nat} (within : a.toNat + n ≤ s.memorySize)
    (move : List Byte → State) (x : Nat) : s.readUnit a n move ≠ .outside x := by
  unfold State.readUnit
  rw [if_neg (by omega)]
  dsimp only
  split <;> nofun

theorem State.writeUnit_inside {s : State} {a : Addr} {bytes : List Byte} (within : a.toNat + bytes.length ≤ s.memorySize) :
    s.writeUnit a bytes = .moved (s.setMem (s.mem.putBytes a.toNat bytes)) := by
  unfold State.writeUnit
  rw [if_neg (by omega)]

/-- A unit inside the memory ends (R87, R92). -/
theorem State.performUnit_inside {s : State} {u : UnitInProgress} (inside : u.inside s.memorySize) (x : Nat) :
    s.performUnit u ≠ .outside x := by
  unfold UnitInProgress.inside at inside
  unfold State.performUnit
  cases op : u.op with
  | capture n a size =>
    rw [op] at inside
    obtain ⟨within, length⟩ := inside
    have wrote := State.writeUnit_inside (bytes := u.buffer) (length.symm ▸ within)
    simp only [wrote]
    nofun
  | playout n a size => rw [op] at inside; exact State.readUnit_inside inside _ x
  | copy a b size =>
    rw [op] at inside
    obtain ⟨source, target⟩ := inside
    dsimp only
    rw [if_neg (by omega)]
    exact State.readUnit_inside source _ x
  | relay n m size => nofun
  | peek a => rw [op] at inside; exact State.readUnit_inside inside _ x
  | poke a =>
    rw [op] at inside
    obtain ⟨within, length⟩ := inside
    dsimp only
    rw [State.writeUnit_inside (length.symm ▸ within)]
    nofun

theorem execUnknownOrder_next (s : State) : ∃ t, execUnknownOrder s = .next t := by
  unfold execUnknownOrder
  split
  · split <;> exact ⟨_, rfl⟩
  · exact ⟨_, rfl⟩

theorem execUnitBoundary_next {s : State} (inside : s.resetLow = false → s.unitInside s.memorySize) :
    ∃ t, execUnitBoundary s = .next t := by
  unfold execUnitBoundary
  split
  next u high unit =>
    split
    · exact ⟨_, rfl⟩
    · exact ⟨_, rfl⟩
    next a out => exact absurd out (State.performUnit_inside (inside high u unit) a)
  · exact ⟨_, rfl⟩

/-- Every command goes on to a next state while the unit in progress lies inside the memory. -/
theorem exec_next {s : State} (c : Instr) (inside : s.resetLow = false → s.unitInside s.memorySize) :
    ∃ t, exec c s = .next t := by
  cases c
  case unitBoundary => exact execUnitBoundary_next inside
  case unknownOrder => exact execUnknownOrder_next s
  all_goals exact ⟨_, rfl⟩

theorem step_next {s : State} (inside : s.resetLow = false → s.unitInside s.memorySize) : ∃ t, step s = .next t := by
  unfold step
  split
  · exact ⟨_, rfl⟩
  · exact exec_next _ inside

/-! ## The obligation -/

/-- What every point between acts keeps for O22, while RESET# is high. -/
structure Point.Walks (p : Point) : Prop where
  stands : p.state.moverAt p.stage
  fits : p.handFits
  cancels : p.state.cancelStands
  walks : p.state.walksPlaced
  access : p.state.accessPlaced
  unit : p.state.unitInside p.state.memorySize

theorem Point.Walks.quiet {p : Point} (h : p.Walks) (plain : p.mode ≠ .plain) : p.state.sched.access = none := by
  obtain ⟨m, st, s⟩ := p
  have fits := h.fits
  cases m with
  | plain => exact absurd rfl plain
  | order => exact (fits : s.carries).1.1
  | drain => exact (fits : s.carries).1.1

theorem Point.walks_reset (u : State) (reason : ResetReason) : Point.Walks ⟨.plain, .rest, u.resetBlocks reason⟩ where
  stands := State.moverAt_rest rfl rfl
  fits := ⟨rfl, nofun⟩
  cancels := State.uncancelled.stands (State.uncancelled_of_none rfl)
  walks := by
    intro i st d p slot
    rw [State.resetBlocks_slot] at slot
    cases slot
  access := State.accessPlaced_iff.mpr LinkPlaced.empty
  unit := nofun

theorem Act.keeps_walks {a b : Point} (act : Act a b) (laws : a.state.slotLaws) (settled : a.settled)
    (high : b.state.resetLow = false) (h : a.state.resetLow = false → a.Walks) : b.Walks := by
  rcases act.high settled high with running | ⟨u, reason, rfl⟩
  · have quiet := (h running).quiet
    obtain ⟨stands, fits, cancels, walks, access, unit⟩ := h running
    exact ⟨act.keeps_moverStands (fun _ => stands) high, act.keeps_handFits high fits,
      act.keeps_cancelStands high laws settled (fun _ => stands) fits cancels, act.keeps_walksPlaced walks,
      act.keeps_accessPlaced laws quiet access, act.keeps_unitInside laws settled (fun _ => stands) walks access unit⟩
  · exact Point.walks_reset u reason

/-- Settles O22: every act keeps walks, link access and unit inside the memory, and a unit that lies there ends; the
addresses of a walk are counted from its start, one unit a commit. -/
theorem everyUnitOfAWalkLiesInMemory : Obligations.EveryUnitOfAWalkLiesInMemory := by
  constructor
  · intro s laws lawful
    obtain ⟨t, next⟩ := step_next fun high => (lawful high).2.2.2.2
    let holds (p : Point) : Prop := p.state.slotLaws ∧ p.settled ∧ (p.state.resetLow = false → p.Walks)
    have kept : ∀ {a b : Point}, Act a b → holds a → holds b := fun act ⟨laws, settled, walks⟩ =>
      ⟨act.keeps_slotLaws laws, act.keeps_settled settled, fun high => act.keeps_walks laws settled high walks⟩
    have first : holds ⟨.plain, .rest, s⟩ := by
      refine ⟨laws, fun _ => rfl, fun high => ?_⟩
      obtain ⟨legal, holds, walks, access, unit⟩ := lawful high
      obtain ⟨fits, cancels⟩ := (State.holdsMatch_iff laws).mp holds
      exact ⟨legal, fits, cancels, walks, access, unit⟩
    obtain ⟨laws', -, walks⟩ := step_keeps (I := holds) kept next first
    refine ⟨t, next, fun high => ?_⟩
    obtain ⟨-, fits, cancels, walks, access, unit⟩ := walks high
    exact ⟨(State.holdsMatch_iff laws').mpr ⟨fits, cancels⟩, walks, access, unit⟩
  · intro d S k _ inside aligned small _
    obtain ⟨remaining, committed, reaches⟩ := d.commit_iterate none k
    refine ⟨remaining, committed, fun left sd next side => ?_⟩
    have has : d.Has ((d.commit)^[k] (d.freshProgress none)) sd next := by
      rcases side with ⟨side, rfl⟩ | ⟨side, rfl⟩
      · exact .sideA side
      · exact .sideB side
    obtain ⟨a, some, place, align, within⟩ := has.unit reaches inside aligned small (committed.trans_lt left)
    rw [committed] at place
    exact ⟨a, some, Side.unitPlace_walk place, align, within⟩

end Sys2Proof.Machine
end

