-- ==== Sys2Proof/Proofs/Resets.lean ====
section
/-! The resets: RESET# low, its release, the reset of a RESET PART, and the state right after one (R108, R152, R183 to
R185). -/

namespace Sys2Proof.Machine

/-- Settles O1: it is the definition of a step. -/
theorem stepRunsTheFrontCommand : Obligations.StepRunsTheFrontCommand := by
  intro c rest s pending
  unfold step
  rw [pending]

/-! ## The reset of the blocks -/

section
variable (s : State) (reason : ResetReason)

theorem State.resetBlocks_line (n : Fin 4) : (s.resetBlocks reason).line n = Line.atReset (s.line n).high := by
  simp [State.line, State.resetBlocks, TriggerUnit.atReset]

theorem State.resetBlocks_timer (n : Fin 4) : (s.resetBlocks reason).timer n = Timer.atReset := by
  simp [State.timer, State.resetBlocks, TriggerUnit.atReset]

theorem State.resetBlocks_atResetValues : (s.resetBlocks reason).atResetValues reason := by
  refine ⟨s.resetBlocks_slot reason, fun q => ?_, fun n => ?_, s.resetBlocks_timer reason, rfl, rfl, fun n => ?_, rfl, rfl,
    rfl, rfl, rfl⟩
  · simp [State.resetBlocks, TriggerUnit.atReset, State.count, State.miss]
  · rw [State.resetBlocks_line]
    exact ⟨rfl, rfl⟩
  · rw [State.resetBlocks_lane]
    exact ⟨rfl, rfl, rfl, rfl, rfl⟩

theorem State.resetBlocks_levelsLegal : (s.resetBlocks reason).levelsLegal := by
  refine ⟨⟨le_rfl, show 1 ≤ 6 by decide⟩, fun i st d p slot => ?_, nofun, nofun, nofun⟩
  rw [State.resetBlocks_slot] at slot
  cases slot

theorem State.resetBlocks_lanesLawful : (s.resetBlocks reason).lanesLawful := by
  refine ⟨fun n => ?_, fun i st d p slot => ?_, nofun⟩
  · rw [State.resetBlocks_lane]
    exact ⟨Nat.zero_le _, le_rfl, show 1 ≤ 32 by decide⟩
  · rw [State.resetBlocks_slot] at slot
    cases slot

theorem State.resetBlocks_walksLawful : (s.resetBlocks reason).walksLawful := by
  obtain ⟨-, fits, cancels, walks, access, unit⟩ := Point.walks_reset s reason
  exact ⟨(State.holdsMatch_iff (s.resetBlocks_slotLaws reason)).mpr ⟨fits, cancels⟩, walks, access, unit⟩

end

theorem State.reset_eq : State.reset = State.reset.resetBlocks .line := by
  simp only [State.resetBlocks, State.reset, TriggerUnit.atReset, Vector.map_replicate]
  rfl

/-- Settles O3: the reset state is what a reset of the blocks leaves, and every law holds right after one. -/
theorem resetStateHoldsResetValues : Obligations.ResetStateHoldsResetValues := by
  obtain ⟨numbered, queued, waits⟩ := NoticeList.lawful_atReset .plain .line 131072
  obtain ⟨table, queues⟩ := LinkPort.lawful_atReset
  refine ⟨?_, rfl, rfl, rfl, Memory.wf_nil, numbered, queued, waits nofun, table, queues, ?_, ?_, trivial,
    ⟨rfl, rfl, rfl, rfl⟩, ?_, ?_, fun _ _ _ => nofun, trivial, ?_⟩
  all_goals rw [State.reset_eq]
  · exact State.resetBlocks_atResetValues _ _
  · exact State.resetBlocks_countsBounded _ _
  · exact State.resetBlocks_levelsLegal _ _
  · exact State.resetBlocks_slotLaws _ _
  · exact State.resetBlocks_lanesLawful _ _
  · exact State.resetBlocks_walksLawful _ _

/-- Settles O4: a release is a reset of the blocks under the new straps. -/
theorem releaseResetsEveryBlock : Obligations.ReleaseResetsEveryBlock := by
  intro s baud msize low
  refine ⟨s.release baud msize, ?_, rfl, rfl, rfl, rfl, State.resetBlocks_atResetValues _ _, rfl, rfl, rfl, rfl, fun n => ?_,
    fun n => ?_⟩
  · exact congrArg Host.Outcome.next (if_pos low)
  · rw [State.release, State.resetBlocks_line]
    rfl
  · rw [State.release, State.resetBlocks_lane]
    exact ⟨rfl, rfl⟩

/-! ## An abandoned unit -/

theorem State.abandonUnit_none {s : State} (unit : s.mover.unit = none) : s.abandonUnit = s := by
  unfold State.abandonUnit
  rw [unit]

/-- An abandoned unit leaves every byte outside its destination (R108). -/
theorem State.abandonUnit_read {s : State} (wf : s.mem.wf) {a : Nat} (outside : s.outsideUnit a) :
    s.abandonUnit.mem.read a = s.mem.read a := by
  unfold State.abandonUnit
  split
  · rfl
  next u unit =>
    dsimp only
    split
    next b n destination => exact Memory.read_scramble_out wf _ _ _ _ (outside u unit b n destination)
    · rfl

/-! ## RESET# low -/

/-- What a command does to a part that is held still: nothing, or an input pin is followed, or RESET# is taken low
again (R185). -/
inductive Holds (s : State) : State → Prop where
  | still : Holds s s
  | line (n : Fin 4) (high : Bool) : Holds s (s.setLine n { s.line n with high := high })
  | lane (n : Fin 12) (strobe : Option Byte) (ack : Bool) :
      Holds s (s.setLane n { s.lane n with strobe := strobe, ack := ack })
  | grant (grant lowered : Bool) : Holds s { s with grant := grant, lowered := lowered }

theorem State.running_low {s : State} (low : s.resetLow = true) (effect : State → State) : s.running effect = s :=
  if_pos low

theorem State.orderInTurn_low {s : State} (low : s.resetLow = true) : s.orderInTurn = none := by
  unfold State.orderInTurn
  rw [low]

theorem runOrder_low {s : State} (low : s.resetLow = true) (code : Byte) (body : List Byte → State → OrderEnd) :
    runOrder code body s = s :=
  runOrder_idle (State.orderInTurn_low low)

theorem exec_low {s : State} (low : s.resetLow = true) (c : Instr) (release : ∀ baud msize, c ≠ .resetRelease baud msize)
    (taken : c ≠ .resetLow) : ∃ t, exec c s = .next t ∧ Holds s t := by
  have held : ∀ effect, Holds s (s.running effect) := fun effect => (s.running_low low effect).symm ▸ .still
  have order : ∀ code body, Holds s (runOrder code body s) := fun code body => (runOrder_low low code body).symm ▸ .still
  have pins : ∀ n strobe ack, Holds s (s.lanePins n { s.lane n with strobe := strobe, ack := ack }) := by
    intro n strobe ack
    rw [State.lanePins, if_pos low]
    exact .lane n strobe ack
  cases c
  case resetLow => exact absurd rfl taken
  case resetRelease baud msize => exact absurd rfl (release baud msize)
  case lineLevelChange n high =>
    refine ⟨_, rfl, ?_⟩
    rw [if_pos low]
    exact .line n high
  case grantAsserted =>
    refine ⟨_, rfl, ?_⟩
    rw [State.running_low (s := s.seeGrant true) low]
    exact .grant true s.lowered
  case grantDeasserted =>
    refine ⟨_, rfl, ?_⟩
    rw [State.running_low (s := (s.seeGrant false).settleRequest) low]
    exact .grant false false
  case unitBoundary =>
    refine ⟨s, ?_, .still⟩
    change execUnitBoundary s = _
    unfold execUnitBoundary
    rw [low]
  case lnstbAsserted n data => exact ⟨_, rfl, pins n (some data) (s.lane n).ack⟩
  case lnstbDeasserted n => exact ⟨_, rfl, pins n none (s.lane n).ack⟩
  case lnackAsserted n => exact ⟨_, rfl, pins n (s.lane n).strobe true⟩
  case lnackDeasserted n => exact ⟨_, rfl, pins n (s.lane n).strobe false⟩
  case unknownOrder =>
    refine ⟨s, ?_, .still⟩
    change execUnknownOrder s = _
    unfold execUnknownOrder
    rw [State.orderInTurn_low low]
  case receiveFrame | interByteTimeout | stopBitLow | transmitFrame | frameSent | timerExpiry | grantWaitExpiry |
      byteReceived => exact ⟨_, rfl, held _⟩
  all_goals exact ⟨_, rfl, order _ _⟩

theorem Holds.lines {s t : State} (holds : Holds s t) (n : Fin 4) :
    (t.line n).mode = (s.line n).mode ∧ (t.line n).reference = (s.line n).reference := by
  cases holds with
  | line k high =>
    rw [State.line_setLine]
    split_ifs with same
    · subst same; exact ⟨rfl, rfl⟩
    · exact ⟨rfl, rfl⟩
  | _ => exact ⟨rfl, rfl⟩

theorem Holds.lanes {s t : State} (holds : Holds s t) (n : Fin 12) :
    t.lane n = { s.lane n with strobe := (t.lane n).strobe, ack := (t.lane n).ack } := by
  cases holds with
  | lane k strobe ack =>
    rw [State.lane_setLane]
    split_ifs with same
    · subst same; rfl
    · rfl
  | _ => rfl

/-- Settles O5: the blocks stay as RESET# low leaves them, since every command is then one of `Holds`. -/
theorem resetLowHoldsThePartStill : Obligations.ResetLowHoldsThePartStill := by
  constructor
  · intro s
    obtain ⟨mover, mem, count, e⟩ := s.abandonUnit_frame
    have low : ∀ t : State, t.resetLow = true →
        (∀ n : Fin 12, t.strobeOut n = false ∧ t.ackOut n = false ∧ t.dataOut n = none) ∧ t.requestOut = false ∧
          t.memoryLinesDriven = false ∧ t.frameOut = none := by
      intro t low
      simp [State.strobeOut, State.ackOut, State.dataOut, State.requestOut, State.memoryLinesDriven, State.frameOut, low]
    refine ⟨s.takeLow, rfl, rfl, rfl, rfl, ?_, ?_, rfl, ?_, ?_, ?_, ?_, ?_, ?_, fun wf a => State.abandonUnit_read wf,
      low s.takeLow rfl⟩
    all_goals
      unfold State.takeLow
      rw [e]
  · intro c s lowered unit release
    by_cases taken : c = .resetLow
    · subst taken
      refine ⟨s.takeLow, rfl, rfl, ?_⟩
      unfold State.takeLow
      rw [State.abandonUnit_none unit]
      exact ⟨rfl, rfl, rfl, rfl, fun n => ⟨rfl, rfl⟩, rfl, rfl, rfl, rfl, rfl, rfl, (absurd rfl ·), fun n => rfl⟩
    · obtain ⟨t, next, holds⟩ := exec_low lowered c release taken
      refine ⟨t, next, ?_⟩
      have lines := holds.lines
      have lanes := holds.lanes
      cases holds <;>
        exact ⟨lowered, rfl, rfl, rfl, rfl, lines, rfl, rfl, rfl, rfl, rfl, rfl, fun _ => ⟨rfl, rfl, rfl⟩, lanes⟩

/-- Settles O6: the frame sent frees the transmitter, and the RESET PART's answer brings the reset of the blocks. -/
theorem frameSentFreesTheTransmitter : Obligations.FrameSentFreesTheTransmitter := by
  have running : ∀ {s : State}, s.resetLow = false → exec .frameSent s = .next s.frameSent := by
    intro s high
    change Host.Outcome.next (s.running State.frameSent) = _
    rw [State.running, high]
    rfl
  refine ⟨fun s f high tx other => ?_, fun s h high hand task tx => ?_, fun s high tx => ?_⟩
  · rw [running high, State.frameSent, tx]
    dsimp only
    rw [State.frameOver, other]
    rfl
  · let t : State := { s with link := { s.link with tx := none } }
    obtain ⟨mover, mem, count, e⟩ := t.abandonUnit_frame
    have reset : s.frameSent = t.abandonUnit.resetBlocks .order := by
      have answer : s.isResetAnswer { kind := .answer, number := h.number, payload := [0x0F, 0x00] } = true := by
        simp [State.isResetAnswer, hand, task]
      rw [State.frameSent, tx]
      exact if_pos answer
    refine ⟨_, running high, ?_⟩
    rw [reset]
    refine ⟨State.resetBlocks_atResetValues _ _, ?_, ?_, ?_, ?_, fun wf a outside => ?_⟩
    · rw [e]; rfl
    · rw [e]; rfl
    · rw [e]; rfl
    · rw [e]; exact high
    · exact State.abandonUnit_read (s := t) wf outside
  · rw [running high, State.frameSent, tx]

end Sys2Proof.Machine
end

