-- ==== Sys2Proof/Proofs/Time.lean ====
section
/-! The passing of time: one microsecond of an empty queue counts the grant-wait timer, and every ten of them the
inter-byte timer and the timers T0 to T3 (R33, R98, R157). -/

namespace Sys2Proof.Machine

/-! ## The grant-wait timer -/

/-- The clocks but the grant-wait timer: the place in the 10 us step, the timers, and the receiver with its own. -/
def State.clocks (s : State) :=
  (s.resetLow, s.timePhase, s.trig.timers, s.link.rx, s.link.rxTimer, s.link.refusals)

theorem State.clocks_still {s t : State} (still : t.still = s.still) : t.clocks = s.clocks := by
  simp only [State.clocks, State.still.resetLow still, State.still.timePhase still, State.still.timers still,
    State.still.link still]

theorem State.clocks_produceAnswer (s : State) (payload : List Byte) : (s.produceAnswer payload).clocks = s.clocks := by
  obtain ⟨table, answers, hand, e⟩ := s.produceAnswer_frame payload
  rw [e]
  rfl

theorem State.clocks_endLink (s : State) (payload : List Byte) : (s.endLink payload).clocks = s.clocks :=
  (State.clocks_still (State.still_select _)).trans (State.clocks_produceAnswer _ _)

/-- The end of the wait for the grant leaves the other clocks alone (R99). -/
theorem State.clocks_grantWaitOver (s : State) : s.grantWaitOver.clocks = s.clocks := by
  have selected : ∀ {t : State}, t.still = s.still → t.select.clocks = s.clocks := fun same =>
    State.clocks_still ((State.still_select _).trans same)
  unfold State.grantWaitOver
  split_ifs
  · unfold State.grantTimeout
    dsimp only
    split
    · exact selected rfl
    · split
      · exact selected (State.still_faultProcessing _ _ _)
      · split
        · exact selected rfl
        · exact State.clocks_endLink _ _
  · rfl

theorem State.clocks_grantTick (s : State) : s.grantTick.clocks = s.clocks := by
  unfold State.grantTick
  split
  · split_ifs
    · exact s.clocks_grantWaitOver
    · rfl
  · rfl

section
variable {s t : State} (h : t.clocks = s.clocks)
include h

theorem State.clocks.resetLow : t.resetLow = s.resetLow := congrArg Prod.fst h
theorem State.clocks.timePhase : t.timePhase = s.timePhase := congrArg (·.2.1) h
theorem State.clocks.timers : t.trig.timers = s.trig.timers := congrArg (·.2.2.1) h
theorem State.clocks.rx : t.link.rx = s.link.rx := congrArg (·.2.2.2.1) h
theorem State.clocks.rxTimer : t.link.rxTimer = s.link.rxTimer := congrArg (·.2.2.2.2.1) h
theorem State.clocks.refusals : t.link.refusals = s.link.refusals := congrArg (·.2.2.2.2.2) h

theorem State.clocks.timer (n : Fin 4) : t.timer n = s.timer n := by
  simp only [State.timer, State.clocks.timers h]

end

theorem State.clocks_settled (s : State) : s.settleRequest.grantTick.clocks = s.clocks := s.settleRequest.clocks_grantTick

/-! ## The 10 us base -/

/-- A timer after one step of its base (R33). -/
def Timer.ticked (t : Timer) : Timer :=
  match t.left with
  | some k => if k ≤ 1 then t.expired else { t with left := some (k - 1) }
  | none => t

theorem State.expire_timer (s : State) (j n : Fin 4) :
    (s.expire j).timer n = if j = n then (s.timer j).expired else s.timer n := by
  have still : (s.expire j).still = (s.setTimer j (s.timer j).expired).still :=
    (State.still_react _).trans (State.still_eventAt _ _)
  have kept : (s.expire j).timer n = (s.setTimer j (s.timer j).expired).timer n := by
    simp only [State.timer, State.still.timers still]
  rw [kept, State.timer_setTimer]

theorem State.timerTick_timer (s : State) (j n : Fin 4) :
    (s.timerTick j).timer n = if j = n then (s.timer n).ticked else s.timer n := by
  unfold State.timerTick Timer.ticked
  split
  next k left =>
    split_ifs with last same same
    · rw [State.expire_timer, if_pos same, ← same, left]
      exact (if_pos last).symm
    · rw [State.expire_timer, if_neg same]
    · rw [State.timer_setTimer, if_pos same, ← same, left]
      exact (if_neg last).symm
    · rw [State.timer_setTimer, if_neg same]
  next none =>
    split_ifs with same
    · rw [← same, none]
    · rfl

theorem State.timerTicks_timer {l : List (Fin 4)} (distinct : l.Nodup) (s : State) (n : Fin 4) :
    (l.foldl State.timerTick s).timer n = if n ∈ l then (s.timer n).ticked else s.timer n := by
  induction l generalizing s with
  | nil => rfl
  | cons j l ih =>
    obtain ⟨absent, distinct⟩ := List.nodup_cons.mp distinct
    rw [List.foldl_cons, ih distinct, State.timerTick_timer]
    by_cases same : j = n
    · subst same
      simp [absent]
    · simp [same, Ne.symm same]

/-- The base step counts every timer once (R33). -/
theorem State.baseStep_timer (s : State) (n : Fin 4) : s.baseStep.timer n = (s.timer n).ticked := by
  have kept : s.rxTick.timer n = s.timer n := by
    unfold State.rxTick
    split
    · split_ifs <;> rfl
    · rfl
  rw [State.baseStep, State.timerTicks_timer (List.nodup_finRange 4), if_pos (List.mem_finRange n), kept]

theorem State.timerTick_link (s : State) (j : Fin 4) : (s.timerTick j).link = s.link := by
  unfold State.timerTick
  split
  · split_ifs
    · exact (State.still.link ((State.still_react _).trans (State.still_eventAt (s.setTimer j (s.timer j).expired) _)) :)
    · rfl
  · rfl

theorem State.timerTicks_link (l : List (Fin 4)) (s : State) : (l.foldl State.timerTick s).link = s.link := by
  induction l generalizing s with
  | nil => rfl
  | cons j l ih => rw [List.foldl_cons, ih, State.timerTick_link]

theorem State.baseStep_link (s : State) : s.baseStep.link = s.rxTick.link := State.timerTicks_link _ _

/-! ## The tick -/

theorem State.tick_high {s : State} (high : s.resetLow = false) : s.tick = s.settleRequest.grantTick.phaseTick := by
  unfold State.tick State.running
  rw [high]
  rfl

theorem State.phaseTick_early {s : State} (early : s.timePhase < 9) :
    s.phaseTick = { s with timePhase := s.timePhase + 1 } := if_pos early

theorem State.phaseTick_last {s : State} (last : s.timePhase = 9) :
    s.phaseTick = State.baseStep { s with timePhase := 0 } := if_neg (by omega)

theorem State.tick_early {s : State} (high : s.resetLow = false) (early : s.timePhase < 9) :
    s.tick = { s.settleRequest.grantTick with timePhase := s.timePhase + 1 } := by
  have phase := State.clocks.timePhase s.clocks_settled
  rw [State.tick_high high, State.phaseTick_early (by omega), phase]

theorem State.tick_last {s : State} (high : s.resetLow = false) (last : s.timePhase = 9) :
    s.tick = State.baseStep { s.settleRequest.grantTick with timePhase := 0 } := by
  have phase := State.clocks.timePhase s.clocks_settled
  rw [State.tick_high high, State.phaseTick_last (by omega)]

theorem State.tick_timer {s : State} (high : s.resetLow = false) (last : s.timePhase = 9) (n : Fin 4) :
    s.tick.timer n = (s.timer n).ticked := by
  rw [State.tick_last high last, State.baseStep_timer, ← State.clocks.timer s.clocks_settled n]
  rfl

theorem State.tick_link {s : State} (high : s.resetLow = false) (last : s.timePhase = 9) :
    s.tick.link = (State.rxTick s.settleRequest.grantTick).link := by
  rw [State.tick_last high last, State.baseStep_link]
  unfold State.rxTick
  dsimp only
  split
  · split_ifs <;> rfl
  · rfl

theorem Timer.expired_eq (t : Timer) :
    t.expired = { t with left := if t.mode = .periodic then some t.period else none } := by
  unfold Timer.expired
  cases t.mode <;> rfl

/-! ## The base as the obligation writes it -/

theorem State.rxTick_none {s : State} (timer : s.link.rxTimer = none) : s.rxTick = s := by
  unfold State.rxTick
  rw [timer]

theorem State.rxTick_counts {s : State} {k : Nat} (timer : s.link.rxTimer = some (k + 2)) :
    s.rxTick = { s with link := { s.link with rxTimer := some (k + 1) } } := by
  unfold State.rxTick
  rw [timer]
  exact if_neg (by omega)

theorem State.rxTick_expires {s : State} {k : Nat} (timer : s.link.rxTimer = some k) (last : k ≤ 1) :
    s.rxTick = { s with link := { s.link with rx := .hunt, rxTimer := none } } := by
  unfold State.rxTick
  rw [timer]
  exact if_pos last

theorem State.baseStep_eq (s : State) :
    s.baseStep = (((s.rxTick.timerTick 0).timerTick 1).timerTick 2).timerTick 3 := rfl

theorem State.timerTick_none {s : State} {n : Fin 4} (left : (s.timer n).left = none) : s.timerTick n = s := by
  unfold State.timerTick
  rw [left]

theorem State.timerTick_counts {s : State} {n : Fin 4} {k : Nat} (left : (s.timer n).left = some (k + 2)) :
    s.timerTick n = s.setTimer n { s.timer n with left := some (k + 1) } := by
  unfold State.timerTick
  rw [left]
  exact if_neg (by omega)

theorem State.timerTick_expires {s : State} {n : Fin 4} (left : (s.timer n).left = some 1) : s.timerTick n = s.expire n := by
  unfold State.timerTick
  rw [left]
  exact if_pos le_rfl

theorem exec_timerExpiry {s : State} {n : Fin 4} {k : Nat} (high : s.resetLow = false) (left : (s.timer n).left = some k) :
    exec (.timerExpiry n) s = .next (s.expire n) := by
  change Host.Outcome.next (s.running fun t => t.timerExpiry n) = _
  rw [State.running, high]
  change Host.Outcome.next (s.timerExpiry n) = _
  rw [State.timerExpiry, left]
  rfl

theorem exec_grantWaitExpiry {s : State} (high : s.resetLow = false) :
    exec .grantWaitExpiry s = .next s.grantWaitOver := by
  change Host.Outcome.next (s.running State.grantWaitOver) = _
  rw [State.running, high]
  rfl

/-- Settles O2: each clock's count is one lemma, and the tick runs them in order. -/
theorem emptyQueuePassesOneMicrosecond : Obligations.EmptyQueuePassesOneMicrosecond := by
  refine ⟨⟨fun s pending => ?_, fun s low => s.running_low low _, fun s high early => ?_, fun s n k high last left => ?_,
    fun s n high last left => ?_⟩, ?_, fun s high => ⟨fun early => ?_, fun last timer => ?_, fun k last timer => ?_,
    fun last timer => ?_⟩, fun s n => ⟨State.timerTick_none, fun k => State.timerTick_counts, fun left => ?_⟩⟩
  · unfold step
    rw [pending]
  · rw [State.tick_early high early]
    exact (State.clocks.timers s.clocks_settled :)
  · rw [State.tick_timer high last, Timer.ticked, left]
    exact if_neg (by omega)
  · rw [State.tick_timer high last, Timer.ticked, left]
    exact (if_pos le_rfl).trans (Timer.expired_eq _)
  · intro receiver base s high u
    have receives : ∀ t : State, receiver t = t.rxTick := by
      intro t
      cases timer : t.link.rxTimer with
      | none => simp only [receiver, timer, State.rxTick_none timer]
      | some k =>
        match k with
        | 0 | 1 => simp only [receiver, timer, State.rxTick_expires timer (by omega)]
        | k + 2 => simp only [receiver, timer, State.rxTick_counts timer]
    have bases : ∀ t : State, t.phaseTick = base t := by
      intro t
      simp only [State.phaseTick, base, receives, State.baseStep_eq]
    have ticks : s.tick = base u.grantTick := (State.tick_high high).trans (bases _)
    refine ⟨fun timer => ?_, fun k timer => ?_, fun timer => ⟨u.grantWaitOver, exec_grantWaitExpiry high, ?_, ?_, ?_⟩⟩
    · rw [ticks, State.grantTick, show u.mover.timer = none from timer]
    · rw [ticks, State.grantTick, show u.mover.timer = some (k + 2) from timer]
      rfl
    · exact State.clocks.timePhase u.clocks_grantWaitOver
    · exact State.clocks.rxTimer u.clocks_grantWaitOver
    · rw [ticks, State.grantTick, show u.mover.timer = some 1 from timer]
      rfl
  · rw [State.tick_early high early]
    exact ⟨(State.clocks.rx s.clocks_settled :), (State.clocks.rxTimer s.clocks_settled :)⟩
  · have kept := State.clocks.rxTimer s.clocks_settled
    rw [State.tick_link high last, State.rxTick_none (kept.trans timer)]
    exact ⟨(State.clocks.rx s.clocks_settled :), kept.trans timer⟩
  · have kept := State.clocks.rxTimer s.clocks_settled
    rw [State.tick_link high last, State.rxTick_counts (kept.trans timer)]
    exact ⟨(State.clocks.rx s.clocks_settled :), rfl⟩
  · have kept := State.clocks.rxTimer s.clocks_settled
    rw [State.tick_link high last, State.rxTick_expires (kept.trans timer) le_rfl]
    exact ⟨rfl, rfl, (State.clocks.refusals s.clocks_settled :)⟩
  · rw [State.timerTick_expires left]
    refine ⟨?_, fun high => exec_timerExpiry high left⟩
    rw [State.expire, Timer.expired_eq]

end Sys2Proof.Machine
end

