-- ==== Sys2Proof/Proofs/Receiver.lean ====
section
/-! The receiver's table (R156, R157), the handling of a whole frame (R159 to R165, R172), and the characters and the
frame check of the line (R153 to R155). -/

namespace Sys2Proof.Machine

/-! ## The receiver's table -/

theorem exec_interByteTimeout {s : State} (high : s.resetLow = false) : exec .interByteTimeout s = .next s.rxHunt :=
  congrArg Host.Outcome.next (State.running_high high _)

/-- Settles O7: each row is one case of the receiver's step. -/
theorem receiverFollowsItsTable : Obligations.ReceiverFollowsItsTable := by
  refine ⟨fun s b high => ?_, fun s high => exec_interByteTimeout high⟩
  rw [exec_byteReceived b high]
  have next : ∀ {t : State}, s.rxByte b = t → Host.Outcome.next (s.rxByte b) = (.next t : Host.Outcome State Fault Refusal) :=
    congrArg _
  refine ⟨fun hunt sync => next ?_, fun hunt other => next ?_, fun length low top => next ?_, fun length out => next ?_,
    fun length bytes rx more => next ?_, fun length bytes rx last => next ?_, fun body rx => next ?_,
    fun body hi rx => next ?_⟩
  · subst sync
    exact State.rxByte_sync hunt
  · rw [State.rxByte, hunt]
    exact if_neg other
  · rw [State.rxByte, length]
    exact if_pos ⟨low, top⟩
  · rw [State.rxByte, length]
    exact if_neg (by omega)
  · rw [State.rxByte, rx]
    have short : bodyOrCheck length (bytes ++ [b]) = .body length (bytes ++ [b]) := if_pos (by simpa using more)
    exact congrArg s.rxGo short
  · rw [State.rxByte, rx]
    have full : bodyOrCheck length (bytes ++ [b]) = .check (bytes ++ [b]) none := if_neg (by simp [last])
    exact congrArg s.rxGo full
  · rw [State.rxByte, rx]
    rfl
  · rw [State.rxByte, rx]
    rfl

/-! ## Whole frames -/

/-- A running receiver in HUNT completes a whole frame, whatever the executor holds (R156). -/
theorem exec_receiveFrame_completed {s : State} {kind n : Byte} {payload : List Byte} (check : Half)
    (high : s.resetLow = false) (hunt : s.link.rx = .hunt) (stopped : s.link.rxTimer = none) (fits : payload.length ≤ 248) :
    exec (.receiveFrame (kind :: n :: payload) check) s = .next (s.handleFrame (kind :: n :: payload) check) := by
  have frame := State.rxBytes_frame (body := kind :: n :: payload) check hunt stopped (by simp) (by simp; omega)
  exact congrArg Host.Outcome.next ((State.running_high high _).trans frame)

theorem State.handleFrame_discards {s : State} (body : List Byte) (check : Half) (reset : s.resetInHand = true) :
    s.handleFrame body check = s := if_pos reset

theorem State.handleFrame_unknown {s : State} {kind n : Byte} {payload : List Byte} (acts : s.resetInHand = false)
    (order : kind ≠ 0x01) (sync : kind ≠ 0x02) :
    s.handleFrame (kind :: n :: payload) (frameCheck (kind :: n :: payload)) = s := by
  unfold State.handleFrame
  rw [acts, if_neg nofun, if_neg (not_not.mpr rfl)]
  exact (if_neg order).trans (if_neg sync)

theorem State.resetInHand_iff {s : State} {h : OrderInHand} (hand : s.inHand = some h) :
    s.resetInHand = true ↔ h.task = .resetPart ∨ h.task = .taken ∧ h.payload = [0x0F] := by
  simp [State.resetInHand, hand]

/-- Settles O10: the frame is handled as its check and kind say. -/
theorem completedFramesAreHandledByKind : Obligations.CompletedFramesAreHandledByKind := by
  intro s kind n payload check high hunt stopped fits body
  have run (check : Half) := exec_receiveFrame_completed (kind := kind) (n := n) check high hunt stopped fits
  refine ⟨fun reset => ?_, fun acts bad => ?_, fun acts order sync => ?_, fun none => ?_, fun h hand => ?_⟩
  · rw [run, State.handleFrame_discards _ _ reset]
  · rw [run, State.handleFrame_badCheck acts bad]
    rfl
  · rw [run, State.handleFrame_unknown acts order sync]
  · rw [State.resetInHand, none]
  · exact State.resetInHand_iff hand

/-! ## Orders and SYNC -/

section
variable {s : State} {n : Byte} {order : List Byte}

theorem State.acceptOrder_pending {e : Entry} {held : Option (List Byte)} (entry : s.entry n = some e)
    (status : e.status = .pending held) : s.acceptOrder n order = s := by
  simp [State.acceptOrder, entry, status]

theorem State.acceptOrder_answered {e : Entry} {payload : List Byte} (entry : s.entry n = some e)
    (status : e.status = .answered payload) : s.acceptOrder n order = s.replay n e.queued payload := by
  simp [State.acceptOrder, entry, status]

theorem State.acceptOrder_full (entry : s.entry n = none) (next : n = s.link.expected) (full : 8 ≤ s.pendingOrders) :
    s.acceptOrder n order = s.refuseFrame (.full n) := by
  have full : orderTableSize ≤ s.pendingOrders := full
  simp [State.acceptOrder, entry, next.symm, full]

theorem State.acceptOrder_enters (entry : s.entry n = none) (next : n = s.link.expected) (room : s.pendingOrders < 8) :
    s.acceptOrder n order = (s.enterOrder order).takeNext := by
  have room : ¬ orderTableSize ≤ s.pendingOrders := Nat.not_le.mpr room
  simp [State.acceptOrder, entry, next.symm, room]

theorem State.replay_queued (payload : List Byte) : s.replay n true payload = s := rfl

theorem State.replay_full (queued : Bool) (payload : List Byte) (full : 8 ≤ s.link.answers.length) :
    s.replay n queued payload = s := by
  have full : ¬ s.link.answers.length < answerPlaces := Nat.not_lt.mpr full
  simp [State.replay, full]

theorem State.replay_room (payload : List Byte) (room : s.link.answers.length < 8) :
    s.replay n false payload =
      { s with
        link := { s.link with
          answers := s.link.answers ++ [{ number := n, payload := payload }]
          table := s.link.table.map (Entry.mark n true) } } := if_pos room

theorem State.sync_busy (busy : 0 < s.pendingOrders) : s.sync n = s.refuseFrame (.busy n) := if_pos busy

end

/-- Settles O11: an ORDER frame is its number's case of the acceptance. -/
theorem orderFramesAreAcceptedOrRefused : Obligations.OrderFramesAreAcceptedOrRefused := by
  have run : ∀ {s : State} (n : Byte) {order : List Byte}, s.listening → order.length ≤ 248 →
      exec (.receiveFrame (0x01 :: n :: order) (frameCheck (0x01 :: n :: order))) s = .next (s.acceptOrder n order) := by
    intro s n order listens fits
    rw [exec_receiveFrame _ listens fits, State.handleFrame_order n order listens.2.2.2]
  constructor
  · intro s n order listens fits body
    refine ⟨fun e held entry status => ?_, fun entry next full => ?_, fun entry next room => ?_, fun entry other => ?_⟩
    · exact (run n listens fits).trans (congrArg _ (State.acceptOrder_pending entry status))
    · exact (run n listens fits).trans (congrArg _ (State.acceptOrder_full entry next full))
    · subst next
      exact (run _ listens fits).trans (congrArg _ (State.acceptOrder_enters entry rfl room))
    · exact (run n listens fits).trans (congrArg _ (State.acceptOrder_outOfSequence order entry other))
  · intro s n order payload e listens fits entry status body
    have answered := (run n listens fits).trans (congrArg Host.Outcome.next (State.acceptOrder_answered entry status))
    refine ⟨fun queued => ?_, fun full => ?_, fun queued room => ?_⟩
    · exact answered.trans (by rw [queued, State.replay_queued])
    · exact answered.trans (by rw [State.replay_full _ _ full])
    · exact answered.trans (by rw [queued, State.replay_room payload room]; rfl)

/-- Settles O12: a SYNC frame is refused while an order is PENDING, and is taken else. -/
theorem syncSetsTheExpectedNumber : Obligations.SyncSetsTheExpectedNumber := by
  intro s m payload listens fits body
  have run := exec_receiveFrame (kind := 0x02) (n := m) (frameCheck body) listens fits
  rw [State.handleFrame_sync m payload listens.2.2.2] at run
  refine ⟨fun busy => ?_, fun noPending => ?_⟩
  · exact run.trans (congrArg _ (State.sync_busy busy))
  · exact run.trans (congrArg _ (State.sync_taken m noPending))

/-! ## The frame check and the characters of the line -/

theorem crcBit_eq (c : Half) : crcBit c = if 0x8000 ≤ c.toNat then (c <<< 1) ^^^ 0x1021 else c <<< 1 := by
  have top : c.getLsbD 15 = decide (0x8000 ≤ c.toNat) := by
    rw [show c.getLsbD 15 = c.msb from rfl, BitVec.msb_eq_decide]
  simp only [crcBit, top, decide_eq_true_eq]

theorem checkBytes_eq (c : Half) : checkBytes c = [c.extractLsb' 8 8, c.extractLsb' 0 8] := by
  have high : (c >>> 8).setWidth 8 = c.extractLsb' 8 8 := by ext i; simp
  have low : c.setWidth 8 = c.extractLsb' 0 8 := by ext i; simp
  rw [checkBytes, high, low]

/-- The bits of a byte put together from its bits, the least significant first (R153). -/
theorem byteOfBits_getLsbD (bits : List Bool) (k : Nat) :
    (byteOfBits bits).getLsbD k = (decide (k < 8) && bits.getD k false) := by
  induction bits generalizing k with
  | nil => simp [byteOfBits]
  | cons b rest ih =>
    have first : byteOfBits (b :: rest) = (byteOfBits rest <<< 1) ||| (if b then 1 else 0) := rfl
    have bit : (if b then (1 : Byte) else 0).getLsbD k = (decide (k = 0) && b) := by
      cases b <;> simp
    rw [first, BitVec.getLsbD_or, BitVec.getLsbD_shiftLeft, bit]
    cases k with
    | zero => simp
    | succ k =>
      rw [Nat.add_sub_cancel, ih]
      by_cases within : k + 1 < 8
      · have under : k < 8 := by omega
        simp [within, under]
      · simp [within]

theorem readChar_charBits (b : Byte) : readChar (charBits b) = some (.byteReceived b) := by
  have bits : byteOfBits ((List.range 8).map fun k => b.getLsbD k) = b := by
    apply BitVec.eq_of_getLsbD_eq
    intro k within
    rw [byteOfBits_getLsbD]
    simp [within]
  exact congrArg (fun x => some (Instr.byteReceived x)) bits

theorem charBits_length (b : Byte) : (charBits b).length = 10 := rfl

/-- Bit k of character j of a run of characters. -/
theorem flatMap_charBits_getElem? (bytes : List Byte) (j : Nat) {k : Nat} (within : k < 10) :
    (bytes.flatMap charBits)[10 * j + k]? = bytes[j]?.bind fun b => (charBits b)[k]? := by
  induction bytes generalizing j with
  | nil => simp
  | cons b rest ih =>
    rw [List.flatMap_cons]
    cases j with
    | zero => rw [List.getElem?_append_left (by rw [charBits_length]; omega)]; simp
    | succ j =>
      rw [List.getElem?_append_right (by rw [charBits_length]; omega), charBits_length]
      have place : 10 * (j + 1) + k - 10 = 10 * j + k := by omega
      rw [place, ih]
      simp

theorem flatMap_charBits_length (bytes : List Byte) : (bytes.flatMap charBits).length = 10 * bytes.length := by
  induction bytes with
  | nil => rfl
  | cons b rest ih =>
    rw [List.flatMap_cons, List.length_append, ih, charBits_length, List.length_cons]
    omega

theorem State.txd_idle {s : State} (idle : s.resetLow = true ∨ s.link.tx = none) (k : Nat) : s.txd k = true := by
  have none : s.frameOut = none := by
    rcases idle with low | none
    · simp [State.frameOut, low]
    · simp [State.frameOut, none]
  simp [State.txd, State.bitsOut, none]

theorem State.txd_frame {s : State} {f : Frame} (high : s.resetLow = false) (tx : s.link.tx = some f) (k : Nat) :
    s.txd k = ((f.encode.flatMap charBits)[k]?).getD true := by
  simp [State.txd, State.bitsOut, State.frameOut, high, tx]

/-- Settles O9: the check over its known run of bytes, the layout of a frame, and the line bit by bit. -/
theorem frameCheckIsTheCrcOfTheDataBook : Obligations.FrameCheckIsTheCrcOfTheDataBook := by
  refine ⟨⟨by decide +kernel, crcBit_eq, fun f => ?_⟩, fun b => ⟨rfl, readChar_charBits b, rfl⟩, fun s => ⟨State.txd_idle,
    fun f high tx => ⟨fun j b k place within => ?_, fun k past => ?_⟩⟩⟩
  · intro body check
    have encode : f.encode = [0xD2, BitVec.ofNat 8 body.length] ++ body ++ checkBytes check := rfl
    refine ⟨?_, ?_⟩
    · rw [encode]
      simp [checkBytes]
    · rw [encode, checkBytes_eq]
  · rw [State.txd_frame high tx, flatMap_charBits_getElem? _ _ within, place]
    rfl
  · rw [State.txd_frame high tx, List.getElem?_eq_none (by rw [flatMap_charBits_length]; exact past)]
    rfl

end Sys2Proof.Machine
end

