-- ==== Sys2Proof/Proofs/Executor.lean ====
section
/-! The executor takes the oldest order (R174), its answer is placed or waits for room (R170, R177), the transmitter takes
the most urgent frame (R168), and an order that fits none is refused (R175). -/

namespace Sys2Proof.Machine

/-! ## Taking the oldest order -/

section
variable {s : State}

theorem Entry.untaken?_eq_none {e : Entry} (taken : ∀ order, e.status ≠ .pending (some order)) : e.untaken? = none := by
  unfold Entry.untaken?
  split
  next order status => exact absurd status (taken order)
  · rfl
  · rfl

theorem Entry.untaken?_some {e : Entry} {n : Byte} {order : List Byte} (untaken : e.untaken? = some (n, order)) :
    n = e.number ∧ e.status = .pending (some order) := by
  unfold Entry.untaken? at untaken
  split at untaken <;> simp_all

theorem Entry.untaken?_pending {e : Entry} {order : List Byte} (status : e.status = .pending (some order)) :
    e.untaken? = some (e.number, order) := by
  simp [Entry.untaken?, status]

theorem findSome?_untaken_none {table : List Entry} (taken : ∀ e ∈ table, ∀ order, e.status ≠ .pending (some order)) :
    table.findSome? Entry.untaken? = none :=
  List.findSome?_eq_none_iff.mpr fun e he => Entry.untaken?_eq_none (taken e he)

theorem findSome?_untaken_some {older newer : List Entry} {e : Entry} {order : List Byte}
    (taken : ∀ x ∈ older, ∀ body, x.status ≠ .pending (some body)) (status : e.status = .pending (some order)) :
    (older ++ e :: newer).findSome? Entry.untaken? = some (e.number, order) := by
  rw [List.findSome?_append, findSome?_untaken_none taken, List.findSome?_cons, Entry.untaken?_pending status]
  rfl

theorem State.takeNext_busy {h : OrderInHand} (hand : s.inHand = some h) : s.takeNext = s := by
  unfold State.takeNext
  rw [hand]

theorem State.takeNext_idle (taken : ∀ e ∈ s.link.table, ∀ order, e.status ≠ .pending (some order)) : s.takeNext = s := by
  unfold State.takeNext
  rw [findSome?_untaken_none taken]
  split
  next found => cases found
  · rfl

theorem State.takeNext_takes {n : Byte} {order : List Byte} (hand : s.inHand = none)
    (oldest : s.link.table.findSome? Entry.untaken? = some (n, order)) :
    s.takeNext =
      { s with
        link := { s.link with table := s.link.table.map (Entry.taken n) }
        inHand := some { number := n, payload := order, task := .taken, waiting := none } } := by
  unfold State.takeNext
  rw [hand, oldest]

theorem State.takeNext_answers (s : State) : s.takeNext.link.answers = s.link.answers := by
  unfold State.takeNext
  split <;> rfl

/-- The order in hand is in turn exactly when it has been taken and not carried out. -/
theorem State.orderInTurn_hand {h : OrderInHand} (high : s.resetLow = false) (hand : s.inHand = some h) :
    s.orderInTurn = if h.task = .taken then some (h.number, h.payload) else none := by
  obtain ⟨number, payload, task, waiting⟩ := h
  unfold State.orderInTurn
  rw [high, hand]
  cases task <;> rfl

theorem State.orderInTurn_none (hand : s.inHand = none) : s.orderInTurn = none := by
  unfold State.orderInTurn
  rw [hand]
  split
  next found => cases found
  · rfl

end

/-- Settles O16: the executor takes the first entry its search finds. -/
theorem executorTakesTheOldestOrder : Obligations.ExecutorTakesTheOldestOrder := by
  refine ⟨fun s => ⟨fun h => State.takeNext_busy, State.takeNext_idle, ?_⟩, fun s high => ⟨State.orderInTurn_none, ?_⟩,
    fun s => State.orderInTurn_low, fun s n order => rfl⟩
  · intro older e newer order hand table taken status
    exact State.takeNext_takes hand (table ▸ findSome?_untaken_some taken status)
  · intro h hand
    rw [State.orderInTurn_hand high hand]
    exact ⟨fun task => if_pos task, fun task => if_neg task⟩

/-! ## The answer takes its place -/

theorem State.produceAnswer_room {s : State} {h : OrderInHand} (payload : List Byte) (hand : s.inHand = some h)
    (room : s.link.answers.length < 8) : s.produceAnswer payload = s.placeAnswer h payload := by
  unfold State.produceAnswer
  rw [hand]
  exact if_pos room

theorem State.produceAnswer_waits {s : State} {h : OrderInHand} (payload : List Byte) (hand : s.inHand = some h)
    (full : 8 ≤ s.link.answers.length) :
    s.produceAnswer payload =
      { s with
        inHand := some
          { h with task := if h.task = .resetPart then .resetPart else .carriedOut, waiting := some payload } } := by
  have produced : h.task.produced = if h.task = .resetPart then .resetPart else .carriedOut := by
    cases h.task <;> rfl
  unfold State.produceAnswer
  rw [hand, ← produced]
  exact if_neg (Nat.not_lt.mpr full)

theorem State.placeAnswer_answers (s : State) (h : OrderInHand) (payload : List Byte) :
    (s.placeAnswer h payload).link.answers = s.link.answers ++ [{ number := h.number, payload := payload }] :=
  State.takeNext_answers _

/-- The state of a placed answer before the executor takes its next order. -/
def State.answered (s : State) (h : OrderInHand) (payload : List Byte) : State :=
  { s with
    link := { s.link with
      table := s.link.table.map (Entry.answer h.number payload)
      answers := s.link.answers ++ [{ number := h.number, payload := payload }] }
    inHand := if h.task = .resetPart then some { h with waiting := none } else none }

theorem State.placeAnswer_eq (s : State) (h : OrderInHand) (payload : List Byte) :
    s.placeAnswer h payload = (s.answered h payload).takeNext := rfl

section
variable {s : State} {h : OrderInHand} {payload : List Byte}

theorem State.placeAnswer_reset (reset : h.task = .resetPart) :
    (s.placeAnswer h payload).inHand = some { h with waiting := none } := by
  have hand : (s.answered h payload).inHand = some { h with waiting := none } := if_pos reset
  rw [State.placeAnswer_eq, State.takeNext_busy hand, hand]

theorem State.answered_free (other : h.task ≠ .resetPart) : (s.answered h payload).inHand = none := if_neg other

/-- An answered entry is as it was, or holds the answer. -/
theorem Entry.answer_cases (n : Byte) (payload : List Byte) (e : Entry) :
    e.number ≠ n ∧ e.answer n payload = e ∨
      e.number = n ∧ e.answer n payload = { e with status := .answered payload, queued := true } := by
  unfold Entry.answer
  split_ifs with same
  · exact .inr ⟨same, rfl⟩
  · exact .inl ⟨same, rfl⟩

theorem Entry.answer_taken {n : Byte} {e : Entry} (taken : ∀ order, e.status ≠ .pending (some order)) (order : List Byte) :
    (e.answer n payload).status ≠ .pending (some order) := by
  rcases e.answer_cases n payload with ⟨-, same⟩ | ⟨-, answered⟩
  · rw [same]; exact taken order
  · rw [answered]; nofun

theorem State.placeAnswer_idle (other : h.task ≠ .resetPart)
    (taken : ∀ e ∈ s.link.table, ∀ order, e.status ≠ .pending (some order)) : (s.placeAnswer h payload).inHand = none := by
  rw [State.placeAnswer_eq, State.takeNext_idle]
  · exact State.answered_free other
  · intro e he order
    obtain ⟨x, hx, rfl⟩ := List.mem_map.mp he
    exact Entry.answer_taken (taken x hx) order

theorem State.placeAnswer_takes {older newer : List Entry} {e : Entry} {order : List Byte} (other : h.task ≠ .resetPart)
    (table : s.link.table = older ++ e :: newer) (taken : ∀ x ∈ older, ∀ body, x.status ≠ .pending (some body))
    (status : e.status = .pending (some order)) (ne : e.number ≠ h.number) :
    (s.placeAnswer h payload).inHand =
      some { number := e.number, payload := order, task := .taken, waiting := none } := by
  have oldest : (s.answered h payload).link.table.findSome? Entry.untaken? = some (e.number, order) := by
    have same : e.answer h.number payload = e := if_neg ne
    change (s.link.table.map (Entry.answer h.number payload)).findSome? Entry.untaken? = _
    rw [table, List.map_append, List.map_cons, same]
    refine findSome?_untaken_some (fun x hx body => ?_) status
    obtain ⟨y, hy, rfl⟩ := List.mem_map.mp hx
    exact Entry.answer_taken (taken y hy) body
  rw [State.placeAnswer_eq, State.takeNext_takes (State.answered_free other) oldest]

/-- The entries of an order just answered hold its answer, queued (R170). -/
theorem State.placeAnswer_entry {e : Entry} (mem : e ∈ (s.placeAnswer h payload).link.table) (number : e.number = h.number) :
    e.status = .answered payload ∧ e.queued = true := by
  have answered : ∀ x ∈ (s.answered h payload).link.table, x.number = h.number →
      x.status = .answered payload ∧ x.queued = true := by
    intro x hx number
    obtain ⟨y, -, rfl⟩ := List.mem_map.mp hx
    rcases y.answer_cases h.number payload with ⟨ne, same⟩ | ⟨-, holds⟩
    · rw [same] at number
      exact absurd number ne
    · rw [holds]
      exact ⟨rfl, rfl⟩
  rw [State.placeAnswer_eq] at mem
  unfold State.takeNext at mem
  split at mem
  next n order _ oldest =>
    obtain ⟨x, hx, rfl⟩ := List.mem_map.mp mem
    obtain ⟨y, hy, found⟩ := List.exists_of_findSome?_eq_some oldest
    have other : n ≠ h.number := by
      intro same
      have untaken := Entry.untaken?_some found
      obtain ⟨holds, -⟩ := answered y hy (untaken.1.symm.trans same)
      rw [untaken.2] at holds
      cases holds
    unfold Entry.taken at number ⊢
    split_ifs at number ⊢ with same
    · exact absurd (same.symm.trans number) other
    · exact answered x hx number
  · exact answered e mem number

end

/-! ## The transmitter -/

section
variable {s : State} (high : s.resetLow = false)
include high

theorem exec_transmitFrame : exec .transmitFrame s = .next s.transmit :=
  congrArg Host.Outcome.next (State.running_high high _)

theorem exec_transmitFrame_busy {f : Frame} (tx : s.link.tx = some f) : exec .transmitFrame s = .next s := by
  rw [exec_transmitFrame high, State.transmit, tx]

theorem exec_transmitFrame_refusal {f : Frame} {rest : List Frame} (tx : s.link.tx = none)
    (refusals : s.link.refusals = f :: rest) :
    exec .transmitFrame s = .next { s with link := { s.link with refusals := rest, tx := some f } } := by
  rw [exec_transmitFrame high, State.transmit, tx, refusals]

theorem exec_transmitFrame_answer {a : Answer} {rest : List Answer} (tx : s.link.tx = none) (refusals : s.link.refusals = [])
    (answers : s.link.answers = a :: rest) : exec .transmitFrame s = .next (s.sendAnswer a rest) := by
  rw [exec_transmitFrame high, State.transmit, tx, refusals, answers]

theorem exec_transmitFrame_empty (tx : s.link.tx = none) (refusals : s.link.refusals = []) (answers : s.link.answers = [])
    (notices : s.notes.txQueue = []) : exec .transmitFrame s = .next s := by
  rw [exec_transmitFrame high, State.transmit, tx, refusals, answers, notices]

end

/-- The state right after the transmitter has taken an answer, before an answer that waits takes its room (R168). -/
def State.sentAnswer (s : State) (a : Answer) (rest : List Answer) : State :=
  { s with
    link := { s.link with
      answers := rest
      tx := some { kind := .answer, number := a.number, payload := a.payload }
      table :=
        if ∃ b ∈ rest, b.number = a.number then s.link.table
        else s.link.table.map fun e => if e.number = a.number then { e with queued := false } else e } }

theorem State.sendAnswer_eq (s : State) (a : Answer) (rest : List Answer) :
    s.sendAnswer a rest = (s.sentAnswer a rest).placeWaiting := by
  have sent : State.clearQueuedMark { s with link := { s.link with answers := rest, tx := some a.frame } } a.number =
      s.sentAnswer a rest := by
    unfold State.clearQueuedMark State.sentAnswer
    by_cases again : ∃ b ∈ rest, b.number = a.number
    · rw [if_pos again]
      exact if_pos (by simpa using again)
    · rw [if_neg again]
      exact if_neg (by simpa using again)
  rw [State.sendAnswer, sent]

theorem State.placeWaiting_none {s : State} (waiting : ∀ h, s.inHand = some h → h.waiting = none) : s.placeWaiting = s := by
  unfold State.placeWaiting
  split
  next h hand => rw [waiting h hand]
  · rfl

theorem State.placeWaiting_some {s : State} {h : OrderInHand} {payload : List Byte} (hand : s.inHand = some h)
    (waiting : h.waiting = some payload) : s.placeWaiting = s.placeAnswer h payload := by
  unfold State.placeWaiting
  rw [hand]
  dsimp only
  rw [waiting]

/-- An answer sent leaves the entries' numbers and statuses. -/
theorem State.sentAnswer_entry (s : State) (a : Answer) (rest : List Answer) :
    ∃ f : Entry → Entry, (∀ e, (f e).number = e.number ∧ (f e).status = e.status) ∧
      (s.sentAnswer a rest).link.table = s.link.table.map f := by
  by_cases again : ∃ b ∈ rest, b.number = a.number
  · exact ⟨id, fun e => ⟨rfl, rfl⟩, (if_pos again).trans (List.map_id _).symm⟩
  · refine ⟨Entry.mark a.number false, fun e => ⟨e.mark_number _ _, e.mark_status _ _⟩, if_neg again⟩

/-- Settles O15: an answer is placed or waits, and one that waited is placed as the transmitter frees a place. -/
theorem waitingAnswerTakesTheFreedRoom : Obligations.WaitingAnswerTakesTheFreedRoom := by
  refine ⟨fun s h payload hand => ⟨State.produceAnswer_room payload hand, State.produceAnswer_waits payload hand, rfl⟩, ?_⟩
  intro s h payload a rest high tx refusals answers hand waiting
  obtain ⟨f, keeps, table⟩ := s.sentAnswer_entry a rest
  have sent : s.sendAnswer a rest = (s.sentAnswer a rest).placeAnswer h payload := by
    rw [State.sendAnswer_eq, State.placeWaiting_some (s := s.sentAnswer a rest) hand waiting]
  refine ⟨_, exec_transmitFrame_answer high tx refusals answers, ?_⟩
  rw [sent]
  have taken : ∀ x : Entry, (∀ body, x.status ≠ .pending (some body)) → ∀ body, (f x).status ≠ .pending (some body) :=
    fun x taken body => (keeps x).2 ▸ taken body
  refine ⟨State.placeAnswer_answers _ _ _, State.placeAnswer_reset, fun other idle => ?_, ?_,
    fun e mem number => State.placeAnswer_entry mem number⟩
  · refine State.placeAnswer_idle other fun e he order => ?_
    rw [table] at he
    obtain ⟨x, hx, rfl⟩ := List.mem_map.mp he
    exact taken x (idle x hx) order
  · intro older e newer order other split older_taken status ne
    have here : (s.sentAnswer a rest).link.table = older.map f ++ f e :: newer.map f := by
      rw [table, split, List.map_append, List.map_cons]
    have placed := State.placeAnswer_takes (payload := payload) other here (fun x hx body => ?_)
      ((keeps e).2.trans status) ((keeps e).1 ▸ ne)
    · rw [placed, (keeps e).1]
    · obtain ⟨y, hy, rfl⟩ := List.mem_map.mp hx
      exact taken y (older_taken y hy) body

/-- Settles O14: the transmitter's queues in their order, and a notice's bytes by its kind. -/
theorem transmitterTakesTheMostUrgentFrame : Obligations.TransmitterTakesTheMostUrgentFrame := by
  constructor
  · intro s high
    refine ⟨fun f => exec_transmitFrame_busy high, fun f rest => exec_transmitFrame_refusal high, ?_, ?_,
      exec_transmitFrame_empty high⟩
    · intro a rest tx refusals answers sent
      rw [exec_transmitFrame_answer high tx refusals answers, State.sendAnswer_eq]
      refine ⟨fun none => ?_, fun h payload hand waiting => ⟨?_, State.placeAnswer_answers _ _ _⟩⟩
      · exact congrArg Host.Outcome.next (State.placeWaiting_none (s := s.sentAnswer a rest) none)
      · exact congrArg Host.Outcome.next (State.placeWaiting_some (s := s.sentAnswer a rest) hand waiting)
    · intro n rest x tx refusals answers queue found
      have number : x.number = n := by simpa using List.find?_some found
      rw [exec_transmitFrame_notice high tx refusals answers queue, State.sendNotice, found, Option.map_some, Notice.frame,
        number]
      rfl
  · refine ⟨fun reason size revision => ?_, fun r => ?_, fun r => ?_⟩
    · cases reason <;> rfl
    · have sides : r.sides = if r.nextA = none then 0x00 else if r.nextB = none then 0x01 else 0x02 := by
        unfold EndRecord.sides
        cases r.nextA <;> cases r.nextB <;> rfl
      have address : ∀ a : Option Addr, addressBytes a =
          match a with
          | some a => le3 a.toNat
          | none => [0x00, 0x00, 0x00] := fun a => by cases a <;> rfl
      simp only [NoticeBody.bytes, EndRecord.bytes, sides, address]
      rfl
    · cases fault : r.fault <;> simp only [NoticeBody.bytes, FaultRecord.bytes, fault] <;> rfl

/-! ## Orders that fit none -/

/-- The command of an order runs the executor with the order's own code. -/
theorem exec_order {c : Instr} {code : Byte} (order : orderCode c = some code) :
    ∃ body, ∀ s, exec c s = .next (runOrder code body s) := by
  cases c <;> cases order <;> exact ⟨_, fun s => rfl⟩

theorem runOrder_empty {code n : Byte} {body : List Byte → State → OrderEnd} {s : State}
    (turn : s.orderInTurn = some (n, [])) : runOrder code body s = s := by
  simp [runOrder, turn]

/-- The 29 orders. -/
def orders : List Instr :=
  [.hello, .configure, .summary, .resetPart, .define, .inspect, .rearm, .release, .trigger, .lineSetup, .timerSetup,
    .timerStart, .timerStop, .sourceStatus, .sourceClear, .bind, .unbind, .queueList, .freeze, .thaw, .peek, .poke,
    .laneSetup, .laneStatus, .cancel, .retry, .skip, .acknowledge, .resend]

theorem lengthFits_none {code : Byte} (none : ∀ c, orderCode c ≠ some code) (k : Nat) : lengthFits code k = Option.none := by
  have named : ∀ row ∈ orderLengths, ∃ c ∈ orders, orderCode c = some row.1 := by decide
  have absent : orderLengths.lookup code = Option.none := by
    rw [List.lookup_eq_none_iff]
    intro row mem
    obtain ⟨c, -, order⟩ := named row mem
    simp only [ne_eq, bne_iff_ne]
    rintro rfl
    exact none c order
  rw [lengthFits, absent]
  rfl

theorem lengthFits_ne_none {c : Instr} {code : Byte} (order : orderCode c = some code) (k : Nat) :
    lengthFits code k ≠ none := by
  cases c <;> cases order <;> nofun

theorem lengthFits_of_range {code : Byte} {low high : Nat} (row : orderLengths.lookup code = some (low, high)) (k : Nat) :
    lengthFits code k = some true ↔ low ≤ k ∧ k ≤ high := by
  simp [lengthFits, row]

theorem exec_unknownOrder_other {s : State} {n code : Byte} {operands : List Byte}
    (turn : s.orderInTurn = some (n, code :: operands)) (none : ∀ c, orderCode c ≠ some code) :
    exec .unknownOrder s = .next ((s.carryOut n (code :: operands)).produceAnswer [code, 0x01]) := by
  change execUnknownOrder s = _
  have unnamed : namesOrder (code :: operands) = false := by
    rw [namesOrder, lengthFits_none none]
    rfl
  rw [execUnknownOrder, turn]
  exact if_neg (by rw [unnamed]; nofun)

theorem exec_unknownOrder_named {s : State} {n code : Byte} {operands : List Byte} {c : Instr}
    (turn : s.orderInTurn = some (n, code :: operands)) (order : orderCode c = some code) :
    exec .unknownOrder s = .next s := by
  change execUnknownOrder s = _
  have named : namesOrder (code :: operands) = true :=
    Option.isSome_iff_ne_none.mpr (lengthFits_ne_none order _)
  rw [execUnknownOrder, turn]
  exact if_pos named

/-- The data book's table of the orders that take one length (R188). -/
def orderRows : List (Instr × Byte × Nat) :=
  [(.hello, 0x01, 0), (.configure, 0x02, 3), (.summary, 0x03, 0), (.resetPart, 0x0F, 0), (.define, 0x10, 21),
    (.inspect, 0x11, 1), (.rearm, 0x12, 1), (.release, 0x13, 1), (.trigger, 0x20, 1), (.lineSetup, 0x21, 2)] ++
  [(.timerSetup, 0x22, 5), (.timerStart, 0x23, 1), (.timerStop, 0x24, 1), (.sourceStatus, 0x25, 1),
    (.sourceClear, 0x26, 1), (.bind, 0x30, 2), (.unbind, 0x31, 1), (.queueList, 0x32, 1), (.freeze, 0x40, 0),
    (.thaw, 0x41, 0)] ++
  [(.peek, 0x50, 4), (.laneSetup, 0x60, 5), (.laneStatus, 0x61, 1), (.cancel, 0x70, 1), (.retry, 0x71, 1),
    (.skip, 0x72, 1), (.acknowledge, 0x80, 2), (.resend, 0x81, 0)]

theorem orderRows_agree : ∀ row ∈ orderRows,
    orderCode row.1 = some row.2.1 ∧ orderLengths.lookup row.2.1 = some (row.2.2, row.2.2) := by decide

/-- Settles O17: every order runs through `runOrder`, and the table of lengths holds the 29 codes and no other. -/
theorem ordersThatFitNoOrderAreRefused : Obligations.OrdersThatFitNoOrderAreRefused := by
  refine ⟨fun c code order => ?_, ⟨fun s n turn => ?_, fun s n code operands => exec_unknownOrder_other⟩,
    ⟨fun s turn => ?_, fun s n code operands c => exec_unknownOrder_named⟩, fun c code n row => ?_, rfl,
    lengthFits_of_range rfl, lengthFits_ne_none (c := .poke) rfl, fun code none => lengthFits_none none⟩
  · obtain ⟨body, run⟩ := exec_order order
    refine ⟨fun s n operands turn fits => ?_, fun s turn => ?_, fun s n turn => ?_, fun s n other operands turn ne => ?_⟩
    · rw [run, runOrder_badLength turn fits]
    · rw [run, runOrder_idle turn]
    · rw [run, runOrder_empty turn]
    · rw [run, runOrder_other turn ne]
  · change execUnknownOrder s = _
    rw [execUnknownOrder, turn]
    rfl
  · change execUnknownOrder s = _
    rw [execUnknownOrder, turn]
  · have rows : orderCode c = some code ∧ orderLengths.lookup code = some (n, n) := by
      exact orderRows_agree _ row
    refine ⟨rows.1, fun k => ⟨?_, lengthFits_ne_none rows.1 k⟩⟩
    rw [lengthFits_of_range rows.2]
    omega

end Sys2Proof.Machine
end


-- ==== Sys2Proof/Proofs/SlotOrders.lean ====
section
/-! PROOF. How an order in turn ends, and the orders that act on one slot: DEFINE (R15 to R19), REARM (R22) and RELEASE
(R23). -/

namespace Sys2Proof.Machine

/-! ## The end of an order in turn -/

section
variable {s t : State} {code n : Byte} {operands data : List Byte} {body : List Byte → State → OrderEnd}

/-- An order in turn that its body answers DONE. -/
theorem runOrder_done (turn : s.orderInTurn = some (n, code :: operands))
    (fits : lengthFits code operands.length = some true)
    (ends : body operands (s.carryOut n (code :: operands)) = .answered .done data t) :
    runOrder code body s = t.produceAnswer (code :: 0x00 :: data) := by
  rw [runOrder_taken turn fits, ends]
  rfl

/-- An order in turn that its body refuses: nothing but the answer changes (R175). -/
theorem runOrder_refused {outcome : OutcomeCode} (turn : s.orderInTurn = some (n, code :: operands))
    (fits : lengthFits code operands.length = some true)
    (ends : body operands (s.carryOut n (code :: operands)) = refusal outcome (s.carryOut n (code :: operands))) :
    runOrder code body s = (s.carryOut n (code :: operands)).produceAnswer [code, outcome.byte] := by
  rw [runOrder_taken turn fits, ends]
  rfl

/-- An order in turn that its body holds. -/
theorem runOrder_held (turn : s.orderInTurn = some (n, code :: operands))
    (fits : lengthFits code operands.length = some true)
    (ends : body operands (s.carryOut n (code :: operands)) = .held t) : runOrder code body s = t := by
  rw [runOrder_taken turn fits, ends]
  rfl

end

/-! ## The slot operand -/

theorem withSlot_slotByte (i : Fin 64) (rest : List Byte) (s : State) (go : Fin 64 → OrderEnd) :
    withSlot (slotByte i :: rest) s go = go i := by
  simp [withSlot, fieldAt_zero]

theorem withSlot_none {b : Byte} (high : 64 ≤ b.toNat) (rest : List Byte) (s : State) (go : Fin 64 → OrderEnd) :
    withSlot (b :: rest) s go = refusal .badSlot s := by
  simp [withSlot, fieldAt_zero, slotOf_none high]

/-! ## Slots at rest (R15) -/

theorem Slot.atRest?_resting {v : Slot} {st : LiveState} {d : Descriptor} {p : Progress} (slot : v = .live st d p)
    (rest : st = .loaded ∨ st = .spent) : v.atRest? = some d := by
  rcases rest with rfl | rfl <;> rw [slot] <;> rfl

theorem Slot.atRest?_none {v : Slot} (loaded : v.state ≠ some .loaded) (spent : v.state ≠ some .spent) :
    v.atRest? = none := by
  cases rest : v.atRest? with
  | none => rfl
  | some d =>
    obtain ⟨st, p, rfl, rfl | rfl⟩ := Slot.atRest?_live rest
    · exact absurd rfl loaded
    · exact absurd rfl spent

theorem Slot.state_some {v : Slot} {st : LiveState} (state : v.state = some st) : ∃ d p, v = .live st d p := by
  cases v with
  | free => cases state
  | live st' d p => cases state; exact ⟨d, p, rfl⟩

theorem Slot.state_live {v : Slot} {st : LiveState} {d : Descriptor} {p : Progress} (slot : v = .live st d p) :
    v.state = some st := congrArg Slot.state slot

/-- The states DEFINE takes (R15). -/
def Slot.taken (v : Slot) : Prop := v.state = none ∨ v.state = some .loaded ∨ v.state = some .spent

theorem Slot.definable_iff (v : Slot) : v.definable = true ↔ v.taken := by
  constructor
  · intro definable
    rcases Slot.definable_cases definable with rfl | ⟨st, d, p, rfl, rfl | rfl⟩
    · exact .inl rfl
    · exact .inr (.inl rfl)
    · exact .inr (.inr rfl)
  · rintro (free | loaded | spent)
    · cases v with
      | free => rfl
      | live st d p => cases free
    · obtain ⟨d, p, rfl⟩ := Slot.state_some loaded
      rfl
    · obtain ⟨d, p, rfl⟩ := Slot.state_some spent
      rfl

/-! ## DEFINE -/

section
variable {s : State} {i : Fin 64} {r : List Byte} {d : Descriptor}

theorem orderDefine_state (no : ¬ (s.slot i).taken) : orderDefine (slotByte i :: r) s = refusal .badState s := by
  have undefinable : (s.slot i).definable = false := Bool.eq_false_iff.mpr fun yes => no ((Slot.definable_iff _).mp yes)
  rw [orderDefine, withSlot_slotByte]
  simp [undefinable]

variable (taken : (s.slot i).taken)
include taken

theorem orderDefine_waiting (mark : s.waitingMark i = true) :
    orderDefine (slotByte i :: r) s = refusal .noticeWaiting s := by
  have definable := (Slot.definable_iff _).mpr taken
  rw [orderDefine, withSlot_slotByte]
  simp [definable, mark]

variable (mark : s.waitingMark i = false)
include mark

/-- Past the checks of the slot, the record decides. -/
theorem orderDefine_record :
    orderDefine (slotByte i :: r) s =
      withField (readRecord r) s fun d =>
        if !d.transfer.aligned then refusal .badAlign s
        else if !d.inside s.memorySize then refusal .outOfRange s
        else .answered .done [slotByte i] (s.load i d) := by
  have definable := (Slot.definable_iff _).mpr taken
  rw [orderDefine, withSlot_slotByte]
  simp [definable, mark]

theorem orderDefine_field (read : readRecord r = none) :
    orderDefine (slotByte i :: r) s = refusal .badField s := by
  rw [orderDefine_record taken mark, read]
  rfl

theorem orderDefine_align (read : readRecord r = some d) (aligned : d.transfer.aligned = false) :
    orderDefine (slotByte i :: r) s = refusal .badAlign s := by
  rw [orderDefine_record taken mark, read]
  simp [withField, aligned]

theorem orderDefine_range (read : readRecord r = some d) (aligned : d.transfer.aligned = true)
    (inside : d.inside s.memorySize = false) : orderDefine (slotByte i :: r) s = refusal .outOfRange s := by
  rw [orderDefine_record taken mark, read]
  simp [withField, aligned, inside]

theorem orderDefine_loads (read : readRecord r = some d) (aligned : d.transfer.aligned = true)
    (inside : d.inside s.memorySize = true) :
    orderDefine (slotByte i :: r) s = .answered .done [slotByte i] (s.load i d) := by
  rw [orderDefine_record taken mark, read]
  simp [withField, aligned, inside]

end

theorem lengthFits_define (b : Byte) {r : List Byte} (length : r.length = 20) :
    lengthFits 0x10 (b :: r).length = some true := by
  rw [List.length_cons, length]
  rfl

/-- Settles O18: the checks passed, DEFINE loads the slot. -/
theorem defineLoadsTheSlot : Obligations.DefineLoadsTheSlot := by
  intro s n i r d turn length taken mark read aligned inside
  exact congrArg Host.Outcome.next
    (runOrder_done turn (lengthFits_define _ length)
      (orderDefine_loads (s := s.carryOut n _) taken mark read aligned inside))

/-- Settles O19: each check of DEFINE refuses once the ones before it have passed. -/
theorem defineIsRefusedByTheFirstFailedCheck : Obligations.DefineIsRefusedByTheFirstFailedCheck := by
  intro s n b r turn length
  have refused : ∀ outcome, orderDefine (b :: r) (s.carryOut n (0x10 :: b :: r)) =
      refusal outcome (s.carryOut n (0x10 :: b :: r)) →
      exec .define s = .next ((s.carryOut n (0x10 :: b :: r)).produceAnswer [0x10, outcome.byte]) :=
    fun outcome ends => congrArg Host.Outcome.next (runOrder_refused turn (lengthFits_define b length) ends)
  refine ⟨fun high => refused .badSlot (withSlot_none high _ _ _), ?_⟩
  rintro i rfl
  exact ⟨fun no => refused .badState (orderDefine_state no),
    fun taken mark => refused .noticeWaiting (orderDefine_waiting taken mark),
    fun taken mark read => refused .badField (orderDefine_field taken mark read),
    fun d taken mark read => ⟨fun aligned => refused .badAlign (orderDefine_align taken mark read aligned),
      fun aligned inside => refused .outOfRange (orderDefine_range taken mark read aligned inside)⟩⟩

/-! ## REARM and RELEASE -/

section
variable {s : State} {i : Fin 64} {d : Descriptor} (go : Fin 64 → Descriptor → OrderEnd)

theorem withRestingSlot_rests (rest : (s.slot i).atRest? = some d) (mark : s.waitingMark i = false) :
    withRestingSlot [slotByte i] s go = go i d := by
  rw [withRestingSlot, withSlot_slotByte]
  simp [rest, mark]

theorem withRestingSlot_waiting (rest : (s.slot i).atRest? = some d) (mark : s.waitingMark i = true) :
    withRestingSlot [slotByte i] s go = refusal .noticeWaiting s := by
  rw [withRestingSlot, withSlot_slotByte]
  simp [rest, mark]

theorem withRestingSlot_state (rest : (s.slot i).atRest? = none) :
    withRestingSlot [slotByte i] s go = refusal .badState s := by
  rw [withRestingSlot, withSlot_slotByte]
  simp [rest]

end

/-- What `withRestingSlot` refuses, REARM and RELEASE refuse. -/
theorem exec_rest_refused {s : State} {c : Instr} {code n b : Byte}
    (order : c = .rearm ∧ code = 0x12 ∨ c = .release ∧ code = 0x13) (turn : s.orderInTurn = some (n, [code, b]))
    (outcome : OutcomeCode)
    (refuses : ∀ go, withRestingSlot [b] (s.carryOut n [code, b]) go = refusal outcome (s.carryOut n [code, b])) :
    exec c s = .next ((s.carryOut n [code, b]).produceAnswer [code, outcome.byte]) := by
  rcases order with ⟨rfl, rfl⟩ | ⟨rfl, rfl⟩
  · exact congrArg Host.Outcome.next (runOrder_refused (body := orderRearm) turn rfl (refuses _))
  · exact congrArg Host.Outcome.next (runOrder_refused (body := orderRelease) turn rfl (refuses _))

/-- Settles O24: both orders take a slot at rest with no record waiting, and refuse every other. -/
theorem rearmAndReleaseTakeALoadedOrSpentSlot : Obligations.RearmAndReleaseTakeALoadedOrSpentSlot := by
  constructor
  · intro s n i st d p slot state mark
    have rest := Slot.atRest?_resting slot state
    exact ⟨fun turn => congrArg Host.Outcome.next
        (runOrder_done turn rfl (withRestingSlot_rests (s := s.carryOut n _) _ rest mark)),
      fun turn => congrArg Host.Outcome.next
        (runOrder_done turn rfl (withRestingSlot_rests (s := s.carryOut n _) _ rest mark))⟩
  · intro s c code n b order turn
    refine ⟨fun high => exec_rest_refused order turn .badSlot fun go => withSlot_none high _ _ _, ?_⟩
    rintro i rfl
    refine ⟨fun loaded spent => exec_rest_refused order turn .badState fun go =>
      withRestingSlot_state go (Slot.atRest?_none loaded spent), fun state mark => ?_⟩
    have rest : ∃ d, (s.slot i).atRest? = some d := by
      rcases state with state | state
      · obtain ⟨d, p, slot⟩ := Slot.state_some state
        exact ⟨d, Slot.atRest?_resting slot (.inl rfl)⟩
      · obtain ⟨d, p, slot⟩ := Slot.state_some state
        exact ⟨d, Slot.atRest?_resting slot (.inr rfl)⟩
    obtain ⟨d, rest⟩ := rest
    exact exec_rest_refused order turn .noticeWaiting fun go => withRestingSlot_waiting (d := d) go rest mark

end Sys2Proof.Machine
end


-- ==== Sys2Proof/Proofs/RecordFields.lean ====
section
/-! PROOF. The fields of a descriptor record (R17, R187, R190): what DEFINE refuses, the alignment and range of each side
(R18, R19), and the record written and read back. -/

namespace Sys2Proof.Machine

/-! ## Values no field takes -/

theorem readLevel_eq_none {n : Nat} : readLevel n = none ↔ n = 0 ∨ 6 < n := by
  unfold readLevel
  split_ifs with legal
  · exact iff_of_false nofun (by omega)
  · exact iff_of_true rfl (by omega)

theorem readFlag_eq_none : ∀ {n : Nat}, readFlag n = none ↔ 1 < n
  | 0 | 1 => iff_of_false nofun (by omega)
  | _ + 2 => iff_of_true rfl (by omega)

theorem laneOf_eq_none {n : Nat} : laneOf n = none ↔ 11 < n := by
  unfold laneOf
  split_ifs with low
  · exact iff_of_false nofun (by omega)
  · exact iff_of_true rfl (by omega)

theorem laneOf_some {n : Nat} {k : Fin 12} (lane : laneOf n = some k) : k.val = n := by
  unfold laneOf at lane
  split_ifs at lane
  cases lane
  rfl

theorem readEndAction_eq_none {n : Nat} : readEndAction n = none ↔ 8 < n := by
  unfold readEndAction softOf
  split_ifs with zero low
  · exact iff_of_false nofun (by omega)
  · exact iff_of_false nofun (by omega)
  · exact iff_of_true rfl (by omega)

theorem readUnit_eq_none : ∀ {n : Nat}, readUnit n = none ↔ n ≠ 1 ∧ n ≠ 2 ∧ n ≠ 4
  | 0 | 3 | _ + 5 => iff_of_true rfl (by omega)
  | 1 | 2 | 4 => iff_of_false nofun (by omega)

theorem readWalk_eq_none : ∀ {n : Nat}, readWalk n = none ↔ n = 0 ∨ 3 < n
  | 0 | _ + 4 => iff_of_true rfl (by omega)
  | 1 | 2 | 3 => iff_of_false nofun (by omega)

section
variable {r : List Byte}

theorem readSide_eq_none {offset : Nat} :
    readSide r offset = none ↔ fieldAt r (offset + 3) 1 = 0 ∨ 3 < fieldAt r (offset + 3) 1 := by
  rw [readSide, Option.map_eq_none_iff, readWalk_eq_none]

theorem readRelayLanes_eq_none :
    readRelayLanes r = none ↔ 11 < fieldAt r 6 1 ∨ 11 < fieldAt r 7 1 ∨ fieldAt r 6 1 = fieldAt r 7 1 := by
  unfold readRelayLanes
  split
  next n m first second =>
    have from_ := laneOf_some first
    have to_ := laneOf_some second
    split_ifs with same
    · exact iff_of_true rfl (.inr (.inr (from_.symm.trans ((congrArg Fin.val same).trans to_))))
    · exact iff_of_false nofun (by omega)
  next no =>
    refine iff_of_true rfl ?_
    cases first : laneOf (fieldAt r 6 1) with
    | none => exact .inl (laneOf_eq_none.mp first)
    | some n =>
      cases second : laneOf (fieldAt r 7 1) with
      | none => exact .inr (.inl (laneOf_eq_none.mp second))
      | some m => exact (no n m first second).elim

/-! The fields each kind of record needs (R17). -/

theorem readTransfer_capture (kind : fieldAt r 0 1 = 1) :
    readTransfer r = none ↔
      readUnit (fieldAt r 2 1) = none ∨ laneOf (fieldAt r 6 1) = none ∨ readSide r 8 = none := by
  unfold readTransfer
  rw [kind]
  cases readUnit (fieldAt r 2 1) <;> cases laneOf (fieldAt r 6 1) <;> cases readSide r 8 <;> simp

theorem readTransfer_playout (kind : fieldAt r 0 1 = 2) :
    readTransfer r = none ↔
      readUnit (fieldAt r 2 1) = none ∨ laneOf (fieldAt r 7 1) = none ∨ readSide r 8 = none := by
  unfold readTransfer
  rw [kind]
  cases readUnit (fieldAt r 2 1) <;> cases laneOf (fieldAt r 7 1) <;> cases readSide r 8 <;> simp

theorem readTransfer_copy (kind : fieldAt r 0 1 = 3) :
    readTransfer r = none ↔ readUnit (fieldAt r 2 1) = none ∨ readSide r 8 = none ∨ readSide r 12 = none := by
  unfold readTransfer
  rw [kind]
  cases readUnit (fieldAt r 2 1) <;> cases readSide r 8 <;> cases readSide r 12 <;> simp

theorem readTransfer_relay (kind : fieldAt r 0 1 = 4) :
    readTransfer r = none ↔ readUnit (fieldAt r 2 1) = none ∨ readRelayLanes r = none := by
  unfold readTransfer
  rw [kind]
  cases readUnit (fieldAt r 2 1) <;> cases readRelayLanes r <;> simp

theorem readTransfer_tally (kind : fieldAt r 0 1 = 5) : readTransfer r = some .tally := by
  unfold readTransfer
  rw [kind]
  rfl

theorem readTransfer_unknown (kind : fieldAt r 0 1 = 0 ∨ 5 < fieldAt r 0 1) : readTransfer r = none := by
  unfold readTransfer
  split
  case h_6 => rfl
  all_goals omega

theorem readRecord_eq_none :
    readRecord r = none ↔
      readTransfer r = none ∨ readLevel (fieldAt r 1 1) = none ∨ readFlag (fieldAt r 16 1) = none ∨
        readEndAction (fieldAt r 17 1) = none := by
  unfold readRecord
  cases readTransfer r <;> cases readLevel (fieldAt r 1 1) <;> cases readFlag (fieldAt r 16 1) <;>
    cases readEndAction (fieldAt r 17 1) <;> simp

/-- The fields of a kind, as numbers. -/
theorem readTransfer_fields {f : Nat → Nat} (reads : ∀ k, fieldAt r k 1 = f k) :
    readTransfer r = none ↔
      f 0 = 0 ∨ 5 < f 0 ∨ (f 0 ≠ 5 ∧ f 2 ≠ 1 ∧ f 2 ≠ 2 ∧ f 2 ≠ 4) ∨
        ((f 0 = 1 ∨ f 0 = 4) ∧ 11 < f 6) ∨ ((f 0 = 2 ∨ f 0 = 4) ∧ 11 < f 7) ∨ (f 0 = 4 ∧ f 6 = f 7) ∨
        ((f 0 = 1 ∨ f 0 = 2 ∨ f 0 = 3) ∧ (f 11 = 0 ∨ 3 < f 11)) ∨ (f 0 = 3 ∧ (f 15 = 0 ∨ 3 < f 15)) := by
  obtain kind | kind | kind | kind | kind | kind : (f 0 = 0 ∨ 5 < f 0) ∨ f 0 = 1 ∨ f 0 = 2 ∨ f 0 = 3 ∨ f 0 = 4 ∨ f 0 = 5 := by
    omega
  · exact iff_of_true (readTransfer_unknown (by rwa [reads])) (by omega)
  · rw [readTransfer_capture ((reads 0).trans kind), readUnit_eq_none, laneOf_eq_none, readSide_eq_none]
    simp [kind, reads]
  · rw [readTransfer_playout ((reads 0).trans kind), readUnit_eq_none, laneOf_eq_none, readSide_eq_none]
    simp [kind, reads]
  · rw [readTransfer_copy ((reads 0).trans kind), readUnit_eq_none, readSide_eq_none, readSide_eq_none]
    simp [kind, reads]
  · rw [readTransfer_relay ((reads 0).trans kind), readUnit_eq_none, readRelayLanes_eq_none]
    simp [kind, reads]
  · rw [readTransfer_tally ((reads 0).trans kind)]
    simp [kind]

end

/-! ## Alignment and range -/

theorem Side.inside_iff (sd : Side) (T U S : Nat) :
    sd.inside T U S = true ↔
      match sd.walk with
      | .ascend => sd.start.toNat + T * U ≤ S
      | .descend => (T - 1) * U ≤ sd.start.toNat ∧ sd.start.toNat + U ≤ S
      | .hold => sd.start.toNat + U ≤ S := by
  unfold Side.inside
  cases sd.walk <;> simp

theorem Descriptor.inside_iff (d : Descriptor) (S : Nat) :
    d.inside S = true ↔
      match d.transfer with
      | .capture u _ _ a | .playout u _ _ a => a.inside d.total u.bytes S = true
      | .copy u _ a b => a.inside d.total u.bytes S = true ∧ b.inside d.total u.bytes S = true
      | .relay _ _ _ _ | .tally => True := by
  unfold Descriptor.inside
  cases d.transfer <;>
    simp [Transfer.sideA?, Transfer.sideB?, Transfer.unitBytes, Transfer.unit?]

theorem Transfer.aligned_iff (t : Transfer) :
    t.aligned = true ↔
      match t with
      | .capture u _ _ a | .playout u _ _ a => a.start.toNat % u.bytes = 0
      | .copy u _ a b => a.start.toNat % u.bytes = 0 ∧ b.start.toNat % u.bytes = 0
      | .relay _ _ _ _ | .tally => True := by
  unfold Transfer.aligned
  cases t <;> simp [Transfer.sideA?, Transfer.sideB?, Transfer.unitBytes, Transfer.unit?]

/-- Settles O20: the values no field takes, gathered by kind, and the checks of each side. -/
theorem defineFieldsAndWalks : Obligations.DefineFieldsAndWalks := by
  refine ⟨fun r _ => ?_, Side.inside_iff, fun d S => ⟨Descriptor.inside_iff d S, Transfer.aligned_iff _⟩⟩
  intro f
  rw [readRecord_eq_none, readTransfer_fields (f := f) fun _ => rfl, readLevel_eq_none, readFlag_eq_none,
    readEndAction_eq_none, ← eq_iff_iff]
  ac_rfl

/-! ## The record written and read back -/

theorem le1_toNat {n : Nat} (small : n < 256) : (le1 n).toNat = n := by
  simp only [le1, BitVec.toNat_ofNat]
  omega

theorem readLE_le2 {n : Nat} (small : n < 65536) : readLE (le2 n) = n := by
  simp only [le2, readLE, BitVec.toNat_ofNat]
  omega

theorem readLE_le3 {n : Nat} (small : n < 16777216) : readLE (le3 n) = n := by
  simp only [le3, readLE, BitVec.toNat_ofNat]
  omega

@[simp] theorem readUnit_bytes (u : UnitSize) : readUnit (le1 u.bytes).toNat = some u := by cases u <;> rfl

@[simp] theorem readWalk_code (w : Walk) : readWalk w.code.toNat = some w := by cases w <;> rfl

@[simp] theorem readFlag_flagByte (b : Bool) : readFlag (flagByte b).toNat = some b := by cases b <;> rfl

@[simp] theorem laneOf_le1 (n : Fin 12) : laneOf (le1 n.val).toNat = some n := laneOf_val n

@[simp] theorem readEndAction_byte (action : Option (Fin 8)) :
    readEndAction (endActionByte action).toNat = some action := by
  cases action with
  | none => rfl
  | some n => fin_cases n <;> rfl

theorem readBlock_le1 {k : Nat} (low : 1 ≤ k) (high : k ≤ 256) : readBlock (le1 k).toNat = k := by
  simp only [readBlock, le1, BitVec.toNat_ofNat]
  split_ifs <;> omega

theorem readTotal_le2 {n : Nat} (low : 1 ≤ n) (high : n ≤ 65536) : readTotal (readLE (le2 n)) = n := by
  simp only [readTotal, le2, readLE, BitVec.toNat_ofNat]
  split_ifs <;> omega

theorem readLevel_le1 {n : Nat} (low : 1 ≤ n) (high : n ≤ 6) : readLevel (le1 n).toNat = some n := by
  rw [le1_toNat (by omega)]
  exact if_pos ⟨low, high⟩

theorem ofNat_readLE_le2 (x : Half) : BitVec.ofNat 16 (readLE (le2 x.toNat)) = x := by
  rw [readLE_le2 x.isLt, BitVec.ofNat_toNat, BitVec.setWidth_eq]

theorem ofNat_readLE_le3 (a : Addr) : BitVec.ofNat 24 (readLE (le3 a.toNat)) = a := by
  rw [readLE_le3 a.isLt, BitVec.ofNat_toNat, BitVec.setWidth_eq]

@[simp] theorem Transfer.sizeBytes_length (t : Transfer) : t.sizeBytes.length = 2 := by cases t <;> rfl

@[simp] theorem sideBytes_length (side : Option Side) : (sideBytes side).length = 4 := by cases side <;> rfl

@[simp] theorem Descriptor.record_length (d : Descriptor) : d.record.length = 20 := by
  simp [Descriptor.record, le2]

/-- A side is read back from the four bytes that hold it. -/
theorem readSide_sideBytes {r : List Byte} {offset : Nat} {a : Side} (code : fieldAt r (offset + 3) 1 = a.walk.code.toNat)
    (start : fieldAt r offset 3 = readLE (le3 a.start.toNat)) : readSide r offset = some a := by
  rw [readSide, code, start, readWalk_code, ofNat_readLE_le3]
  rfl

section
variable {r : List Byte} {u : UnitSize}

theorem readTransfer_of_capture {n : Fin 12} {a : Side} (kind : fieldAt r 0 1 = 1)
    (unit : readUnit (fieldAt r 2 1) = some u) (lane : laneOf (fieldAt r 6 1) = some n) (side : readSide r 8 = some a) :
    readTransfer r = some (.capture u (readBlock (fieldAt r 3 1)) n a) := by
  simp only [readTransfer, kind, unit, lane, side]

theorem readTransfer_of_playout {n : Fin 12} {a : Side} (kind : fieldAt r 0 1 = 2)
    (unit : readUnit (fieldAt r 2 1) = some u) (lane : laneOf (fieldAt r 7 1) = some n) (side : readSide r 8 = some a) :
    readTransfer r = some (.playout u (readBlock (fieldAt r 3 1)) n a) := by
  simp only [readTransfer, kind, unit, lane, side]

theorem readTransfer_of_copy {a b : Side} (kind : fieldAt r 0 1 = 3) (unit : readUnit (fieldAt r 2 1) = some u)
    (sideA : readSide r 8 = some a) (sideB : readSide r 12 = some b) :
    readTransfer r = some (.copy u (readBlock (fieldAt r 3 1)) a b) := by
  simp only [readTransfer, kind, unit, sideA, sideB]

theorem readTransfer_of_relay {n m : Fin 12} (kind : fieldAt r 0 1 = 4) (unit : readUnit (fieldAt r 2 1) = some u)
    (fromLane : laneOf (fieldAt r 6 1) = some n) (toLane : laneOf (fieldAt r 7 1) = some m) (ne : n ≠ m) :
    readTransfer r = some (.relay u (readBlock (fieldAt r 3 1)) n m) := by
  simp only [readTransfer, kind, unit, readRelayLanes, fromLane, toLane, if_neg ne]

end

/-- The record's kind and the fields of its kind. -/
theorem readTransfer_record {d : Descriptor} (legal : d.transfer.legal) : readTransfer d.record = some d.transfer := by
  obtain ⟨level, total, transfer, again, action, label⟩ := d
  cases transfer with
  | capture u k n a =>
    refine Eq.trans (readTransfer_of_capture rfl (readUnit_bytes u) (laneOf_le1 n) (readSide_sideBytes (a := a) rfl rfl)) ?_
    exact congrArg (fun k => some (Transfer.capture u k n a)) (readBlock_le1 legal.1 legal.2)
  | playout u k n a =>
    refine Eq.trans (readTransfer_of_playout rfl (readUnit_bytes u) (laneOf_le1 n) (readSide_sideBytes (a := a) rfl rfl)) ?_
    exact congrArg (fun k => some (Transfer.playout u k n a)) (readBlock_le1 legal.1 legal.2)
  | copy u k a b =>
    refine Eq.trans (readTransfer_of_copy rfl (readUnit_bytes u) (readSide_sideBytes (a := a) rfl rfl)
      (readSide_sideBytes (a := b) rfl rfl)) ?_
    exact congrArg (fun k => some (Transfer.copy u k a b)) (readBlock_le1 legal.1 legal.2)
  | relay u k n m =>
    obtain ⟨low, high, ne⟩ := legal
    refine Eq.trans (readTransfer_of_relay rfl (readUnit_bytes u) (laneOf_le1 n) (laneOf_le1 m) ne) ?_
    exact congrArg (fun k => some (Transfer.relay u k n m)) (readBlock_le1 low high)
  | tally => rfl

/-- The fields every kind has. -/
theorem Descriptor.record_fields (d : Descriptor) :
    fieldAt d.record 1 1 = (le1 d.level).toNat ∧ fieldAt d.record 4 2 = readLE (le2 d.total) ∧
      fieldAt d.record 16 1 = (flagByte d.recirculate).toNat ∧ fieldAt d.record 17 1 = (endActionByte d.endAction).toNat ∧
      fieldAt d.record 18 2 = readLE (le2 d.label.toNat) := by
  obtain ⟨level, total, transfer, again, action, label⟩ := d
  cases transfer <;> exact ⟨rfl, rfl, rfl, rfl, rfl⟩

/-- Settles O21: field by field, what `record` writes is what `readRecord` reads. -/
theorem recordReadBackIsTheRecordDefined : Obligations.RecordReadBackIsTheRecordDefined := by
  rintro d ⟨levelLow, levelHigh, totalLow, totalHigh, transfer⟩
  obtain ⟨level, total, again, action, label⟩ := d.record_fields
  refine ⟨d.record_length, ?_⟩
  simp only [readRecord, readTransfer_record transfer, level, readLevel_le1 levelLow levelHigh, again,
    readFlag_flagByte, action, readEndAction_byte, total, readTotal_le2 totalLow totalHigh, label, ofNat_readLE_le2]

end Sys2Proof.Machine
end


-- ==== Sys2Proof/Proofs/Reports.lean ====
section
/-! PROOF. The orders that report and change nothing: INSPECT (R20, R191), HELLO (R179), SUMMARY (R181), QUEUE LIST (R55)
and LANE STATUS (R121). -/

namespace Sys2Proof.Machine

/-! ## INSPECT -/

section
variable {s : State} {n : Byte}

theorem exec_inspect_none {b : Byte} (turn : s.orderInTurn = some (n, [0x11, b])) (high : 64 ≤ b.toNat) :
    exec .inspect s = .next ((s.carryOut n [0x11, b]).produceAnswer [0x11, 0x04]) :=
  congrArg Host.Outcome.next (runOrder_refused (body := orderInspect) turn rfl (withSlot_none high _ _ _))

theorem exec_inspect {i : Fin 64} (turn : s.orderInTurn = some (n, [0x11, slotByte i])) :
    exec .inspect s =
      .next ((s.carryOut n [0x11, slotByte i]).produceAnswer ([0x11, 0x00] ++ s.inspectData i)) :=
  congrArg Host.Outcome.next (runOrder_done (body := orderInspect) turn rfl (withSlot_slotByte i _ _ _))

theorem State.inspectData_free {i : Fin 64} (slot : s.slot i = .free) : s.inspectData i = [slotByte i, 0x00] := by
  rw [State.inspectData, slot]
  rfl

theorem State.inspectData_live {i : Fin 64} {st : LiveState} {d : Descriptor} {p : Progress}
    (slot : s.slot i = .live st d p) :
    s.inspectData i =
      [slotByte i, (s.slot i).code] ++ d.record ++ le3 p.remaining ++ le3 p.committed ++ addressBytes p.nextA ++
        addressBytes p.nextB ++ faultBytes p.lastFault ++ s.membershipBytes i ++ [flagByte (s.waitingMark i)] := by
  rw [State.inspectData, slot]
  simp only [List.append_assoc]

@[simp] theorem le3_length (k : Nat) : (le3 k).length = 3 := rfl

@[simp] theorem addressBytes_length (a : Option Addr) : (addressBytes a).length = 3 := rfl

@[simp] theorem faultBytes_length (f : Option FaultKind) : (faultBytes f).length = 4 := by cases f <;> rfl

@[simp] theorem State.membershipBytes_length (s : State) (i : Fin 64) : (s.membershipBytes i).length = 2 := by
  unfold State.membershipBytes
  split <;> rfl

/-! ## The place in a queue -/

theorem State.queueOf_none {i : Fin 64} (absent : ∀ q, i ∉ s.queue q) : s.queueOf i = none :=
  List.find?_eq_none.mpr fun q _ => by simpa using absent q

theorem State.queueOf_only {i : Fin 64} {q : Fin 28} (mem : i ∈ s.queue q) (only : ∀ r, r ≠ q → i ∉ s.queue r) :
    s.queueOf i = some q := by
  cases found : s.queueOf i with
  | none =>
    have none := List.find?_eq_none.mp found q (List.mem_finRange q)
    simp [mem] at none
  | some r =>
    have here : i ∈ s.queue r := by simpa using List.find?_some found
    by_contra ne
    exact only r (fun same => ne (congrArg some same)) here

theorem State.membershipBytes_none {i : Fin 64} (absent : ∀ q, i ∉ s.queue q) : s.membershipBytes i = [0xFF, 0xFF] := by
  rw [State.membershipBytes, State.membership, State.queueOf_none absent]
  rfl

theorem State.membershipBytes_at {i : Fin 64} {q : Fin 28} {ahead behind : List (Fin 64)}
    (source : s.queueOf i = some q) (queue : s.queue q = ahead ++ i :: behind) (first : i ∉ ahead) :
    s.membershipBytes i = [le1 q.val, le1 ahead.length] := by
  have place : (ahead ++ i :: behind).idxOf i = ahead.length := by
    rw [List.idxOf_append_of_notMem first, List.idxOf_cons_self, Nat.add_zero]
  rw [State.membershipBytes, State.membership, source]
  simp [queue, place]

end

/-- Settles O23: the answer is the model's own `inspectData`, and each of its fields is as the data book lays it out. -/
theorem inspectReportsTheSlot : Obligations.InspectReportsTheSlot := by
  refine ⟨⟨fun s n b => exec_inspect_none, fun s n i turn slot => ?_, fun s n i st d p turn slot => ?_⟩, ?_⟩
  · rw [exec_inspect turn, State.inspectData_free slot]
    rfl
  · refine ⟨by simp, ?_⟩
    rw [exec_inspect turn, State.inspectData_live slot]
    rfl
  · intro byte two three unit side noSide
    have units : ∀ u : UnitSize, unit u = le1 u.bytes := fun u => by cases u <;> rfl
    have sides : ∀ a : Side, side a = sideBytes (some a) := fun ⟨start, walk⟩ => by cases walk <;> rfl
    have actions : ∀ e : Option (Fin 8), (e.map fun n => byte (n.val + 1)).getD 0x00 = endActionByte e :=
      fun e => by cases e <;> rfl
    refine ⟨fun d => ?_, fun _ => rfl, fun _ => rfl, rfl, ⟨rfl, rfl, fun _ => rfl, rfl, rfl⟩, fun st d p => ?_,
      fun s i => ⟨?_, State.membershipBytes_none, fun q ahead behind queue first only => ?_⟩⟩
    · obtain ⟨level, total, transfer, again, action, label⟩ := d
      simp only [units, sides, actions]
      refine ⟨?_, ?_, ?_, ?_, ?_⟩
      · rintro u k n a rfl
        rfl
      · rintro u k n a rfl
        rfl
      · rintro u k a b rfl
        rfl
      · rintro u k n m rfl
        rfl
      · rintro rfl
        rfl
    · cases st <;> rfl
    · simp [State.waitingMark]
    · exact State.membershipBytes_at (State.queueOf_only (by simp [queue]) only) queue first

/-! ## HELLO, SUMMARY, QUEUE LIST and LANE STATUS -/

section
variable {s : State} {n : Byte}

theorem exec_hello (turn : s.orderInTurn = some (n, [0x01])) :
    exec .hello s = .next ((s.carryOut n [0x01]).produceAnswer ([0x01, 0x00] ++ s.helloData)) :=
  congrArg Host.Outcome.next (runOrder_done (body := orderHello) turn rfl rfl)

theorem exec_summary (turn : s.orderInTurn = some (n, [0x03])) :
    exec .summary s = .next ((s.carryOut n [0x03]).produceAnswer ([0x03, 0x00] ++ s.summaryData)) :=
  congrArg Host.Outcome.next (runOrder_done (body := orderSummary) turn rfl rfl)

/-- An operand read from the first byte. -/
theorem withField_first {α : Type} {read : Nat → Option α} {b : Byte} {rest : List Byte} {s : State}
    {go : α → OrderEnd} {x : α} (value : read b.toNat = some x) :
    withField (read (fieldAt (b :: rest) 0 1)) s go = go x := by
  rw [fieldAt_zero, value]
  rfl

theorem withField_first_none {α : Type} {read : Nat → Option α} {b : Byte} {rest : List Byte} {s : State}
    {go : α → OrderEnd} (value : read b.toNat = none) :
    withField (read (fieldAt (b :: rest) 0 1)) s go = refusal .badField s := by
  rw [fieldAt_zero, value]
  rfl

theorem exec_queueList {q : Fin 28} (turn : s.orderInTurn = some (n, [0x32, le1 q.val])) :
    exec .queueList s =
      .next ((s.carryOut n [0x32, le1 q.val]).produceAnswer ([0x32, 0x00] ++ s.queueListData q)) :=
  congrArg Host.Outcome.next
    (runOrder_done (body := orderQueueList) turn rfl (withField_first (read := sourceNumber) (sourceNumber_val q)))

theorem exec_laneStatus {k : Fin 12} (turn : s.orderInTurn = some (n, [0x61, le1 k.val])) :
    exec .laneStatus s =
      .next ((s.carryOut n [0x61, le1 k.val]).produceAnswer ([0x61, 0x00] ++ s.laneStatusData k)) :=
  congrArg Host.Outcome.next
    (runOrder_done (body := orderLaneStatus) turn rfl (withField_first (read := laneOf) (laneOf_val k)))

end

/-- Settles O47: each report is the model's data, laid out. -/
theorem reportOrdersChangeNothing : Obligations.ReportOrdersChangeNothing := by
  intro s n byte three mover owner burst
  refine ⟨fun turn => (exec_hello turn).trans rfl, fun turn freeze slot => ?_, fun q turn => exec_queueList turn,
    fun k turn => ?_, fun b => ⟨fun high turn => ?_, fun high turn => ?_⟩⟩
  · have frozen : (s.sched.freeze).code = if s.sched.freeze = .running then 0 else 2 := by
      cases state : s.sched.freeze
      · rfl
      · exact absurd state freeze
      · rfl
    have moving : s.mover.state.code = mover := by
      change _ = match s.mover.state with | .idle => _ | .asking => _ | .moving => _ | .yielding => _
      cases s.mover.state <;> rfl
    have owners : ∀ o : Owner, o.code = owner o := fun o => by cases o <;> rfl
    have inHand : s.burstBytes = burst := by
      change _ = match s.sched.burst with | some b => _ | none => _
      unfold State.burstBytes
      cases hand : s.sched.burst with
      | none => rfl
      | some b =>
        obtain ⟨o, level, moved, block⟩ := b
        cases o with
        | slot i => rfl
        | link => exact absurd rfl (slot _ hand)
    rw [exec_summary turn, State.summaryData, frozen, moving, inHand]
    simp only [owners]
    rfl
  · intro l phase
    have stands : l.phase.code = phase := by
      change _ = match l.phase with | .ready => _ | .taken => _ | .quiet => _ | .offered => _ | .releasing => _
      cases l.phase <;> rfl
    have direction : l.direction.code = if l.direction = .outgoing then 1 else 0 := by cases l.direction <;> rfl
    rw [← stands, ← direction]
    exact exec_laneStatus turn
  · exact congrArg Host.Outcome.next
      (runOrder_refused (body := orderQueueList) turn rfl
        (withField_first_none (read := sourceNumber) (sourceNumber_none high)))
  · exact congrArg Host.Outcome.next
      (runOrder_refused (body := orderLaneStatus) turn rfl (withField_first_none (read := laneOf) (laneOf_none high)))

end Sys2Proof.Machine
end


-- ==== Sys2Proof/Proofs/Sources.lean ====
section
/-! PROOF. The sources (R24 to R40): the events counted and consumed, the orders that act on a source, a line or a timer,
and the events their pins and clocks give. -/

namespace Sys2Proof.Machine

/-! ## The numbering of the sources (R24) -/

@[simp] theorem sourceId_laneSource (n : Fin 12) : sourceId (laneSource n) = .lane n := dif_pos n.isLt

@[simp] theorem sourceId_lineSource (n : Fin 4) : sourceId (lineSource n) = .line n := by fin_cases n <;> rfl

@[simp] theorem sourceId_timerSource (n : Fin 4) : sourceId (timerSource n) = .timer n := by fin_cases n <;> rfl

@[simp] theorem sourceId_softSource (n : Fin 8) : sourceId (softSource n) = .soft n := by fin_cases n <;> rfl

/-! ## Events and their consumption (R25, R28) -/

section
variable {s : State} {q : Fin 28}

theorem State.eventAt_counted (low : s.count q < 3) : s.eventAt q = s.setCount q (s.count q + 1) := if_pos low

theorem State.eventAt_missed (full : 3 ≤ s.count q) : s.eventAt q = s.setMiss q (min 255 (s.miss q + 1)) :=
  if_neg (Nat.not_lt.mpr full)

theorem State.eventAt_elsewhere {r : Fin 28} (ne : r ≠ q) :
    (s.eventAt q).count r = s.count r ∧ (s.eventAt q).miss r = s.miss r := by
  rcases Nat.lt_or_ge (s.count q) 3 with low | full
  · rw [State.eventAt_counted low]
    exact ⟨State.count_setCount_ne s ne.symm _, rfl⟩
  · rw [State.eventAt_missed full]
    exact ⟨rfl, State.miss_setMiss_ne s ne.symm _⟩

theorem State.consume_event (event : s.isEvent q = true) : s.consume q = s.setCount q (s.count q - 1) := if_pos event

theorem State.consume_condition (no : s.isEvent q = false) : s.consume q = s := if_neg (by rw [no]; nofun)

end

/-- Settles O25: by whether the count is below 3, and by whether the source is an event source. -/
theorem eventsAreCountedAndConsumed : Obligations.EventsAreCountedAndConsumed := by
  refine ⟨fun s q => ⟨State.eventAt_counted, fun full => ?_, fun r => State.eventAt_elsewhere⟩, fun s q => ?_⟩
  · rw [State.eventAt_missed full]
    congr 1
    split_ifs <;> omega
  · refine ⟨fun event => ?_, State.consume_condition, fun r ne => ?_, ?_⟩
    · rw [State.consume_event event, State.count_setCount_self]
    · cases event : s.isEvent q
      · rw [State.consume_condition event]
      · rw [State.consume_event event, State.count_setCount_ne s ne.symm]
    · cases event : s.isEvent q
      · rw [State.consume_condition event]
      · rw [State.consume_event event]
        rfl

/-! ## Operands that name a value, or none -/

section
variable {α : Type} {value : Option α} {s : State} {go : α → OrderEnd}

theorem withField_value {x : α} (some : value = some x) : withField value s go = go x := by
  rw [some]
  rfl

theorem withField_missing (none : value = none) : withField value s go = refusal .badField s := by
  rw [none]
  rfl

/-- A later operand is missing. -/
theorem withField_later (later : ∀ x, go x = refusal .badField s) : withField value s go = refusal .badField s := by
  cases value with
  | none => rfl
  | some x => exact later x

end

/-! ## TRIGGER (R36) -/

section
variable {s : State} {k : Fin 8}

theorem orderTrigger_counts (low : s.count (softSource k) < 3) :
    orderTrigger [le1 k.val] s =
      .answered .done [le1 (s.count (softSource k) + 1)]
        (s.setCount (softSource k) (s.count (softSource k) + 1)).react :=
  (withField_value (softOf_val k)).trans (if_pos low)

theorem orderTrigger_full (full : 3 ≤ s.count (softSource k)) :
    orderTrigger [le1 k.val] s = refusal .pendingFull s :=
  (withField_value (softOf_val k)).trans (if_neg (Nat.not_lt.mpr full))

end

/-- Settles O26: a count below 3 rises, a full one refuses, and so does a number above S7. -/
theorem triggerRaisesASoftTrigger : Obligations.TriggerRaisesASoftTrigger := by
  refine ⟨fun s n k turn => ⟨fun low => ?_, fun full => ?_⟩, fun k => rfl, fun s n b turn high => ?_⟩
  · exact congrArg Host.Outcome.next (runOrder_done turn rfl (orderTrigger_counts (s := s.carryOut n _) low))
  · exact congrArg Host.Outcome.next (runOrder_refused turn rfl (orderTrigger_full (s := s.carryOut n _) full))
  · exact congrArg Host.Outcome.next
      (runOrder_refused (body := orderTrigger) turn rfl (withField_missing (softOf_none high)))

/-! ## LINE SETUP (R32) -/

@[simp] theorem readLineMode_code (mode : LineMode) : readLineMode mode.code.toNat = some mode := by cases mode <;> rfl

theorem readLineMode_none : ∀ {n : Nat}, 6 ≤ n → readLineMode n = none
  | _ + 6, _ => rfl

/-- Settles O27: the two operands read, LINE SETUP sets the line. -/
theorem lineSetupSetsTheMode : Obligations.LineSetupSetsTheMode := by
  constructor
  · rintro s n m k mode rfl turn
    exact congrArg Host.Outcome.next
      (runOrder_done (body := orderLineSetup) turn rfl
        ((withField_value (lineOf_val k)).trans (withField_value (readLineMode_code mode))))
  · intro s n b m turn bad
    refine congrArg Host.Outcome.next (runOrder_refused (body := orderLineSetup) (outcome := .badField) turn rfl ?_)
    rcases bad with line | mode
    · exact withField_missing (lineOf_none line)
    · exact withField_later fun k => withField_missing (readLineMode_none mode)

/-! ## The timer orders (R34, R35) -/

@[simp] theorem readTimerMode_code (mode : TimerMode) : readTimerMode mode.code.toNat = some mode := by
  cases mode <;> rfl

theorem readTimerMode_none : ∀ {n : Nat}, 2 ≤ n → readTimerMode n = none
  | _ + 2, _ => rfl

theorem readPeriod_some {n : Nat} (low : 1 ≤ n) (high : n ≤ 1000000) : readPeriod n = some n := if_pos ⟨low, high⟩

theorem readPeriod_none {n : Nat} (bad : n = 0 ∨ 1000000 < n) : readPeriod n = none := if_neg (by omega)

theorem orderTimerSetup_refuses {s : State} {b p0 p1 p2 m : Byte}
    (bad : 4 ≤ b.toNat ∨ readLE [p0, p1, p2] = 0 ∨ 1000000 < readLE [p0, p1, p2] ∨ 2 ≤ m.toNat) :
    orderTimerSetup [b, p0, p1, p2, m] s = refusal .badField s := by
  rcases bad with timer | period | period | mode
  · exact withField_missing (lineOf_none timer)
  · exact withField_later fun k => withField_missing (readPeriod_none (.inl period))
  · exact withField_later fun k => withField_missing (readPeriod_none (.inr period))
  · exact withField_later fun k => withField_later fun p => withField_missing (readTimerMode_none mode)

/-- Settles O28: each timer order sets its timer's fields, or refuses an operand. -/
theorem timerOrdersSetStartAndStop : Obligations.TimerOrdersSetStartAndStop := by
  refine ⟨?_, fun s n k turn => ?_, fun s n k turn => ?_, fun s n b p0 p1 p2 m turn bad => ?_,
    fun s n b high => ⟨fun turn => ?_, fun turn => ?_⟩⟩
  · rintro s n p0 p1 p2 m k mode rfl low high turn
    exact congrArg Host.Outcome.next
      (runOrder_done (body := orderTimerSetup) turn rfl
        ((withField_value (lineOf_val k)).trans
          ((withField_value (readPeriod_some low high)).trans (withField_value (readTimerMode_code mode)))))
  · exact congrArg Host.Outcome.next
      (runOrder_done (body := orderTimerStart) turn rfl (withField_value (lineOf_val k)))
  · exact congrArg Host.Outcome.next
      (runOrder_done (body := orderTimerStop) turn rfl (withField_value (lineOf_val k)))
  · exact congrArg Host.Outcome.next (runOrder_refused turn rfl (orderTimerSetup_refuses bad))
  · exact congrArg Host.Outcome.next
      (runOrder_refused (body := orderTimerStart) turn rfl (withField_missing (lineOf_none high)))
  · exact congrArg Host.Outcome.next
      (runOrder_refused (body := orderTimerStop) turn rfl (withField_missing (lineOf_none high)))

/-! ## SOURCE STATUS and SOURCE CLEAR (R38, R39) -/

section
variable (s : State)

@[simp] theorem State.isCondition_laneSource (n : Fin 12) : s.isCondition (laneSource n) = true := by
  simp [State.isCondition]

@[simp] theorem State.isCondition_timerSource (n : Fin 4) : s.isCondition (timerSource n) = false := by
  simp [State.isCondition]

@[simp] theorem State.isCondition_softSource (n : Fin 8) : s.isCondition (softSource n) = false := by
  simp [State.isCondition]

theorem State.isCondition_lineSource (n : Fin 4) :
    s.isCondition (lineSource n) = true ↔ (s.line n).mode = .high ∨ (s.line n).mode = .low := by
  simp only [State.isCondition, sourceId_lineSource]
  cases mode : (s.line n).mode <;> simp

theorem State.conditionByte_lineSource (n : Fin 4) :
    s.conditionByte (lineSource n) =
      if (s.line n).mode = .high ∨ (s.line n).mode = .low then flagByte (s.line n).high else 0xFF := by
  rw [State.conditionByte, sourceId_lineSource]
  simp only [State.isCondition_lineSource]
  rfl

@[simp] theorem State.sourceKindBytes_length (q : Fin 28) : (s.sourceKindBytes q).length = 2 := by
  unfold State.sourceKindBytes
  split <;> rfl

@[simp] theorem State.timerBytes_length (q : Fin 28) : (s.timerBytes q).length = 8 := by
  unfold State.timerBytes
  split <;> rfl

variable {s} {n : Byte} {q : Fin 28}

theorem exec_sourceStatus (turn : s.orderInTurn = some (n, [0x25, le1 q.val])) :
    exec .sourceStatus s =
      .next ((s.carryOut n [0x25, le1 q.val]).produceAnswer ([0x25, 0x00] ++ s.sourceStatusData q)) :=
  congrArg Host.Outcome.next
    (runOrder_done (body := orderSourceStatus) turn rfl (withField_value (sourceNumber_val q)))

theorem exec_sourceClear (turn : s.orderInTurn = some (n, [0x26, le1 q.val])) :
    exec .sourceClear s =
      .next (((s.carryOut n [0x26, le1 q.val]).clearSource q).produceAnswer
        [0x26, 0x00, s.pendingCountByte q, le1 (s.miss q)]) :=
  congrArg Host.Outcome.next
    (runOrder_done (body := orderSourceClear) turn rfl (withField_value (sourceNumber_val q)))

theorem State.clearSource_condition (condition : s.isCondition q = true) : s.clearSource q = s.setMiss q 0 :=
  if_pos condition

theorem State.clearSource_event (event : s.isCondition q = false) : s.clearSource q = (s.setMiss q 0).setCount q 0 :=
  if_neg (by rw [event]; nofun)

theorem State.pendingCountByte_condition (condition : s.isCondition q = true) : s.pendingCountByte q = 0xFF :=
  if_pos condition

theorem State.pendingCountByte_event (event : s.isCondition q = false) : s.pendingCountByte q = le1 (s.count q) :=
  if_neg (by rw [event]; nofun)

end

/-- Settles O29: the report is the model's own data, read by the kind of source the number names. -/
theorem sourceStatusAndClear : Obligations.SourceStatusAndClear := by
  refine ⟨⟨fun s n q turn => ⟨?_, exec_sourceStatus turn⟩, fun s n q turn => ⟨fun condition => ?_, fun event => ?_⟩,
    fun s n b high => ⟨fun turn => ?_, fun turn => ?_⟩⟩, ?_⟩
  · simp
  · rw [exec_sourceClear turn, State.clearSource_condition (s := s.carryOut n _) condition,
      State.pendingCountByte_condition condition]
    rfl
  · rw [exec_sourceClear turn, State.clearSource_event (s := s.carryOut n _) event,
      State.pendingCountByte_event event]
    rfl
  · exact congrArg Host.Outcome.next
      (runOrder_refused (body := orderSourceStatus) turn rfl (withField_missing (sourceNumber_none high)))
  · exact congrArg Host.Outcome.next
      (runOrder_refused (body := orderSourceClear) turn rfl (withField_missing (sourceNumber_none high)))
  · intro flag three noTimer s reads
    refine ⟨fun n => ⟨?_, s.isCondition_laneSource n⟩, fun n => ?_, fun n => ⟨?_, s.isCondition_timerSource n⟩,
      fun n => ⟨?_, s.isCondition_softSource n⟩⟩
    · simp only [reads, State.sourceKindBytes, State.conditionByte, State.lineLevelByte, State.timerBytes,
        sourceId_laneSource]
      exact ⟨rfl, rfl, rfl, rfl⟩
    · intro l mode
      have stands : mode = l.mode.code := by
        change (match l.mode with | .off => _ | .rising => _ | .falling => _ | .both => _ | .high => _ | .low => _) = _
        cases l.mode <;> rfl
      refine ⟨⟨?_, State.conditionByte_lineSource s n, ?_, ?_⟩, State.isCondition_lineSource s n⟩
      · rw [stands, State.sourceKindBytes, sourceId_lineSource]
      · rw [State.lineLevelByte, sourceId_lineSource]
        rfl
      · rw [State.timerBytes, sourceId_lineSource]
        rfl
    · have mode : (s.timer n).mode.code = if (s.timer n).mode = .periodic then 0x00 else 0x01 := by
        cases (s.timer n).mode <;> rfl
      simp only [reads, State.sourceKindBytes, State.conditionByte, State.lineLevelByte, State.timerBytes,
        sourceId_timerSource]
      exact ⟨rfl, rfl, rfl, by rw [← mode]; rfl⟩
    · simp only [reads, State.sourceKindBytes, State.conditionByte, State.lineLevelByte, State.timerBytes,
        sourceId_softSource]
      exact ⟨rfl, rfl, rfl, rfl⟩

/-! ## Line levels and timers (R31, R33) -/

section
variable {s : State} {n : Fin 4}

theorem exec_lineLevelChange (high : Bool) (running : s.resetLow = false) :
    exec (.lineLevelChange n high) s = .next (s.lineLevel n high) := by
  change Host.Outcome.next (if s.resetLow then _ else _) = _
  rw [running]
  rfl

theorem Line.follow_edge {l : Line} (edge : l.mode = .rising ∨ l.mode = .falling ∨ l.mode = .both) (high : Bool) :
    l.follow high = { l with high := high, reference := some high } := by
  unfold Line.follow
  rcases edge with mode | mode | mode <;> rw [mode] <;> rfl

theorem Line.follow_level {l : Line} (level : l.mode = .off ∨ l.mode = .high ∨ l.mode = .low) (high : Bool) :
    l.follow high = { l with high := high } := by
  unfold Line.follow
  rcases level with mode | mode | mode <;> rw [mode] <;> rfl

theorem LineMode.counts_iff (m : LineMode) (was now : Bool) :
    m.counts was now = true ↔
      (m = .rising ∧ was = false ∧ now = true) ∨ (m = .falling ∧ was = true ∧ now = false) ∨ (m = .both ∧ was ≠ now) := by
  cases m <;> simp [LineMode.counts]

theorem LineMode.counts_level {m : LineMode} (level : m = .off ∨ m = .high ∨ m = .low) (was now : Bool) :
    m.counts was now = false := by
  rcases level with rfl | rfl | rfl <;> rfl

theorem State.lineLevel_counted {high was : Bool} (reference : (s.line n).reference = some was)
    (counts : (s.line n).mode.counts was high = true) :
    s.lineLevel n high = ((s.setLine n ((s.line n).follow high)).eventAt (lineSource n)).react :=
  if_pos (by rw [reference]; exact counts)

theorem State.lineLevel_uncounted {high was : Bool} (reference : (s.line n).reference = some was)
    (counts : ¬ (s.line n).mode.counts was high = true) :
    s.lineLevel n high = (s.setLine n ((s.line n).follow high)).react :=
  if_neg (by rw [reference]; exact counts)

theorem State.lineLevel_level {high : Bool}
    (level : (s.line n).mode = .off ∨ (s.line n).mode = .high ∨ (s.line n).mode = .low) :
    s.lineLevel n high = (s.setLine n ((s.line n).follow high)).react :=
  if_neg (by rw [LineMode.counts_level level]; nofun)

theorem exec_timerExpiry_stopped (running : s.resetLow = false) (left : (s.timer n).left = none) :
    exec (.timerExpiry n) s = .next s := by
  change Host.Outcome.next (s.running fun t => t.timerExpiry n) = _
  rw [State.running, running]
  change Host.Outcome.next (s.timerExpiry n) = _
  rw [State.timerExpiry, left]
  rfl

end

/-- Settles O30: a line counts the edge its mode names against its reference level, a running timer expires. -/
theorem lineLevelsAndTimersGiveEvents : Obligations.LineLevelsAndTimersGiveEvents := by
  refine ⟨fun s n high was running reference => ⟨fun edge counted => ?_, fun edge uncounted => ?_⟩,
    fun s n high running level => ?_, fun n => ⟨rfl, rfl⟩, fun s n running left => ?_, fun s n => exec_timerExpiry_stopped⟩
  · rw [exec_lineLevelChange high running, State.lineLevel_counted reference ((LineMode.counts_iff _ _ _).mpr counted),
      Line.follow_edge edge]
  · rw [exec_lineLevelChange high running,
      State.lineLevel_uncounted reference fun counts => uncounted ((LineMode.counts_iff _ _ _).mp counts),
      Line.follow_edge edge]
  · rw [exec_lineLevelChange high running, State.lineLevel_level level, Line.follow_level level]
  · obtain ⟨k, left⟩ := Option.ne_none_iff_exists'.mp left
    rw [exec_timerExpiry running left, State.expire, Timer.expired_eq]

end Sys2Proof.Machine
end


-- ==== Sys2Proof/Proofs/QueueOrders.lean ====
section
/-! PROOF. The orders that put a slot into a binding queue and take it out: BIND (R46), UNBIND (R49), CANCEL (R136, R137),
RETRY (R134) and SKIP (R135). -/

namespace Sys2Proof.Machine

/-! ## Leaving a queue (R51, R52) -/

section
variable {s : State} {i h : Fin 64} {q : Fin 28} {rest ahead behind : List (Fin 64)} {st : LiveState} {d : Descriptor}
  {p : Progress}

theorem State.setState_live (slot : s.slot i = .live st d p) (into : LiveState) :
    s.setState i into = s.setSlot i (.live into d p) := by
  rw [State.setState, slot]
  rfl

theorem State.removeHead_cons (queue : s.queue q = i :: rest) (slot : s.slot i = .live st d p) (into : LiveState) :
    s.removeHead q into = ((s.setQueue q rest).setSlot i (.live into d p)).promoteHead q := by
  rw [State.removeHead, queue]
  exact congrArg (State.promoteHead · q) (State.setState_live (s := s.setQueue q rest) slot into)

theorem State.takeOut_head (source : s.queueOf i = some q) (queue : s.queue q = i :: rest)
    (slot : s.slot i = .live st d p) :
    s.takeOut i = ((s.setQueue q rest).setSlot i (.live .loaded d p)).promoteHead q := by
  rw [State.takeOut, source]
  exact (if_pos (by rw [queue]; rfl)).trans (State.removeHead_cons queue slot .loaded)

theorem erase_behind (ne : i ≠ h) (absent : i ∉ ahead) : (h :: (ahead ++ i :: behind)).erase i = h :: (ahead ++ behind) := by
  rw [List.erase_cons_tail (by simpa using ne.symm), List.erase_append_right _ absent, List.erase_cons_head]

theorem State.takeOut_member (source : s.queueOf i = some q) (queue : s.queue q = h :: (ahead ++ i :: behind))
    (ne : i ≠ h) (absent : i ∉ ahead) (slot : s.slot i = .live st d p) :
    s.takeOut i = (s.setQueue q (h :: (ahead ++ behind))).setSlot i (.live .loaded d p) := by
  have behindHead : ¬ (s.queue q).head? = some i := by simpa [queue] using ne.symm
  rw [State.takeOut, source]
  refine (if_neg behindHead).trans ?_
  rw [State.removeMember, queue, erase_behind ne absent]
  exact State.setState_live (s := s.setQueue q _) slot .loaded

theorem State.promoteHead_bound (queue : s.queue q = h :: rest) (slot : s.slot h = .live .bound d p) :
    s.promoteHead q = s.setSlot h (.live .current d p) := by
  have bound : s.inState h .bound = true := by
    rw [State.inState, slot]
    rfl
  rw [State.promoteHead, queue]
  exact (if_pos bound).trans (State.setState_live slot .current)

end

/-! ## BIND -/

section
variable {s : State} {i : Fin 64} {q : Fin 28} {d : Descriptor} {p : Progress}

theorem State.inState_live {st : LiveState} (slot : s.slot i = .live st d p) (into : LiveState) :
    s.inState i into = decide (st = into) := by
  rw [State.inState, slot]
  rfl

theorem State.inState_false {st : LiveState} (state : (s.slot i).state ≠ some st) : s.inState i st = false :=
  beq_eq_false_iff_ne.mpr state

theorem State.inState_true {st : LiveState} (state : (s.slot i).state = some st) : s.inState i st = true :=
  beq_iff_eq.mpr state

/-- The state a bound slot takes: CURRENT as the head of its queue, BOUND behind one (R42). -/
def State.boundAs (s : State) (q : Fin 28) : LiveState := if s.queue q = [] then .current else .bound

theorem State.bindSlot_loaded (slot : s.slot i = .live .loaded d p) :
    s.bindSlot i q = (s.setQueue q (s.queue q ++ [i])).setSlot i (.live (s.boundAs q) d p) := by
  rw [State.bindSlot, State.setState_live (s := s.setQueue q _) slot]
  simp only [State.boundAs, List.isEmpty_iff]

theorem withBoundSlot {operands : List Byte} {c : Byte} (source : sourceNumber c.toNat = some q) :
    orderBind (slotByte i :: c :: operands) s =
      if !s.inState i .loaded then refusal .badState s
      else if s.waitingMark i then refusal .noticeWaiting s
      else .answered .done [slotByte i, le1 q.val, le1 (s.queue q).length, ((s.bindSlot i q).slot i).code]
        (s.bindSlot i q).react :=
  (withSlot_slotByte i _ _ _).trans (withField_value source)

theorem orderBind_binds (slot : s.slot i = .live .loaded d p) (mark : s.waitingMark i = false) :
    orderBind [slotByte i, le1 q.val] s =
      .answered .done
        [slotByte i, le1 q.val, le1 (s.queue q).length, if s.queue q = [] then 0x03 else 0x02]
        ((s.setQueue q (s.queue q ++ [i])).setSlot i (.live (s.boundAs q) d p)).react := by
  have code : (Slot.live (s.boundAs q) d p).code = if s.queue q = [] then 0x03 else 0x02 := by
    unfold State.boundAs
    split_ifs <;> rfl
  rw [withBoundSlot (c := le1 q.val) (sourceNumber_val q), State.inState_live slot, mark, State.bindSlot_loaded slot,
    State.slot_setSlot_self, code]
  rfl

theorem orderBind_state {c : Byte} (source : c.toNat < 28) (state : (s.slot i).state ≠ some .loaded) :
    orderBind [slotByte i, c] s = refusal .badState s := by
  rw [withBoundSlot (dif_pos source), State.inState_false state]
  rfl

theorem orderBind_waiting {c : Byte} (source : c.toNat < 28) (state : (s.slot i).state = some .loaded)
    (mark : s.waitingMark i = true) : orderBind [slotByte i, c] s = refusal .noticeWaiting s := by
  rw [withBoundSlot (dif_pos source), State.inState_true state, mark]
  rfl

end

/-- Settles O31: a LOADED slot with no record waiting joins the queue; each failed check refuses. -/
theorem bindAppendsALoadedSlot : Obligations.BindAppendsALoadedSlot := by
  constructor
  · intro s n i q d p turn slot mark
    exact congrArg Host.Outcome.next (runOrder_done turn rfl (orderBind_binds (s := s.carryOut n _) slot mark))
  · intro s n b c turn
    have refused : ∀ outcome, orderBind [b, c] (s.carryOut n [0x30, b, c]) =
        refusal outcome (s.carryOut n [0x30, b, c]) →
        exec .bind s = .next ((s.carryOut n [0x30, b, c]).produceAnswer [0x30, outcome.byte]) :=
      fun outcome ends => congrArg Host.Outcome.next (runOrder_refused turn rfl ends)
    refine ⟨fun high => refused .badSlot (withSlot_none high _ _ _), ?_⟩
    rintro i rfl
    exact ⟨fun high => refused .badField ((withSlot_slotByte i _ _ _).trans (withField_missing (sourceNumber_none high))),
      fun source state => refused .badState (orderBind_state source state),
      fun source state mark => refused .noticeWaiting (orderBind_waiting source state mark)⟩

/-! ## UNBIND -/

section
variable {s : State} {i : Fin 64} {st : LiveState} {d : Descriptor} {p : Progress}

theorem orderUnbind_takes (slot : s.slot i = .live st d p) (state : st = .bound ∨ st = .current ∨ st = .faulted) :
    orderUnbind [slotByte i] s =
      .answered .done ([slotByte i] ++ s.membershipBytes i ++ le3 p.remaining) (s.takeOut i).react := by
  rw [orderUnbind, withSlot_slotByte, slot]
  rcases state with rfl | rfl | rfl <;> rfl

theorem orderUnbind_state (bound : (s.slot i).state ≠ some .bound) (current : (s.slot i).state ≠ some .current)
    (faulted : (s.slot i).state ≠ some .faulted) : orderUnbind [slotByte i] s = refusal .badState s := by
  rw [orderUnbind, withSlot_slotByte]
  split
  next slot => exact absurd (Slot.state_live slot) bound
  next slot => exact absurd (Slot.state_live slot) current
  next slot => exact absurd (Slot.state_live slot) faulted
  next => rfl

theorem exec_unbind {n : Byte} (turn : s.orderInTurn = some (n, [0x31, slotByte i])) (slot : s.slot i = .live st d p)
    (state : st = .bound ∨ st = .current ∨ st = .faulted) :
    exec .unbind s =
      .next ((((s.carryOut n [0x31, slotByte i]).takeOut i).react).produceAnswer
        ([0x31, 0x00, slotByte i] ++ s.membershipBytes i ++ le3 p.remaining)) :=
  congrArg Host.Outcome.next (runOrder_done turn rfl (orderUnbind_takes (s := s.carryOut n _) slot state))

end

/-- Settles O32: the head and a member leave their queue each in its way. -/
theorem unbindTakesASlotOutOfItsQueue : Obligations.UnbindTakesASlotOutOfItsQueue := by
  refine ⟨fun s n i q rest st d p turn slot state source queue => ?_,
    fun s n i h q ahead behind d p turn slot source queue ne absent => ?_,
    fun s q h rest d p => State.promoteHead_bound, fun s n b turn => ?_⟩
  · rw [exec_unbind turn slot (.inr state), State.membershipBytes_at (ahead := []) source queue List.not_mem_nil,
      State.takeOut_head (s := s.carryOut n _) source queue slot]
    rfl
  · have place := State.membershipBytes_at (ahead := h :: ahead) source queue (by simp [ne, absent])
    rw [exec_unbind turn slot (.inl rfl), place,
      State.takeOut_member (s := s.carryOut n _) source queue ne absent slot]
    rfl
  · refine ⟨fun high => congrArg Host.Outcome.next
      (runOrder_refused (body := orderUnbind) turn rfl (withSlot_none high _ _ _)), ?_⟩
    rintro i rfl bound current faulted
    exact congrArg Host.Outcome.next
      (runOrder_refused turn rfl (orderUnbind_state (s := s.carryOut n _) bound current faulted))

/-! ## CANCEL -/

section
variable {s : State} {i : Fin 64} {st : LiveState} {d : Descriptor} {p : Progress}

theorem orderCancel_state
    (state : (s.slot i).state = none ∨ (s.slot i).state = some .loaded ∨ (s.slot i).state = some .spent ∨
      (s.slot i).state = some .held) : orderCancel [slotByte i] s = refusal .badState s := by
  rw [orderCancel, withSlot_slotByte]
  rcases state with free | loaded | spent | held
  · cases slot : s.slot i with
    | free => rfl
    | live st d p =>
      rw [slot] at free
      cases free
  · obtain ⟨d, p, slot⟩ := Slot.state_some loaded
    rw [slot]
  · obtain ⟨d, p, slot⟩ := Slot.state_some spent
    rw [slot]
  · obtain ⟨d, p, slot⟩ := Slot.state_some held
    rw [slot]

/-- The DONE answer of a CANCEL, with the slot out of its queue. -/
theorem cancelled_live (slot : s.slot i = .live st d p) (t : State) :
    cancelled s t i =
      .answered .done ([slotByte i, (s.slot i).code] ++ le3 p.committed ++ le3 p.remaining) (t.takeOut i).react := by
  rw [cancelled, cancelData, slot]
  rfl

theorem orderCancel_waits (slot : s.slot i = .live st d p) (state : st = .bound ∨ st = .current ∨ st = .faulted) :
    orderCancel [slotByte i] s = cancelled s s i := by
  rw [orderCancel, withSlot_slotByte, slot]
  rcases state with rfl | rfl | rfl <;> rfl

theorem orderCancel_preempted (slot : s.slot i = .live .preempted d p) :
    orderCancel [slotByte i] s = cancelled s (s.unstack i) i := by
  rw [orderCancel, withSlot_slotByte, slot]

theorem orderCancel_active (slot : s.slot i = .live .active d p) :
    orderCancel [slotByte i] s =
      if s.mover.unit.isSome then .held (s.hold (.cancel i)) else cancelled s s.dropBurst i := by
  rw [orderCancel, withSlot_slotByte, slot]

theorem State.unstack_eq (s : State) (i : Fin 64) :
    s.unstack i = s.setStack (s.sched.stack.filter fun e => e.owner ≠ .slot i) := by
  rw [State.unstack]
  congr 2
  funext e
  exact Bool.eq_iff_iff.mpr (by simp)

theorem State.dropBurst_asking (asking : s.mover.state = .asking) :
    s.dropBurst =
      State.setBurst { s with mover := { s.mover with request := false, timer := none }, lowered := true } none := by
  rw [State.dropBurst, if_pos asking, State.lowerRequest, asking, decide_eq_true rfl, Bool.or_true]
  rfl

theorem State.dropBurst_other (other : s.mover.state ≠ .asking) : s.dropBurst = s.setBurst none := if_neg other

theorem exec_cancel {n : Byte} {t : State} (turn : s.orderInTurn = some (n, [0x70, slotByte i]))
    (slot : s.slot i = .live st d p)
    (cancels : orderCancel [slotByte i] (s.carryOut n [0x70, slotByte i]) =
      cancelled (s.carryOut n [0x70, slotByte i]) t i) :
    exec .cancel s =
      .next ((t.takeOut i).react.produceAnswer
        ([0x70, 0x00, slotByte i, (s.slot i).code] ++ le3 p.committed ++ le3 p.remaining)) :=
  congrArg Host.Outcome.next
    (runOrder_done turn rfl (cancels.trans (cancelled_live (s := s.carryOut n _) slot t)))

end

/-- Settles O48: by the state of the slot, and for an ACTIVE one by the mover's unit and state. -/
theorem cancelActsByTheSlotsState : Obligations.CancelActsByTheSlotsState := by
  refine ⟨fun s n b turn => ⟨fun high => ?_, ?_⟩, fun s i q rest st d p => State.takeOut_head,
    fun s i h q ahead behind st d p => State.takeOut_member⟩
  · exact congrArg Host.Outcome.next (runOrder_refused (body := orderCancel) turn rfl (withSlot_none high _ _ _))
  · rintro i rfl
    refine ⟨fun state => congrArg Host.Outcome.next
      (runOrder_refused turn rfl (orderCancel_state (s := s.carryOut n _) state)), fun st d p slot => ?_⟩
    refine ⟨fun state => ?_, ?_, ?_, ?_, ?_⟩
    · exact exec_cancel turn slot (orderCancel_waits (s := s.carryOut n _) slot state)
    · rintro rfl
      have cancels := orderCancel_preempted (s := s.carryOut n [0x70, slotByte i]) slot
      rw [State.unstack_eq] at cancels
      exact exec_cancel turn slot cancels
    · rintro rfl unit asking
      refine exec_cancel turn slot ((orderCancel_active (s := s.carryOut n _) slot).trans ?_)
      rw [State.carryOut_mover, unit, State.dropBurst_asking (s := s.carryOut n _) asking]
      rfl
    · rintro rfl unit other
      refine exec_cancel turn slot ((orderCancel_active (s := s.carryOut n _) slot).trans ?_)
      rw [State.carryOut_mover, unit, State.dropBurst_other (s := s.carryOut n _) other]
      rfl
    · rintro rfl unit
      exact congrArg Host.Outcome.next
        (runOrder_held turn rfl ((orderCancel_active (s := s.carryOut n _) slot).trans
          (if_pos (Option.isSome_iff_ne_none.mpr unit))))

/-! ## RETRY and SKIP -/

section
variable {s : State} {i : Fin 64} {d : Descriptor} {p : Progress}

theorem orderRetry_faulted (slot : s.slot i = .live .faulted d p) :
    orderRetry [slotByte i] s =
      if s.waitingMark i then refusal .noticeWaiting s
      else .answered .done ([slotByte i] ++ le3 p.remaining)
        (s.setSlot i (.live .current d { p with lastFault := none })).react := by
  rw [orderRetry, withSlot_slotByte, slot]

theorem orderSkip_faulted (slot : s.slot i = .live .faulted d p) :
    orderSkip [slotByte i] s =
      .answered .done ([slotByte i] ++ le3 p.committed ++ le3 p.remaining)
        (s.removeHead (s.sourceOf i) .spent).react := by
  rw [orderSkip, withSlot_slotByte, slot]

theorem orderRetry_state (state : (s.slot i).state ≠ some .faulted) :
    orderRetry [slotByte i] s = refusal .badState s := by
  rw [orderRetry, withSlot_slotByte]
  split
  next slot => exact absurd (Slot.state_live slot) state
  next => rfl

theorem orderSkip_state (state : (s.slot i).state ≠ some .faulted) :
    orderSkip [slotByte i] s = refusal .badState s := by
  rw [orderSkip, withSlot_slotByte]
  split
  next slot => exact absurd (Slot.state_live slot) state
  next => rfl

end

/-- Settles O49: both orders take a FAULTED slot only, RETRY with no record waiting. -/
theorem retryAndSkipTakeAFaultedSlot : Obligations.RetryAndSkipTakeAFaultedSlot := by
  constructor
  · intro s n i d p slot
    refine ⟨fun turn mark => ?_, fun turn mark => ?_, fun q rest turn source queue => ?_⟩
    · exact congrArg Host.Outcome.next
        (runOrder_done turn rfl
          ((orderRetry_faulted (s := s.carryOut n _) slot).trans (if_neg (Bool.eq_false_iff.mp mark))))
    · exact congrArg Host.Outcome.next
        (runOrder_refused turn rfl ((orderRetry_faulted (s := s.carryOut n _) slot).trans (if_pos mark)))
    · have heads : s.sourceOf i = q := by rw [State.sourceOf, source]; rfl
      have skips := orderSkip_faulted (s := s.carryOut n [0x72, slotByte i]) slot
      rw [State.carryOut_sourceOf, heads, State.removeHead_cons (s := s.carryOut n _) queue slot] at skips
      exact congrArg Host.Outcome.next (runOrder_done turn rfl skips)
  · rintro s c code n b (⟨rfl, rfl⟩ | ⟨rfl, rfl⟩) turn
    · refine ⟨fun high => congrArg Host.Outcome.next
        (runOrder_refused (body := orderRetry) turn rfl (withSlot_none high _ _ _)), ?_⟩
      rintro i rfl state
      exact congrArg Host.Outcome.next (runOrder_refused turn rfl (orderRetry_state (s := s.carryOut n _) state))
    · refine ⟨fun high => congrArg Host.Outcome.next
        (runOrder_refused (body := orderSkip) turn rfl (withSlot_none high _ _ _)), ?_⟩
      rintro i rfl state
      exact congrArg Host.Outcome.next (runOrder_refused turn rfl (orderSkip_state (s := s.carryOut n _) state))

end Sys2Proof.Machine
end


-- ==== Sys2Proof/Proofs/Candidates.lean ====
section
/-! PROOF. Which sources are candidates (R26, R27, R58, R59), which candidate wins (R61, R63), and how a selection runs
(R62, R65). -/

namespace Sys2Proof.Machine

/-! ## Eligibility (R59) -/

theorem State.lanesCanMove_iff {s : State} {t : Transfer} :
    s.lanesCanMove t = true ↔ ∀ p ∈ t.lanes, (s.lane p.1).canMove p.2 t.unitBytes = true := by
  rw [State.lanesCanMove, List.all_eq_true]

/-- A head is eligible when its lanes can move a unit or do not fit it. -/
theorem State.eligible_iff {s : State} {t : Transfer} :
    s.eligible t = true ↔
      ((∀ p ∈ t.lanes, (s.lane p.1).enabled = true ∧ (s.lane p.1).direction = p.2) →
        ∀ p ∈ t.lanes, (s.lane p.1).canMove p.2 t.unitBytes = true) := by
  rw [State.eligible, Bool.or_eq_true, State.lanesCanMove_iff, ← State.laneFault_none]
  cases s.laneFault t <;> simp

@[simp] theorem Lane.canMove_incoming {l : Lane} {unit : Nat} : l.canMove .incoming unit = true ↔ unit ≤ l.fill := by
  simp [Lane.canMove]

@[simp] theorem Lane.canMove_outgoing {l : Lane} {unit : Nat} : l.canMove .outgoing unit = true ↔ unit ≤ 32 - l.fill :=
  decide_eq_true_iff

section
variable {s : State} {u : UnitSize} {k : Nat} {n m : Fin 12} {a : Side}

theorem State.eligible_capture :
    s.eligible (.capture u k n a) = true ↔
      ((s.lane n).enabled = true ∧ (s.lane n).direction = .incoming → u.bytes ≤ (s.lane n).fill) := by
  simp [State.eligible_iff, Transfer.lanes, Transfer.unitBytes, Transfer.unit?]

theorem State.eligible_playout :
    s.eligible (.playout u k m a) = true ↔
      ((s.lane m).enabled = true ∧ (s.lane m).direction = .outgoing → u.bytes ≤ 32 - (s.lane m).fill) := by
  simp [State.eligible_iff, Transfer.lanes, Transfer.unitBytes, Transfer.unit?]

theorem State.eligible_relay :
    s.eligible (.relay u k n m) = true ↔
      ((s.lane n).enabled = true ∧ (s.lane n).direction = .incoming →
        (s.lane m).enabled = true ∧ (s.lane m).direction = .outgoing →
        u.bytes ≤ (s.lane n).fill ∧ u.bytes ≤ 32 - (s.lane m).fill) := by
  simp [State.eligible_iff, Transfer.lanes, Transfer.unitBytes, Transfer.unit?]

end

/-! ## Pending sources (R26, R27, R31) -/

section
variable {s : State}

theorem Lane.condition_iff {l : Lane} :
    l.condition = true ↔
      l.enabled = true ∧
        ((l.direction = .incoming ∧ l.threshold ≤ l.fill) ∨ (l.direction = .outgoing ∧ l.threshold ≤ 32 - l.fill)) := by
  have room : 32 - l.fill = l.room := rfl
  rw [room, Lane.condition]
  cases direction : l.direction <;> simp

theorem Line.pending_iff {l : Line} {count : Nat} :
    l.pending count = true ↔
      ((l.mode = .rising ∨ l.mode = .falling ∨ l.mode = .both) ∧ 1 ≤ count) ∨ (l.mode = .high ∧ l.high = true) ∨
        (l.mode = .low ∧ l.high = false) := by
  unfold Line.pending
  cases mode : l.mode <;> simp [Nat.succ_le_iff]

theorem State.isPending_laneSource (n : Fin 12) : s.isPending (laneSource n) = (s.lane n).condition := by
  rw [State.isPending, sourceId_laneSource]

theorem State.isPending_lineSource (n : Fin 4) :
    s.isPending (lineSource n) = (s.line n).pending (s.count (lineSource n)) := by
  rw [State.isPending, sourceId_lineSource]

theorem State.isPending_timerSource (n : Fin 4) :
    s.isPending (timerSource n) = true ↔ 1 ≤ s.count (timerSource n) := by
  rw [State.isPending, sourceId_timerSource]
  exact decide_eq_true_iff

theorem State.isPending_softSource (n : Fin 8) : s.isPending (softSource n) = true ↔ 1 ≤ s.count (softSource n) := by
  rw [State.isPending, sourceId_softSource]
  exact decide_eq_true_iff

/-! ## Candidates (R58) -/

theorem State.sourceCandidate_iff {q : Fin 28} {i : Fin 64} {lv : Nat} :
    s.sourceCandidate q = some (i, lv) ↔
      ∃ rest d p, s.queue q = i :: rest ∧ s.slot i = .live .current d p ∧ s.isPending q = true ∧
        s.eligible d.transfer = true ∧ d.level = lv := by
  constructor
  · intro candidate
    unfold State.sourceCandidate at candidate
    split at candidate
    · cases candidate
    next h rest queue =>
      split at candidate
      next d p slot =>
        split_ifs at candidate with stands
        obtain ⟨pending, eligible⟩ := Bool.and_eq_true_iff.mp stands
        cases candidate
        exact ⟨rest, d, p, queue, slot, pending, eligible, rfl⟩
      · cases candidate
  · rintro ⟨rest, d, p, queue, slot, pending, eligible, rfl⟩
    unfold State.sourceCandidate
    simp only [queue, slot, pending, eligible, Bool.and_self, if_true]

end

/-- Settles O33: candidacy, eligibility and the pending sources, each by its definition's cases. -/
theorem candidatesArePendingEligibleHeads : Obligations.CandidatesArePendingEligibleHeads := by
  refine ⟨⟨fun s q i lv => State.sourceCandidate_iff, fun s a b u k => ⟨rfl, rfl⟩,
    fun s n m a u k => ⟨State.eligible_capture, State.eligible_playout, State.eligible_relay⟩, fun s t grant mem => rfl⟩,
    fun s => ⟨fun n => ?_, fun n => ?_, State.isPending_timerSource, State.isPending_softSource⟩⟩
  · rw [State.isPending_laneSource, Lane.condition_iff]
  · rw [State.isPending_lineSource, Line.pending_iff]

/-! ## The winner (R61, R63) -/

/-- What has won among the link access and some sources: the first of the highest level, the link access before them. -/
structure State.Wins (s : State) (seen : List (Fin 28)) (c : Choice) (lv : Nat) : Prop where
  overLink : ∀ c' l, s.linkCandidate = some (c', l) → l ≤ lv
  overSources : ∀ q ∈ seen, ∀ i l, s.sourceCandidate q = some (i, l) → l ≤ lv
  link : c = .link → s.linkCandidate = some (.link, lv)
  chosen : c ≠ .resume
  source : ∀ i, c = .source i →
    ∃ q ∈ seen, s.sourceCandidate q = some (i, lv) ∧
      (∀ r ∈ seen, r < q → ∀ j l, s.sourceCandidate r = some (j, l) → l < lv) ∧
      ∀ c' l, s.linkCandidate = some (c', l) → l < lv

/-- The winner so far, or none where there is no candidate. -/
def State.Won (s : State) (seen : List (Fin 28)) : Option (Choice × Nat) → Prop
  | some (c, lv) => s.Wins seen c lv
  | none => s.linkCandidate = none ∧ ∀ q ∈ seen, s.sourceCandidate q = none

section
variable {s : State} {seen : List (Fin 28)} {q : Fin 28} {i : Fin 64} {c : Choice} {lv best : Nat}
  {won : Option (Choice × Nat)}

theorem State.linkCandidate_link {w : Choice × Nat} (candidate : s.linkCandidate = some w) : w.1 = .link := by
  unfold State.linkCandidate at candidate
  split at candidate
  · split_ifs at candidate
    cases candidate
    rfl
  · cases candidate

theorem State.won_link (s : State) : s.Won [] s.linkCandidate := by
  cases candidate : s.linkCandidate with
  | none => exact ⟨candidate, nofun⟩
  | some w =>
    obtain ⟨c, lv⟩ := w
    obtain rfl : c = .link := State.linkCandidate_link candidate
    exact ⟨fun c' l same => by rw [candidate] at same; cases same; exact le_rfl, nofun, fun _ => candidate, nofun, nofun⟩

/-- A source that is no candidate leaves the winner. -/
theorem State.Won.pass (h : s.Won seen won) (no : s.sourceCandidate q = none) : s.Won (seen ++ [q]) won := by
  have only : ∀ r ∈ seen ++ [q], ∀ w, s.sourceCandidate r = some w → r ∈ seen := by
    intro r mem w candidate
    rcases List.mem_append.mp mem with mem | mem
    · exact mem
    · rw [List.mem_singleton.mp mem, no] at candidate
      cases candidate
  cases won with
  | none =>
    refine ⟨h.1, fun r mem => ?_⟩
    by_contra some
    obtain ⟨w, candidate⟩ := Option.ne_none_iff_exists'.mp some
    exact some (h.2 r (only r mem w candidate))
  | some w =>
    refine ⟨h.overLink, fun r mem j l candidate => h.overSources r (only r mem _ candidate) j l candidate, h.link,
      h.chosen, fun j same => ?_⟩
    obtain ⟨r, mem, candidate, first, link⟩ := h.source j same
    exact ⟨r, List.mem_append_left _ mem, candidate,
      fun r' mem' less j' l' candidate' => first r' (only r' mem' _ candidate') less j' l' candidate', link⟩

/-- A candidate above every one before it wins. -/
theorem State.wins_above (candidate : s.sourceCandidate q = some (i, lv))
    (link : ∀ c' l, s.linkCandidate = some (c', l) → l < lv)
    (sources : ∀ r ∈ seen, ∀ j l, s.sourceCandidate r = some (j, l) → l < lv) :
    s.Wins (seen ++ [q]) (.source i) lv := by
  refine ⟨fun c' l same => (link c' l same).le, fun r mem j l same => ?_, nofun, nofun, ?_⟩
  · rcases List.mem_append.mp mem with mem | mem
    · exact (sources r mem j l same).le
    · rw [List.mem_singleton.mp mem, candidate] at same
      cases same
      exact le_rfl
  · intro j same
    cases same
    refine ⟨q, by simp, candidate, fun r mem less j l same => ?_, link⟩
    rcases List.mem_append.mp mem with mem | mem
    · exact sources r mem j l same
    · exact absurd (List.mem_singleton.mp mem) less.ne

/-- A later candidate no higher than the winner leaves it. -/
theorem State.Wins.stays (h : s.Wins seen c best) (candidate : s.sourceCandidate q = some (i, lv)) (below : lv ≤ best)
    (after : ∀ r ∈ seen, r < q) : s.Wins (seen ++ [q]) c best := by
  refine ⟨h.overLink, fun r mem j l same => ?_, h.link, h.chosen, fun j same => ?_⟩
  · rcases List.mem_append.mp mem with mem | mem
    · exact h.overSources r mem j l same
    · rw [List.mem_singleton.mp mem, candidate] at same
      cases same
      exact below
  · obtain ⟨r, mem, winner, first, link⟩ := h.source j same
    refine ⟨r, List.mem_append_left _ mem, winner, fun r' mem' less j' l' candidate' => ?_, link⟩
    rcases List.mem_append.mp mem' with mem' | mem'
    · exact first r' mem' less j' l' candidate'
    · exact absurd (less.trans (after r mem)) (by rw [List.mem_singleton.mp mem']; exact lt_irrefl q)

/-- The next source in order is compared with the winner so far. -/
theorem State.Won.better (h : s.Won seen won) (after : ∀ r ∈ seen, r < q) : s.Won (seen ++ [q]) (s.better won q) := by
  cases candidate : s.sourceCandidate q with
  | none =>
    have kept : s.better won q = won := by simp only [State.better, candidate]
    rw [kept]
    exact h.pass candidate
  | some w =>
    obtain ⟨i, lv⟩ := w
    cases won with
    | none =>
      have taken : s.better none q = some (.source i, lv) := by simp only [State.better, candidate]
      rw [taken]
      exact State.wins_above candidate (fun c' l same => by rw [h.1] at same; cases same)
        fun r mem j l same => by rw [h.2 r mem] at same; cases same
    | some w =>
      obtain ⟨c, best⟩ := w
      have compared : s.better (some (c, best)) q = if best < lv then some (.source i, lv) else some (c, best) := by
        simp only [State.better, candidate]
      rw [compared]
      split_ifs with above
      · exact State.wins_above candidate (fun c' l same => (h.overLink c' l same).trans_lt above)
          fun r mem j l same => (h.overSources r mem j l same).trans_lt above
      · exact h.stays candidate (Nat.not_lt.mp above) after

theorem State.won_foldl (s : State) : ∀ (todo seen : List (Fin 28)) (won : Option (Choice × Nat)),
    (seen ++ todo).Pairwise (· < ·) → s.Won seen won → s.Won (seen ++ todo) (todo.foldl s.better won)
  | [], seen, won, _, h => by rwa [List.append_nil]
  | q :: todo, seen, won, sorted, h => by
    have after : ∀ r ∈ seen, r < q := fun r mem => (List.pairwise_append.mp sorted).2.2 r mem q List.mem_cons_self
    have rest := State.won_foldl s todo (seen ++ [q]) (s.better won q)
    rw [List.append_assoc, List.singleton_append] at rest
    exact rest sorted (h.better after)

theorem State.winner_open (open_ : s.sched.freeze ≠ .frozen) :
    s.winner = (List.finRange 28).foldl s.better s.linkCandidate := by
  unfold State.winner
  split
  next frozen => exact absurd frozen open_
  · rfl
  · rfl

theorem State.won_winner (open_ : s.sched.freeze ≠ .frozen) : s.Won (List.finRange 28) s.winner := by
  rw [State.winner_open open_]
  exact State.won_foldl s (List.finRange 28) [] _ (List.pairwise_lt_finRange 28) s.won_link

theorem State.winner_none (open_ : s.sched.freeze ≠ .frozen) :
    s.winner = none ↔ s.linkCandidate = none ∧ ∀ q, s.sourceCandidate q = none := by
  have won := State.won_winner open_
  constructor
  · intro none
    rw [none] at won
    exact ⟨won.1, fun q => won.2 q (List.mem_finRange q)⟩
  · rintro ⟨link, sources⟩
    cases winner : s.winner with
    | none => rfl
    | some w =>
      obtain ⟨c, lv⟩ := w
      rw [winner] at won
      cases c with
      | link => exact absurd (won.link rfl) (by rw [link]; nofun)
      | source i =>
        obtain ⟨q, -, candidate, -⟩ := won.source i rfl
        rw [sources q] at candidate
        cases candidate
      | resume => exact absurd rfl won.chosen

/-! ## What a selection chooses -/

theorem State.choose_frozen_eq (frozen : s.sched.freeze = .frozen) : s.choose = s.linkCandidate.map Prod.fst := by
  rw [State.choose, State.winner, frozen]

theorem State.choose_empty (open_ : s.sched.freeze ≠ .frozen) (stack : s.sched.stack = []) :
    s.choose = s.winner.map Prod.fst := by
  unfold State.choose
  rw [stack]
  cases freeze : s.sched.freeze with
  | frozen => exact absurd freeze open_
  | running => cases s.winner <;> rfl
  | freezing => cases s.winner <;> rfl

theorem State.choose_over {e : StackEntry} {rest : List StackEntry} (open_ : s.sched.freeze ≠ .frozen)
    (stack : s.sched.stack = e :: rest) :
    s.choose = some (match s.winner with
      | some (c, lv) => if e.level < lv then c else .resume
      | none => .resume) := by
  have chosen : ∀ (c : Choice) (lv : Nat), (if e.level < lv then some c else some Choice.resume) =
      some (if e.level < lv then c else .resume) := fun c lv => (apply_ite some _ _ _).symm
  unfold State.choose
  rw [stack]
  cases freeze : s.sched.freeze with
  | frozen => exact absurd freeze open_
  | running =>
    cases s.winner with
    | none => rfl
    | some w => exact chosen w.1 w.2
  | freezing =>
    cases s.winner with
    | none => rfl
    | some w => exact chosen w.1 w.2

/-! ## The run of a selection -/

theorem selection_burst {b : Burst} (burst : s.sched.burst = some b) : ∀ k, selection k s = s
  | 0 => by rw [selection, burst]; rfl
  | _ + 1 => by rw [selection, burst]

theorem selection_none (burst : s.sched.burst = none) (choice : s.choose = none) : ∀ k, selection k s = s.rest
  | 0 => by rw [selection, burst]; rfl
  | _ + 1 => by rw [selection, burst, choice]

theorem selection_some {k : Nat} (burst : s.sched.burst = none) (choice : s.choose = some c) :
    selection (k + 1) s = selection k (s.perform c) := by
  rw [selection, burst, choice]

end

/-- Settles O34: the sources are compared in their order, so the first of the highest level wins. -/
theorem selectionTakesTheHighestCandidate : Obligations.SelectionTakesTheHighestCandidate := by
  refine ⟨fun s open_ => ⟨State.winner_none open_, fun c lv winner => ?_, State.choose_empty open_,
    fun e rest => State.choose_over open_⟩, fun s => State.choose_frozen_eq, fun s => rfl,
    fun s k => ⟨fun burst => ?_, fun burst choice => selection_none burst choice k, fun c => selection_some⟩⟩
  · have won := State.won_winner open_
    rw [winner] at won
    refine ⟨won.overLink, fun q => won.overSources q (List.mem_finRange q), won.link, won.chosen, fun i same => ?_⟩
    obtain ⟨q, -, candidate, first, link⟩ := won.source i same
    exact ⟨q, candidate, fun r less => first r (List.mem_finRange r) less, link⟩
  · obtain ⟨b, burst⟩ := Option.ne_none_iff_exists'.mp burst
    exact selection_burst burst k

end Sys2Proof.Machine
end


-- ==== Sys2Proof/Proofs/Bursts.lean ====
section
/-! PROOF. How bursts start, are pushed and resumed (R66 to R76), how FREEZE cuts and THAW selects (R79 to R83), and how the
mover takes a burst up (R86). -/

namespace Sys2Proof.Machine

/-! ## The lane check (R67) -/

theorem Lane.unfit_eq (l : Lane) (need : Direction) :
    l.unfit need =
      if l.enabled = false then some .laneOff else if l.direction ≠ need then some .laneDirection else none := by
  unfold Lane.unfit
  cases l.enabled <;> simp

section
variable (s : State) (u : UnitSize) (k : Nat) (n m : Fin 12) (a : Side)

theorem State.laneFault_capture : s.laneFault (.capture u k n a) = (s.lane n).unfit .incoming := by
  simp [State.laneFault, Transfer.lanes]

theorem State.laneFault_playout : s.laneFault (.playout u k m a) = (s.lane m).unfit .outgoing := by
  simp [State.laneFault, Transfer.lanes]

/-- The from-lane of a RELAY is checked first. -/
theorem State.laneFault_relay :
    s.laneFault (.relay u k n m) = ((s.lane n).unfit .incoming).or ((s.lane m).unfit .outgoing) := by
  simp only [State.laneFault, Transfer.lanes, List.findSome?_cons, List.findSome?_nil]
  cases (s.lane n).unfit .incoming <;> cases (s.lane m).unfit .outgoing <;> rfl

end

/-! ## Pushing and preempting (R70, R74) -/

section
variable {s : State} {b : Burst}

theorem State.react_free (burst : s.sched.burst = none) : s.react = s.select := by
  rw [State.react, burst]

theorem State.react_unit (burst : s.sched.burst ≠ none) (unit : s.mover.unit ≠ none) : s.react = s := by
  obtain ⟨b, burst⟩ := Option.ne_none_iff_exists'.mp burst
  rw [State.react, burst]
  exact if_pos (Option.isSome_iff_ne_none.mpr unit)

theorem State.react_preempts {c : Choice} (burst : s.sched.burst = some b) (unit : s.mover.unit = none)
    (higher : s.preemptor b = some c) : s.react = ((s.push b).perform c).select := by
  simp [State.react, burst, unit, higher]

theorem State.react_keeps (burst : s.sched.burst = some b) (unit : s.mover.unit = none) (none : s.preemptor b = none) :
    s.react = s := by
  simp [State.react, burst, unit, none]

theorem State.preemptor_some {c : Choice} {lv : Nat} (winner : s.winner = some (c, lv)) (above : b.level < lv) :
    s.preemptor b = some c := by
  rw [State.preemptor, winner]
  exact if_pos above

theorem State.preemptor_none (below : ∀ c lv, s.winner = some (c, lv) → lv ≤ b.level) : s.preemptor b = none := by
  unfold State.preemptor
  split
  next c lv winner => exact if_neg (Nat.not_lt.mpr (below c lv winner))
  · rfl

theorem State.push_slot {i : Fin 64} (owner : b.owner = .slot i) : (s.push b).slot i = (s.slot i).to .preempted := by
  simp only [State.push, owner]
  exact State.slot_setSlot_self s i _

/-! ## Resuming (R76) and the link access (R64, R68) -/

variable {e : StackEntry} {rest : List StackEntry} {i : Fin 64} {st : LiveState} {d : Descriptor} {p : Progress}

theorem State.resume_slot (stack : s.sched.stack = e :: rest) (owner : e.owner = .slot i)
    (slot : s.slot i = .live st d p) :
    s.resume =
      (((s.setSlot i (.live .active d p)).setStack rest).setBurst
        (some { owner := .slot i, level := e.level, moved := e.moved, block := d.transfer.block })).takeUp := by
  simp only [State.resume, stack, owner, State.blockOf, slot, State.setState_live slot]

theorem State.resume_link {a : LinkAccess} (stack : s.sched.stack = e :: rest) (owner : e.owner = .link)
    (access : s.sched.access = some a) :
    s.resume =
      ((s.setStack rest).setBurst
        (some { owner := .link, level := e.level, moved := e.moved, block := a.kind.length })).takeUp := by
  simp [State.resume, stack, owner, State.blockOf, access]

theorem State.startLink_eq {a : LinkAccess} (access : s.sched.access = some a) :
    s.startLink =
      (((if s.sched.freeze = .frozen then s.cutAbove a.level s.sched.stack else s).setAccess
        (some { a with candidate := false })).setBurst
        (some { owner := .link, level := a.level, moved := 0, block := a.kind.length })).takeUp := by
  rw [State.startLink, access]

variable {level : Nat}

theorem State.cutAbove_below (below : e.level < level) : s.cutAbove level (e :: rest) = s.setStack (e :: rest) := by
  rw [State.cutAbove, if_pos below]

theorem State.cutAbove_link (above : level ≤ e.level) (owner : e.owner = .link) :
    s.cutAbove level (e :: rest) = s.cutAbove level rest := by
  rw [State.cutAbove, if_neg (Nat.not_lt.mpr above), owner]

theorem State.cutAbove_slot (above : level ≤ e.level) (owner : e.owner = .slot i) (slot : s.slot i = .live st d p) :
    s.cutAbove level (e :: rest) = (s.setSlot i (.live .current d p)).cutAbove level rest := by
  rw [State.cutAbove, if_neg (Nat.not_lt.mpr above), owner]
  exact congrArg (State.cutAbove · level rest) (State.setState_live slot .current)

end

/-- Settles O35: the parts of a start, a push, a resumption and a cut, each by its definition's cases. -/
theorem burstsStartPushAndResume : Obligations.BurstsStartPushAndResume := by
  refine ⟨fun s i st d p slot => ⟨fun fit => ?_, fun f fault => ?_, fun n m a u k => ?_⟩,
    ⟨fun s => State.react_unit, fun s b burst unit below => State.react_keeps burst unit (State.preemptor_none below),
      fun s b c lv burst unit winner above => State.react_preempts burst unit (State.preemptor_some winner above),
      fun s b => ⟨rfl, rfl, fun i => State.push_slot⟩, fun s e rest i st d p => State.resume_slot⟩,
    ⟨fun s a access => ⟨fun open_ => ?_, fun frozen => ?_, fun e rest stack owner => State.resume_link stack owner access⟩,
      fun count result data => ⟨rfl, rfl⟩,
      fun s level e rest => ⟨rfl, State.cutAbove_below, State.cutAbove_link, fun i st d p => State.cutAbove_slot⟩⟩⟩
  · change s.startBurst i = _
    rw [State.startBurst_live slot, fit]
    rfl
  · change s.startBurst i = _
    rw [State.startBurst_live slot, fault]
    rfl
  · have faults : ∀ l need, (s.lane l).unfit need =
        if (s.lane l).enabled = false then some .laneOff
        else if (s.lane l).direction ≠ need then some .laneDirection else none := fun l need => Lane.unfit_eq _ need
    refine ⟨(s.laneFault_capture u k n a).trans (faults n _), (s.laneFault_playout u k m a).trans (faults m _),
      fun f first => ?_, fun fits => ?_, rfl, fun b => rfl⟩
    · rw [State.laneFault_relay, (faults n _).trans first]
      rfl
    · rw [State.laneFault_relay, (faults n _).trans fits]
      exact faults m _
  · change s.startLink = _
    rw [State.startLink_eq access, if_neg open_]
  · change s.startLink = _
    rw [State.startLink_eq access, if_pos frozen]

/-! ## FREEZE and THAW -/

section
variable {s : State} {operands : List Byte}

theorem orderFreeze_frozen (frozen : s.sched.freeze = .frozen) :
    orderFreeze operands s = .answered .done (freezeData none s.sched.stack.length) s := by
  rw [orderFreeze, frozen]

theorem orderFreeze_free (running : s.sched.freeze = .running) (burst : s.sched.burst = none) :
    orderFreeze operands s = .answered .done (freezeData none s.sched.stack.length) (s.setFreeze .frozen) := by
  rw [orderFreeze, running, burst]

theorem orderFreeze_slot {b : Burst} {i : Fin 64} (running : s.sched.freeze = .running) (burst : s.sched.burst = some b)
    (owner : b.owner = .slot i) : orderFreeze operands s = s.freezeBurst i := by
  obtain ⟨_, level, moved, block⟩ := b
  cases owner
  rw [orderFreeze, running, burst]

theorem State.freezeBurst_unit {i : Fin 64} (unit : s.mover.unit ≠ none) :
    s.freezeBurst i = .held ((s.setFreeze .freezing).hold .freeze) :=
  if_pos (Option.isSome_iff_ne_none.mpr unit)

theorem State.freezeBurst_cut {i : Fin 64} (unit : s.mover.unit = none) :
    s.freezeBurst i =
      .answered .done (freezeData (some i) s.sched.stack.length)
        ((s.endCurrent i).lowerRequest.rest.setFreeze .frozen) :=
  if_neg (by rw [unit]; nofun)

theorem State.endCurrent_live {i : Fin 64} {st : LiveState} {d : Descriptor} {p : Progress}
    (slot : s.slot i = .live st d p) : s.endCurrent i = (s.setBurst none).setSlot i (.live .current d p) :=
  State.setState_live (s := s.clearBurst) slot .current

theorem orderThaw_frozen (frozen : s.sched.freeze = .frozen) :
    orderThaw operands s = .answered .done [] (s.setFreeze .running).react := by
  rw [orderThaw, frozen]

theorem orderThaw_running (running : s.sched.freeze = .running) : orderThaw operands s = .answered .done [] s := by
  rw [orderThaw, running]

end

/-- Settles O36: FREEZE by the freeze state, the burst in hand and the mover's unit; THAW by the freeze state. -/
theorem freezeAndThaw : Obligations.FreezeAndThaw := by
  constructor
  · intro s n turn
    refine ⟨fun frozen => ?_, fun running burst => ?_, fun b i d p running burst owner slot unit => ?_,
      fun b i running burst owner unit => ?_⟩
    · exact congrArg Host.Outcome.next (runOrder_done turn rfl (orderFreeze_frozen (s := s.carryOut n _) frozen))
    · exact congrArg Host.Outcome.next (runOrder_done turn rfl (orderFreeze_free (s := s.carryOut n _) running burst))
    · have cuts := (orderFreeze_slot (s := s.carryOut n [0x40]) (operands := []) running burst owner).trans
        (State.freezeBurst_cut unit)
      rw [State.endCurrent_live (s := s.carryOut n _) slot] at cuts
      exact congrArg Host.Outcome.next (runOrder_done turn rfl cuts)
    · exact congrArg Host.Outcome.next
        (runOrder_held turn rfl
          ((orderFreeze_slot (s := s.carryOut n _) running burst owner).trans (State.freezeBurst_unit unit)))
  · intro s n turn
    refine ⟨fun frozen => ?_, fun running => ?_, fun burst => State.react_free burst⟩
    · exact congrArg Host.Outcome.next (runOrder_done turn rfl (orderThaw_frozen (s := s.carryOut n _) frozen))
    · exact congrArg Host.Outcome.next (runOrder_done turn rfl (orderThaw_running (s := s.carryOut n _) running))

/-! ## Taking up a burst (R86) -/

section
variable {s : State} {b : Burst}

theorem State.takeUp_asks (burst : s.sched.burst = some b) (memory : s.burstNeedsMemory b = true)
    (request : s.mover.request = false) : s.takeUp = s.ask := by
  simp [State.takeUp, burst, memory, request]

theorem State.takeUp_restarts (burst : s.sched.burst = some b) (memory : s.burstNeedsMemory b = true)
    (request : s.mover.request = true) (asking : s.mover.state = .asking) :
    s.takeUp = s.setMover { s.mover with timer := some s.cfg.grantLimit } := by
  simp [State.takeUp, burst, memory, request, asking]

theorem State.takeUp_goesOn (burst : s.sched.burst = some b) (memory : s.burstNeedsMemory b = true)
    (request : s.mover.request = true) (granted : s.mover.state ≠ .asking) : s.takeUp = s.beginNext := by
  simp [State.takeUp, burst, memory, request, granted]

theorem State.takeUp_memoryless (burst : s.sched.burst = some b) (memory : s.burstNeedsMemory b = false) :
    s.takeUp = (s.lowerRequest.goes .moving).beginNext := by
  simp [State.takeUp, burst, memory]

theorem State.ask_granted (grant : s.grant = true) : s.ask = s.setMover { s.mover with state := .yielding } :=
  if_pos grant

theorem State.ask_free (grant : s.grant = false) :
    s.ask = s.setMover { s.mover with state := .asking, request := true, timer := some s.cfg.grantLimit } :=
  if_neg (by rw [grant]; nofun)

theorem State.burstNeedsMemory_link (owner : b.owner = .link) : s.burstNeedsMemory b = true := by
  rw [State.burstNeedsMemory, owner]

theorem State.burstNeedsMemory_slot {i : Fin 64} {st : LiveState} {d : Descriptor} {p : Progress}
    (owner : b.owner = .slot i) (slot : s.slot i = .live st d p) : s.burstNeedsMemory b = d.transfer.needsMemory := by
  simp only [State.burstNeedsMemory, owner, slot]

end

/-- Settles O37: by whether the burst needs memory, and by the request, the grant and the mover's state. -/
theorem moverTakesUpBursts : Obligations.MoverTakesUpBursts := by
  refine ⟨fun s b burst => ⟨fun memory request grant => ?_, fun memory request grant => ?_,
    fun memory => State.takeUp_restarts burst memory, fun memory => State.takeUp_goesOn burst memory,
    fun memory => State.takeUp_memoryless burst memory⟩, fun s => rfl,
    fun s b => ⟨State.burstNeedsMemory_link, fun i st d p owner slot => ?_⟩⟩
  · rw [State.takeUp_asks burst memory request, State.ask_free grant]
  · rw [State.takeUp_asks burst memory request, State.ask_granted grant]
  · rw [State.burstNeedsMemory_slot owner slot]
    cases d.transfer <;> simp [Transfer.needsMemory]

end Sys2Proof.Machine
end


-- ==== Sys2Proof/Proofs/UnitEffects.lean ====
section
/-! PROOF. What a unit does at its end (R87, R89, R102, R103, R115, R116) and the cycles it makes on the memory bus
(R91). -/

namespace Sys2Proof.Machine

/-! ## A run of bytes read and checked -/

theorem readBytes_eq_map (m : Memory) (a n : Nat) : m.readBytes a n = (List.range n).map fun k => m.read (a + k) := by
  induction n generalizing a with
  | zero => rfl
  | succ n ih =>
    rw [List.range_succ_eq_map, List.map_cons, List.map_map, Memory.readBytes, ih]
    congr 1
    refine List.map_congr_left fun k _ => ?_
    change m.read (a + 1 + k) = m.read (a + (k + 1))
    rw [Nat.add_right_comm, Nat.add_assoc]

theorem getElem?_readBytes {m : Memory} {a n k : Nat} (low : k < n) : (m.readBytes a n)[k]? = some (m.read (a + k)) := by
  simp [readBytes_eq_map, low]

theorem firstBad_good {m : Memory} {a n : Nat} (good : ∀ k < n, (m.read (a + k)).good = true) :
    firstBad a (m.readBytes a n) = none := by
  induction n generalizing a with
  | zero => rfl
  | succ n ih =>
    have rest := ih (a := a + 1) fun k low => by
      rw [Nat.add_assoc, Nat.add_comm 1 k]
      exact good (k + 1) (by omega)
    have first : (m.read a).good = true := good 0 (by omega)
    rw [Memory.readBytes, firstBad, if_pos first, rest]

theorem firstBad_bad {m : Memory} {a n k : Nat} (low : k < n) (bad : (m.read (a + k)).good = false)
    (good : ∀ j < k, (m.read (a + j)).good = true) : firstBad a (m.readBytes a n) = some (a + k) := by
  induction n generalizing a k with
  | zero => cases low
  | succ n ih =>
    rw [Memory.readBytes, firstBad]
    cases k with
    | zero => exact if_neg (Bool.eq_false_iff.mp bad)
    | succ k =>
      have shift : ∀ j, m.read (a + 1 + j) = m.read (a + (j + 1)) := fun j => by rw [Nat.add_assoc, Nat.add_comm 1 j]
      have found := ih (a := a + 1) (k := k) (by omega) (by rw [shift]; exact bad) fun j less => by
        rw [shift]
        exact good (j + 1) (by omega)
      have first : (m.read a).good = true := good 0 (by omega)
      rw [if_pos first, found]
      congr 1
      omega

/-- A read that meets a bad byte. -/
theorem firstBad_isSome {m : Memory} {a n : Nat} (bad : ∃ k < n, (m.read (a + k)).good = false) :
    (firstBad a (m.readBytes a n)).isNone = false := by
  obtain ⟨low, bad⟩ := Nat.find_spec bad
  rw [firstBad_bad low bad fun j less => ?_]
  · rfl
  · have := Nat.find_min ‹_› less
    simpa [less.trans low] using this

section
variable {s : State} {a b : Addr} {n : Nat}

theorem State.readUnit_good {move : List Byte → State} (within : a.toNat + n ≤ s.memorySize)
    (good : ∀ k < n, (s.mem.read (a.toNat + k)).good = true) :
    s.readUnit a n move = .moved (move ((s.mem.readBytes a.toNat n).map MemByte.data)) := by
  rw [State.readUnit, if_neg (Nat.not_lt.mpr within)]
  simp only [firstBad_good good]

theorem State.readUnit_bad {move : List Byte → State} {k : Nat} (within : a.toNat + n ≤ s.memorySize) (low : k < n)
    (bad : (s.mem.read (a.toNat + k)).good = false) (good : ∀ j < k, (s.mem.read (a.toNat + j)).good = true) :
    s.readUnit a n move = .failed (a + BitVec.ofNat 24 k) := by
  have address : BitVec.ofNat 24 (a.toNat + k) = a + BitVec.ofNat 24 k := by
    rw [BitVec.ofNat_add, BitVec.ofNat_toNat, BitVec.setWidth_eq]
  rw [State.readUnit, if_neg (Nat.not_lt.mpr within)]
  simp only [firstBad_bad low bad good, address]

theorem State.performUnit_copy {size : UnitSize} {buffer : List Byte} (target : b.toNat + size.bytes ≤ s.memorySize) :
    s.performUnit { op := .copy a b size, buffer := buffer } =
      s.readUnit a size.bytes fun bytes => s.setMem (s.mem.putBytes b.toNat bytes) :=
  if_neg (Nat.not_lt.mpr target)

end

/-! ## The bus cycles of a unit -/

/-- The cycles of an aligned unit, byte k of it given by its number (R91). -/
def alignedCycles (write : Bool) (a : Nat) (bytes : Nat → MemByte) : UnitSize → List BusCycle
  | .one =>
    if a % 2 = 0 then [{ write := write, address := BitVec.ofNat 20 a, low := some (bytes 0), high := none }]
    else [{ write := write, address := BitVec.ofNat 20 a, low := none, high := some (bytes 0) }]
  | .two => [{ write := write, address := BitVec.ofNat 20 a, low := some (bytes 0), high := some (bytes 1) }]
  | .four =>
    [{ write := write, address := BitVec.ofNat 20 a, low := some (bytes 0), high := some (bytes 1) },
      { write := write, address := BitVec.ofNat 20 (a + 2), low := some (bytes 2), high := some (bytes 3) }]

theorem busCycles_even {write : Bool} {a : Nat} (even : a % 2 = 0) (x y : MemByte) (rest : List MemByte) :
    busCycles write a (x :: y :: rest) =
      { write := write, address := BitVec.ofNat 20 a, low := some x, high := some y } :: busCycles write (a + 2) rest := by
  rw [busCycles, if_pos even]

theorem busCycles_aligned {write : Bool} {a : Nat} {size : UnitSize} (aligned : a % size.bytes = 0)
    (bytes : Nat → MemByte) :
    busCycles write a ((List.range size.bytes).map bytes) = alignedCycles write a bytes size := by
  cases size with
  | one => rfl
  | two => exact busCycles_even aligned _ _ []
  | four =>
    have quarter : a % 4 = 0 := aligned
    exact (busCycles_even (by omega) (bytes 0) (bytes 1) [bytes 2, bytes 3]).trans
      (congrArg (List.cons _) (busCycles_even (by omega) (bytes 2) (bytes 3) []))

/-- The bytes of a buffer by their number. -/
theorem map_range_getD {buffer : List Byte} {n : Nat} (length : buffer.length = n) :
    buffer.map MemByte.ofData = (List.range n).map fun k => MemByte.ofData (buffer.getD k 0) := by
  subst length
  refine List.ext_getElem (by simp) fun k low _ => ?_
  have within : k < buffer.length := by simpa using low
  simp [within]

section
variable {s : State} {a b : Addr} {size : UnitSize}

theorem writeCycles_aligned {buffer : List Byte} (aligned : a.toNat % size.bytes = 0)
    (length : buffer.length = size.bytes) :
    writeCycles a buffer = alignedCycles true a.toNat (fun k => MemByte.ofData (buffer.getD k 0)) size := by
  rw [writeCycles, map_range_getD length, busCycles_aligned aligned]

theorem State.readCycles_aligned (aligned : a.toNat % size.bytes = 0) :
    s.readCycles a size.bytes = alignedCycles false a.toNat (fun k => s.mem.read (a.toNat + k)) size := by
  rw [State.readCycles, readBytes_eq_map, busCycles_aligned aligned]

theorem writeCycles_copied (aligned : b.toNat % size.bytes = 0) :
    writeCycles b ((s.mem.readBytes a.toNat size.bytes).map MemByte.data) =
      alignedCycles true b.toNat (fun k => MemByte.ofData (s.mem.read (a.toNat + k)).data) size := by
  rw [writeCycles, readBytes_eq_map, List.map_map, List.map_map]
  exact busCycles_aligned aligned _

end

/-- Settles O40: each unit's move of bytes, and its bus cycles at an aligned address. -/
theorem unitsMoveTheirBytesWhole : Obligations.UnitsMoveTheirBytesWhole := by
  intro s wf
  refine ⟨fun n a size buffer length within => ?_, fun a x within => ?_, fun n a size buffer within good => ?_,
    fun a b size buffer source target good => ?_, fun u a size k buffer op within low bad good => ?_,
    fun a buffer within bad => ?_, fun n m size buffer => rfl, fun n count bytes => ⟨rfl, rfl⟩, ?_⟩
  · have wrote := State.writeUnit_inside (s := s) (a := a) (bytes := buffer) (length.symm ▸ within)
    refine ⟨s.mem.putBytes a.toNat buffer, ?_, fun k x byte => ?_, fun c out => ?_⟩
    · simp only [State.performUnit, wrote]
    · have read := Memory.read_putBytes_in wf a.toNat k buffer x byte
      exact ⟨read, by rw [read]; exact MemByte.good_ofData x⟩
    · exact Memory.read_putBytes_out wf a.toNat c buffer (length.symm ▸ out)
  · refine ⟨s.mem.putBytes a.toNat [x], State.writeUnit_inside within, Memory.read_putBytes_in wf a.toNat 0 [x] x rfl,
      fun c ne => Memory.read_putBytes_out wf a.toNat c [x] ?_⟩
    change c < a.toNat ∨ a.toNat + 1 ≤ c
    omega
  · refine (State.readUnit_good (move := s.lanePut n) within good).trans ?_
    rw [readBytes_eq_map, List.map_map]
    rfl
  · have byte : ∀ k < size.bytes, ((s.mem.readBytes a.toNat size.bytes).map MemByte.data)[k]? =
        some (s.mem.read (a.toNat + k)).data := fun k low => by
      rw [List.getElem?_map, getElem?_readBytes low]
      rfl
    refine ⟨_, (State.performUnit_copy target).trans (State.readUnit_good source good),
      fun k low => Memory.read_putBytes_in wf b.toNat k _ _ (byte k low), fun c out => ?_⟩
    refine Memory.read_putBytes_out wf b.toNat c _ ?_
    rwa [List.length_map, readBytes_length]
  · rcases op with ⟨b, rfl, target⟩ | ⟨n, rfl⟩
    · exact (State.performUnit_copy target).trans (State.readUnit_bad within low bad good)
    · exact State.readUnit_bad within low bad good
  · have failed := State.readUnit_bad (move := s.peekResult) within Nat.one_pos bad nofun
    rw [BitVec.add_zero] at failed
    exact failed
  · intro even cycles stored given a size aligned
    have same : ∀ write a bytes size, cycles write a bytes size = alignedCycles write a bytes size :=
      fun write a bytes size => by cases size <;> rfl
    simp only [same]
    refine ⟨fun n buffer length => writeCycles_aligned aligned length, fun n buffer => State.readCycles_aligned aligned,
      fun b buffer target good => ?_, fun b buffer bad => ?_, fun n m buffer => rfl,
      fun buffer => State.readCycles_aligned (size := .one) (Nat.mod_one _),
      fun x => writeCycles_aligned (size := .one) (Nat.mod_one _) rfl⟩
    · rw [State.unitCycles]
      simp only [firstBad_good good, Option.isNone_none, if_true]
      rw [State.readCycles_aligned aligned, writeCycles_copied target]
    · rw [State.unitCycles]
      simp only [firstBad_isSome bad, Bool.false_eq_true, if_false, List.append_nil]
      exact State.readCycles_aligned aligned

end Sys2Proof.Machine
end


-- ==== Sys2Proof/Proofs/Grants.lean ====
section
/-! PROOF. The mover's beginning of a unit (R73, R87), the grant it waits for (R93, R94, R100), its loss (R96, R97), and
the grant-wait timeout (R99). -/

namespace Sys2Proof.Machine

/-! ## The next unit of a descriptor's burst -/

section
variable {s : State} {b : Burst} {i : Fin 64} {d : Descriptor} {p : Progress}

/-- The mover with a unit begun (R87, R93). -/
def State.begins (s : State) (op : UnitOp) (buffer : List Byte) : State :=
  s.setMover { s.mover with state := .moving, timer := none, unit := some { op := op, buffer := buffer } }

section
variable (burst : s.sched.burst = some b) (owner : b.owner = .slot i) (slot : s.slot i = .live .active d p)
include burst owner slot

theorem State.beginNext_shortfall (short : s.lanesCanMove d.transfer = false) :
    s.beginNext =
      ((s.setMover { s.mover with state := .moving }).setBurst none).setSlot i (.live .current d p) := by
  have begun : s.beginNext = (s.goes .moving).endCurrent i := by
    simp [State.beginNext, burst, owner, slot, short]
  exact begun.trans (State.endCurrent_live (s := s.goes .moving) slot)

variable (can : s.lanesCanMove d.transfer = true)
include can

theorem State.beginNext_capture {u : UnitSize} {k : Nat} {n : Fin 12} {side : Side} {a : Addr}
    (transfer : d.transfer = .capture u k n side) (next : p.nextA = some a) :
    s.beginNext = s.begins (.capture n a u) ((s.lane n).fifo.take u.bytes) := by
  rw [transfer] at can
  simp only [State.beginNext, burst, owner, slot, transfer, can, if_true, next, Option.getD_some]
  rfl

theorem State.beginNext_playout {u : UnitSize} {k : Nat} {n : Fin 12} {side : Side} {a : Addr}
    (transfer : d.transfer = .playout u k n side) (next : p.nextA = some a) :
    s.beginNext = s.begins (.playout n a u) [] := by
  rw [transfer] at can
  simp only [State.beginNext, burst, owner, slot, transfer, can, if_true, next, Option.getD_some]
  rfl

theorem State.beginNext_copy {u : UnitSize} {k : Nat} {sideA sideB : Side} {a c : Addr}
    (transfer : d.transfer = .copy u k sideA sideB) (nextA : p.nextA = some a) (nextB : p.nextB = some c) :
    s.beginNext = s.begins (.copy a c u) [] := by
  rw [transfer] at can
  simp only [State.beginNext, burst, owner, slot, transfer, can, if_true, nextA, nextB, Option.getD_some]
  rfl

theorem State.beginNext_relay {u : UnitSize} {k : Nat} {n m : Fin 12} (transfer : d.transfer = .relay u k n m) :
    s.beginNext = s.begins (.relay n m u) ((s.lane n).fifo.take u.bytes) := by
  rw [transfer] at can
  simp only [State.beginNext, burst, owner, slot, transfer, can, if_true]
  rfl

theorem State.beginNext_tally (transfer : d.transfer = .tally) :
    s.beginNext = (s.goes .moving).tallyUnit i d p b := by
  rw [transfer] at can
  simp only [State.beginNext, burst, owner, slot, transfer, can, if_true]

end

theorem State.tallyUnit_ends (last : p.remaining = 1) :
    s.tallyUnit i d p b = (s.commitProgress i d p b).endProcessing i :=
  if_pos (by simp [Descriptor.commit, last])

theorem State.tallyUnit_goesOn (more : 2 ≤ p.remaining) :
    s.tallyUnit i d p b = ((s.commitProgress i d p b).setBurst none).setSlot i (.live .current d (d.commit p)) := by
  have left : ¬ (d.commit p).remaining = 0 := by
    change ¬ p.remaining - 1 = 0
    omega
  exact (if_neg left).trans (State.endCurrent_live (State.commitProgress_slot s i d p b))

/-! ## The next byte of the link access -/

variable {a : LinkAccess} (burst : s.sched.burst = some b) (owner : b.owner = .link)
  (access : s.sched.access = some a)
include burst owner access

theorem State.beginNext_peek {count : Nat} {result : List Byte} (kind : a.kind = .peek count result) :
    s.beginNext = s.begins (.peek (a.start + BitVec.ofNat 24 b.moved)) [] := by
  simp only [State.beginNext, burst, owner, access, kind]
  rfl

theorem State.beginNext_poke {data : List Byte} {x : Byte} (kind : a.kind = .poke data)
    (byte : data[b.moved]? = some x) : s.beginNext = s.begins (.poke (a.start + BitVec.ofNat 24 b.moved)) [x] := by
  have taken : (data.drop b.moved).take 1 = [x] := by
    rw [List.take_one, List.head?_drop, byte]
    rfl
  simp only [State.beginNext, burst, owner, access, kind, taken]
  rfl

end

/-! ## The grant (R93, R94, R100) -/

section
variable {s t : State} {b : Burst}

theorem exec_grantAsserted (running : s.resetLow = false) :
    exec .grantAsserted s = .next (s.seeGrant true).grantSeen :=
  congrArg Host.Outcome.next (State.running_high (s := s.seeGrant true) running _)

/-- To a mover that does not ask, the grant is only seen. -/
theorem exec_grantAsserted_idle (idle : s.mover.state ≠ .asking) :
    exec .grantAsserted s = .next { s with grant := true } := by
  change _ = Host.Outcome.next (s.seeGrant true)
  rcases Bool.eq_false_or_eq_true s.resetLow with reset | reset
  · exact congrArg Host.Outcome.next (State.running_low (s := s.seeGrant true) reset _)
  · rw [exec_grantAsserted reset]
    exact congrArg Host.Outcome.next (if_neg idle)

/-- The state in which an ASKING mover meets a grant, with the request's lowering settled. -/
def State.granted (s : State) (freeCount : Nat) : State :=
  { s with grant := true, lowered := false, freeCount := freeCount }

/-- An ASKING mover serves the grant, or takes it for that of the request it lowered. -/
theorem exec_grantAsserted_asking (running : s.resetLow = false) (asking : s.mover.state = .asking)
    {serve : State → State} (serves : ∀ count, (s.granted count).serveGrant = serve (s.granted count)) :
    (s.lowered = false → exec .grantAsserted s = .next (serve (s.granted s.freeCount))) ∧
      (s.lowered = true →
        exec .grantAsserted s =
          .next (if Config.grantIsStale s.freeCount then (s.granted (s.freeCount + 1)).awaitGrantEnd
            else serve (s.granted (s.freeCount + 1)))) := by
  rw [exec_grantAsserted running]
  have seen : (s.seeGrant true).grantSeen =
      if s.lowered then
        if Config.grantIsStale s.freeCount then (s.granted (s.freeCount + 1)).awaitGrantEnd
        else (s.granted (s.freeCount + 1)).serveGrant
      else (s.seeGrant true).serveGrant := if_pos asking
  rw [seen]
  constructor
  · intro settled
    have same : s.seeGrant true = s.granted s.freeCount := by rw [State.granted, ← settled]; rfl
    rw [settled, same, serves s.freeCount]
    rfl
  · intro lowered
    rw [lowered, serves (s.freeCount + 1)]
    rfl

/-- A mover whose next unit begins serves the grant with it. -/
theorem State.serveGrant_begins {op : UnitOp} {buffer : List Byte} (burst : t.sched.burst = some b)
    (begins : (t.setMover { t.mover with state := .moving, timer := none }).beginNext =
      (t.setMover { t.mover with state := .moving, timer := none }).begins op buffer) :
    t.serveGrant = t.begins op buffer := by
  rw [State.serveGrant, begins]
  exact selection_burst (s := t.begins op buffer) burst _

/-- A mover that meets a shortfall ends the burst and the scheduler selects. -/
theorem State.serveGrant_shortfall {i : Fin 64} {d : Descriptor} {p : Progress} (burst : t.sched.burst = some b)
    (owner : b.owner = .slot i) (slot : t.slot i = .live .active d p) (short : t.lanesCanMove d.transfer = false) :
    t.serveGrant =
      (((t.setMover { t.mover with state := .moving, timer := none }).setBurst none).setSlot i
        (.live .current d p)).select :=
  congrArg State.select
    (State.beginNext_shortfall (s := t.setMover { t.mover with state := .moving, timer := none }) burst owner slot short)

end

/-- Settles O38: what begins is read off the owner of the burst; a grant serves it, or is a free value's to refuse. -/
theorem grantAssertedBeginsAUnit : Obligations.GrantAssertedBeginsAUnit := by
  refine ⟨fun s b i d p burst owner slot => ⟨fun can => ?_, fun short => State.beginNext_shortfall burst owner slot short⟩,
    fun s b a burst owner access => ⟨fun count result => State.beginNext_peek burst owner access,
      fun data x => State.beginNext_poke burst owner access⟩, ?_, fun s => exec_grantAsserted_idle⟩
  · refine ⟨fun u k n side a => State.beginNext_capture burst owner slot can,
      fun u k n side a => State.beginNext_playout burst owner slot can,
      fun u k sideA sideB a c => State.beginNext_copy burst owner slot can,
      fun u k n m => State.beginNext_relay burst owner slot can, fun transfer => ?_⟩
    rw [State.beginNext_tally burst owner slot can transfer]
    exact ⟨State.tallyUnit_ends, State.tallyUnit_goesOn⟩
  · intro s b running asking unit burst seen drawn serve shortfall stale answers
    have serving : ∀ {op buffer},
        (∀ count, ((s.granted count).setMover { s.mover with state := .moving, timer := none }).beginNext =
          ((s.granted count).setMover { s.mover with state := .moving, timer := none }).begins op buffer) →
        answers fun t => serve t op buffer := fun {op buffer} begins =>
      exec_grantAsserted_asking (serve := fun t => serve t op buffer) running asking fun count => State.serveGrant_begins (t := s.granted count) burst (begins count)
    refine ⟨fun i d p owner slot can => ⟨fun u k n side a transfer next => ?_, fun u k n side a transfer next => ?_,
      fun u k sideA sideB a c transfer nextA nextB => ?_⟩, fun i d p owner slot short => ?_,
      fun a owner access => ⟨fun count result kind => ?_, fun data x kind byte => ?_⟩⟩
    · exact serving fun count => State.beginNext_capture (s := (s.granted count).setMover _) burst owner slot can transfer next
    · exact serving fun count => State.beginNext_playout (s := (s.granted count).setMover _) burst owner slot can transfer next
    · exact serving fun count =>
        State.beginNext_copy (s := (s.granted count).setMover _) burst owner slot can transfer nextA nextB
    · exact exec_grantAsserted_asking (serve := fun t => shortfall t i d p) running asking fun count =>
        State.serveGrant_shortfall (t := s.granted count) burst owner slot short
    · exact serving fun count => State.beginNext_peek (s := (s.granted count).setMover _) burst owner access kind
    · exact serving fun count => State.beginNext_poke (s := (s.granted count).setMover _) burst owner access kind byte

/-! ## The loss of the grant (R96, R97) and the timeout (R99) -/

section
variable {s : State} {b : Burst}

theorem exec_grantDeasserted (running : s.resetLow = false) :
    exec .grantDeasserted s = .next (s.seeGrant false).settleRequest.grantGone :=
  congrArg Host.Outcome.next (State.running_high (s := (s.seeGrant false).settleRequest) running _)

theorem State.grantGone_withdrawn (moving : s.mover.state = .moving) (request : s.mover.request = true)
    (unit : s.mover.unit ≠ none) : s.grantGone = s.goes .yielding := by
  simp only [State.grantGone, moving, request, if_true, if_pos (Option.isSome_iff_ne_none.mpr unit)]

theorem State.grantGone_yielded (yielding : s.mover.state = .yielding) (unit : s.mover.unit = none) :
    s.grantGone = s.ask := by
  simp [State.grantGone, yielding, unit]

theorem State.grantGone_other
    (other : s.mover.state = .idle ∨ s.mover.state = .asking ∨ (s.mover.state = .moving ∧ s.mover.request = false) ∨
      (s.mover.state = .yielding ∧ s.mover.unit ≠ none)) : s.grantGone = s := by
  rcases other with state | state | ⟨state, request⟩ | ⟨state, unit⟩
  · simp only [State.grantGone, state]
  · simp only [State.grantGone, state]
  · simp [State.grantGone, state, request]
  · simp only [State.grantGone, state, if_pos (Option.isSome_iff_ne_none.mpr unit)]

theorem State.grantTimeout_slot {i : Fin 64} (burst : s.sched.burst = some b) (owner : b.owner = .slot i) :
    s.grantTimeout = (s.lowerRequest.faultProcessing i .grantTimeout).select := by
  have kept : s.lowerRequest.sched.burst = some b := burst
  simp only [State.grantTimeout, kept, owner]

theorem State.grantTimeout_link {a : LinkAccess} (burst : s.sched.burst = some b) (owner : b.owner = .link)
    (access : s.sched.access = some a) : s.grantTimeout = s.lowerRequest.endLink (a.noGrantAnswer b.moved) := by
  have kept : s.lowerRequest.sched.burst = some b := burst
  have held : s.lowerRequest.sched.access = some a := access
  simp only [State.grantTimeout, kept, owner, held]

theorem State.lowerRequest_asking (asking : s.mover.state = .asking) :
    s.lowerRequest = { s with mover := { s.mover with request := false, timer := none }, lowered := true } := by
  rw [State.lowerRequest, decide_eq_true asking, Bool.or_true]

theorem State.grantWaitOver_asking (asking : s.mover.state = .asking) : s.grantWaitOver = s.grantTimeout := if_pos asking

end

/-- Settles O39: by the mover's state, and at a timeout by the owner of the burst. -/
theorem grantLossAndGrantTimeout : Obligations.GrantLossAndGrantTimeout := by
  refine ⟨fun s running => ⟨fun moving request unit => ?_, fun yielding unit => ?_, fun other => ?_⟩,
    fun s b i running asking burst owner => ?_,
    fun s b a data count running asking burst owner access => ⟨fun kind => ?_, fun kind => ?_⟩,
    fun s running other => ?_⟩
  · rw [exec_grantDeasserted running]
    exact congrArg Host.Outcome.next (State.grantGone_withdrawn (s := (s.seeGrant false).settleRequest) moving request unit)
  · rw [exec_grantDeasserted running]
    exact congrArg Host.Outcome.next
      ((State.grantGone_yielded (s := (s.seeGrant false).settleRequest) yielding unit).trans (State.ask_free rfl))
  · rw [exec_grantDeasserted running]
    exact congrArg Host.Outcome.next (State.grantGone_other (s := (s.seeGrant false).settleRequest) other)
  · rw [exec_grantWaitExpiry running, State.grantWaitOver_asking asking, State.grantTimeout_slot burst owner,
      State.lowerRequest_asking asking]
  · rw [exec_grantWaitExpiry running, State.grantWaitOver_asking asking, State.grantTimeout_link burst owner access,
      State.lowerRequest_asking asking, LinkAccess.noGrantAnswer, kind]
    rfl
  · rw [exec_grantWaitExpiry running, State.grantWaitOver_asking asking, State.grantTimeout_link burst owner access,
      State.lowerRequest_asking asking, LinkAccess.noGrantAnswer, kind]
    rfl
  · rw [exec_grantWaitExpiry running]
    exact congrArg Host.Outcome.next (if_neg other)

end Sys2Proof.Machine
end


-- ==== Sys2Proof/Proofs/Boundaries.lean ====
section
/-! PROOF. The boundary sequence of a descriptor's burst (R69, R72, R73, R97), with the orders that wait for it (R80,
R138). -/

namespace Sys2Proof.Machine

/-! ## The end of the unit -/

/-- A state with the unit of this mover over: the request is lowered where the grant was withdrawn (R97). -/
def State.over (s t : State) : State :=
  if s.mover.state = .moving then t.setMover { s.mover with unit := none }
  else t.setMover { s.mover with unit := none, request := false, timer := none }

section
variable (s t : State)

@[simp] theorem State.over_slot (i : Fin 64) : (s.over t).slot i = t.slot i := by unfold State.over; split <;> rfl
@[simp] theorem State.over_sched : (s.over t).sched = t.sched := by unfold State.over; split <;> rfl
@[simp] theorem State.over_inHand : (s.over t).inHand = t.inHand := by unfold State.over; split <;> rfl
@[simp] theorem State.over_grant : (s.over t).grant = t.grant := by unfold State.over; split <;> rfl
@[simp] theorem State.over_cfg : (s.over t).cfg = t.cfg := by unfold State.over; split <;> rfl
@[simp] theorem State.over_state : (s.over t).mover.state = s.mover.state := by unfold State.over; split <;> rfl

variable {s t} {u : UnitInProgress}

theorem State.over_yielding (yielding : s.mover.state = .yielding) :
    (s.over t).mover = { state := .yielding, request := false, timer := none, unit := none } := by
  rw [State.over, if_neg (by rw [yielding]; nofun)]
  exact congrArg (fun state => Mover.mk state false none none) yielding

theorem State.unitOver_over (mover : t.mover = s.mover) (state : s.mover.state = .moving ∨ s.mover.state = .yielding) :
    t.unitOver = s.over t := by
  rw [State.over, ← mover]
  rw [← mover] at state
  rcases t.unitOver_eq with kept | ⟨yielding, lowered⟩
  · rcases state with moving | yielding
    · rw [if_pos moving, kept]
    · have lowers : t.unitOver = (t.setMover { t.mover with unit := none }).lowerRequest := if_pos yielding
      rw [if_neg (by rw [yielding]; nofun), lowers, State.lowerRequest, decide_eq_false (by rw [State.setMover, yielding]; nofun),
        Bool.or_false]
      rfl
  · rw [if_neg (by rw [yielding]; nofun), lowered]

/-- What a unit that moves its data leaves as it was. -/
theorem State.performUnit_keeps (performed : s.performUnit u = .moved t) :
    t.mover = s.mover ∧ t.inHand = s.inHand ∧ t.grant = s.grant ∧ t.cfg = s.cfg ∧ t.sched.burst = s.sched.burst ∧
      t.sched.stack = s.sched.stack ∧ t.sched.freeze = s.sched.freeze ∧ ∀ i, t.slot i = s.slot i := by
  obtain ⟨lanes, mem, access, rfl⟩ := State.performUnit_frame performed
  exact ⟨rfl, rfl, rfl, rfl, rfl, rfl, rfl, fun i => rfl⟩

variable (running : s.resetLow = false) (unit : s.mover.unit = some u)
  (state : s.mover.state = .moving ∨ s.mover.state = .yielding)
include running unit state

theorem exec_unitBoundary_moved (performed : s.performUnit u = .moved t) :
    exec .unitBoundary s = .next (s.over t).boundaryMoved := by
  obtain ⟨mover, -⟩ := State.performUnit_keeps performed
  change execUnitBoundary s = _
  simp only [execUnitBoundary, running, unit, performed, State.unitOver_over mover state]

theorem exec_unitBoundary_failed {a : Addr} (performed : s.performUnit u = .failed a) :
    exec .unitBoundary s = .next ((s.over s).boundaryFailed a) := by
  change execUnitBoundary s = _
  simp only [execUnitBoundary, running, unit, performed, State.unitOver_over (rfl : s.mover = s.mover) state]

end

/-! ## The tests after a commit -/

section
variable {s : State} {i : Fin 64} {b : Burst} {st : LiveState} {d : Descriptor} {p : Progress}

theorem State.afterEnd_select {cut : Option (Fin 64)} (thawed : s.sched.freeze ≠ .freezing) :
    s.afterEnd cut = s.select := by
  unfold State.afterEnd
  split
  next freezing => exact absurd freezing thawed
  · rfl
  · rfl

theorem State.afterEnd_freezing {cut : Option (Fin 64)} (freezing : s.sched.freeze = .freezing) :
    s.afterEnd cut = ((s.setFreeze .frozen).produceAnswer (freezeDone cut s.sched.stack.length)).rest := by
  simp only [State.afterEnd, freezing]
  rfl

theorem State.answerEnded_waits {committed : Nat} (waits : s.cancelWaits i = true) :
    s.answerEnded i committed = s.produceAnswer (cancelEnded i (s.slot i).code committed) := if_pos waits

theorem State.answerEnded_none {committed : Nat} (waits : s.cancelWaits i = false) : s.answerEnded i committed = s :=
  if_neg (by rw [waits]; nofun)

theorem State.cancelFaulted_waits (waits : s.cancelWaits i = true) :
    s.cancelFaulted i = (s.takeOut i).produceAnswer (cancelDone i 4 (s.slot i)) := if_pos waits

theorem State.cancelFaulted_none (waits : s.cancelWaits i = false) : s.cancelFaulted i = s :=
  if_neg (by rw [waits]; nofun)

theorem State.afterCommit_last (slot : s.slot i = .live st d p) (last : p.remaining = 0) :
    s.afterCommit i b = ((s.endProcessing i).answerEnded i p.committed).afterEnd none := by
  simp only [State.afterCommit, slot, last, if_true]

section
variable (slot : s.slot i = .live st d p) (more : p.remaining ≠ 0)
include slot more

theorem State.afterCommit_cancel (waits : s.cancelWaits i = true) :
    s.afterCommit i b = ((s.clearBurst.takeOut i).produceAnswer (cancelDone i 4 (s.slot i))).afterEnd none := by
  simp only [State.afterCommit, slot, if_neg more, waits, if_true]

variable (waits : s.cancelWaits i = false)
include waits

theorem State.afterCommit_block (full : b.block ≤ b.moved) : s.afterCommit i b = (s.endCurrent i).afterEnd none := by
  simp only [State.afterCommit, slot, if_neg more, waits, Bool.false_eq_true, if_false, if_pos full]

theorem State.afterCommit_freezing (room : b.moved < b.block) (freezing : s.sched.freeze = .freezing) :
    s.afterCommit i b = (s.endCurrent i).afterEnd (some i) := by
  simp only [State.afterCommit, slot, if_neg more, waits, Bool.false_eq_true, if_false, if_neg (Nat.not_le.mpr room),
    if_pos freezing]

theorem State.afterCommit_goesOn (room : b.moved < b.block) (thawed : s.sched.freeze ≠ .freezing) :
    s.afterCommit i b = s.continueBurst b := by
  simp only [State.afterCommit, slot, if_neg more, waits, Bool.false_eq_true, if_false, if_neg (Nat.not_le.mpr room),
    if_neg thawed]

end

theorem State.continueBurst_preempted {c : Choice} (higher : s.preemptor b = some c) :
    s.continueBurst b = ((s.push b).perform c).select := by
  simp only [State.continueBurst, higher]

section
variable (none_ : s.preemptor b = none)
include none_

theorem State.continueBurst_moving (granted : s.mover.state ≠ .yielding) : s.continueBurst b = s.beginNext.select := by
  simp only [State.continueBurst, none_, if_neg granted]

theorem State.continueBurst_link (yielding : s.mover.state = .yielding) (owner : b.owner = .link) :
    s.continueBurst b = s.ask := by
  simp only [State.continueBurst, none_, if_pos yielding, owner]

variable (yielding : s.mover.state = .yielding) (owner : b.owner = .slot i) (slot : s.slot i = .live .active d p)
include yielding owner slot

theorem State.continueBurst_asks (can : s.lanesCanMove d.transfer = true) : s.continueBurst b = s.ask := by
  simp only [State.continueBurst, none_, if_pos yielding, owner, slot, can, if_true]

theorem State.continueBurst_shortfall (short : s.lanesCanMove d.transfer = false) :
    s.continueBurst b = ((s.setBurst none).setSlot i (.live .current d p)).select := by
  have ends : s.continueBurst b = (s.endCurrent i).select := by
    simp only [State.continueBurst, none_, if_pos yielding, owner, slot, short, Bool.false_eq_true, if_false]
  rw [ends, State.endCurrent_live slot]

end

theorem cancelDone_live (slot : s.slot i = .live st d p) :
    cancelDone i 4 (s.slot i) = [0x70, 0x00, slotByte i, 0x04] ++ le3 p.committed ++ le3 p.remaining := by
  rw [slot]
  rfl

end

/-! ## The commit -/

/-- What stands after the commit of a unit of this state. -/
structure State.Committed (s after : State) (i : Fin 64) (d : Descriptor) (p : Progress) : Prop where
  slot : after.slot i = .live .active d (d.commit p)
  inHand : after.inHand = s.inHand
  grant : after.grant = s.grant
  cfg : after.cfg = s.cfg
  freeze : after.sched.freeze = s.sched.freeze
  stack : after.sched.stack = s.sched.stack
  state : after.mover.state = s.mover.state
  yielding : s.mover.state = .yielding →
    after.mover = { state := .yielding, request := false, timer := none, unit := none }

section
variable {s t after : State} {u : UnitInProgress} {b : Burst} {i : Fin 64} {d : Descriptor} {p : Progress}

theorem State.committed (performed : s.performUnit u = .moved t) :
    s.Committed ((s.over t).commitProgress i d p b) i d p := by
  obtain ⟨-, inHand, grant, cfg, -, stack, freeze, -⟩ := State.performUnit_keeps performed
  have still := State.still_commitProgress (s.over t) i d p b
  have aloof := State.aloof_commitProgress (s.over t) i d p b
  exact
    { slot := State.commitProgress_slot _ i d p b
      inHand := (State.still.inHand still).trans ((s.over_inHand t).trans inHand)
      grant := (State.still.grant still).trans ((s.over_grant t).trans grant)
      cfg := (State.still.cfg still).trans ((s.over_cfg t).trans cfg)
      freeze := (State.aloof.freeze aloof).trans ((congrArg Scheduler.freeze (s.over_sched t)).trans freeze)
      stack := (State.aloof.stack aloof).trans ((congrArg Scheduler.stack (s.over_sched t)).trans stack)
      state := (congrArg Mover.state (State.aloof.mover aloof)).trans (s.over_state t)
      yielding := fun yielding => (State.aloof.mover aloof).trans (State.over_yielding yielding) }

theorem exec_unitBoundary_slot (running : s.resetLow = false) (unit : s.mover.unit = some u)
    (performed : s.performUnit u = .moved t) (state : s.mover.state = .moving ∨ s.mover.state = .yielding)
    (burst : s.sched.burst = some b) (owner : b.owner = .slot i) (slot : s.slot i = .live .active d p) :
    exec .unitBoundary s =
      .next (((s.over t).commitProgress i d p b).afterCommit i { b with moved := b.moved + 1 }) := by
  obtain ⟨-, -, -, -, hand, -, -, slots⟩ := State.performUnit_keeps performed
  have hand' : (s.over t).sched.burst = some b := by rw [State.over_sched, hand, burst]
  have slot' : (s.over t).slot i = .live .active d p := by rw [State.over_slot, slots, slot]
  rw [exec_unitBoundary_moved running unit state performed]
  simp only [State.boundaryMoved, hand', owner, slot']

theorem Descriptor.commit_last (last : p.remaining = 1) : (d.commit p).remaining = 0 := by
  change p.remaining - 1 = 0
  omega

theorem Descriptor.commit_more (more : 2 ≤ p.remaining) : (d.commit p).remaining ≠ 0 := by
  change p.remaining - 1 ≠ 0
  omega

namespace State.Committed

variable (h : s.Committed after i d p)
include h

theorem waits (j : Fin 64) : after.cancelWaits j = s.cancelWaits j := State.cancelWaits_congr h.inHand j

/-- The burst ends with its descriptor CURRENT. -/
theorem endCurrent : after.endCurrent i = (after.setBurst none).setSlot i (.live .current d (d.commit p)) :=
  State.endCurrent_live h.slot

theorem endProcessing_freeze : (after.endProcessing i).sched.freeze = s.sched.freeze :=
  (State.aloof.freeze (State.aloof_endProcessing after i)).trans h.freeze

theorem endProcessing_stack : (after.endProcessing i).sched.stack = s.sched.stack :=
  (State.aloof.stack (State.aloof_endProcessing after i)).trans h.stack

theorem endProcessing_waits : (after.endProcessing i).cancelWaits i = s.cancelWaits i :=
  (State.cancelWaits_congr (State.still.inHand (State.still_endProcessing after i)) i).trans (h.waits i)

end State.Committed

end

/-- Settles O41: the tests of the boundary sequence in their order, over the state the commit leaves. -/
theorem unitBoundaryCommitsAndGoesOn : Obligations.UnitBoundaryCommitsAndGoesOn := by
  intro s t u b i d p running unit performed state burst owner slot thawed waits atEnd moved after current
  have h : s.Committed after i d p := State.committed performed
  have boundary : exec .unitBoundary s = .next (after.afterCommit i { b with moved := b.moved + 1 }) :=
    exec_unitBoundary_slot running unit performed state burst owner slot
  have open_ : after.sched.freeze ≠ .freezing := by rw [h.freeze, thawed]; nofun
  have goesOn : 2 ≤ p.remaining → b.moved + 1 < b.block →
      exec .unitBoundary s = .next (after.continueBurst { b with moved := b.moved + 1 }) := fun more room =>
    boundary.trans (congrArg Host.Outcome.next
      (State.afterCommit_goesOn h.slot (Descriptor.commit_more more) ((h.waits i).trans waits) room open_))
  have asks : after.mover.state = .yielding → after.lanesCanMove d.transfer = true →
      after.preemptor { b with moved := b.moved + 1 } = none →
      after.continueBurst { b with moved := b.moved + 1 } = after.ask := fun yielding can none_ =>
    State.continueBurst_asks none_ yielding owner h.slot can
  rw [boundary]
  refine ⟨fun last => ?_, fun more full => ?_, fun more room none_ => ?_, fun c more room higher => ?_⟩
  · rw [State.afterCommit_last h.slot (Descriptor.commit_last last), State.answerEnded_none (h.endProcessing_waits.trans waits),
      State.afterEnd_select (by rw [h.endProcessing_freeze, thawed]; nofun)]
  · rw [State.afterCommit_block h.slot (Descriptor.commit_more more) ((h.waits i).trans waits) full, h.endCurrent]
    exact congrArg Host.Outcome.next (State.afterEnd_select (s := current) open_)
  · rw [← boundary, goesOn more room]
    refine ⟨fun moving => ?_, fun yielding short => ?_, fun yielding can grant => ?_, fun yielding can grant => ?_⟩
    · rw [State.continueBurst_moving none_ (by rw [h.state, moving]; nofun)]
    · rw [State.continueBurst_shortfall none_ (h.state.trans yielding) owner h.slot short]
    · rw [asks (h.state.trans yielding) can none_, State.ask_free (h.grant.trans grant), h.yielding yielding, h.cfg]
    · rw [asks (h.state.trans yielding) can none_, State.ask_granted (h.grant.trans grant), h.yielding yielding]
  · rw [← boundary, goesOn more room, State.continueBurst_preempted higher]

/-! ## Failed units and held orders -/

section
variable {s : State} {i : Fin 64} {st : LiveState} {d : Descriptor} {p : Progress}

theorem State.faultProcessing_slot (slot : s.slot i = .live st d p) (f : FaultKind) :
    (s.faultProcessing i f).slot i = .live .faulted d { p with lastFault := some f } := by
  unfold State.faultProcessing
  rw [slot]
  dsimp only
  split <;> exact State.slot_setSlot_self _ i _

/-- The answer of a FREEZE, with the part FROZEN and its mover at rest (R80). -/
theorem State.afterEnd_frozen {cut : Option (Fin 64)} {stack : List StackEntry} (freezing : s.sched.freeze = .freezing)
    (entries : s.sched.stack = stack) :
    s.afterEnd cut =
      ((s.setFreeze .frozen).produceAnswer
        [0x40, 0x00, (cut.map slotByte).getD 0xFF, BitVec.ofNat 8 stack.length]).setMover
        { state := .idle, request := false, timer := none, unit := none } := by
  rw [State.afterEnd_freezing freezing, entries]
  rfl

theorem State.boundaryFailed_slot {a : Addr} {b : Burst} (burst : s.sched.burst = some b) (owner : b.owner = .slot i) :
    s.boundaryFailed a = ((s.faultProcessing i (.parity a)).cancelFaulted i).afterEnd none := by
  simp only [State.boundaryFailed, burst, owner]

end

/-- Settles O42: the tests in their order, after a fault and after a commit. -/
theorem failedUnitsAndHeldOrdersAtTheBoundary : Obligations.FailedUnitsAndHeldOrdersAtTheBoundary := by
  constructor
  · intro s u a b i running unit performed state burst owner atEnd faulted
    have boundary : exec .unitBoundary s = .next ((faulted.cancelFaulted i).afterEnd none) := by
      rw [exec_unitBoundary_failed running unit state performed]
      exact congrArg Host.Outcome.next
        (State.boundaryFailed_slot (s := s.over s) ((congrArg Scheduler.burst (s.over_sched s)).trans burst) owner)
    have aloof := State.aloof_faultProcessing (s.over s) i (.parity a)
    have still := State.still_faultProcessing (s.over s) i (.parity a)
    have freeze : faulted.sched.freeze = s.sched.freeze :=
      (State.aloof.freeze aloof).trans (congrArg Scheduler.freeze (s.over_sched s))
    have stack : faulted.sched.stack = s.sched.stack :=
      (State.aloof.stack aloof).trans (congrArg Scheduler.stack (s.over_sched s))
    have cancels : faulted.cancelWaits i = s.cancelWaits i :=
      State.cancelWaits_congr ((State.still.inHand still).trans (s.over_inHand s)) i
    rw [boundary]
    refine ⟨fun thawed waits => ?_, fun st d p thawed waits slot => ?_, fun freezing waits => ?_⟩
    · rw [State.cancelFaulted_none (cancels.trans waits), State.afterEnd_select (by rw [freeze, thawed]; nofun)]
    · have faults : faulted.slot i = .live .faulted d { p with lastFault := some (.parity a) } :=
        State.faultProcessing_slot ((s.over_slot s i).trans slot) (.parity a)
      have kept : ((faulted.takeOut i).produceAnswer (cancelDone i 4 (faulted.slot i))).sched.freeze ≠ .freezing := by
        rw [State.produceAnswer_sched, State.apart.freeze (State.apart_takeOut faulted i), freeze, thawed]
        nofun
      rw [State.cancelFaulted_waits (cancels.trans waits), State.afterEnd_select kept, cancelDone_live faults]
    · rw [State.cancelFaulted_none (cancels.trans waits), State.afterEnd_frozen (freeze.trans freezing) stack]
      rfl
  · intro s t u b i d p running unit performed state burst owner slot atEnd moved after ended current frozen
    have h : s.Committed after i d p := State.committed performed
    have boundary : exec .unitBoundary s = .next (after.afterCommit i { b with moved := b.moved + 1 }) :=
      exec_unitBoundary_slot running unit performed state burst owner slot
    have current_freeze : current.sched.freeze = s.sched.freeze := h.freeze
    have current_stack : current.sched.stack = s.sched.stack := h.stack
    rw [boundary]
    refine ⟨fun waits thawed => ⟨fun last => ?_, fun more => ?_⟩,
      fun waits freezing => ⟨fun last => ?_, fun more full => ?_, fun more room => ?_⟩⟩
    · rw [State.afterCommit_last h.slot (Descriptor.commit_last last), State.answerEnded_waits (h.endProcessing_waits.trans waits),
        State.afterEnd_select (by rw [State.produceAnswer_sched, h.endProcessing_freeze, thawed]; nofun)]
      rfl
    · have kept : ((after.clearBurst.takeOut i).produceAnswer (cancelDone i 4 (after.slot i))).sched.freeze ≠ .freezing := by
        have freeze : after.clearBurst.sched.freeze = s.sched.freeze := h.freeze
        rw [State.produceAnswer_sched, State.apart.freeze (State.apart_takeOut _ i), freeze, thawed]
        nofun
      rw [State.afterCommit_cancel h.slot (Descriptor.commit_more more) ((h.waits i).trans waits), State.afterEnd_select kept,
        cancelDone_live h.slot]
      rfl
    · rw [State.afterCommit_last h.slot (Descriptor.commit_last last), State.answerEnded_none (h.endProcessing_waits.trans waits),
        State.afterEnd_frozen (h.endProcessing_freeze.trans freezing) h.endProcessing_stack]
      rfl
    · rw [State.afterCommit_block h.slot (Descriptor.commit_more more) ((h.waits i).trans waits) full, h.endCurrent,
        State.afterEnd_frozen (current_freeze.trans freezing) current_stack]
      rfl
    · rw [State.afterCommit_freezing h.slot (Descriptor.commit_more more) ((h.waits i).trans waits) room (h.freeze.trans freezing),
        h.endCurrent, State.afterEnd_frozen (current_freeze.trans freezing) current_stack]
      rfl

end Sys2Proof.Machine
end


-- ==== Sys2Proof/Proofs/LinkAccessOrders.lean ====
section
/-! PROOF. PEEK and POKE open the link access (R104, R105); its units, and the answer it ends with (R106). -/

namespace Sys2Proof.Machine

/-! ## PEEK and POKE -/

theorem readCount_some {n : Nat} (low : 1 ≤ n) (high : n ≤ 192) : readCount n = some n := if_pos ⟨low, high⟩

theorem readCount_none {n : Nat} (bad : n = 0 ∨ 192 < n) : readCount n = none := if_neg (by omega)

section
variable {s : State} {operands : List Byte} {count : Nat} {kind : AccessKind}

theorem rangedAccess_outside (out : s.memorySize < fieldAt operands 0 3 + count) :
    rangedAccess s operands count kind = refusal .outOfRange s := if_neg (Nat.not_le.mpr out)

theorem rangedAccess_inside (inside : fieldAt operands 0 3 + count ≤ s.memorySize) :
    rangedAccess s operands count kind = .held (s.openAccess (BitVec.ofNat 24 (fieldAt operands 0 3)) kind) :=
  if_pos inside

theorem orderPeek_counted {a0 a1 a2 c : Byte} (low : 1 ≤ c.toNat) (high : c.toNat ≤ 192) :
    orderPeek [a0, a1, a2, c] s = rangedAccess s [a0, a1, a2, c] c.toNat (.peek c.toNat []) :=
  withField_value (readCount_some low high)

theorem lengthFits_poke {a0 a1 a2 : Byte} {data : List Byte} (low : 1 ≤ data.length) (high : data.length ≤ 192) :
    lengthFits 0x51 (a0 :: a1 :: a2 :: data).length = some true := by
  refine (lengthFits_of_range (low := 4) (high := 195) rfl _).mpr ?_
  simp only [List.length_cons]
  omega

end

/-- Settles O43: the count and the range are checked, and what passes becomes the link access. -/
theorem peekAndPokeOpenTheLinkAccess : Obligations.PeekAndPokeOpenTheLinkAccess := by
  constructor
  · intro s n a0 a1 a2 c turn start t
    refine ⟨fun bad => ?_, fun low high out => ?_, fun low high inside => ?_⟩
    · exact congrArg Host.Outcome.next
        (runOrder_refused (body := orderPeek) turn rfl (withField_missing (readCount_none bad)))
    · exact congrArg Host.Outcome.next
        (runOrder_refused turn rfl ((orderPeek_counted (s := t) low high).trans (rangedAccess_outside out)))
    · exact congrArg Host.Outcome.next
        (runOrder_held turn rfl ((orderPeek_counted (s := t) low high).trans (rangedAccess_inside inside)))
  · intro s n a0 a1 a2 data turn low high start t
    refine ⟨fun out => ?_, fun inside => ?_⟩
    · exact congrArg Host.Outcome.next
        (runOrder_refused (body := orderPoke) turn (lengthFits_poke low high) (rangedAccess_outside (s := t) out))
    · exact congrArg Host.Outcome.next
        (runOrder_held (body := orderPoke) turn (lengthFits_poke low high) (rangedAccess_inside (s := t) inside))

/-! ## The units of the link access -/

section
variable {s t : State} {b : Burst} {a : LinkAccess}

theorem State.over_setAccess (access : Option LinkAccess) : s.over (t.setAccess access) = (s.over t).setAccess access := by
  unfold State.over
  split <;> rfl

theorem State.over_setMem (m : Memory) : s.over (t.setMem m) = (s.over t).setMem m := by
  unfold State.over
  split <;> rfl

section
variable (burst : s.sched.burst = some b) (owner : b.owner = .link) (access : s.sched.access = some a)
include burst owner access

theorem State.boundaryMoved_last (last : b.block ≤ b.moved + 1) : s.boundaryMoved = s.endLink a.doneAnswer := by
  simp only [State.boundaryMoved, burst, owner, access, if_pos last]

theorem State.boundaryMoved_more (more : b.moved + 1 < b.block) :
    s.boundaryMoved =
      (s.setBurst (some { b with moved := b.moved + 1 })).continueBurst { b with moved := b.moved + 1 } := by
  simp only [State.boundaryMoved, burst, owner, access, if_neg (Nat.not_le.mpr more)]

theorem State.boundaryFailed_link (bad : Addr) : s.boundaryFailed bad = s.endLink (a.parityAnswer b.moved) := by
  simp only [State.boundaryFailed, burst, owner, access]

end

theorem State.peekResult_peek (access : s.sched.access = some a) {count : Nat} {result bytes : List Byte} (kind : a.kind = .peek count result) :
    s.peekResult bytes = s.setAccess (some { a with kind := .peek count (result ++ bytes) }) := by
  simp only [State.peekResult, access, kind]

/-- The answer of a PEEK whose last byte has just been read. -/
theorem LinkAccess.doneAnswer_read (a : LinkAccess) (count : Nat) (result : List Byte) (x : Byte) :
    LinkAccess.doneAnswer { a with kind := .peek count (result ++ [x]) } =
      [0x50, 0x00] ++ le3 a.start.toNat ++ [le1 count] ++ result ++ [x] :=
  (List.append_assoc _ result [x]).symm

/-- A byte read with good parity joins the result. -/
theorem State.performUnit_peek {addr : Addr} {buffer : List Byte} (within : addr.toNat + 1 ≤ s.memorySize)
    (good : (s.mem.read addr.toNat).good = true) :
    s.performUnit { op := .peek addr, buffer := buffer } = .moved (s.peekResult [(s.mem.read addr.toNat).data]) := by
  refine State.readUnit_good (move := s.peekResult) within fun k low => ?_
  obtain rfl : k = 0 := by omega
  exact good

theorem State.performUnit_peek_bad {addr : Addr} {buffer : List Byte} (within : addr.toNat + 1 ≤ s.memorySize)
    (bad : (s.mem.read addr.toNat).good = false) :
    s.performUnit { op := .peek addr, buffer := buffer } = .failed addr := by
  have failed := State.readUnit_bad (move := s.peekResult) within Nat.one_pos bad nofun
  rw [BitVec.add_zero] at failed
  exact failed

/-- The link access goes on: its next unit, or the wait for the memory given back. -/
theorem State.continueBurst_goesOn {kept : State} (none_ : kept.preemptor b = none) (owner : b.owner = .link)
    (state : s.mover.state = .moving ∨ s.mover.state = .yielding) (mover : kept.mover = (s.over t).mover)
    (grant : kept.grant = s.grant) (cfg : kept.cfg = s.cfg) :
    kept.continueBurst b =
      if s.mover.state = .moving then kept.beginNext.select
      else if s.grant = true then kept.setMover { state := .yielding, request := false, timer := none, unit := none }
      else kept.setMover { state := .asking, request := true, timer := some s.cfg.grantLimit, unit := none } := by
  have stands : kept.mover.state = s.mover.state := by rw [mover, State.over_state]
  rcases state with moving | yielding
  · rw [if_pos moving, State.continueBurst_moving none_ (by rw [stands, moving]; nofun)]
  · rw [State.over_yielding yielding] at mover
    rw [if_neg (by rw [yielding]; nofun), State.continueBurst_link none_ (stands.trans yielding) owner]
    cases granted : s.grant
    · rw [State.ask_free (grant.trans granted), mover, cfg]
      rfl
    · rw [State.ask_granted (grant.trans granted), mover]
      rfl

end

/-- Settles O44: by the byte's parity, by whether it is the last, and by the preemption check. -/
theorem linkAccessEndsWithItsAnswer : Obligations.LinkAccessEndsWithItsAnswer := by
  intro s b a addr buffer running state burst owner access within atEnd goesOn
  have hand : ∀ t : State, t.sched.burst = s.sched.burst → (s.over t).sched.burst = some b := fun t same => by
    rw [State.over_sched, same, burst]
  constructor
  · intro count result kind unit byte kept
    have peeked : byte.good = true → exec .unitBoundary s =
        .next (atEnd.setAccess (some { a with kind := .peek count (result ++ [byte.data]) })).boundaryMoved := fun good => by
      rw [exec_unitBoundary_moved running unit state (State.performUnit_peek within good),
        State.peekResult_peek access kind, State.over_setAccess]
      rfl
    have burst' : (atEnd.setAccess (some { a with kind := .peek count (result ++ [byte.data]) })).sched.burst = some b :=
      hand s rfl
    have goes : byte.good = true → b.moved + 1 < b.block →
        exec .unitBoundary s = .next (kept.continueBurst { b with moved := b.moved + 1 }) := fun good more =>
      (peeked good).trans (congrArg Host.Outcome.next (State.boundaryMoved_more burst' owner rfl more))
    refine ⟨fun bad => ?_, fun good last => ?_, fun good more none_ => ?_, fun c good more higher => ?_⟩
    · rw [exec_unitBoundary_failed running unit state (State.performUnit_peek_bad within bad),
        State.boundaryFailed_link (hand s rfl) owner (a := a) (by rw [State.over_sched, access]),
        LinkAccess.parityAnswer, kind]
      rfl
    · rw [peeked good, State.boundaryMoved_last burst' owner rfl last, LinkAccess.doneAnswer_read]
      rfl
    · rw [goes good more]
      exact congrArg Host.Outcome.next (State.continueBurst_goesOn (t := s) none_ owner state rfl (s.over_grant s) (s.over_cfg s))
    · rw [goes good more, State.continueBurst_preempted higher]
  · intro data x wf kind unit
    refine ⟨s.mem.putBytes addr.toNat [x], ⟨Memory.read_putBytes_in wf addr.toNat 0 [x] x rfl, fun c ne =>
      Memory.read_putBytes_out wf addr.toNat c [x] (by simp only [List.length_singleton]; omega)⟩, ?_⟩
    intro wrote kept
    have poked : exec .unitBoundary s = .next wrote.boundaryMoved := by
      rw [exec_unitBoundary_moved running unit state (State.writeUnit_inside within), State.over_setMem]
      rfl
    have burst' : wrote.sched.burst = some b := hand s rfl
    have access' : wrote.sched.access = some a := (congrArg Scheduler.access (s.over_sched s)).trans access
    have goes : b.moved + 1 < b.block →
        exec .unitBoundary s = .next (kept.continueBurst { b with moved := b.moved + 1 }) := fun more =>
      poked.trans (congrArg Host.Outcome.next (State.boundaryMoved_more burst' owner access' more))
    refine ⟨fun last => ?_, fun more none_ => ?_, fun c more higher => ?_⟩
    · rw [poked, State.boundaryMoved_last burst' owner access' last, LinkAccess.doneAnswer, kind]
      rfl
    · rw [goes more]
      exact congrArg Host.Outcome.next (State.continueBurst_goesOn (t := s) none_ owner state rfl (s.over_grant s) (s.over_cfg s))
    · rw [goes more, State.continueBurst_preempted higher]

end Sys2Proof.Machine
end


-- ==== Sys2Proof/Proofs/LaneHandshakes.lean ====
section
/-! PROOF. The handshakes of a lane (R111 to R114) and LANE SETUP (R118, R119). -/

namespace Sys2Proof.Machine

/-! ## The exchange run to rest -/

section
variable {l m : Lane}

theorem Lane.settle_of (first : l.exchange = m) (rests : m.exchange = m) : l.settle = m := by
  rw [Lane.settle, first, rests]

theorem Lane.settle_rests (rests : l.exchange = l) : l.settle = l := Lane.settle_of rests rests

section
variable (direction : l.direction = .incoming)
include direction

theorem Lane.exchange_taken {y : Byte} (phase : l.phase = .taken) (strobe : l.strobe = some y) : l.exchange = l := by
  simp [Lane.exchange, direction, phase, strobe]

/-- An IN lane with room takes the byte its strobe offers (R111). -/
theorem Lane.settle_takes {y : Byte} (phase : l.phase = .ready) (strobe : l.strobe = some y) (enabled : l.enabled = true)
    (room : l.fifo.length < 32) : l.settle = { l with fifo := l.fifo ++ [y], phase := .taken } := by
  refine Lane.settle_of ?_ (Lane.exchange_taken (l := { l with fifo := l.fifo ++ [y], phase := .taken }) direction rfl strobe)
  simp [Lane.exchange, direction, phase, strobe, enabled, Lane.fill, fifoSize, room]

theorem Lane.exchange_waits (phase : l.phase = .ready)
    (waits : l.strobe = none ∨ l.enabled = false ∨ 32 ≤ l.fifo.length) : l.exchange = l := by
  rcases waits with strobe | enabled | full
  · simp [Lane.exchange, direction, phase, strobe]
  · cases strobe : l.strobe <;> simp [Lane.exchange, direction, phase, strobe, enabled]
  · cases strobe : l.strobe <;>
      simp [Lane.exchange, direction, phase, strobe, Lane.fill, fifoSize, Nat.not_lt.mpr full]

theorem Lane.settle_releases (phase : l.phase = .taken) (strobe : l.strobe = none) :
    l.settle = { l with phase := .ready } := by
  refine Lane.settle_of ?_ (Lane.exchange_waits (l := { l with phase := .ready }) direction rfl (.inl strobe))
  simp [Lane.exchange, direction, phase, strobe]

end

section
variable (direction : l.direction = .outgoing)
include direction

theorem Lane.exchange_offered (phase : l.phase = .offered) (ack : l.ack = false) : l.exchange = l := by
  simp [Lane.exchange, direction, phase, ack]

theorem Lane.exchange_releasing (phase : l.phase = .releasing) (ack : l.ack = true) : l.exchange = l := by
  simp [Lane.exchange, direction, phase, ack]

theorem Lane.exchange_offers (phase : l.phase = .quiet) (offers : l.enabled = true ∧ l.fifo ≠ [] ∧ l.ack = false) :
    l.exchange = { l with phase := .offered } := by
  obtain ⟨enabled, data, ack⟩ := offers
  simp [Lane.exchange, direction, phase, enabled, data, ack]

theorem Lane.exchange_quiet (phase : l.phase = .quiet) (silent : ¬ (l.enabled = true ∧ l.fifo ≠ [] ∧ l.ack = false)) :
    l.exchange = l := by
  simp only [Lane.exchange, direction, phase]
  refine if_neg fun offers => silent ?_
  simpa [and_assoc] using offers

/-- An OUT lane with a byte and no acknowledge offers it (R112). -/
theorem Lane.settle_offers (phase : l.phase = .quiet) (offers : l.enabled = true ∧ l.fifo ≠ [] ∧ l.ack = false) :
    l.settle = { l with phase := .offered } :=
  Lane.settle_of (Lane.exchange_offers direction phase offers)
    (Lane.exchange_offered (l := { l with phase := .offered }) direction rfl offers.2.2)

/-- The acknowledge of an offer takes the byte out of the FIFO (R112). -/
theorem Lane.settle_acknowledged (phase : l.phase = .offered) (ack : l.ack = true) :
    l.settle = { l with fifo := l.fifo.drop 1, phase := .releasing } := by
  refine Lane.settle_of ?_
    (Lane.exchange_releasing (l := { l with fifo := l.fifo.drop 1, phase := .releasing }) direction rfl ack)
  simp [Lane.exchange, direction, phase, ack]

theorem Lane.exchange_released (phase : l.phase = .releasing) (ack : l.ack = false) :
    l.exchange = { l with phase := .quiet } := by
  simp [Lane.exchange, direction, phase, ack]

/-- The release is complete, and a next byte is offered at once. -/
theorem Lane.settle_offersNext (phase : l.phase = .releasing) (offers : l.enabled = true ∧ l.fifo ≠ [] ∧ l.ack = false) :
    l.settle = { l with phase := .offered } := by
  rw [Lane.settle, Lane.exchange_released direction phase offers.2.2]
  exact Lane.exchange_offers (l := { l with phase := .quiet }) direction rfl offers

theorem Lane.settle_quiet (phase : l.phase = .releasing) (ack : l.ack = false)
    (silent : ¬ (l.enabled = true ∧ l.fifo ≠ [] ∧ l.ack = false)) : l.settle = { l with phase := .quiet } :=
  Lane.settle_of (Lane.exchange_released direction phase ack)
    (Lane.exchange_quiet (l := { l with phase := .quiet }) direction rfl silent)

end

end

/-! ## The pins -/

theorem State.lanePins_running {s : State} (running : s.resetLow = false) (n : Fin 12) (l : Lane) :
    s.lanePins n l = (s.setLane n l.settle).react := if_neg (by rw [running]; nofun)

/-- Settles O45: a change of a pin is followed by the exchange to rest, and that by its rows. -/
theorem lanesExchangeByTheirHandshakes : Obligations.LanesExchangeByTheirHandshakes := by
  intro s n x running l
  have pins : ∀ {m m' : Lane}, m.settle = m' →
      (Host.Outcome.next (s.lanePins n m) : Host.Outcome State Fault Refusal) = .next (s.setLane n m').react :=
    fun {m m'} settles => by rw [State.lanePins_running running, settles]
  refine ⟨fun direction phase enabled room => ?_, fun direction phase waits => ?_, fun direction phase => ?_,
    fun direction phase => ?_, fun direction phase => ?_, ⟨pins rfl, pins rfl, pins rfl, pins rfl⟩, ?_⟩
  · exact pins (Lane.settle_takes (l := { l with strobe := some x }) direction phase rfl enabled room)
  · exact pins (Lane.settle_rests (Lane.exchange_waits (l := { l with strobe := some x }) direction phase (.inr waits)))
  · exact pins (Lane.settle_releases (l := { l with strobe := none }) direction phase rfl)
  · exact pins (Lane.settle_acknowledged (l := { l with ack := true }) direction phase rfl)
  · refine pins (m := { l with ack := false }) ?_
    split_ifs with offers
    · exact Lane.settle_offersNext (l := { l with ack := false }) direction phase ⟨offers.1, offers.2, rfl⟩
    · exact Lane.settle_quiet (l := { l with ack := false }) direction phase rfl fun h => offers ⟨h.1, h.2.1⟩
  · intro offers l
    refine ⟨fun y direction phase => Lane.settle_takes direction phase,
      fun direction phase waits => Lane.settle_rests (Lane.exchange_waits direction phase waits),
      fun direction phase => ⟨Lane.settle_releases direction phase, fun strobe => ?_⟩,
      fun direction phase => ⟨Lane.settle_offers direction phase,
        fun silent => Lane.settle_rests (Lane.exchange_quiet direction phase silent)⟩,
      fun direction phase => ⟨Lane.settle_acknowledged direction phase,
        fun ack => Lane.settle_rests (Lane.exchange_offered direction phase ack)⟩,
      fun direction phase => ⟨fun ack => Lane.settle_rests (Lane.exchange_releasing direction phase ack),
        Lane.settle_offersNext direction phase, Lane.settle_quiet direction phase⟩⟩
    obtain ⟨y, strobe⟩ := Option.ne_none_iff_exists'.mp strobe
    exact Lane.settle_rests (Lane.exchange_taken direction phase strobe)

/-! ## LANE SETUP -/

theorem readFlag_bit (b : Bool) : readFlag (if b then (1 : Byte) else 0).toNat = some b := by cases b <;> rfl

theorem readDirection_bit (direction : Direction) :
    readDirection (if direction = .outgoing then (1 : Byte) else 0).toNat = some direction := by
  cases direction <;> rfl

theorem readDirection_none : ∀ {n : Nat}, 2 ≤ n → readDirection n = none
  | _ + 2, _ => rfl

theorem readThreshold_some {n : Nat} (low : 1 ≤ n) (high : n ≤ 32) : readThreshold n = some n := if_pos ⟨low, high⟩

theorem readThreshold_none {n : Nat} (bad : n = 0 ∨ 32 < n) : readThreshold n = none := if_neg (by omega)

theorem State.laneInUse_iff (s : State) (k : Fin 12) :
    s.laneInUse k = true ↔
      ∃ i st d p, s.slot i = .live st d p ∧ (st = .active ∨ st = .preempted) ∧ d.transfer.names k = true := by
  rw [State.laneInUse, List.any_eq_true]
  constructor
  · rintro ⟨i, -, names⟩
    split at names
    next d p slot => exact ⟨i, _, d, p, slot, .inl rfl, names⟩
    next d p slot => exact ⟨i, _, d, p, slot, .inr rfl, names⟩
    · cases names
  · rintro ⟨i, st, d, p, slot, rfl | rfl, names⟩
    · exact ⟨i, List.mem_finRange i, by rw [slot]; exact names⟩
    · exact ⟨i, List.mem_finRange i, by rw [slot]; exact names⟩

section
variable (l : Lane) (enabled flush : Bool) (direction : Direction) (threshold : Nat)

theorem Lane.turns_iff : (direction != l.direction || flush) = true ↔ direction ≠ l.direction ∨ flush = true := by
  rw [Bool.or_eq_true, bne_iff_ne]

/-- The lane as LANE SETUP leaves it, its conditions as propositions. -/
theorem Lane.setup_eq :
    l.setup enabled direction threshold flush =
      { l with
        enabled := enabled
        direction := direction
        threshold := threshold
        fifo := if direction ≠ l.direction ∨ flush = true then [] else l.fifo
        phase :=
          if direction ≠ l.direction then (if direction = .incoming then .ready else .quiet)
          else if l.phase = .offered ∧ (flush = true ∨ enabled = false) then .quiet else l.phase } := by
  have idle : direction.idlePhase = if direction = .incoming then .ready else .quiet := by cases direction <;> rfl
  simp only [Lane.setup, Lane.setupPhase, bne_iff_ne, idle, Bool.and_eq_true, beq_iff_eq, Bool.or_eq_true,
    Bool.not_eq_true']

theorem Lane.discards_byte :
    le1 (l.discards direction flush) =
      if direction ≠ l.direction ∨ flush = true then BitVec.ofNat 8 l.fill else 0 := by
  simp only [Lane.discards, Lane.turns_iff]
  split_ifs <;> rfl

end

/-- What LANE SETUP does once its operands are read. -/
theorem orderLaneSetup_reads {s : State} {k : Fin 12} {enabled flush : Bool} {direction : Direction} {th : Byte}
    (low : 1 ≤ th.toNat) (high : th.toNat ≤ 32) :
    orderLaneSetup [BitVec.ofNat 8 k.val, if enabled then 1 else 0, if direction = .outgoing then 1 else 0, th,
        if flush then 1 else 0] s =
      if s.laneInUse k then refusal .badState s
      else
        let l := (s.lane k).setup enabled direction th.toNat flush
        .answered .done (laneSetupData k ((s.lane k).discards direction flush) l) (s.settleLane k l).react :=
  (withField_value (laneOf_val k)).trans ((withField_value (readFlag_bit enabled)).trans
    ((withField_value (readDirection_bit direction)).trans ((withField_value (readThreshold_some low high)).trans
      (withField_value (readFlag_bit flush)))))

theorem orderLaneSetup_refuses {s : State} {k e d th f : Byte}
    (bad : 12 ≤ k.toNat ∨ 2 ≤ e.toNat ∨ 2 ≤ d.toNat ∨ th.toNat = 0 ∨ 32 < th.toNat ∨ 2 ≤ f.toNat) :
    orderLaneSetup [k, e, d, th, f] s = refusal .badField s := by
  rcases bad with lane | enabled | direction | threshold | threshold | flush
  · exact withField_missing (laneOf_none lane)
  · exact withField_later fun n => withField_missing (readFlag_eq_none.mpr enabled)
  · exact withField_later fun n => withField_later fun on => withField_missing (readDirection_none direction)
  · exact withField_later fun n => withField_later fun on => withField_later fun way =>
      withField_missing (readThreshold_none (.inl threshold))
  · exact withField_later fun n => withField_later fun on => withField_later fun way =>
      withField_missing (readThreshold_none (.inr threshold))
  · exact withField_later fun n => withField_later fun on => withField_later fun way => withField_later fun level =>
      withField_missing (readFlag_eq_none.mpr flush)

/-- Settles O46: a lane in use is refused; any other is set up and its exchange goes on. -/
theorem laneSetupSetsTheLane : Obligations.LaneSetupSetsTheLane := by
  refine ⟨?_, State.laneInUse_iff, fun s n k e d th f turn bad => ?_⟩
  · intro s n th k enabled flush direction low high order turn l turned l'
    have reads := orderLaneSetup_reads (s := s.carryOut n order) (enabled := enabled) (flush := flush)
      (direction := direction) (k := k) low high
    refine ⟨fun used => ?_, fun free => ?_⟩
    · exact congrArg Host.Outcome.next (runOrder_refused (outcome := .badState) turn rfl (reads.trans (if_pos used)))
    · have sets := reads.trans (if_neg (by rw [State.carryOut_laneInUse, free]; nofun))
      simp only [State.carryOut_lane, Lane.setup_eq, laneSetupData, Lane.discards_byte] at sets
      exact congrArg Host.Outcome.next (runOrder_done turn rfl sets)
  · exact congrArg Host.Outcome.next (runOrder_refused turn rfl (orderLaneSetup_refuses bad))

end Sys2Proof.Machine
end


-- ==== Sys2Proof/Proofs/RecordsAndPart.lean ====
section
/-! PROOF. The making of records and their placement (R123 to R132, R143), ACKNOWLEDGE with its drain (R145, R148),
CONFIGURE (R180) and RESET PART (R183). -/

namespace Sys2Proof.Machine

/-! ## End and fault processing -/

section
variable {s : State} {i : Fin 64} {st : LiveState} {d : Descriptor} {p : Progress}

theorem State.hasRoom_iff : s.hasRoom = true ↔ s.notes.list.length < 32 ∧ s.notes.waiting = [] := by
  rw [State.hasRoom, Bool.and_eq_true, List.isEmpty_iff]
  exact and_congr_left' decide_eq_true_iff

theorem State.endProcessing_live (slot : s.slot i = .live st d p) :
    s.endProcessing i =
      if s.hasRoom then
        (((s.setBurst none).setMiss (s.sourceOf i) 0).place (.report (.ended (s.endRecord i d p)))).placed
          (.ended (s.endRecord i d p))
      else
        (((s.setBurst none).setMiss (s.sourceOf i) 0).setState i .held).makeWait (.ended (s.endRecord i d p)) := by
  simp only [State.endProcessing, slot]
  rfl

theorem State.faultProcessing_live (slot : s.slot i = .live st d p) (f : FaultKind) :
    s.faultProcessing i f =
      if s.hasRoom then
        (((s.setBurst none).setSlot i (.live .faulted d { p with lastFault := some f })).setMiss (s.sourceOf i) 0).place
          (.report (.faulted (s.faultRecord i d p f)))
      else
        (((s.setBurst none).setSlot i (.live .faulted d { p with lastFault := some f })).setMiss (s.sourceOf i)
          0).makeWait (.faulted (s.faultRecord i d p f)) := by
  simp only [State.faultProcessing, slot]
  rfl

/-! ## The consequences of a placement -/

theorem State.fireEndAction_live (slot : s.slot i = .live st d p) :
    s.fireEndAction i =
      match d.endAction with
      | none => s
      | some k => s.eventAt (softSource k) := by
  unfold State.fireEndAction
  rw [slot]
  cases action : d.endAction <;> simp only [action]

/-- A promotion changes the state of a slot, not what it holds. -/
theorem State.promoteHead_slot (slot : s.slot i = .live st d p) (q : Fin 28) :
    ∃ st', (s.promoteHead q).slot i = .live st' d p := by
  unfold State.promoteHead
  split
  · exact ⟨st, slot⟩
  next h _ _ =>
    split
    · by_cases same : h = i
      · subst same
        rw [State.setState_live slot]
        exact ⟨_, State.slot_setSlot_self s h _⟩
      · exact ⟨st, (State.slot_setSlot_ne s same _).trans slot⟩
    · exact ⟨st, slot⟩

theorem State.setSlot_setSlot (s : State) (i : Fin 64) (v w : Slot) : (s.setSlot i v).setSlot i w = s.setSlot i w := by
  simp [State.setSlot]

variable {r : EndRecord} {rest : List (Fin 64)}

theorem State.requeue_removes (queue : s.queue r.source = r.slot :: rest) (slot : s.slot r.slot = .live st d p)
    (once : r.recirculate = false) :
    s.requeue r = ((s.setQueue r.source rest).setSlot r.slot (.live .spent d p)).promoteHead r.source := by
  rw [State.requeue, once]
  exact State.removeHead_cons queue slot .spent

theorem State.requeue_recirculates (queue : s.queue r.source = r.slot :: rest) (slot : s.slot r.slot = .live st d p)
    (again : r.recirculate = true) :
    s.requeue r =
      ((s.setQueue r.source (rest ++ [r.slot])).setSlot r.slot
        (.live .bound d (d.freshProgress p.lastFault))).promoteHead r.source := by
  have fresh : s.recirculate r.slot = s.setSlot r.slot (.live st d (d.freshProgress p.lastFault)) := by
    rw [State.recirculate, slot]
  have queue' : (s.recirculate r.slot).queue r.source = r.slot :: rest := by
    rw [fresh]
    exact queue
  rw [State.requeue, again, if_pos rfl, State.moveHeadToTail, queue', fresh]
  have bound : ((s.setSlot r.slot (.live st d (d.freshProgress p.lastFault))).setQueue r.source
      (rest ++ [r.slot])).setState r.slot .bound =
      (s.setQueue r.source (rest ++ [r.slot])).setSlot r.slot (.live .bound d (d.freshProgress p.lastFault)) :=
    (State.setState_live (s := (s.setSlot r.slot (.live st d (d.freshProgress p.lastFault))).setQueue r.source
      (rest ++ [r.slot])) (State.slot_setSlot_self s r.slot _) .bound).trans
      (State.setSlot_setSlot (s.setQueue r.source (rest ++ [r.slot])) _ _ _)
  exact congrArg (State.promoteHead · r.source) bound

end

/-- Settles O52: a record is placed where there is room and waits else; its placement requeues the slot and fires. -/
theorem endsAndFaultsMakeTheirRecords : Obligations.EndsAndFaultsMakeTheirRecords := by
  refine ⟨?_, ?_, fun s body => rfl⟩
  · intro s i st d p f slot q now ended faulted e t
    have noRoom : ¬ now → ¬ s.hasRoom = true := fun full room => full (State.hasRoom_iff.mp room)
    refine ⟨fun room => ?_, fun full => ?_, fun room => ?_, fun full => ?_⟩
    · exact (State.endProcessing_live slot).trans (if_pos (State.hasRoom_iff.mpr room))
    · rw [State.endProcessing_live slot, if_neg (noRoom full), State.setState_live (s := (s.setBurst none).setMiss _ 0) slot]
      rfl
    · exact (State.faultProcessing_live slot f).trans (if_pos (State.hasRoom_iff.mpr room))
    · exact (State.faultProcessing_live slot f).trans (if_neg (noRoom full))
  · intro s r rest st d p queue slot fire
    have fires : ∀ {u : State} {v : LiveState} {p' : Progress}, u.slot r.slot = .live v d p' →
        (u.promoteHead r.source).fireEndAction r.slot = fire (u.promoteHead r.source) := fun {u v p'} at_ => by
      obtain ⟨v', promoted⟩ := State.promoteHead_slot at_ r.source
      exact State.fireEndAction_live promoted
    refine ⟨fun once => ?_, fun again => ?_⟩
    · change (s.requeue r).fireEndAction r.slot = _
      rw [State.requeue_removes queue slot once, fires (State.slot_setSlot_self _ _ _)]
    · change (s.requeue r).fireEndAction r.slot = _
      rw [State.requeue_recirculates queue slot again, fires (State.slot_setSlot_self _ _ _)]
      rfl

/-! ## ACKNOWLEDGE -/

theorem ofNat_word (lo hi : Byte) : BitVec.ofNat 16 (fieldAt [lo, hi] 0 2) = (hi ++ lo : Half) := by
  refine BitVec.eq_of_toNat_eq ?_
  rw [BitVec.toNat_append, ← Nat.shiftLeft_add_eq_or_of_lt lo.isLt, Nat.shiftLeft_eq]
  simp only [fieldAt, List.drop_zero, List.take_succ_cons, List.take_zero, readLE, BitVec.toNat_ofNat]
  omega

section
variable {s : State} {l : NoticeList} {oldest : Notice} {newer : List Notice} {n : Half}

theorem NoticeList.place?_empty (list : l.list = []) : l.place? n = none := by
  rw [NoticeList.place?, list]

theorem NoticeList.place?_cons (list : l.list = oldest :: newer) :
    l.place? n =
      if (n - oldest.number).toNat < l.list.length then some (n - oldest.number).toNat else none := by
  rw [NoticeList.place?, list]

/-! ## The drain -/

theorem drain_stops (still : 32 ≤ s.notes.list.length ∨ s.notes.waiting = []) : ∀ fuel k, drain fuel s k = (s, k)
  | 0, _ => rfl
  | _ + 1, _ => by
    rw [drain]
    split_ifs with room
    · have waiting : s.notes.waiting = [] := still.resolve_left (Nat.not_le.mpr room)
      rw [waiting]
    · rfl

theorem drain_places {r : Record} {rest : List Record} (room : s.notes.list.length < 32)
    (waiting : s.notes.waiting = r :: rest) (fuel k : Nat) :
    drain (fuel + 1) s k =
      drain fuel ((((s.setNotes { s.notes with waiting := rest }).place (.report r)).drained r).drainReaction)
        (k + 1) := by
  rw [drain, if_pos (show s.notes.list.length < noticePlaces from room), waiting]

theorem State.drains_iff : s.drains = true ↔ s.notes.list.length < 32 ∧ s.notes.waiting ≠ [] := by
  rw [State.drains, Bool.and_eq_true, Bool.not_eq_true', List.isEmpty_eq_false_iff]
  exact and_congr_left' decide_eq_true_iff

theorem State.drainReaction_drains (drains : s.drains = true) :
    s.drainReaction = { s with freeCount := s.freeCount + 1 } ∨
      s.drainReaction = State.react { s with freeCount := s.freeCount + 1 } := by
  rw [State.drainReaction, if_pos drains]
  dsimp only
  split
  · exact .inr rfl
  · exact .inl rfl

theorem State.firingReaction_cases (s : State) :
    s.firingReaction = { s with freeCount := s.freeCount + 1 } ∨
      s.firingReaction = State.react { s with freeCount := s.freeCount + 1 } ∧
        (State.react { s with freeCount := s.freeCount + 1 }).notes = s.notes := by
  unfold State.firingReaction
  dsimp only
  split
  next kept => exact .inr ⟨rfl, beq_iff_eq.mp (Bool.and_eq_true_iff.mp kept).2⟩
  · exact .inl rfl

end

/-- Settles O50: the number names a place in the list or none, and the drain goes on while it can. -/
theorem acknowledgeRemovesAndDrains : Obligations.AcknowledgeRemovesAndDrains := by
  refine ⟨?_, fun s fuel k still => drain_stops still fuel k, fun s fuel k r rest room waiting =>
    drain_places room waiting fuel k, fun s => ?_, fun s r e => ⟨rfl, rfl⟩⟩
  · intro s n lo hi turn t
    refine ⟨fun empty => ?_, fun oldest newer list => ?_⟩
    · exact congrArg Host.Outcome.next
        (runOrder_refused (body := orderAcknowledge) turn rfl (withField_missing (NoticeList.place?_empty empty)))
    · intro k kept r
      have place : s.notes.place? (BitVec.ofNat 16 (fieldAt [lo, hi] 0 2)) =
          if k < s.notes.list.length then some k else none := by
        rw [NoticeList.place?_cons list, ofNat_word]
      refine ⟨fun absent => ?_, fun present => ?_⟩
      · exact congrArg Host.Outcome.next
          (runOrder_refused (body := orderAcknowledge) turn rfl
            (withField_missing (place.trans (if_neg (Nat.not_lt.mpr absent)))))
      · exact congrArg Host.Outcome.next
          (runOrder_done (body := orderAcknowledge) turn rfl (withField_value (place.trans (if_pos present))))
  · intro t
    refine ⟨fun room waiting => State.drainReaction_drains (State.drains_iff.mpr ⟨room, waiting⟩), fun still => ?_,
      State.firingReaction_cases s⟩
    exact if_neg fun drains => by
      obtain ⟨room, waiting⟩ := State.drains_iff.mp drains
      exact still.elim (Nat.not_le.mpr room) waiting

/-! ## CONFIGURE and RESET PART -/

theorem readLimit_some {n : Nat} (low : 1 ≤ n) : readLimit n = some n := if_pos low

theorem le1_of_byte (b : Byte) : le1 b.toNat = b := by simp [le1]

theorem le2_of_bytes (lo hi : Byte) : le2 (readLE [lo, hi]) = [lo, hi] := by
  simp only [le2, readLE, List.cons.injEq, and_true]
  constructor <;> refine BitVec.eq_of_toNat_eq ?_ <;> simp only [BitVec.toNat_ofNat] <;> omega

section
variable {s : State} {lv lo hi : Byte}

theorem orderConfigure_sets (low : 1 ≤ lv.toNat) (high : lv.toNat ≤ 6) (limit : 1 ≤ readLE [lo, hi]) :
    orderConfigure [lv, lo, hi] s =
      .answered .done ([lv, lo, hi] ++ levelAndLimit s.cfg.linkLevel s.cfg.grantLimit)
        (s.configure lv.toNat (readLE [lo, hi])) := by
  have values : levelAndLimit lv.toNat (readLE [lo, hi]) = [lv, lo, hi] := by
    rw [levelAndLimit, le1_of_byte, le2_of_bytes]
    rfl
  have sets : orderConfigure [lv, lo, hi] s =
      .answered .done
        (levelAndLimit lv.toNat (readLE [lo, hi]) ++ levelAndLimit s.cfg.linkLevel s.cfg.grantLimit)
        (s.configure lv.toNat (readLE [lo, hi])) :=
    (withField_value (if_pos ⟨low, high⟩)).trans (withField_value (readLimit_some limit))
  rwa [values] at sets

theorem orderConfigure_refuses (bad : lv.toNat = 0 ∨ 6 < lv.toNat ∨ readLE [lo, hi] = 0) :
    orderConfigure [lv, lo, hi] s = refusal .badField s := by
  rcases bad with level | level | limit
  · exact withField_missing (readLevel_eq_none.mpr (.inl level))
  · exact withField_missing (readLevel_eq_none.mpr (.inr level))
  · have zero : ¬ 1 ≤ readLE [lo, hi] := by omega
    exact withField_later fun level => withField_missing (if_neg zero)

/-- The answer of a RESET PART leaves it in hand (R178). -/
theorem State.produceAnswer_resetInHand {h : OrderInHand} (hand : s.inHand = some h) (task : h.task = .resetPart)
    (payload : List Byte) : (s.produceAnswer payload).resetInHand = true := by
  have stays : ∀ {t : State} {h' : OrderInHand}, t.inHand = some h' → h'.task = .resetPart → t.resetInHand = true :=
    fun hand task => (State.resetInHand_iff hand).mpr (.inl task)
  rcases Nat.lt_or_ge s.link.answers.length 8 with room | full
  · rw [State.produceAnswer_room payload hand room]
    exact stays (State.placeAnswer_reset task) task
  · rw [State.produceAnswer_waits payload hand full]
    exact stays rfl (if_pos task)

end

/-- Settles O53: the two operands of CONFIGURE are checked and set; a RESET PART stays in hand past its answer. -/
theorem configureAndResetPartAnswer : Obligations.ConfigureAndResetPartAnswer := by
  refine ⟨?_, fun s n turn => ?_⟩
  · intro s n lv lo hi turn t limit
    exact ⟨fun low high some => congrArg Host.Outcome.next (runOrder_done turn rfl (orderConfigure_sets (s := t) low high some)),
      fun bad => congrArg Host.Outcome.next (runOrder_refused turn rfl (orderConfigure_refuses bad))⟩
  · have resets : exec .resetPart s =
        .next (((s.carryOut n [0x0F]).hold .resetPart).produceAnswer [0x0F, 0x00]) :=
      congrArg Host.Outcome.next (runOrder_done (body := orderResetPart) turn rfl rfl)
    refine ⟨resets, fun t next => ?_⟩
    obtain rfl := Host.Outcome.next.inj (resets.symm.trans next)
    exact ⟨State.produceAnswer_resetInHand rfl rfl _, State.produceAnswer_slots _ _, State.produceAnswer_sched _ _⟩

end Sys2Proof.Machine
end
